-- ==== Sys2Proof/Word.lean ====
section
/-! DEFINITION. The word of the register port and of the command port: 32 bits (spec/00_scope.md R6 `REGW`, R9). -/

namespace Sys2Proof

/-- A 32-bit register, operand or result word (R9: unsigned, bit 0 least significant). -/
abbrev Word := BitVec 32

/-- A byte of the byte view of the register space (spec/20_memory.md R61). -/
abbrev Byte := BitVec 8

end Sys2Proof
end

