-- ==== Sys2Proof/Syntax.lean ====
section
/-! DEFINITION. The commands: one constructor per row of spec/opcode_table.json (spec/30_encoding.md R84), with the
operand words of R85 whole (R86). -/

namespace Sys2Proof

/-- One entry slot of a SEQ_BUS frame (R87): target sub-device, sub-address and data word. -/
structure Entry where
  dev : Word
  addr : Word
  data : Word
deriving DecidableEq, Repr

/-- A command with its operands. -/
inductive Instr
  /-- `RESET.FULL` (R147). -/
  | resetFull
  /-- `RESET.CLEAR` (R148). -/
  | resetClear
  /-- `CONFIGURE` (R149): flag `I`, the peak bounds `PSTART`, `PEND` if flag `P` is set, then `CFGBITS`, `OFFSET`,
  `COUNT`, `DELAY`. -/
  | configure (irq : Bool) (peak : Option (Word × Word)) (cfgbits offset count delay : Word)
  /-- `RUN_SCAN` (R151). -/
  | runScan (cfgbits offset count : Word)
  /-- `DMA_SELF_TEST` (R152). -/
  | dmaSelfTest (size : Word)
  /-- `TRIGGER_PPS` (R153). -/
  | triggerPps (value : Word)
  /-- `SEQ_BUS` (R127): `NW`, `NR` and the sixteen entry slots. -/
  | seqBus (nw nr : Word) (entries : List Entry)
  /-- `READ_STATUS` (R170). -/
  | readStatus
  /-- `DEBUG.RD` (R171): `ROFF`, and `DATA`, which is carried and ignored. -/
  | debugRd (roff data : Word)
  /-- `DEBUG.WR` (R172). -/
  | debugWr (roff data : Word)
  /-- `READ_MAX_MIN` (R175). -/
  | readMaxMin
  /-- `TAP_READ` (R177). -/
  | tapRead (devid : Word)
  /-- `TAP_WRITE` (R178): `DEVID` and the ten tap words. -/
  | tapWrite (devid : Word) (taps : List Word)
  /-- `READ_WINDOW` (R174). -/
  | readWindow (len : Word)
  /-- `COMPLETION_COUNT` (R179). -/
  | completionCount
deriving DecidableEq, Repr

end Sys2Proof
end

