-- ==== Sys2Proof/WellFormed.lean ====
section
/-! DEFINITION. Which terms of `Instr` a command frame can spell: a SEQ_BUS frame always holds sixteen slots
(spec/30_encoding.md R87) and a TAP_WRITE frame ten taps (R88); every other operand is a full word (R86). -/

namespace Sys2Proof

/-- The frame checks of R87 and R88. -/
def Instr.wellFormed : Instr → Bool
  | .seqBus _ _ entries => entries.length == 16
  | .tapWrite _ taps => taps.length == 10
  | .resetFull => true
  | .resetClear => true
  | .configure _ _ _ _ _ _ => true
  | .runScan _ _ _ => true
  | .dmaSelfTest _ => true
  | .triggerPps _ => true
  | .readStatus => true
  | .debugRd _ _ => true
  | .debugWr _ _ => true
  | .readMaxMin => true
  | .tapRead _ => true
  | .readWindow _ => true
  | .completionCount => true

end Sys2Proof
end

