-- ==== Sys2Proof/Decode.lean ====
section
/-! DEFINITION. The decoder of spec/30_encoding.md R99 (headers R81 to R84, operand words R85 to R88, illegal headers
R92, variant-absent commands R93), total on any words, and after it the encoder written from the same tables. -/

namespace Sys2Proof

/-- The header's command: the row of R84 it selects, with the flags of CONFIGURE. -/
inductive Op
  | resetFull | resetClear | configure (i p : Bool) | runScan | dmaSelfTest | triggerPps | seqBus | readStatus
  | debugRd | debugWr | readMaxMin | tapRead | tapWrite | readWindow | completionCount
deriving DecidableEq, Repr

/-- Why a header spells no command. -/
inductive DecodeError
  /-- `OP = 0` or `OP > 0x0D` (R92). -/
  | badOpcode
  /-- `RSV ≠ 0` (R83). -/
  | reservedBits
  /-- `F1` set on a command other than CONFIGURE (R83). -/
  | badFlag1
  /-- `F0` set on a command other than RESET, CONFIGURE and DEBUG (R83). -/
  | badFlag0
  /-- The variant lacks the command (R93). -/
  | variantAbsent
  /-- There is no header word, or fewer operand words than the header asks for. -/
  | shortFrame
  /-- A word of the frame was not delivered (spec/40_register_interface.md R114). -/
  | notDelivered
deriving DecidableEq, Repr

/-- `OP`, bits 7 to 0 of a header (R81). -/
def headerOp (h : Word) : Nat := (h.extractLsb' 0 8).toNat

/-- `F0`, bit 8 of a header (R81). -/
def headerF0 (h : Word) : Bool := h.getLsbD 8

/-- `F1`, bit 9 of a header (R81). -/
def headerF1 (h : Word) : Bool := h.getLsbD 9

/-- `RSV`, bits 31 to 10 of a header (R81). -/
def headerRsv (h : Word) : BitVec 22 := h.extractLsb' 10 22

/-- The row of R84 an opcode and its flags select, `none` for an opcode outside 0x01 to 0x0D. -/
def selectOp (op : Nat) (f0 f1 : Bool) : Option Op :=
  match op with
  | 0x01 => some (if f0 then .resetFull else .resetClear)
  | 0x02 => some (.configure f0 f1)
  | 0x03 => some .runScan
  | 0x04 => some .dmaSelfTest
  | 0x05 => some .triggerPps
  | 0x06 => some .seqBus
  | 0x07 => some .readStatus
  | 0x08 => some (if f0 then .debugWr else .debugRd)
  | 0x09 => some .readMaxMin
  | 0x0A => some .tapRead
  | 0x0B => some .tapWrite
  | 0x0C => some .readWindow
  | 0x0D => some .completionCount
  | _ => none

/-- Is `F0` a flag of this command (R82)? -/
def Op.takesF0 : Op → Bool
  | .resetFull | .resetClear | .configure _ _ | .debugRd | .debugWr => true
  | _ => false

/-- Is `F1` a flag of this command (R82)? -/
def Op.takesF1 : Op → Bool
  | .configure _ _ => true
  | _ => false

/-- Does the variant have the command (R93)? -/
def Op.present (hasMaxMin hasTapCal : Bool) : Op → Bool
  | .readMaxMin => hasMaxMin
  | .tapRead | .tapWrite => hasTapCal
  | _ => true

/-- The header part of R99. -/
def decodeHeader (hasMaxMin hasTapCal : Bool) (h : Word) : Except DecodeError Op :=
  match selectOp (headerOp h) (headerF0 h) (headerF1 h) with
  | none => .error .badOpcode
  | some op =>
    if headerRsv h ≠ 0 then .error .reservedBits
    else if headerF1 h && !op.takesF1 then .error .badFlag1
    else if headerF0 h && !op.takesF0 then .error .badFlag0
    else if !op.present hasMaxMin hasTapCal then .error .variantAbsent
    else .ok op

/-- The operand word count `n` of R84. -/
def Op.operandCount : Op → Nat
  | .resetFull | .resetClear | .readStatus | .readMaxMin | .completionCount => 0
  | .configure _ p => if p then 6 else 4
  | .runScan => 3
  | .dmaSelfTest | .triggerPps | .tapRead | .readWindow => 1
  | .seqBus => 50
  | .debugRd | .debugWr => 2
  | .tapWrite => 11

/-- The command of a header and its latched operand words, in the order of R85, R87 and R88. -/
def Op.assemble (op : Op) (ws : List Word) : Instr :=
  let w := fun k => ws.getD k 0
  match op with
  | .resetFull => .resetFull
  | .resetClear => .resetClear
  | .configure i p => .configure i (if p then some (w 4, w 5) else none) (w 0) (w 1) (w 2) (w 3)
  | .runScan => .runScan (w 0) (w 1) (w 2)
  | .dmaSelfTest => .dmaSelfTest (w 0)
  | .triggerPps => .triggerPps (w 0)
  | .seqBus => .seqBus (w 0) (w 1) ((List.range 16).map fun k => ⟨w (2 + 3 * k), w (3 + 3 * k), w (4 + 3 * k)⟩)
  | .readStatus => .readStatus
  | .debugRd => .debugRd (w 0) (w 1)
  | .debugWr => .debugWr (w 0) (w 1)
  | .readMaxMin => .readMaxMin
  | .tapRead => .tapRead (w 0)
  | .tapWrite => .tapWrite (w 0) ((List.range 10).map fun k => w (1 + k))
  | .readWindow => .readWindow (w 0)
  | .completionCount => .completionCount

/-- What the latch of spec/40_register_interface.md R104 step 2 meets at the port: `n` delivered words and what stands
behind them, a word that HOST failed to deliver (R114) and what stands behind it, or a frame not yet whole. -/
inductive Latched
  | words (ws : List Word) (rest : List (Option Word))
  | failed (rest : List (Option Word))
  | short
deriving DecidableEq, Repr

/-- Latch `n` operand words (R105). -/
def latch : Nat → List (Option Word) → Latched
  | 0, port => .words [] port
  | _ + 1, [] => .short
  | _ + 1, none :: rest => .failed rest
  | n + 1, some w :: rest =>
    match latch n rest with
    | .words ws r => .words (w :: ws) r
    | .failed r => .failed r
    | .short => .short

/-- What stands at the port, as CMD's acceptance reads it (R99, R104). -/
inductive Fetched
  /-- No word. -/
  | nothing
  /-- A header slot whose word was not delivered. -/
  | noHeader (rest : List (Option Word))
  /-- A header that spells no command of this variant: one word long (R95). -/
  | illegal (why : DecodeError) (h : Word) (rest : List (Option Word))
  /-- A command whose operand words have not all been sent yet. -/
  | incomplete (h : Word)
  /-- A command with an operand word that HOST failed to deliver. -/
  | copyFailed (h : Word) (rest : List (Option Word))
  /-- A whole command, and what stands behind it. -/
  | command (i : Instr) (rest : List (Option Word))
deriving DecidableEq, Repr

/-- The decoder of R99 on the words at the port. -/
def decodeFrame (hasMaxMin hasTapCal : Bool) : List (Option Word) → Fetched
  | [] => .nothing
  | none :: rest => .noHeader rest
  | some h :: rest =>
    match decodeHeader hasMaxMin hasTapCal h with
    | .error why => .illegal why h rest
    | .ok op =>
      match latch op.operandCount rest with
      | .short => .incomplete h
      | .failed r => .copyFailed h r
      | .words ws r => .command (op.assemble ws) r

/-- The decoder on delivered words alone: the command and the words behind it, or why there is none. -/
def decode (hasMaxMin hasTapCal : Bool) (ws : List Word) : Except DecodeError (Instr × List (Option Word)) :=
  match decodeFrame hasMaxMin hasTapCal (ws.map some) with
  | .nothing => .error .shortFrame
  | .noHeader _ => .error .notDelivered
  | .illegal why _ _ => .error why
  | .incomplete _ => .error .shortFrame
  | .copyFailed _ _ => .error .notDelivered
  | .command i rest => .ok (i, rest)

/-- The longest frame: 51 words (R80). -/
def maxFrame : Nat := 51

/-- Word `k` of a number whose bit 0 is bit 0 of the header. -/
def wordOf (w k : Nat) : Word := BitVec.ofNat 32 (w >>> (32 * k))

/-- The words of the longest frame, from a number of `nbits` bits, every higher bit 0. -/
def tableWords (nbits w : Nat) : List Word := (List.range maxFrame).map (wordOf (w % 2 ^ nbits))

/-- The frame length of R95: 1 for an illegal or variant-absent header, else `1 + n`. -/
def frameLength (hasMaxMin hasTapCal : Bool) (h : Word) : Nat :=
  match decodeHeader hasMaxMin hasTapCal h with
  | .error _ => 1
  | .ok op => 1 + op.operandCount

/-- The words of one whole frame, from a number as above. -/
def tableFrame (hasMaxMin hasTapCal : Bool) (nbits w : Nat) : List Word :=
  (tableWords nbits w).take (frameLength hasMaxMin hasTapCal (wordOf (w % 2 ^ nbits) 0))

/-- The command the decoder reads from an instruction whose bits are `w`, for a variant that has every command. -/
def decodeTableWord (nbits w : Nat) : Option Instr :=
  match decode true true (tableFrame true true nbits w) with
  | .ok (i, _) => some i
  | .error _ => none

/-! The encoder. -/

/-- The header's command of an instruction. -/
def Instr.op : Instr → Op
  | .resetFull => .resetFull
  | .resetClear => .resetClear
  | .configure i peak _ _ _ _ => .configure i peak.isSome
  | .runScan _ _ _ => .runScan
  | .dmaSelfTest _ => .dmaSelfTest
  | .triggerPps _ => .triggerPps
  | .seqBus _ _ _ => .seqBus
  | .readStatus => .readStatus
  | .debugRd _ _ => .debugRd
  | .debugWr _ _ => .debugWr
  | .readMaxMin => .readMaxMin
  | .tapRead _ => .tapRead
  | .tapWrite _ _ => .tapWrite
  | .readWindow _ => .readWindow
  | .completionCount => .completionCount

/-- The header word of a command: `OP`, `F0`, `F1` of R84, the reserved bits 0. -/
def Op.header : Op → Word
  | .resetFull => 0x101
  | .resetClear => 0x001
  | .configure i p => 0x002 ||| (if i then 0x100 else 0) ||| (if p then 0x200 else 0)
  | .runScan => 0x003
  | .dmaSelfTest => 0x004
  | .triggerPps => 0x005
  | .seqBus => 0x006
  | .readStatus => 0x007
  | .debugRd => 0x008
  | .debugWr => 0x108
  | .readMaxMin => 0x009
  | .tapRead => 0x00A
  | .tapWrite => 0x00B
  | .readWindow => 0x00C
  | .completionCount => 0x00D

/-- The header word of an instruction. -/
def Instr.header (i : Instr) : Word := i.op.header

/-- The operand words of an instruction, in the order of R85. -/
def Instr.operands : Instr → List Word
  | .configure _ none cfgbits offset count delay => [cfgbits, offset, count, delay]
  | .configure _ (some (ps, pe)) cfgbits offset count delay => [cfgbits, offset, count, delay, ps, pe]
  | .runScan cfgbits offset count => [cfgbits, offset, count]
  | .dmaSelfTest size => [size]
  | .triggerPps value => [value]
  | .seqBus nw nr entries => nw :: nr :: entries.flatMap fun e => [e.dev, e.addr, e.data]
  | .debugRd roff data => [roff, data]
  | .debugWr roff data => [roff, data]
  | .tapRead devid => [devid]
  | .tapWrite devid taps => devid :: taps
  | .readWindow len => [len]
  | .resetFull => []
  | .resetClear => []
  | .readStatus => []
  | .readMaxMin => []
  | .completionCount => []

/-- The words of an instruction (R80). -/
def encode (i : Instr) : List Word := i.header :: i.operands

end Sys2Proof
end

