-- ==== Sys2Proof/Config.lean ====
section
/-! DEFINITION. The implementation parameters of spec/00_scope.md R6 as one record of plain data, the names of the
registers (spec/10_state.md R33), and the one opaque source of free values (draws, spec/60_exceptions.md R229). -/

namespace Sys2Proof

/-- The registers of R33. `fifoWin o` is the word at byte `o` of the capture FIFO window (R53) and `unassigned o` an
offset that names no register (R54). -/
inductive Reg
  | dmaWrAddr | dmaRdAddr | dmaSize | captureCount | delayCount | modeConfig | intCtrl | peakStart | peakEnd
  | spiData | spiDevice | spiAddress | spiResult | status | tapLoad
  | maxMin (i : Nat) | tap0 (d : Nat) | tap1 (d : Nat) | spiLane (d : Nat)
  | fifoWin (o : Nat) | unassigned (o : Nat)
deriving DecidableEq, Repr

/-- The per-variant offset table `RegOff` (R6, R33): one byte offset per register, lists for the indexed ones. -/
structure RegTable where
  dmaWrAddr : Nat
  dmaRdAddr : Nat
  dmaSize : Nat
  captureCount : Nat
  delayCount : Nat
  modeConfig : Nat
  intCtrl : Nat
  peakStart : Nat
  peakEnd : Nat
  spiData : Nat
  spiDevice : Nat
  spiAddress : Nat
  spiResult : Nat
  status : Nat
  tapLoad : Nat
  maxMin : List Nat
  tap0 : List Nat
  tap1 : List Nat
  spiLane : List Nat
  fifoWin : Nat
deriving DecidableEq, Repr

/-- What a poll that reaches its ceiling does (R6 `TIMEOUT_POLICY`). -/
inductive TimeoutPolicy
  | proceed
  | fail
deriving DecidableEq, Repr

/-- How a bus entry is framed (R6 `LANE_MODE`). -/
inductive LaneMode
  | single
  | composite
deriving DecidableEq, Repr

/-- The configuration record of R6. Fields of CFG and STATUS are held as their masks (R12). The fixed parameters
`REGW = 32` and `BATCH_MAX = 16` are in the types and in `batchMax`; `TAP_SETTLE` has no value (log 26). -/
structure Params where
  regOff : RegTable
  regSpace : Nat
  sampleWidth : Nat
  bufBase : Nat
  bufLen : Nat
  testData : Word
  debugMode : Word
  activeCh : Word
  signedData : Word
  resetFlag : Word
  dmaTrigger : Word
  ppsGen : Word
  ppsTrig : Word
  confMask : Word
  rsMask : Word
  ppsMask : Word
  spiBusy : Word
  errorBit : Word
  dmaDone : Word
  modeEcho : Word
  intEnable : Word
  intDisable : Word
  intClear : Word
  spinBus : Nat
  spinDma : Nat
  timeoutPolicy : TimeoutPolicy
  laneMode : LaneMode
  devW : Nat
  addrW : Nat
  dataW : Nat
  dirBit : Nat
  readbackMask : Word
  peakSent : Word
  readMax : Nat
  chunk : Nat
  fifoWinLen : Nat
  nch : Nat
  mmValW : Nat
  mmLocW : Nat
  ntaps : Nat
  tapDevMax : Nat
  hasMaxMin : Bool
  hasTapCal : Bool
  icountW : Nat
  storageReadBack : Bool
deriving DecidableEq, Repr

/-- `BATCH_MAX`, fixed at 16 by the source (R6). -/
abbrev batchMax : Nat := 16

/-- The `n`-th free value of a run: a draw under no law (R229; log 7). It has no body, so nothing can be proved of it.
-/
opaque Config.freeWord : Nat → Word

end Sys2Proof
end

