-- ==== Sys2Proof/Machine/RegMap.lean ====
section
/-! DEFINITION. The register map (spec/10_state.md R33, R34, R54): offsets, kinds, which register an offset names; the
fixed relations between parameters (spec/00_scope.md R7); and the reference configuration REF (R6, R33, R36, R40). -/

namespace Sys2Proof

/-- `RegOff` of a register (R33); the window and the unassigned offsets are their own byte offsets. -/
def Params.off (p : Params) : Reg → Nat
  | .dmaWrAddr => p.regOff.dmaWrAddr
  | .dmaRdAddr => p.regOff.dmaRdAddr
  | .dmaSize => p.regOff.dmaSize
  | .captureCount => p.regOff.captureCount
  | .delayCount => p.regOff.delayCount
  | .modeConfig => p.regOff.modeConfig
  | .intCtrl => p.regOff.intCtrl
  | .peakStart => p.regOff.peakStart
  | .peakEnd => p.regOff.peakEnd
  | .spiData => p.regOff.spiData
  | .spiDevice => p.regOff.spiDevice
  | .spiAddress => p.regOff.spiAddress
  | .spiResult => p.regOff.spiResult
  | .status => p.regOff.status
  | .tapLoad => p.regOff.tapLoad
  | .maxMin i => p.regOff.maxMin.getD i 0
  | .tap0 d => p.regOff.tap0.getD d 0
  | .tap1 d => p.regOff.tap1.getD d 0
  | .spiLane d => p.regOff.spiLane.getD d 0
  | .fifoWin o => p.regOff.fifoWin + o
  | .unassigned o => o

/-- The kinds of R34. -/
inductive Kind
  | storage
  | cycleStart
  | command
  | strobe
  | deviceDriven
  | unassigned
deriving DecidableEq, Repr

/-- The kind column of R33. -/
def Reg.kind : Reg → Kind
  | .dmaWrAddr | .dmaRdAddr | .dmaSize | .captureCount | .delayCount | .modeConfig => .storage
  | .peakStart | .peakEnd | .spiDevice | .spiAddress | .tap0 _ | .tap1 _ => .storage
  | .intCtrl => .command
  | .spiData | .spiLane _ => .cycleStart
  | .spiResult | .status | .maxMin _ | .fifoWin _ => .deviceDriven
  | .tapLoad => .strobe
  | .unassigned _ => .unassigned

/-- The registers every variant has (R33). -/
def baseRegs : List Reg :=
  [.dmaWrAddr, .dmaRdAddr, .dmaSize, .captureCount, .delayCount, .modeConfig, .intCtrl, .peakStart, .peakEnd,
   .spiData, .spiDevice, .spiAddress, .spiResult, .status, .tapLoad]

/-- The registers of a variant, without the window: the max/min and tap registers exist only with HAS_MAXMIN and
HAS_TAPCAL, the lanes only in COMPOSITE mode (R33; log 14). -/
def Params.registers (p : Params) : List Reg :=
  baseRegs
    ++ (if p.hasMaxMin then (List.range 12).map .maxMin else [])
    ++ (if p.hasTapCal then (List.range p.tapDevMax).map .tap0 ++ (List.range p.tapDevMax).map .tap1 else [])
    ++ (if p.laneMode = .composite then (List.range (2 ^ p.devW)).map .spiLane else [])

/-- Is the offset inside the capture FIFO window (R53)? -/
def Params.inWindow (p : Params) (off : Nat) : Bool :=
  p.regOff.fifoWin ≤ off && off < p.regOff.fifoWin + p.fifoWinLen

/-- The register at an offset: one of R33, a word of the window, or an unassigned offset (R54). Where a variant gives
SPI_RESULT the offset of SPI_DATA (R49) the offset names SPI_DATA, the earlier of the list (log 13). -/
def Params.regAt (p : Params) (off : Nat) : Reg :=
  match p.registers.find? (fun r => p.off r == off) with
  | some r => r
  | none => if p.inWindow off then .fifoWin (off - p.regOff.fifoWin) else .unassigned off

/-- May the caller's offset be used at all: a multiple of 4 below REG_SPACE (spec/20_memory.md R63)? -/
def Params.goodOffset (p : Params) (off : Nat) : Bool := off % 4 == 0 && off < p.regSpace

/-- A mask inside another (R7 `RS_MASK ⊆ CONF_MASK`). -/
def maskWithin (a b : Word) : Bool := a &&& b == a

/-- Two registers of the list may share an offset only as SPI_DATA and SPI_RESULT (R7, R49). -/
def Params.mayShare (p : Params) (a b : Reg) : Bool :=
  p.off a != p.off b || (a == .spiData && b == .spiResult)

/-- Every register of the list against every later one. -/
def Params.offsetsDistinct (p : Params) : List Reg → Bool
  | [] => true
  | r :: rs => rs.all (p.mayShare r) && p.offsetsDistinct rs

/-- The indexed offset lists hold an entry for each register that exists (log 3). -/
def Params.tableWhole (p : Params) : Bool :=
  (!p.hasMaxMin || p.regOff.maxMin.length == 12)
    && (!p.hasTapCal || (p.regOff.tap0.length == p.tapDevMax && p.regOff.tap1.length == p.tapDevMax))
    && (p.laneMode != .composite || p.regOff.spiLane.length == 2 ^ p.devW)

/-- Every offset is a multiple of 4 below REG_SPACE, the offsets differ, and the FIFO window overlaps no register
(R7). R7 bounds the window's base alone: a window that runs past REG_SPACE is admitted (DESIGN CHOICE, log 34). -/
def Params.mapValid (p : Params) : Bool :=
  p.tableWhole
    && p.registers.all (fun r => p.goodOffset (p.off r))
    && p.offsetsDistinct p.registers
    && p.registers.all (fun r => !p.inWindow (p.off r))
    && p.goodOffset p.regOff.fifoWin

/-- The width relations of R7. -/
def Params.widthsValid (p : Params) : Bool :=
  1 ≤ p.devW && 1 ≤ p.addrW && 1 ≤ p.dataW && p.devW ≤ 32 && p.dirBit < 32
    && (if p.laneMode = .composite then p.addrW + p.dataW ≤ p.dirBit else p.addrW ≤ p.dirBit)

/-- The fixed relations of R7, with the relations its rules need and it leaves unsaid (log 3): the direction bit lies
in the 32-bit word, BUF_LEN < 2^32 (spec/42_capture_dma.md R142), the three INT_CTRL values differ, the counter fits
its 32-bit register, and the offset table has an entry for every register. Of the masks only RS_MASK within CONF_MASK
is asked. No relation ties PPS_MASK to PPS_GEN and PPS_TRIG, or asks a flag to be one bit, though R6, R153 and
spec/10_state.md R38 speak so. None keeps RS_MASK to the test-data and debug-mode bits, or the RESET and DMA_TRIGGER
bits inside CONF_MASK and outside RS_MASK, though R6, R38, R151, spec/70_reset_and_hazards.md R260 and D6 speak so. R7
lists no such relation (DESIGN CHOICE, log 39). -/
def Params.valid (p : Params) : Bool :=
  (p.sampleWidth == 2 || p.sampleWidth == 4 || p.sampleWidth == 6 || p.sampleWidth == 8)
    && p.bufBase + p.bufLen ≤ 2 ^ 32 && p.bufLen < 2 ^ 32
    && 1 ≤ p.spinBus && 1 ≤ p.spinDma
    && p.widthsValid
    && p.ntaps ≤ 10 && p.tapDevMax ≤ 32 && 1 ≤ p.tapDevMax
    && p.chunk % 4 == 0 && 4 ≤ p.chunk && p.chunk ≤ p.fifoWinLen
    && maskWithin p.rsMask p.confMask
    && (p.nch == 1 || p.nch == 2 || p.nch == 3)
    && p.intEnable != p.intDisable && p.intEnable != p.intClear && p.intDisable != p.intClear
    && 1 ≤ p.icountW && p.icountW ≤ 32
    && p.mapValid

/-- The offsets of the REF column of R33. -/
def RegTable.ref : RegTable where
  dmaWrAddr := 0x000
  dmaRdAddr := 0x004
  dmaSize := 0x008
  captureCount := 0x00C
  delayCount := 0x010
  modeConfig := 0x014
  intCtrl := 0x018
  peakStart := 0x01C
  peakEnd := 0x020
  spiData := 0x024
  spiDevice := 0x028
  spiAddress := 0x02C
  spiResult := 0x030
  status := 0x034
  tapLoad := 0x038
  maxMin := (List.range 12).map fun i => 0x040 + 4 * i
  tap0 := (List.range 8).map fun d => 0x080 + 8 * d
  tap1 := (List.range 8).map fun d => 0x084 + 8 * d
  spiLane := (List.range 8).map fun d => 0x0C0 + 4 * d
  fifoWin := 0x1000

/-- The reference configuration REF of R6 (log 1). -/
def Params.ref : Params where
  regOff := RegTable.ref
  regSpace := 0x2000
  sampleWidth := 4
  bufBase := 0x10000000
  bufLen := 0x01000000
  testData := 0x001
  debugMode := 0x00E
  activeCh := 0x010
  signedData := 0x020
  resetFlag := 0x040
  dmaTrigger := 0x080
  ppsGen := 0x100
  ppsTrig := 0x200
  confMask := 0x0FF
  rsMask := 0x00F
  ppsMask := 0x300
  spiBusy := 0x0001
  errorBit := 0x0002
  dmaDone := 0x0004
  modeEcho := 0xFF00
  intEnable := 1
  intDisable := 2
  intClear := 3
  spinBus := 1000
  spinDma := 1000
  timeoutPolicy := .proceed
  laneMode := .single
  devW := 3
  addrW := 8
  dataW := 8
  dirBit := 31
  readbackMask := 0x000000FF
  peakSent := 0x0000FFFF
  readMax := 0x1000
  chunk := 0x400
  fifoWinLen := 0x1000
  nch := 3
  mmValW := 16
  mmLocW := 24
  ntaps := 10
  tapDevMax := 8
  hasMaxMin := true
  hasTapCal := true
  icountW := 32
  storageReadBack := true

end Sys2Proof
end

