-- ==== Sys2Proof/Machine/State.lean ====
section
/-! DEFINITION. The machine's state as plain data (spec/10_state.md R20 to R30, R56), the reasons a step can stop
(spec/60_exceptions.md R209, R233), and the state right after reset, that is after a successful attach (R56). -/

namespace Sys2Proof.Machine

/-- The register space as the bytes written since attach, addresses strictly rising. A byte that is not listed was not
written: a read of its register is a draw (R34, R103; log 11). -/
abbrev Memory := List Host.Cell

/-- The four agents (spec/00_scope.md R3). -/
inductive Agent
  | cmd | irq | dev | host
deriving DecidableEq, Repr

/-- `BLOCK` (R23). -/
inductive BusLock
  | free | held
deriving DecidableEq, Repr

/-- `ILOCK` (R24). -/
inductive IntLock
  | free | cmd | irq
deriving DecidableEq, Repr

/-- `irq_phase` (R29). -/
inductive IrqPhase
  | idle | entered | cleared | counted | disabled
deriving DecidableEq, Repr

/-- The result codes (spec/30_encoding.md R90). -/
inductive Code
  | ok | einval | etimeout | eillegal | ecopy | enomem
deriving DecidableEq, Repr

/-- The direction of a bus batch or cycle (spec/41_seqbus.md R122). -/
inductive Dir
  | write | read
deriving DecidableEq, Repr

/-- Where a poll stands (R204): before or after the cycle of entry `k`, or in the self-test. -/
inductive Where
  | pre (k : Nat) | post (k : Nat) | selfTest
deriving DecidableEq, Repr

/-- What a poll waits for in a STATUS word: the bus idle (R120) or the DMA-done bit (R152). -/
inductive Pred
  | busIdle | dmaDone
deriving DecidableEq, Repr

/-- The two settle delays of TAP_WRITE (spec/43_session.md R178). -/
inductive DelayTag
  | settleBefore | settleAfter
deriving DecidableEq, Repr

/-- A micro-operation: one atomic step of CMD (spec/00_scope.md R11, spec/40_register_interface.md R101), but for
`poll`, which takes one step per STATUS read (R25). -/
inductive Micro
  /-- `RegWrite(r, v)` (R102). -/
  | write (r : Reg) (v : Word)
  /-- `WriteCfg(v)`, a raw overwrite (R141, R147). -/
  | overwriteCfg (v : Word)
  /-- `WriteCfg(merge(CFG, m, mask))` (R140, R141). -/
  | mergeCfg (m mask : Word)
  /-- `v <- RegRead(r)` (R103), and `v & mask` is kept among the values read. -/
  | read (r : Reg) (mask : Word)
  /-- `Emit` of the `i`-th value read. -/
  | emit (i : Nat)
  /-- `Emit` of tap `i` unpacked from the first two values read (R176, R177). -/
  | emitTap (i : Nat)
  /-- `v <- ICOUNT ; Emit(v)` (R179). -/
  | emitCount
  /-- `AcquireI` (spec/20_memory.md R75). -/
  | acquireI
  /-- `ReleaseI` (R75). -/
  | releaseI
  /-- `Delay(tag)` (R112). -/
  | delay (tag : DelayTag)
  /-- `Wait(place, pred, n)` (R121): a spin of at most `n` reads; if `giveUp`, the FAIL path ends the command at once
  (R127), else it only sets the code (R152). -/
  | poll (place : Where) (pred : Pred) (n : Nat) (giveUp : Bool)
deriving DecidableEq, Repr

/-- `seq` (R25): idle, or running a latched command, `k` its next micro-operation. It leaves `idle` at step 4 of R104
alone (spec/40_register_interface.md R104): a command turned away before that leaves it there. -/
inductive Seq
  | idle
  | run (cmd : Instr) (k : Nat)
deriving DecidableEq, Repr

/-- One event of the history (R30). -/
inductive Event
  /-- A register read transaction and its value. -/
  | read (a : Agent) (off : Nat) (v : Word)
  /-- A register write transaction. -/
  | write (a : Agent) (off : Nat) (v : Word)
  /-- A bus cycle start (R124, R125). -/
  | busCycle (dev addr data : Word) (dir : Dir)
  /-- A poll that reached its ceiling (R121). -/
  | bwe (place : Where)
  /-- A delay (R112). -/
  | delay (tag : DelayTag)
  /-- A device completion (R228). -/
  | complete
  /-- Handler entry (R214 step 1). -/
  | handlerEntry
  /-- Handler exit (R214 step 5). -/
  | handlerExit
  /-- Command acceptance, with its header (R113). -/
  | accept (header : Word)
  /-- Command result: code and number of result words (R113). -/
  | result (code : Code) (n : Nat)
  /-- ATTACH and its result (spec/70_reset_and_hazards.md R240, R241). -/
  | attach (code : Code)
  /-- OPEN, and whether it was taken (R244). -/
  | opened (taken : Bool)
  /-- CLOSE (R244). -/
  | closed
  /-- DETACH (R245). -/
  | detached
deriving DecidableEq, Repr

/-- What HOST may do (R231). -/
inductive HostEvent
  /-- ATTACH with a configuration, and whether the buffer allocation succeeds (R240, R241). -/
  | attach (p : Params) (allocated : Bool)
  /-- OPEN (R244). -/
  | openSession
  /-- CLOSE (R244). -/
  | closeSession
  /-- DETACH (R245). -/
  | detach
  /-- Submit words at the command port; `none` is a word HOST fails to deliver (R114). -/
  | submit (words : List (Option Word))
  /-- Refuse the next result words (R114). -/
  | refuseResult
deriving DecidableEq, Repr

/-- One turn of the schedule: the agent that steps next (R222; log 5). -/
inductive Turn
  | cmd
  | irq
  | dev
  | host (e : HostEvent)
deriving DecidableEq, Repr

/-- The machine. -/
structure State where
  /-- The configuration bound at attach (spec/00_scope.md R6 to R8; log 2). -/
  params : Params
  /-- `ATTACHED` (R27). -/
  attached : Bool
  /-- `OPEN` (R26). -/
  isOpen : Bool
  /-- The interrupt line is registered (R213, R240 step 4, R245 step 1). -/
  lineReg : Bool
  /-- The capture buffer is held (R146, R240 step 2, R245 step 2). -/
  bufAlloc : Bool
  /-- `CFG` (R21). -/
  cfg : Word
  /-- `ICOUNT` (R22). -/
  icount : Word
  /-- `BLOCK` (R23). -/
  blk : BusLock
  /-- `ILOCK` (R24). -/
  ilock : IntLock
  /-- `seq` (R25), with the latched operands (R105). -/
  seq : Seq
  /-- The rest of the micro-program under way (R25). -/
  todo : List Micro
  /-- The values read so far by the command under way (R20). -/
  vals : List Word
  /-- The words emitted so far (R106). -/
  emitted : List Word
  /-- The result code so far (R152). While `seq` is idle and BLOCK held it is the code of a command turned away, whose
  result is still to come (R104; log 38). -/
  code : Code
  /-- The reads made so far in the poll under way (R20, R120). -/
  spins : Nat
  /-- `irq_phase` (R29). -/
  irqPhase : IrqPhase
  /-- `dev.INT_EN` (R43). -/
  intEn : Bool
  /-- `dev.INT_PEND` (R43). -/
  intPend : Bool
  /-- `dev.store` (R34). -/
  regs : Memory
  /-- Words waiting at the command port (spec/20_memory.md R57). -/
  port : List (Option Word)
  /-- Result words sent to HOST (R57, R106). -/
  portOut : List Word
  /-- The event history, oldest first (R30). -/
  hist : List Event
  /-- The model's own: turns still to come (log 5). -/
  sched : List Turn
  /-- The model's own: values fixed for the next draws (R229; log 7). -/
  draws : List Word
  /-- The model's own: how many free values were used (log 7). -/
  freeIx : Nat
  /-- The model's own: HOST refuses the next result words (R114; log 24). -/
  refuseOut : Bool
deriving DecidableEq, Repr

/-- Why the machine stops with a FAULT (R209, R233). -/
inductive Fault
  /-- A register transaction with ATTACHED = 0 (R109), raised by `regRead` and `regWrite`. Safe: the spec names it. -/
  | registerBlockRevoked
  /-- DEBUG.RD or DEBUG.WR with a misaligned offset or one beyond the register space (R171, R172). Safe: the spec
  names it. -/
  | badRegOffset (off : Nat)
  /-- DETACH while `seq` or `irq_phase` is not idle (R245), raised by `hostStep`. Safe: the spec names it. -/
  | detachInFlight
  /-- The outcome Stuck of R209: detached with no host event left, raised by `step`; and a wait on ILOCK that no agent
  can lift, raised by `interleave`, which no reachable state meets (R76; log 20). Safe: the machine stops. -/
  | stuck
deriving DecidableEq, Repr

/-- Why the machine ends REFUSED (R209, R233). -/
inductive Refusal
  /-- An instruction without a meaning in `exec`; no arm answers it. Safe. -/
  | notModelled (mnemonic : String)
  /-- DEBUG.WR of a device-driven, window or unassigned offset (R172), raised by `regWrite` and the validation of
  DEBUG.WR. Safe: the spec names it. -/
  | writeToReadOnly (off : Nat)
  /-- DEBUG.WR of INT_CTRL with a value that is none of the three commands (R172). Safe: the spec names it. -/
  | badIntCtrlValue (v : Word)
  /-- READ_WINDOW with a length that is not a multiple of 4 (R174). Safe: the spec names it. -/
  | unalignedWindowLength (len : Word)
  /-- ATTACH with a configuration that breaks the relations of R7, which "a model refuses" (log 19). Safe. -/
  | badConfiguration
deriving DecidableEq, Repr

/-- The machine right after reset: the state a successful attach with REF leaves (R56, R242; log 1). -/
def State.reset : State where
  params := Params.ref
  attached := true
  isOpen := false
  lineReg := true
  bufAlloc := true
  cfg := 0
  icount := 0
  blk := .free
  ilock := .free
  seq := .idle
  todo := []
  vals := []
  emitted := []
  code := .ok
  spins := 0
  irqPhase := .idle
  intEn := false
  intPend := false
  regs := [(0x14, 0), (0x15, 0), (0x16, 0), (0x17, 0)]
  port := []
  portOut := []
  hist := [.write .host 0x14 0, .write .host 0x18 2, .write .host 0x18 3, .attach .ok]
  sched := []
  draws := []
  freeIx := 0
  refuseOut := false

end Sys2Proof.Machine
end

