-- ==== Sys2Proof/Machine/Flags.lean ====
section
/-! DEFINITION. The core's flags (spec/10_state.md R55): the masked merge of CFG (R140), its named fields (R36, R37),
the STATUS predicates (R40, R120, R152), the interrupt bits and the state machine derived from them (R42 to R44), the
completion counter (R22), and the result header (spec/30_encoding.md R89, R90). -/

namespace Sys2Proof.Machine

/-- The masked merge (R140): bits inside the mask from `m`, the others kept. -/
def merge (state m mask : Word) : Word := (state &&& ~~~mask) ||| (m &&& mask)

/-- A field of CFG, STATUS or any word, as the bits under its mask (R12). -/
def fieldOf (v mask : Word) : Word := v &&& mask

/-- Is any bit of the field set? -/
def flagSet (v mask : Word) : Bool := fieldOf v mask != 0

/-- The debug-mode selects of R37. -/
inductive DebugSelect
  | none | channel0 | channel1 | channel2 | off | reserved
deriving DecidableEq, Repr

/-- The code of a debug-mode select in the REF layout, bits 3 to 1 of CFG (R36, R37): 5 to 7 are reserved. -/
def debugSelect (cfg : Word) : DebugSelect :=
  match (cfg.extractLsb' 1 3).toNat with
  | 0 => .none
  | 1 => .channel0
  | 2 => .channel1
  | 3 => .channel2
  | 4 => .off
  | _ => .reserved

/-- What a poll waits for (R120 `idle`, R152 `done`). -/
def pollReady (p : Params) : Pred → Word → Bool
  | .busIdle, v => !flagSet v p.spiBusy
  | .dmaDone, v => flagSet v p.dmaDone

/-- `LINE = INT_EN ∧ INT_PEND` (R43). -/
def State.line (s : State) : Bool := s.intEn && s.intPend

/-- The interrupt states of R44. -/
inductive IrqState
  | disabled | armed | signaled
deriving DecidableEq, Repr

/-- The interrupt state as a function of the device bits (R44). -/
def State.irqState (s : State) : IrqState :=
  if s.intEn then (if s.intPend then .signaled else .armed) else .disabled

/-- What a read of INT_CTRL returns (R42): pending in bit 1, enable in bit 0. -/
def State.intCtrlWord (s : State) : Word :=
  ((if s.intPend then 1 else 0) <<< 1) ||| (if s.intEn then 1 else 0)

/-- Is the value one of the three commands of INT_CTRL (R41)? -/
def isIntCommand (p : Params) (v : Word) : Bool := v == p.intEnable || v == p.intDisable || v == p.intClear

/-- The next count, `(ICOUNT + 1) mod 2^ICOUNT_W` (R214 step 3). -/
def countNext (p : Params) (c : Word) : Word := BitVec.ofNat 32 ((c.toNat + 1) % 2 ^ p.icountW)

/-- The code values of R90. -/
def Code.value : Code → Word
  | .ok => 0
  | .einval => 1
  | .etimeout => 2
  | .eillegal => 3
  | .ecopy => 4
  | .enomem => 5

/-- The result header of R89: the code in bits 7 to 0, the count `n` in bits 31 to 16. -/
def resultHeader (c : Code) (n : BitVec 16) : Word := c.value ||| (n.zeroExtend 32 <<< 16)

end Sys2Proof.Machine
end

