-- ==== Sys2Proof/Machine/Operands.lean ====
section
/-! DEFINITION. Every operand form: the checks that yield EINVAL (spec/60_exceptions.md R201), the checks that stop
(spec/43_session.md R171, R172, R174), and the values computed from operands: transfer size, buffer address, peak
clamp (spec/42_capture_dma.md R142 to R145), bus words (spec/41_seqbus.md R122 to R125), window offsets (R174) and
tap packing (R176). -/

namespace Sys2Proof.Machine

/-- `size(C) = C * W` (R142), exact. -/
def transferBytes (p : Params) (count : Word) : Nat := count.toNat * p.sampleWidth

/-- `size(C)` as the word written to DMA_SIZE (R142). -/
def transferSize (p : Params) (count : Word) : Word := BitVec.ofNat 32 (transferBytes p count)

/-- The capacity check of R143, in exact arithmetic. -/
def overCapacity (p : Params) (offset count : Word) : Bool :=
  decide (offset.toNat + transferBytes p count > p.bufLen)

/-- `addr(off) = (BUF_BASE + off) mod 2^32` (R145). -/
def dmaAddr (p : Params) (offset : Word) : Word := BitVec.ofNat 32 (p.bufBase + offset.toNat)

/-- The peak clamp of R144. -/
def clampPeak (p : Params) (b : Word) : Word := if b.toNat ≤ p.peakSent.toNat then b else p.peakSent

/-- The peak bound written: the clamped operand, or the sentinel when bounds are absent (R144, R149). -/
def peakBound (p : Params) : Option Word → Word
  | some b => clampPeak p b
  | none => p.peakSent

/-- Is the value one of the two of TRIGGER_PPS (R153)? -/
def ppsValid (value : Word) : Bool := value == 1 || value == 2

/-- The PPS flag a value selects (R153): 1 generate, 2 trigger. -/
def ppsFlag (p : Params) (value : Word) : Word := if value = 1 then p.ppsGen else p.ppsTrig

/-! Sequential bus batches. -/

/-- The direction of a batch (R122). -/
def batchDir (nw : Word) : Dir := if nw ≠ 0 then .write else .read

/-- The entry count of a batch (R122). -/
def batchCount (nw nr : Word) : Nat := if nw ≠ 0 then nw.toNat else nr.toNat

/-- Nonzero counts for both directions (R122). -/
def batchMixed (nw nr : Word) : Bool := nw != 0 && nr != 0

/-- The range check of one entry (R123). -/
def entryBad (p : Params) (e : Entry) : Bool :=
  decide (e.dev.toNat ≥ 2 ^ p.devW) || decide (e.addr.toNat ≥ 2 ^ p.addrW) || decide (e.data.toNat ≥ 2 ^ p.dataW)

/-- The entries a batch uses: slots `k < count` (R122, R123). -/
def usedEntries (nw nr : Word) (entries : List Entry) : List Entry := entries.take (batchCount nw nr)

/-- The validation of SEQ_BUS (R122, R123). -/
def batchInvalid (p : Params) (nw nr : Word) (entries : List Entry) : Bool :=
  batchMixed nw nr || decide (batchCount nw nr > batchMax) || (usedEntries nw nr entries).any (entryBad p)

/-- The direction bit of the address-carrying word (R47, R48). -/
def dirWord (p : Params) : Dir → Word
  | .read => (1 : Word) <<< p.dirBit
  | .write => 0

/-- The address word of SINGLE mode (R124). -/
def addressWord (p : Params) (dir : Dir) (addr : Word) : Word := dirWord p dir ||| addr

/-- The composite word of COMPOSITE mode (R125). -/
def laneWord (p : Params) (dir : Dir) (e : Entry) : Word := dirWord p dir ||| (e.addr <<< p.dataW) ||| e.data

/-- The low `n` bits of a word. -/
def lowBits (n : Nat) (v : Word) : Word := BitVec.ofNat 32 (v.toNat % 2 ^ n)

/-- The direction a word's direction bit asks for (R47). -/
def dirOf (p : Params) (v : Word) : Dir := if v.getLsbD p.dirBit then .read else .write

/-! Session commands. -/

/-- A device id beyond the tap devices (R177, R178). -/
def badDevice (p : Params) (devid : Word) : Bool := decide (devid.toNat ≥ p.tapDevMax)

/-- A tap word that is no 4-bit value, among the taps used (R178). -/
def badTaps (p : Params) (taps : List Word) : Bool := (taps.take p.ntaps).any fun t => decide (t.toNat ≥ 16)

/-- `Σ t[i] << 4(i - from)` over `i` from `lo` on, `n` taps (R176). -/
def packTaps (taps : List Word) (lo n : Nat) : Word :=
  BitVec.ofNat 32 ((List.range n).map fun i => (taps.getD (lo + i) 0).toNat * 16 ^ i).sum

/-- `pack0` of R176: taps 0 to 7. -/
def pack0 (p : Params) (taps : List Word) : Word := packTaps taps 0 (min 8 p.ntaps)

/-- `pack1` of R176: taps 8 and 9. -/
def pack1 (p : Params) (taps : List Word) : Word := packTaps taps 8 (p.ntaps - 8)

/-- `unpack(w0, w1)[i]` of R176. -/
def unpackTap (w0 w1 : Word) (i : Nat) : Word :=
  if i < 8 then (w0 >>> (4 * i)) &&& 0xF else (w1 >>> (4 * (i - 8))) &&& 0xF

/-- The significant bits of `MAXMIN(i)`: values at `i mod 4` 0 and 2, locations at 1 and 3 (R175). -/
def maxMinMask (p : Params) (i : Nat) : Word :=
  if i % 4 = 0 ∨ i % 4 = 2 then BitVec.ofNat 32 (2 ^ p.mmValW - 1) else BitVec.ofNat 32 (2 ^ p.mmLocW - 1)

/-- The byte offsets of the window words read, chunk by chunk, each chunk from the window base (R174); `fuel` bounds
the chunks and `rem` is what remains, in bytes. -/
def windowOffsets (chunk : Nat) : (fuel rem : Nat) → List Nat
  | 0, _ => []
  | fuel + 1, rem =>
    if rem = 0 then []
    else (List.range (min rem chunk / 4)).map (4 * ·) ++ windowOffsets chunk fuel (rem - min rem chunk)

/-- The refusals of DEBUG.WR once its offset is good (R172): `some` names the refusal. -/
def debugWriteRefusal (p : Params) (r : Reg) (data : Word) : Option Refusal :=
  match r.kind with
  | .deviceDriven => some (.writeToReadOnly (p.off r))
  | .unassigned => some (.writeToReadOnly (p.off r))
  | .command => if isIntCommand p data then none else some (.badIntCtrlValue data)
  | .storage => none
  | .cycleStart => none
  | .strobe => none

end Sys2Proof.Machine
end

