-- ==== Sys2Proof/Machine/Ops.lean ====
section
/-! DEFINITION. The named operations every meaning is made of: the register space (spec/20_memory.md R58, R61), draws
(spec/60_exceptions.md R229), register transactions (spec/40_register_interface.md R102, R103), the two locks (R75),
taking the core's one trap and returning from it (R214, R220, R221), the steps of DEV and HOST (R228, R231, R240 to
R245), the interleaving (R222), and the frame a command runs in (R104 to R107). -/

namespace Sys2Proof.Machine

/-- What an operation answers. -/
abbrev Res (α : Type) := Host.Outcome α Fault Refusal

/-- Go on with the answer, or stop. -/
def andThen {α β : Type} (x : Res α) (f : α → Res β) : Res β :=
  match x with
  | .next a => f a
  | .fault r => .fault r
  | .refused r => .refused r

/-! The register space. -/

/-- The byte written at an address since attach, if any. -/
def Memory.byteAt (m : Memory) (a : Nat) : Option Byte :=
  match m with
  | [] => none
  | (x, b) :: rest => if x = a then some b else Memory.byteAt rest a

/-- Write one byte, keeping the addresses strictly rising. -/
def Memory.setByte (m : Memory) (a : Nat) (b : Byte) : Memory :=
  match m with
  | [] => [(a, b)]
  | (x, c) :: rest =>
    if a < x then (a, b) :: (x, c) :: rest
    else if a = x then (a, b) :: rest
    else (x, c) :: Memory.setByte rest a b

/-- The canonical form: addresses strictly rising. An unlisted byte reads as "not written", which no entry is. -/
def Memory.wf : Memory → Bool
  | [] => true
  | [_] => true
  | (a, _) :: (b, c) :: rest => decide (a < b) && Memory.wf ((b, c) :: rest)

/-- Byte `j` of a word, little-endian (R61). -/
def byteOf (v : Word) (j : Nat) : Byte := v.extractLsb' (8 * j) 8

/-- Store a word at a byte offset (R58: a word at `o` covers bytes `o` to `o + 3`). -/
def Memory.storeWord (m : Memory) (o : Nat) (v : Word) : Memory :=
  Memory.setByte (Memory.setByte (Memory.setByte (Memory.setByte m o (byteOf v 0)) (o + 1) (byteOf v 1))
    (o + 2) (byteOf v 2)) (o + 3) (byteOf v 3)

/-- The word stored at a byte offset, `none` if it was not written since attach (R103). -/
def Memory.loadWord (m : Memory) (o : Nat) : Option Word :=
  match Memory.byteAt m o, Memory.byteAt m (o + 1), Memory.byteAt m (o + 2), Memory.byteAt m (o + 3) with
  | some b0, some b1, some b2, some b3 => some (b3 ++ b2 ++ b1 ++ b0)
  | _, _, _, _ => none

/-! Small updates. -/

/-- Append an event to the history (R30). -/
def State.log (s : State) (e : Event) : State := { s with hist := s.hist ++ [e] }

/-- CMD's micro-operation is done: `k` advances by one (R25). -/
def State.advance (s : State) : State :=
  { s with seq := match s.seq with
                  | .idle => .idle
                  | .run cmd k => .run cmd (k + 1) }

/-- The rest of the micro-program is `ops`. -/
def State.withTodo (s : State) (ops : List Micro) : State := { s with todo := ops }

/-- A draw (R229): the next value the run's input fixes, else a free value (log 7). -/
def State.drawn (s : State) : Word :=
  match s.draws with
  | v :: _ => v
  | [] => Config.freeWord s.freeIx

/-- The state once that draw is used. -/
def State.afterDraw (s : State) : State :=
  match s.draws with
  | _ :: vs => { s with draws := vs }
  | [] => { s with freeIx := s.freeIx + 1 }

/-! Register transactions. -/

/-- The stored value of a storage register, if written since attach (R34). -/
def State.stored (s : State) (r : Reg) : Option Word := Memory.loadWord s.regs (s.params.off r)

/-- The value a read returns without a draw, `none` where it is a draw (R103). -/
def State.fixedRead (s : State) (r : Reg) : Option Word :=
  match r.kind with
  | .storage => if s.params.storageReadBack then s.stored r else none
  | .command => some s.intCtrlWord
  | .cycleStart => none
  | .strobe => none
  | .deviceDriven => none
  | .unassigned => none

/-- The value of a read (R103). -/
def State.readValue (s : State) (r : Reg) : Word := (s.fixedRead r).getD s.drawn

/-- The state once the value of a read is used: a draw is spent where the value is one. -/
def State.afterRead (s : State) (r : Reg) : State := if (s.fixedRead r).isSome then s else s.afterDraw

/-- `RegRead` by an agent (R103, R109): the value and the state after the transaction. -/
def regRead (a : Agent) (r : Reg) (s : State) : Res (Word × State) :=
  if s.attached then .next (s.readValue r, (s.afterRead r).log (.read a (s.params.off r) (s.readValue r)))
  else .fault .registerBlockRevoked

/-- What the device holds in a bus register: the last value written, else an unknown word, a free value (R47; log 12).
-/
def State.held (s : State) (r : Reg) : Word := (s.stored r).getD (Config.freeWord s.freeIx)

/-- The state once that word is used. -/
def State.afterHeld (s : State) (r : Reg) : State :=
  if (s.stored r).isSome then s else { s with freeIx := s.freeIx + 1 }

/-- The bus cycle a write of SPI_DATA starts (R47): device and address as last written to SPI_DEVICE and
SPI_ADDRESS. -/
def startSingle (v : Word) (s : State) : State :=
  let dev := s.held .spiDevice
  let s1 := s.afterHeld .spiDevice
  let adr := s1.held .spiAddress
  let s2 := s1.afterHeld .spiAddress
  s2.log (.busCycle (lowBits s.params.devW dev) (lowBits s.params.addrW adr) (lowBits s.params.dataW v)
    (dirOf s.params adr))

/-- The bus cycle a write of SPI_LANE(d) starts (R48). -/
def startLane (d : Nat) (v : Word) (s : State) : State :=
  s.log (.busCycle (BitVec.ofNat 32 d) (lowBits s.params.addrW (v >>> s.params.dataW)) (lowBits s.params.dataW v)
    (dirOf s.params v))

/-- A write of INT_CTRL (R41). -/
def intCtrlWrite (v : Word) (s : State) : Res State :=
  if v = s.params.intEnable then .next { s with intEn := true }
  else if v = s.params.intDisable then .next { s with intEn := false }
  else if v = s.params.intClear then .next { s with intPend := false }
  else .refused (.badIntCtrlValue v)

/-- The bus cycle a write of a cycle-start register starts (R34). -/
def startCycle (r : Reg) (v : Word) (s : State) : State :=
  match r with
  | .spiLane d => startLane d v s
  | _ => startSingle v s

/-- `RegWrite` by an agent (R102, R109), by the register's kind (R34). -/
def regWrite (a : Agent) (r : Reg) (v : Word) (s : State) : Res State :=
  if s.attached then
    let s1 := s.log (.write a (s.params.off r) v)
    match r.kind with
    | .storage => .next { s1 with regs := Memory.storeWord s1.regs (s.params.off r) v }
    | .cycleStart => .next (startCycle r v s1)
    | .command => intCtrlWrite v s1
    | .strobe => .next s1
    | .deviceDriven => .refused (.writeToReadOnly (s.params.off r))
    | .unassigned => .refused (.writeToReadOnly (s.params.off r))
  else .fault .registerBlockRevoked

/-- `WriteCfg(v)` by CMD (R141): cache and register in one step. -/
def writeCfg (v : Word) (s : State) : Res State := regWrite .cmd .modeConfig v { s with cfg := v }

/-! The trap: the handler of R214, its entry (R220) and its return (R221). -/

/-- Taking the trap (R214 step 1, R220): it saves nothing, and changes only ILOCK and `irq_phase`. -/
def enterHandler (s : State) : State := { s with ilock := .irq, irqPhase := .entered }.log .handlerEntry

/-- Returning from the trap (R214 step 5, R221): it restores nothing and releases ILOCK. -/
def leaveHandler (s : State) : State := { s with ilock := .free, irqPhase := .idle }.log .handlerExit

/-- Has IRQ an enabled step (R213, R214)? `ReleaseI` requires that IRQ holds the lock (R75). -/
def irqEnabled (s : State) : Bool :=
  s.attached &&
    match s.irqPhase with
    | .idle => s.lineReg && s.line && s.ilock == .free
    | .disabled => s.ilock == .irq
    | .entered => true
    | .cleared => true
    | .counted => true

/-- One step of IRQ (R214); an agent without an enabled step does nothing. -/
def irqStep (s : State) : Res State :=
  if irqEnabled s then
    match s.irqPhase with
    | .idle => .next (enterHandler s)
    | .entered => andThen (regWrite .irq .intCtrl s.params.intClear s) fun t => .next { t with irqPhase := .cleared }
    | .cleared => .next { s with icount := countNext s.params s.icount, irqPhase := .counted }
    | .counted => andThen (regWrite .irq .intCtrl s.params.intDisable s) fun t => .next { t with irqPhase := .disabled }
    | .disabled => .next (leaveHandler s)
  else .next s

/-! DEV and HOST. -/

/-- The DEV step `Complete` (R228), at any point while attached (spec/92_eei_decisions.md D44), during an attach too,
whether or not the line is registered: R240 step 4 lets DEV take it from the registration on, and R228, D44 and R56 are
followed (DESIGN CHOICE, log 35). -/
def devComplete (s : State) : State :=
  if s.attached then { s with intPend := true }.log .complete else s

/-- One HOST step of an ATTACH under way (R240 steps 3 to 5, R242). -/
inductive BootOp
  /-- `CFG <- 0 ; RegWrite(MODE_CONFIG, 0)`. -/
  | writeMode
  /-- `RegWrite(INT_CTRL, INT_DISABLE)`. -/
  | writeDisable
  /-- `RegWrite(INT_CTRL, INT_CLEAR)`. -/
  | writeClear
  /-- The core's own fields (R242, last line). -/
  | initialise
  /-- The interrupt line is registered (R240 step 4). -/
  | registerLine
  /-- The attach result is OK (R240 step 5). -/
  | publish
deriving DecidableEq, Repr

/-- The HOST steps of an ATTACH whose allocation succeeded, in the order of R240 and R242. -/
def attachProgram : List BootOp := [.writeMode, .writeDisable, .writeClear, .initialise, .registerLine, .publish]

/-- One HOST step of an ATTACH. -/
def bootOp (b : BootOp) (s : State) : Res State :=
  match b with
  | .writeMode => regWrite .host .modeConfig 0 { s with cfg := 0 }
  | .writeDisable => regWrite .host .intCtrl s.params.intDisable s
  | .writeClear => regWrite .host .intCtrl s.params.intClear s
  | .initialise =>
    .next { s with icount := 0, blk := .free, ilock := .free, seq := .idle, todo := [], vals := [], emitted := [],
                   code := .ok, spins := 0, irqPhase := .idle, isOpen := false }
  | .registerLine => .next { s with lineReg := true }
  | .publish => .next (s.log (.attach .ok))

/-- HOST steps of an ATTACH, one after another. -/
def runBoot : List BootOp → State → Res State
  | [], s => .next s
  | b :: rest, s => andThen (bootOp b s) (runBoot rest)

/-- The session as an attach finds it: parameters bound, buffer held, `ATTACHED <- 1`, no register written, closed, the
line not yet registered (R240 steps 1 to 3), and a history of its own, which holds nothing of an earlier session (R19,
spec/10_state.md R56; R243: "nothing survives a session's destruction"). -/
def attachBegin (p : Params) (s : State) : State :=
  { s with params := p, attached := true, bufAlloc := true, regs := [], isOpen := false, lineReg := false, hist := [] }

/-- The beginning of an ATTACH (R240 steps 1 and 2), and the HOST steps that follow it: refused for a configuration that
is none of this hardware (R7; log 19); ENOMEM, and nothing else, when the allocation fails (R241). -/
def attachStart (p : Params) (allocated : Bool) (s : State) : Res (State × List BootOp) :=
  if !p.valid then .refused .badConfiguration
  else if !allocated then .next (s.log (.attach .enomem), [])
  else .next (attachBegin p s, attachProgram)

/-- ATTACH as one event of HOST (R240 to R242), with no step of DEV between its steps (DESIGN CHOICE, log 29). -/
def attachStep (p : Params) (allocated : Bool) (s : State) : Res State :=
  andThen (attachStart p allocated s) fun x => runBoot x.2 x.1

/-- OPEN while attached (R244). -/
def openStep (s : State) : State :=
  if s.isOpen then s.log (.opened false) else { s with isOpen := true }.log (.opened true)

/-- DETACH while attached (R245). Its three steps are one step of HOST, in both machines: no agent steps between the
removal of the line and `ATTACHED <- 0`, and CMD takes no command there (DESIGN CHOICE, log 36). R245 admits it between
the acceptance and the result of a command turned away, where `seq` is idle: BLOCK and the code of that command cease
with the session (R27), and its result does not come (DESIGN CHOICE, log 38). -/
def detachStep (s : State) : Res State :=
  if s.seq = .idle ∧ s.irqPhase = .idle then
    .next ({ s with attached := false, lineReg := false, bufAlloc := false, blk := .free, code := .ok }.log .detached)
  else .fault .detachInFlight

/-- One HOST event (R231). Attaching an attached instrument, and opening, closing or detaching a detached one, are no
events of this session and do nothing (log 15). -/
def hostStep (e : HostEvent) (s : State) : Res State :=
  match e with
  | .attach p allocated => if s.attached then .next s else attachStep p allocated s
  | .openSession => .next (if s.attached then openStep s else s)
  | .closeSession => .next (if s.attached then { s with isOpen := false }.log .closed else s)
  | .detach => if s.attached then detachStep s else .next s
  | .submit words => .next { s with port := s.port ++ words }
  | .refuseResult => .next { s with refuseOut := true }

/-- The turn of an agent other than CMD. -/
def agentTurn (t : Turn) (s : State) : Res State :=
  match t with
  | .cmd => .next s
  | .irq => irqStep s
  | .dev => .next (devComplete s)
  | .host e => hostStep e s

/-! The interleaving. -/

/-- Has CMD an enabled step in the command under way? Only a lock operation can wait (R75). A write of INT_CTRL by
DEBUG.WR is no lock operation and never waits, INT_CLEAR included, whatever the handler's position is: R172 gives it no
lock, and of the two sentences of R173 on the handler's window the model follows the one that admits it (DESIGN CHOICE,
log 32). -/
def cmdReady (s : State) : Bool :=
  match s.todo with
  | .acquireI :: _ => s.ilock == .free
  | .releaseI :: _ => s.ilock == .cmd
  | _ => true

/-- CMD waits on ILOCK and nothing is scheduled: IRQ takes its steps, at most `n`, until CMD may go on (R76). -/
def irqDrain : Nat → State → Res State
  | 0, s => .next s
  | n + 1, s => if cmdReady s then .next s else andThen (irqStep s) (irqDrain n)

/-- Take the turns of the schedule up to the one in which CMD steps (R222; log 5). With no turn left CMD steps as soon
as it can. -/
def interleave : List Turn → State → Res State
  | [], s =>
    andThen (irqDrain 5 { s with sched := [] }) fun t => if cmdReady t then .next t else .fault .stuck
  | .cmd :: l, s => if cmdReady s then .next { s with sched := l } else interleave l s
  | .irq :: l, s => andThen (agentTurn .irq s) (interleave l)
  | .dev :: l, s => andThen (agentTurn .dev s) (interleave l)
  | .host e :: l, s => andThen (agentTurn (.host e) s) (interleave l)

/-- Everything that happens before CMD's next step. -/
def toCmd (s : State) : Res State := interleave s.sched s

/-! Micro-operations. -/

/-- The atomic micro-operations of CMD (R101); `poll` is no atomic one. -/
def microOp (op : Micro) (s : State) : Res State :=
  match op with
  | .write r v => regWrite .cmd r v s
  | .overwriteCfg v => writeCfg v s
  | .mergeCfg m mask => writeCfg (merge s.cfg m mask) s
  | .read r mask => andThen (regRead .cmd r s) fun x => .next { x.2 with vals := x.2.vals ++ [x.1 &&& mask] }
  | .emit i => .next { s with emitted := s.emitted ++ [s.vals.getD i 0] }
  | .emitTap i => .next { s with emitted := s.emitted ++ [unpackTap (s.vals.getD 0 0) (s.vals.getD 1 0) i] }
  | .emitCount => .next { s with emitted := s.emitted ++ [s.icount] }
  | .acquireI => .next { s with ilock := .cmd }
  | .releaseI => .next { s with ilock := .free }
  | .delay tag => .next (s.log (.delay tag))
  | .poll _ _ _ _ => .next s

/-- `Spin(pred, n)` and the BWE event of `Wait` (R120, R121): at most `n` reads of STATUS, each one step of CMD, and
whether the poll saw what it waits for. -/
def spin (place : Where) (pred : Pred) : Nat → State → Res (State × Bool)
  | 0, s => .next ({ s with spins := 0 }.log (.bwe place), false)
  | n + 1, s =>
    andThen (toCmd s) fun s1 =>
    andThen (regRead .cmd .status s1) fun x =>
      if pollReady x.2.params pred x.1 then .next ({ x.2.advance with spins := 0 }, true)
      else spin place pred n { x.2.advance with spins := x.2.spins + 1 }

/-- What `Wait` does with the spin's answer (R121): whether the command goes on. -/
def afterSpin (giveUp : Bool) (x : State × Bool) : State × Bool :=
  if x.2 || x.1.params.timeoutPolicy == .proceed then (x.1, true) else ({ x.1 with code := .etimeout }, !giveUp)

/-- Run the first micro-operation of `todo`: the state after it, and whether the command goes on. -/
def runOp (op : Micro) (s : State) : Res (State × Bool) :=
  match op with
  | .poll place pred n giveUp => andThen (spin place pred (n - s.spins) s) fun x => .next (afterSpin giveUp x)
  | _ => andThen (toCmd s) fun s1 => andThen (microOp op s1) fun s2 => .next (s2.advance, true)

/-! The command frame. -/

/-- The code a result carries: ECOPY where HOST refuses the words of an OK result (R114). -/
def resultCode (code : Code) (words : List Word) (s : State) : Code :=
  if s.refuseOut && code == .ok && !words.isEmpty then .ecopy else code

/-- The words that follow the header: none unless the code is OK (R89, R106). -/
def resultWords (code : Code) (words : List Word) (s : State) : List Word :=
  if resultCode code words s = .ok then words else []

/-- The count field of the header; a count that does not fit its 16 bits is a free value (log 17). -/
def countField (n : Nat) (s : State) : BitVec 16 :=
  if n < 2 ^ 16 then BitVec.ofNat 16 n else (Config.freeWord s.freeIx).setWidth 16

/-- A result goes to the port, BLOCK is freed, the sequencer is idle, and the event is recorded (R89, R106). -/
def deliver (c : Code) (ws : List Word) (s : State) : State :=
  { s with
    portOut := s.portOut ++ resultHeader c (countField ws.length s) :: ws
    freeIx := if ws.length < 2 ^ 16 then s.freeIx else s.freeIx + 1
    blk := .free
    seq := .idle
    todo := []
    vals := []
    emitted := []
    code := .ok
    spins := 0
    refuseOut := false }.log (.result c ws.length)

/-- `Return(code)` (R106), with the words emitted, as HOST takes them (R114). -/
def sendResult (code : Code) (words : List Word) (s : State) : State :=
  deliver (resultCode code words s) (resultWords code words s) s

/-- The result of a command that ran (R104 step 5). -/
def finish (s : State) : Res State :=
  andThen (toCmd (s.withTodo [])) fun t => .next (sendResult t.code t.emitted t)

/-- Run a micro-program to its result, one micro-operation after another, the other agents between them (R104). -/
def runOps : List Micro → State → Res State
  | [], s => finish s
  | op :: rest, s =>
    andThen (runOp op (s.withTodo (op :: rest))) fun x => if x.2 then runOps rest x.1 else finish x.1

/-- Acceptance (R104 step 1): BLOCK is taken and the header recorded. -/
def acceptHeader (h : Word) (s : State) : State := { s with blk := .held }.log (.accept h)

/-- A command that passed validation starts at its first micro-operation (R25, R104). -/
def startCommand (i : Instr) (s : State) : State :=
  { acceptHeader i.header s with seq := .run i 0, vals := [], emitted := [], code := .ok, spins := 0 }

/-- Run a command that passed validation, with its micro-program. -/
def runCommand (i : Instr) (prog : List Micro) (s : State) : Res State := runOps prog (startCommand i s)

/-- A command that ends before step 4 of R104 is accepted: BLOCK is taken and the header recorded, `seq` stays idle, and
its result, a code alone, is CMD's next step (R25, R104, R107; log 8, log 38). -/
def startAway (h : Word) (code : Code) (s : State) : State := { acceptHeader h s with code := code }

/-- What a command's opcode and operands ask for, once it is latched and validated (R104 steps 2 and 3, R107, R111): a
micro-program to run, a code to answer alone, or a stop (R233). -/
inductive Plan
  | run (prog : List Micro)
  | turnAway (code : Code)
  | fault (why : Fault)
  | refuse (why : Refusal)
deriving DecidableEq, Repr

/-- `EINVAL` (R107). -/
def invalid : Plan := .turnAway .einval

/-- `EILLEGAL` for a command the variant lacks (R93). -/
def absent : Plan := .turnAway .eillegal

/-- Run a command by its plan (R104): one that passes validation from its acceptance to its result; of one that is
turned away the acceptance, its result being CMD's next step (log 4, log 38). -/
def runPlan (i : Instr) (plan : Plan) (s : State) : Res State :=
  match plan with
  | .run prog => runCommand i prog s
  | .turnAway code => .next (startAway i.header code s)
  | .fault why => .fault why
  | .refuse why => .refused why

/-- Only begin a command by its plan: its acceptance, and its micro-program or its result still to come (R25, R104). -/
def beginPlan (i : Instr) (plan : Plan) (s : State) : Res State :=
  match plan with
  | .run prog => .next ((startCommand i s).withTodo prog)
  | .turnAway code => .next (startAway i.header code s)
  | .fault why => .fault why
  | .refuse why => .refused why

/-- Go on with a command found in the middle of its micro-program (R25). -/
def resume (s : State) : Res State := runOps s.todo s

/-! Fetching a command. -/

/-- What stands at the port (R99). -/
def State.fetch (s : State) : Fetched := decodeFrame s.params.hasMaxMin s.params.hasTapCal s.port

/-- May CMD take a command (R26, R104, R231)? -/
def mayAccept (s : State) : Bool := s.attached && s.isOpen && s.seq == .idle && s.blk == .free

/-- Is there something at the port that CMD can take whole (log 9)? -/
def takesTurn : Fetched → Bool
  | .nothing => false
  | .incomplete _ => false
  | .noHeader _ => true
  | .illegal _ _ _ => true
  | .copyFailed _ _ => true
  | .command _ _ => true

/-- Does a command turned away await its result? The sequencer is idle, and BLOCK held (R104, R108). -/
def State.awaits (s : State) : Bool := s.attached && s.seq == .idle && s.blk == .held

/-- Has CMD an enabled step while `seq` is idle: a result to send, or a command to take? -/
def cmdEnabled (s : State) : Bool := s.awaits || (mayAccept s && takesTurn s.fetch)

/-- CMD's turn while `seq` is idle (R99, R104): the result of a command turned away, else the command at the port, which
`run` takes, else nothing (R26, log 9). A frame that spells no command, or is not delivered, is accepted and turned
away. -/
def takeCommand (run : Instr → State → Res State) (s : State) : Res State :=
  if s.awaits then .next (sendResult s.code [] s)
  else if mayAccept s then
    match s.fetch with
    | .nothing => .next s
    | .incomplete _ => .next s
    | .noHeader rest => .next { s with port := rest }
    | .illegal _ h rest => .next (startAway h .eillegal { s with port := rest })
    | .copyFailed h rest => .next (startAway h .ecopy { s with port := rest })
    | .command i rest => run i { s with port := rest }
  else .next s

end Sys2Proof.Machine
end

