-- ==== Sys2Proof/Machine/Capture.lean ====
section
/-! DEFINITION. The capture/DMA commands of spec/42_capture_dma.md: CONFIGURE (R149), RUN_SCAN (R151), DMA_SELF_TEST
(R152), and the arm and disarm sequences (R150). A command is a plan, its validation and its
micro-program, which is the rule's pseudocode line by line; its meaning is the run of that plan. -/

namespace Sys2Proof.Machine

/-- `ArmIrq` (R150): clear before enable, under ILOCK. -/
def armIrq (p : Params) : List Micro :=
  [.acquireI, .write .intCtrl p.intClear, .write .intCtrl p.intEnable, .releaseI]

/-- `DisarmIrq` (R150). -/
def disarmIrq (p : Params) : List Micro :=
  [.acquireI, .write .intCtrl p.intDisable, .releaseI]

/-- The writes of CONFIGURE up to the mode merge, in the order of R149. -/
def captureSetup (p : Params) (peak : Option (Word × Word)) (cfgbits offset count delay : Word) : List Micro :=
  [.write .dmaWrAddr (dmaAddr p offset),
   .write .dmaSize (transferSize p count),
   .write .captureCount count,
   .write .delayCount delay,
   .write .peakStart (peakBound p (peak.map Prod.fst)),
   .write .peakEnd (peakBound p (peak.map Prod.snd)),
   .mergeCfg cfgbits p.confMask]

/-- CONFIGURE: the capacity check, the setup, and the interrupt armed or disarmed (R149). -/
def planConfigure (irq : Bool) (peak : Option (Word × Word)) (cfgbits offset count delay : Word) (p : Params) : Plan :=
  if overCapacity p offset count then invalid
  else .run (captureSetup p peak cfgbits offset count delay ++ if irq then armIrq p else disarmIrq p)

/-- `CONFIGURE` (R149). -/
def execConfigure (irq : Bool) (peak : Option (Word × Word)) (cfgbits offset count delay : Word) (s : State) :
    Res State :=
  runPlan (.configure irq peak cfgbits offset count delay) (planConfigure irq peak cfgbits offset count delay s.params) s

/-- RUN_SCAN: the capacity check, the source, the size and the mode (R151). -/
def planRunScan (cfgbits offset count : Word) (p : Params) : Plan :=
  if overCapacity p offset count then invalid
  else
    .run [.write .dmaRdAddr (dmaAddr p offset), .write .dmaSize (transferSize p count), .mergeCfg cfgbits p.rsMask]

/-- `RUN_SCAN` (R151). -/
def execRunScan (cfgbits offset count : Word) (s : State) : Res State :=
  runPlan (.runScan cfgbits offset count) (planRunScan cfgbits offset count s.params) s

/-- DMA_SELF_TEST: the poll's FAIL path only sets the code, and the trigger is cleared all the same (R152). -/
def planDmaSelfTest (size : Word) (p : Params) : Plan :=
  if size.toNat > p.bufLen then invalid
  else
    .run
      [.write .dmaRdAddr (dmaAddr p 0),
       .write .dmaWrAddr (dmaAddr p 0),
       .write .dmaSize size,
       .mergeCfg p.dmaTrigger p.dmaTrigger,
       .poll .selfTest .dmaDone p.spinDma false,
       .mergeCfg 0 p.dmaTrigger]

/-- `DMA_SELF_TEST` (R152). -/
def execDmaSelfTest (size : Word) (s : State) : Res State :=
  runPlan (.dmaSelfTest size) (planDmaSelfTest size s.params) s

end Sys2Proof.Machine
end

