-- ==== Sys2Proof/Machine/Mode.lean ====
section
/-! DEFINITION. The mode commands of spec/42_capture_dma.md: RESET.FULL (R147), RESET.CLEAR (R148), TRIGGER_PPS
(R153). Each ends with one `WriteCfg` (R141). A command is a plan, its validation and its
micro-program, and its meaning is the run of that plan. -/

namespace Sys2Proof.Machine

/-- RESET.FULL: a raw overwrite with the reset flag alone (R147). -/
def planResetFull (p : Params) : Plan := .run [.overwriteCfg p.resetFlag]

/-- `RESET.FULL` (R147). -/
def execResetFull (s : State) : Res State := runPlan .resetFull (planResetFull s.params) s

/-- RESET.CLEAR: a masked merge that clears the reset flag (R148). -/
def planResetClear (p : Params) : Plan := .run [.mergeCfg 0 p.resetFlag]

/-- `RESET.CLEAR` (R148). -/
def execResetClear (s : State) : Res State := runPlan .resetClear (planResetClear s.params) s

/-- TRIGGER_PPS: one of the two flags, in place of both (R153). -/
def planTriggerPps (value : Word) (p : Params) : Plan :=
  if ppsValid value then .run [.mergeCfg (ppsFlag p value) p.ppsMask] else invalid

/-- `TRIGGER_PPS` (R153). -/
def execTriggerPps (value : Word) (s : State) : Res State :=
  runPlan (.triggerPps value) (planTriggerPps value s.params) s

end Sys2Proof.Machine
end

