-- ==== Sys2Proof/Machine/SeqBus.lean ====
section
/-! DEFINITION. The sequential bus command SEQ_BUS (spec/41_seqbus.md R127), with its framing (R124, R125) and
read-back (R126). -/

namespace Sys2Proof.Machine

/-- The writes that start the cycle of one entry: three in SINGLE mode (R124), one in COMPOSITE mode (R125). -/
def cycleWrites (p : Params) (dir : Dir) (e : Entry) : List Micro :=
  match p.laneMode with
  | .single =>
    [.write .spiDevice e.dev, .write .spiAddress (addressWord p dir e.addr), .write .spiData e.data]
  | .composite => [.write (.spiLane e.dev.toNat) (laneWord p dir e)]

/-- The read-back of one entry of a READ batch (R126). -/
def readBack (p : Params) : Dir → List Micro
  | .read => [.read .spiResult p.readbackMask]
  | .write => []

/-- The steps of entry `k` (R127 (1) to (6)). -/
def entryProgram (p : Params) (dir : Dir) (k : Nat) (e : Entry) : List Micro :=
  .poll (.pre k) .busIdle p.spinBus true
    :: (cycleWrites p dir e ++ .poll (.post k) .busIdle p.spinBus true :: readBack p dir)

/-- The entries in order, from index `k` (R127). -/
def entriesProgram (p : Params) (dir : Dir) : Nat → List Entry → List Micro
  | _, [] => []
  | k, e :: es => entryProgram p dir k e ++ entriesProgram p dir (k + 1) es

/-- The read data, emitted in entry order after the last entry (R127, R128). -/
def emitReadData : Dir → Nat → List Micro
  | .read, n => (List.range n).map .emit
  | .write, _ => []

/-- The whole micro-program of a batch (R127). -/
def batchProgram (p : Params) (dir : Dir) (used : List Entry) : List Micro :=
  entriesProgram p dir 0 used ++ emitReadData dir used.length

/-- SEQ_BUS: the checks of R122 and R123, and the batch (R127). -/
def planSeqBus (nw nr : Word) (entries : List Entry) (p : Params) : Plan :=
  if batchInvalid p nw nr entries then invalid
  else .run (batchProgram p (batchDir nw) (usedEntries nw nr entries))

/-- `SEQ_BUS` (R127). -/
def execSeqBus (nw nr : Word) (entries : List Entry) (s : State) : Res State :=
  runPlan (.seqBus nw nr entries) (planSeqBus nw nr entries s.params) s

end Sys2Proof.Machine
end

