-- ==== Sys2Proof/Machine/Session.lean ====
section
/-! DEFINITION. The session commands of spec/43_session.md: READ_STATUS (R170), DEBUG.RD (R171), DEBUG.WR (R172),
READ_WINDOW (R174), READ_MAX_MIN (R175), TAP_READ (R177), TAP_WRITE (R178), COMPLETION_COUNT (R179). A command is a
plan, its validation and its micro-program, and its meaning is the run of that plan. -/

namespace Sys2Proof.Machine

/-- Read each register of a list with its mask, and emit the value: `v <- RegRead(r)`, `Emit(v & mask)`, in turn; `i`
is the index of the next value read. -/
def readAndEmit : Nat → List (Reg × Word) → List Micro
  | _, [] => []
  | i, (r, mask) :: rest => .read r mask :: .emit i :: readAndEmit (i + 1) rest

/-- The mask that keeps a word whole. -/
def wholeWord : Word := 0xFFFFFFFF

/-- READ_STATUS: one read of STATUS, whole (R170). -/
def planReadStatus : Plan := .run (readAndEmit 0 [(.status, wholeWord)])

/-- `READ_STATUS` (R170). -/
def execReadStatus (s : State) : Res State := runPlan .readStatus planReadStatus s

/-- DEBUG.RD: one read of the offset (R171). -/
def planDebugRd (roff : Word) (p : Params) : Plan :=
  if p.goodOffset roff.toNat then .run (readAndEmit 0 [(p.regAt roff.toNat, wholeWord)])
  else .fault (.badRegOffset roff.toNat)

/-- `DEBUG.RD` (R171). -/
def execDebugRd (roff data : Word) (s : State) : Res State := runPlan (.debugRd roff data) (planDebugRd roff s.params) s

/-- DEBUG.WR: one write of the offset; the refusals come before any transaction (R172). -/
def planDebugWr (roff data : Word) (p : Params) : Plan :=
  if p.goodOffset roff.toNat then
    match debugWriteRefusal p (p.regAt roff.toNat) data with
    | some why => .refuse why
    | none => .run [.write (p.regAt roff.toNat) data]
  else .fault (.badRegOffset roff.toNat)

/-- `DEBUG.WR` (R172). It takes no ILOCK, so it is admitted at every position of the handler, with INT_CLEAR too; R173
says both that this is impossible and that it is admitted (DESIGN CHOICE, log 32). -/
def execDebugWr (roff data : Word) (s : State) : Res State :=
  runPlan (.debugWr roff data) (planDebugWr roff data s.params) s

/-- The registers READ_WINDOW reads (R174): window words, each chunk from the window base. The window may run past
REG_SPACE (DESIGN CHOICE, log 34). -/
def windowReads (p : Params) (len : Word) : List (Reg × Word) :=
  (windowOffsets p.chunk len.toNat len.toNat).map fun o => (.fifoWin o, wholeWord)

/-- READ_WINDOW: LEN / 4 reads (R174). -/
def planReadWindow (len : Word) (p : Params) : Plan :=
  if len.toNat > p.readMax then invalid
  else if len.toNat % 4 ≠ 0 then .refuse (.unalignedWindowLength len)
  else .run (readAndEmit 0 (windowReads p len))

/-- `READ_WINDOW` (R174). -/
def execReadWindow (len : Word) (s : State) : Res State := runPlan (.readWindow len) (planReadWindow len s.params) s

/-- The twelve registers READ_MAX_MIN reads, with their significant bits (R175). -/
def maxMinReads (p : Params) : List (Reg × Word) := (List.range 12).map fun i => (.maxMin i, maxMinMask p i)

/-- READ_MAX_MIN: illegal where the variant lacks it (R93, R175). -/
def planReadMaxMin (p : Params) : Plan := if p.hasMaxMin then .run (readAndEmit 0 (maxMinReads p)) else absent

/-- `READ_MAX_MIN` (R175). -/
def execReadMaxMin (s : State) : Res State := runPlan .readMaxMin (planReadMaxMin s.params) s

/-- TAP_READ: two reads, and NTAPS nibbles of them; illegal where the variant lacks it (R93, R177). -/
def planTapRead (devid : Word) (p : Params) : Plan :=
  if p.hasTapCal then
    if badDevice p devid then invalid
    else
      .run (.read (.tap0 devid.toNat) wholeWord :: .read (.tap1 devid.toNat) wholeWord
        :: (List.range p.ntaps).map .emitTap)
  else absent

/-- `TAP_READ` (R177). -/
def execTapRead (devid : Word) (s : State) : Res State := runPlan (.tapRead devid) (planTapRead devid s.params) s

/-- TAP_WRITE: the packed taps, then the load strobe between the two delays; illegal where the variant lacks it (R93,
R178). -/
def planTapWrite (devid : Word) (taps : List Word) (p : Params) : Plan :=
  if p.hasTapCal then
    if badDevice p devid || badTaps p taps then invalid
    else
      .run
        [.write (.tap0 devid.toNat) (pack0 p taps),
         .write (.tap1 devid.toNat) (pack1 p taps),
         .delay .settleBefore,
         .write .tapLoad ((1 : Word) <<< devid.toNat),
         .write .tapLoad 0,
         .delay .settleAfter]
  else absent

/-- `TAP_WRITE` (R178). -/
def execTapWrite (devid : Word) (taps : List Word) (s : State) : Res State :=
  runPlan (.tapWrite devid taps) (planTapWrite devid taps s.params) s

/-- COMPLETION_COUNT: the counter is read under ILOCK (R179). -/
def planCompletionCount : Plan := .run [.acquireI, .emitCount, .releaseI]

/-- `COMPLETION_COUNT` (R179). -/
def execCompletionCount (s : State) : Res State := runPlan .completionCount planCompletionCount s

end Sys2Proof.Machine
end

