-- ==== Sys2Proof/Machine/Dispatch.lean ====
section
/-! DEFINITION. The meaning of every command: one arm per row of spec/opcode_table.json. -/

namespace Sys2Proof.Machine

/-- Run one command, from its acceptance to its result; of one that is turned away the acceptance, its result being
CMD's next step (spec/40_register_interface.md R104, R111; log 4, log 38). -/
def exec (i : Instr) (s : State) : Host.Outcome State Fault Refusal :=
  match i with
  | .resetFull => Sys2Proof.Machine.execResetFull s
  | .resetClear => Sys2Proof.Machine.execResetClear s
  | .configure irq peak cfgbits offset count delay => Sys2Proof.Machine.execConfigure irq peak cfgbits offset count delay s
  | .runScan cfgbits offset count => Sys2Proof.Machine.execRunScan cfgbits offset count s
  | .dmaSelfTest size => Sys2Proof.Machine.execDmaSelfTest size s
  | .triggerPps value => Sys2Proof.Machine.execTriggerPps value s
  | .seqBus nw nr entries => Sys2Proof.Machine.execSeqBus nw nr entries s
  | .readStatus => Sys2Proof.Machine.execReadStatus s
  | .debugRd roff data => Sys2Proof.Machine.execDebugRd roff data s
  | .debugWr roff data => Sys2Proof.Machine.execDebugWr roff data s
  | .readMaxMin => Sys2Proof.Machine.execReadMaxMin s
  | .tapRead devid => Sys2Proof.Machine.execTapRead devid s
  | .tapWrite devid taps => Sys2Proof.Machine.execTapWrite devid taps s
  | .readWindow len => Sys2Proof.Machine.execReadWindow len s
  | .completionCount => Sys2Proof.Machine.execCompletionCount s

end Sys2Proof.Machine
end

