-- ==== Sys2Proof/Machine/Step.lean ====
section
/-! DEFINITION. One step of the machine: the turn the schedule names (spec/60_exceptions.md R222). CMD's turn takes
the command at the port and runs it to its result, the other agents between its micro-operations (log 4); a command
turned away is accepted in one of CMD's turns and answered in the next (log 38). The same machine by the single steps
of R17 stands in Sys2Proof.Machine.Atomic. -/

namespace Sys2Proof.Machine

/-- CMD's turn while `seq` is idle: the result of a command turned away, or the command at the port by its meaning (R99,
R104; log 4, log 38). -/
def cmdTurn (s : State) : Res State := takeCommand exec s

/-- No turn is left: CMD if it has a step, else IRQ if it has one, else the core waits; detached it is stuck (R209). -/
def defaultTurn (s : State) : Res State :=
  if cmdEnabled s then cmdTurn s
  else if irqEnabled s then irqStep s
  else if s.attached then .next s
  else .fault .stuck

/-- One step. -/
def step (s : State) : Host.Outcome State Fault Refusal :=
  match s.seq with
  | .run _ _ => resume s
  | .idle =>
    match s.sched with
    | [] => defaultTurn s
    | .cmd :: l => cmdTurn { s with sched := l }
    | .irq :: l => agentTurn .irq { s with sched := l }
    | .dev :: l => agentTurn .dev { s with sched := l }
    | .host e :: l => agentTurn (.host e) { s with sched := l }

/-- The state in which the next step takes the command whose bits are `w`: its frame stands at the port, the session is
open, and no other turn comes first (log 25). -/
def State.withFetchWord (s : State) (nbits w : Nat) : State :=
  { s with
    attached := true
    isOpen := true
    blk := .free
    seq := .idle
    sched := []
    port := (tableFrame s.params.hasMaxMin s.params.hasTapCal nbits w).map some }

end Sys2Proof.Machine
end

