-- ==== Sys2Proof/Machine/Atomic.lean ====
section
/-! DEFINITION. The machine by its single steps: a step is one command-port event, one register transaction, one lock
operation, one counter update or one device event (spec/00_scope.md R17, spec/40_register_interface.md R101), and any
agent may take the next one (spec/60_exceptions.md R222). CMD steps through the micro-program of the command under way
(R25, spec/41_seqbus.md R120), HOST through its attach (spec/70_reset_and_hazards.md R240, R242). `step` takes a whole
command, and a whole attach, at once (log 4, log 29). -/

namespace Sys2Proof.Machine

/-- The plan of every command (R104 step 3, R111), the one its meaning runs. -/
def planOf (i : Instr) (p : Params) : Plan :=
  match i with
  | .resetFull => planResetFull p
  | .resetClear => planResetClear p
  | .configure irq peak cfgbits offset count delay => planConfigure irq peak cfgbits offset count delay p
  | .runScan cfgbits offset count => planRunScan cfgbits offset count p
  | .dmaSelfTest size => planDmaSelfTest size p
  | .triggerPps value => planTriggerPps value p
  | .seqBus nw nr entries => planSeqBus nw nr entries p
  | .readStatus => planReadStatus
  | .debugRd roff _ => planDebugRd roff p
  | .debugWr roff data => planDebugWr roff data p
  | .readMaxMin => planReadMaxMin p
  | .tapRead devid => planTapRead devid p
  | .tapWrite devid taps => planTapWrite devid taps p
  | .readWindow len => planReadWindow len p
  | .completionCount => planCompletionCount

/-- A command begins: acceptance, latching and validation are one port event, its result a later one (R17, R104; log
8). -/
def beginCommand (i : Instr) (s : State) : Res State := beginPlan i (planOf i s.params) s

/-- A poll is over: whether it saw what it waits for decides whether the command goes on with `rest` (R121). -/
def endPoll (giveUp : Bool) (rest : List Micro) (x : State × Bool) : State :=
  (afterSpin giveUp x).1.withTodo (if (afterSpin giveUp x).2 then rest else [])

/-- What a read of STATUS with the value `v` does in a poll (R120, R121): ready, at the ceiling, or one read more. The
BWE event of a poll at its ceiling belongs to its last read (log 23). -/
def afterStatus (place : Where) (pred : Pred) (n : Nat) (giveUp : Bool) (rest : List Micro) (v : Word) (s : State) :
    State :=
  if pollReady s.params pred v then endPoll giveUp rest ({ s.advance with spins := 0 }, true)
  else if n ≤ s.spins + 1 then endPoll giveUp rest ({ s.advance with spins := 0 }.log (.bwe place), false)
  else { s.advance with spins := s.spins + 1 }

/-- One read of a poll, one step of CMD (R120). -/
def pollStep (place : Where) (pred : Pred) (n : Nat) (giveUp : Bool) (rest : List Micro) (s : State) : Res State :=
  andThen (regRead .cmd .status s) fun x => .next (afterStatus place pred n giveUp rest x.1 x.2)

/-- CMD's next micro-operation (R101); after the last one, the result (R106). -/
def microStep (s : State) : Res State :=
  match s.todo with
  | [] => .next (sendResult s.code s.emitted s)
  | .poll place pred n giveUp :: rest => pollStep place pred n giveUp rest s
  | op :: rest => andThen (microOp op s) fun t => .next (t.advance.withTodo rest)

/-- One step of CMD: it begins the command at the port, answers one that it turned away, or takes the next
micro-operation of the command under way; an agent without an enabled step does nothing (R75; log 6). -/
def cmdStep (s : State) : Res State :=
  match s.seq with
  | .idle => takeCommand beginCommand s
  | .run _ _ => if cmdReady s then microStep s else .next s

/-- The machine with HOST's position in an attach under way; `State.sched` plays no part. -/
structure AtomicState where
  machine : State
  /-- The model's own: the HOST steps still to come of the attach under way (R242). -/
  boot : List BootOp
deriving DecidableEq, Repr

/-- Who takes the next step: an agent its next one, or HOST the next one of its attach under way. -/
inductive Move
  | agent (t : Turn)
  | boot
deriving DecidableEq, Repr

/-- One event of HOST; an attach only begins. -/
def hostMove (e : HostEvent) (s : State) : Res AtomicState :=
  match e with
  | .attach p allocated =>
    if s.attached then .next ⟨s, []⟩ else andThen (attachStart p allocated s) fun x => .next ⟨x.1, x.2⟩
  | .openSession => andThen (hostStep .openSession s) fun t => .next ⟨t, []⟩
  | .closeSession => andThen (hostStep .closeSession s) fun t => .next ⟨t, []⟩
  | .detach => andThen (hostStep .detach s) fun t => .next ⟨t, []⟩
  | .submit words => andThen (hostStep (.submit words) s) fun t => .next ⟨t, []⟩
  | .refuseResult => andThen (hostStep .refuseResult s) fun t => .next ⟨t, []⟩

/-- One step of the agent whose turn it is. HOST, one agent, makes no other event between the steps of its own attach: a
turn in which it would, a submission or a refusal included, is passed over (DESIGN CHOICE, log 37). -/
def agentMove (t : Turn) (a : AtomicState) : Res AtomicState :=
  match t with
  | .cmd => andThen (cmdStep a.machine) fun s => .next ⟨s, a.boot⟩
  | .irq => andThen (irqStep a.machine) fun s => .next ⟨s, a.boot⟩
  | .dev => .next ⟨devComplete a.machine, a.boot⟩
  | .host e => if a.boot = [] then hostMove e a.machine else .next a

/-- One single step of the machine (R17, R222). -/
def atomicStep (m : Move) (a : AtomicState) : Res AtomicState :=
  match m with
  | .agent t => agentMove t a
  | .boot =>
    match a.boot with
    | [] => .next a
    | b :: rest => andThen (bootOp b a.machine) fun s => .next ⟨s, rest⟩

/-- Single steps one after another. -/
def atomicRun : List Move → AtomicState → Res AtomicState
  | [], a => .next a
  | m :: l, a => andThen (atomicStep m a) (atomicRun l)

/-- Has CMD an enabled step (R75, R104)? -/
def cmdHasStep (s : State) : Bool :=
  match s.seq with
  | .idle => cmdEnabled s
  | .run _ _ => cmdReady s

end Sys2Proof.Machine
end

