-- ==== Sys2Proof/Safety.lean ====
section
/-! DEFINITION. The terms claims are stated in: the part of the history and of the state that CMD alone writes, the
schedules and lock states under which a command runs to its result, the invariant of every step, and the runs of single
steps. -/

namespace Sys2Proof.Machine

/-- The events CMD records (spec/10_state.md R30): its transactions, the bus cycles they start, its delays, timeouts,
acceptances and results. -/
def Event.byCmd : Event → Bool
  | .read .cmd _ _ => true
  | .write .cmd _ _ => true
  | .busCycle _ _ _ _ => true
  | .bwe _ => true
  | .delay _ => true
  | .accept _ => true
  | .result _ _ => true
  | _ => false

/-- The events IRQ records: its transactions, its entry and its exit (spec/60_exceptions.md R214). -/
def Event.byIrq : Event → Bool
  | .read .irq _ _ => true
  | .write .irq _ _ => true
  | .handlerEntry => true
  | .handlerExit => true
  | _ => false

/-- CMD's own part of a history, in order. -/
def cmdTrace (h : List Event) : List Event := h.filter Event.byCmd

/-- `t` agrees with `s` on everything that no other agent writes while a command is under way: CMD's registers, the
stored registers, the results and CMD's part of the history (R20, spec/60_exceptions.md R214 "It touches no other
register"). -/
structure SameCmdView (s t : State) : Prop where
  params : t.params = s.params
  attached : t.attached = s.attached
  lineReg : t.lineReg = s.lineReg
  bufAlloc : t.bufAlloc = s.bufAlloc
  cfg : t.cfg = s.cfg
  blk : t.blk = s.blk
  seq : t.seq = s.seq
  todo : t.todo = s.todo
  vals : t.vals = s.vals
  emitted : t.emitted = s.emitted
  code : t.code = s.code
  spins : t.spins = s.spins
  regs : t.regs = s.regs
  portOut : t.portOut = s.portOut
  draws : t.draws = s.draws
  freeIx : t.freeIx = s.freeIx
  trace : cmdTrace t.hist = cmdTrace s.hist

/-- Is the turn a DETACH (a fault while a command is under way, spec/70_reset_and_hazards.md R245)? -/
def Turn.detaches : Turn → Bool
  | .host .detach => true
  | _ => false

/-- Is the turn HOST's decision to refuse result words (spec/40_register_interface.md R114)? -/
def Turn.refuses : Turn → Bool
  | .host .refuseResult => true
  | _ => false

/-- No DETACH is scheduled. -/
def State.calm (s : State) : Bool := s.sched.all fun t => !t.detaches

/-- HOST takes the result words of the next command. -/
def State.takesResult (s : State) : Bool := !s.refuseOut && s.sched.all fun t => !t.refuses

/-- ILOCK as it is between commands: IRQ holds it exactly while the handler is under way, CMD does not (R24, R29). -/
def State.lockRests (s : State) : Prop := (s.ilock = .irq ↔ s.irqPhase ≠ .idle) ∧ s.ilock ≠ .cmd

/-- The two locks as they stand at every moment, in the middle of a command too: BLOCK is held exactly while a command
runs, or one turned away has its code pending (spec/10_state.md R23, spec/20_memory.md R74; log 38), and IRQ holds ILOCK
exactly while its handler is under way (R24, R29). -/
structure State.LocksHeld (s : State) : Prop where
  block : s.blk = .held ↔ s.seq ≠ .idle ∨ s.code ≠ .ok
  ilock : s.ilock = .irq ↔ s.irqPhase ≠ .idle

/-- What a command needs to run to its result: a session, no DETACH under way, and a lock at rest. -/
structure CanRun (s : State) : Prop where
  attached : s.attached = true
  calm : s.calm = true
  lock : s.lockRests

/-- How many handler runs a history holds to their exit (spec/60_exceptions.md R218). -/
def handlerRuns (h : List Event) : Nat := h.count .handlerExit

/-- How many handler runs a history holds by their entry. -/
def handlerEntries (h : List Event) : Nat := h.count .handlerEntry

/-- Has the handler under way already made its increment (R214 step 3)? -/
def IrqPhase.incremented : IrqPhase → Nat
  | .counted => 1
  | .disabled => 1
  | .idle => 0
  | .entered => 0
  | .cleared => 0

/-- Is a handler under way? -/
def IrqPhase.running : IrqPhase → Nat
  | .idle => 0
  | .entered => 1
  | .cleared => 1
  | .counted => 1
  | .disabled => 1

/-- ICOUNT is what it was, `base`, plus the handler runs since, modulo `2^ICOUNT_W` (R217, R218); `base` is counted from
the beginning of the history. -/
structure CountsRuns (base : Nat) (s : State) : Prop where
  count : s.icount.toNat = (base + handlerRuns s.hist + s.irqPhase.incremented) % 2 ^ s.params.icountW
  entries : handlerEntries s.hist = handlerRuns s.hist + s.irqPhase.running

/-- The invariant every step keeps, where `seq` is idle (R24, R27, R29, R56, spec/00_scope.md R7, R22). -/
structure State.Inv (s : State) : Prop where
  /-- The configuration is one of this hardware (R7). -/
  params : s.params.valid = true
  /-- The register space is in its canonical form. -/
  memory : Memory.wf s.regs = true
  /-- IRQ holds ILOCK exactly while its handler is under way, and CMD does not hold it (R24, R29). -/
  lock : s.lockRests
  /-- The sequencer is idle, with no partial work (R25). -/
  seq : s.seq = .idle
  todo : s.todo = []
  vals : s.vals = []
  emitted : s.emitted = []
  spins : s.spins = 0
  /-- BLOCK is held here exactly while a command turned away has its code pending (R74, R108; log 38). -/
  blk : s.blk = .held ↔ s.code ≠ .ok
  /-- No session state outlives the session (R27, R243; log 38). -/
  revoked : s.attached = false → s.blk = .free
  /-- The line is registered and the buffer held exactly while attached (R240, R245). -/
  line : s.lineReg = s.attached
  buffer : s.bufAlloc = s.attached
  /-- The handler is under way only while attached (R245). -/
  handler : s.irqPhase ≠ .idle → s.attached = true
  /-- The counter keeps to its width (R22). -/
  count : s.icount.toNat < 2 ^ s.params.icountW

/-- Words stored one after another. -/
def Memory.storeAll (m : Memory) (l : List (Nat × Word)) : Memory := l.foldl (fun m e => Memory.storeWord m e.1 e.2) m

/-- `t` is `s` after command `i` ran to its result (spec/40_register_interface.md R104 to R108, R115): CMD made the
transactions and events `txns`, in order, and answered with the code `answer` and `words`; the sequencer is idle,
BLOCK is free, and the next command can run. -/
structure Answers (i : Instr) (txns : List Event) (answer : Code) (words : List Word) (s t : State) : Prop where
  params : t.params = s.params
  lineReg : t.lineReg = s.lineReg
  bufAlloc : t.bufAlloc = s.bufAlloc
  blk : t.blk = .free
  seq : t.seq = .idle
  todo : t.todo = []
  vals : t.vals = []
  emitted : t.emitted = []
  code : t.code = .ok
  spins : t.spins = 0
  ready : CanRun t
  portOut : t.portOut = s.portOut ++ resultHeader answer (BitVec.ofNat 16 words.length) :: words
  trace : cmdTrace t.hist = cmdTrace s.hist ++ .accept i.header :: (txns ++ [.result answer words.length])

/-- `s` after a command with that header was accepted and turned away with a code alone, its result still to come: BLOCK
is taken, the header recorded, and the code pending (R104, R107). -/
def awaiting (header : Word) (code : Code) (s : State) : State :=
  { s with blk := .held, code := code, hist := s.hist ++ [.accept header] }

/-- `s` after a command that was turned away with a code alone, no other agent's turn in it: the result header goes to
the port, acceptance and result are recorded, the sequencer is idle and BLOCK is free (R107, spec/60_exceptions.md
R205, R206). -/
def turnedAway (header : Word) (code : Code) (s : State) : State :=
  { s with
    portOut := s.portOut ++ [resultHeader code 0]
    hist := s.hist ++ [.accept header, .result code 0]
    blk := .free
    seq := .idle
    todo := []
    vals := []
    emitted := []
    code := .ok
    spins := 0
    refuseOut := false }

/-- `t` is `s` after a command was turned away with a code alone, the turns of other agents between its acceptance and
its result (R17, R107, R108): all that CMD and the session own is as it was, but for the result header at the port and
the two events of the command in CMD's part of the history; HOST may have added to the port, and the next command can
run. -/
structure TurnedAway (header : Word) (answer : Code) (s t : State) : Prop where
  params : t.params = s.params
  lineReg : t.lineReg = s.lineReg
  bufAlloc : t.bufAlloc = s.bufAlloc
  cfg : t.cfg = s.cfg
  regs : t.regs = s.regs
  draws : t.draws = s.draws
  freeIx : t.freeIx = s.freeIx
  blk : t.blk = .free
  seq : t.seq = .idle
  todo : t.todo = []
  vals : t.vals = []
  emitted : t.emitted = []
  code : t.code = .ok
  spins : t.spins = 0
  refuseOut : t.refuseOut = false
  attached : t.attached = true
  lock : t.lockRests
  port : s.port <+: t.port
  portOut : t.portOut = s.portOut ++ [resultHeader answer 0]
  trace : cmdTrace t.hist = cmdTrace s.hist ++ [.accept header, .result answer 0]

/-- Is CMD the next agent to step: its turn comes first, or no turn is left (log 5)? -/
def cmdIsNext : List Turn → Bool
  | [] => true
  | .cmd :: _ => true
  | _ => false

/-- `n` steps. -/
def runSteps : Nat → State → Res State
  | 0, s => .next s
  | n + 1, s => andThen (step s) (runSteps n)

/-- A command with that header, accepted at `s` and turned away, is answered in CMD's next turn: in the next step where
CMD is the next agent, and after the turns `l` of the other agents, none of them a DETACH, where CMD is next after them
(R17, R107, R108). -/
def AnsweredNext (header : Word) (code : Code) (s : State) : Prop :=
  (cmdIsNext s.sched = true →
    step (awaiting header code s) = .next (turnedAway header code { s with sched := s.sched.tail })) ∧
  (∀ l k, s.sched = l ++ k → cmdIsNext k = true → (∀ u ∈ l, u ≠ .cmd ∧ u.detaches = false) → s.lockRests →
    ∃ t, runSteps (l.length + 1) (awaiting header code s) = .next t ∧ t.sched = k.tail ∧ TurnedAway header code s t)

/-- The step that takes a frame turned away: the frame is consumed up to `rest`, the header recorded and BLOCK taken;
the frame is answered with `code` alone in CMD's next turn (R104, R108). -/
def FrameTurnedAway (header : Word) (code : Code) (rest : List (Option Word)) (s : State) : Prop :=
  cmdIsNext s.sched = true →
    step s = .next (awaiting header code { s with sched := s.sched.tail, port := rest }) ∧
    AnsweredNext header code { s with sched := s.sched.tail, port := rest }

/-- CMD's register writes as events (R30). -/
def cmdWrites (p : Params) (l : List (Reg × Word)) : List Event := l.map fun e => .write .cmd (p.off e.1) e.2

/-- CMD's register reads, with the values they returned, as events (R30). -/
def cmdReads (p : Params) (l : List (Reg × Word)) : List Event := l.map fun e => .read .cmd (p.off e.1) e.2

/-- Writes of registers stored in turn. -/
def Memory.storeRegs (m : Memory) (p : Params) (l : List (Reg × Word)) : Memory :=
  Memory.storeAll m (l.map fun e => (p.off e.1, e.2))

/-- The values `vs` are draws: where the run's input fixes as many, they are those, in order (spec/60_exceptions.md
R229). -/
def Drawn (vs : List Word) (s t : State) : Prop :=
  ∀ ws rest, s.draws = ws ++ rest → ws.length = vs.length → vs = ws ∧ t.draws = rest

/-- A bus cycle start. -/
def Event.isCycle : Event → Bool
  | .busCycle _ _ _ _ => true
  | _ => false

/-- A poll that reached its ceiling. -/
def Event.isBwe : Event → Bool
  | .bwe _ => true
  | _ => false

/-- The value of CMD's read of an offset. -/
def Event.readAt (off : Nat) : Event → Option Word
  | .read .cmd o v => if o = off then some v else none
  | _ => none

/-- The writes of SEQ_BUS that store a word, for the entries whose cycle was started (spec/41_seqbus.md R124, R125). -/
def busStores (p : Params) (dir : Dir) (es : List Entry) : List (Reg × Word) :=
  match p.laneMode with
  | .single => es.flatMap fun e => [(.spiDevice, e.dev), (.spiAddress, addressWord p dir e.addr)]
  | .composite => []

/-- The bus cycles of entries, in order (R124, R125). -/
def busCycles (dir : Dir) (es : List Entry) : List Event := es.map fun e => .busCycle e.dev e.addr e.data dir

/-! The polls and the entries of a batch. -/

/-- Reads of STATUS, with the words they returned, as events (spec/41_seqbus.md R120). -/
def statusReads (p : Params) (vs : List Word) : List Event := vs.map fun v => .read .cmd (p.off .status) v

/-- Did a bus poll that read the STATUS words `vs` reach its ceiling (R120)? -/
def pollExceeded (p : Params) (vs : List Word) : Bool := vs.all fun v => v &&& p.spiBusy != 0

/-- `vs` are STATUS words that one bus poll may read (R120): at most `SPIN_BUS`, the bus busy in every word but
perhaps the last, and exactly `SPIN_BUS` where it is busy in the last as well. -/
structure PollWords (p : Params) (vs : List Word) : Prop where
  bounded : vs.length ≤ p.spinBus
  busy : ∀ v ∈ vs.dropLast, v &&& p.spiBusy ≠ 0
  ceiling : pollExceeded p vs = true → vs.length = p.spinBus

/-- What such a poll records: its reads, and BWE at its ceiling under both policies (R121). -/
def pollEvents (p : Params) (place : Where) (vs : List Word) : List Event :=
  statusReads p vs ++ if pollExceeded p vs then [.bwe place] else []

/-- Does the command give up after such a poll (R121)? -/
def pollFails (p : Params) (vs : List Word) : Bool := pollExceeded p vs && p.timeoutPolicy == .fail

/-- The events of one cycle: its framing writes and its start (R124, R125). -/
def cycleEvents (p : Params) (dir : Dir) (e : Entry) : List Event :=
  (match p.laneMode with
    | .single => [.write .cmd (p.off .spiDevice) e.dev, .write .cmd (p.off .spiAddress) (addressWord p dir e.addr),
        .write .cmd (p.off .spiData) e.data]
    | .composite => [.write .cmd (p.off (.spiLane e.dev.toNat)) (laneWord p dir e)])
    ++ [.busCycle e.dev e.addr e.data dir]

/-- The words of SPI_RESULT read for one entry: one of a READ batch, else none (R126). -/
def backWords (dir : Dir) (v : Word) : List Word := if dir = .read then [v] else []

/-- The entries `es` of a batch, from entry `k` on, record `events` and read the words `words`, in order (R127): of each
entry the poll before its cycle, the cycle, the poll after it and the read-back; a poll that gives up is the last. -/
inductive BatchSteps (p : Params) (dir : Dir) : Nat → List Entry → List Event → List Word → Prop
  | done (k : Nat) : BatchSteps p dir k [] [] []
  | preFails (k : Nat) (e : Entry) (es : List Entry) (xs : List Word) (hx : PollWords p xs)
      (fx : pollFails p xs = true) : BatchSteps p dir k (e :: es) (pollEvents p (.pre k) xs) xs
  | postFails (k : Nat) (e : Entry) (es : List Entry) (xs ys : List Word) (hx : PollWords p xs)
      (fx : pollFails p xs = false) (hy : PollWords p ys) (fy : pollFails p ys = true) :
      BatchSteps p dir k (e :: es) (pollEvents p (.pre k) xs ++ cycleEvents p dir e ++ pollEvents p (.post k) ys)
        (xs ++ ys)
  | entry (k : Nat) (e : Entry) (es : List Entry) (xs ys : List Word) (v : Word) (events : List Event)
      (words : List Word) (hx : PollWords p xs) (fx : pollFails p xs = false) (hy : PollWords p ys)
      (fy : pollFails p ys = false) (rest : BatchSteps p dir (k + 1) es events words) :
      BatchSteps p dir k (e :: es)
        (pollEvents p (.pre k) xs ++ cycleEvents p dir e ++ pollEvents p (.post k) ys
          ++ (backWords dir v).map (Event.read .cmd (p.off .spiResult)) ++ events)
        (xs ++ ys ++ backWords dir v ++ words)

/-- A batch of SEQ_BUS that passes validation (spec/41_seqbus.md R122, R123), of a valid configuration. -/
def ValidBatch (p : Params) (nw nr : Word) (entries : List Entry) : Prop :=
  p.valid = true ∧ entries.length = 16 ∧ (nw = 0 ∨ nr = 0) ∧ nw.toNat ≤ 16 ∧ nr.toNat ≤ 16 ∧
    ∀ e ∈ entries.take (nw.toNat + nr.toNat),
      e.dev.toNat < 2 ^ p.devW ∧ e.addr.toNat < 2 ^ p.addrW ∧ e.data.toNat < 2 ^ p.dataW

/-- What the other agents own is as it was: OPEN, the port, the counter, ILOCK, the handler's position and the two
interrupt bits (R20). -/
structure OthersKept (s t : State) : Prop where
  isOpen : t.isOpen = s.isOpen
  port : t.port = s.port
  icount : t.icount = s.icount
  ilock : t.ilock = s.ilock
  irqPhase : t.irqPhase = s.irqPhase
  intEn : t.intEn = s.intEn
  intPend : t.intPend = s.intPend

/-- The events that take a step of their own (spec/00_scope.md R17): a bus cycle's start is part of the register write
that starts it (spec/40_register_interface.md R102), and BWE of its poll's last read (log 23). -/
def Event.takesStep : Event → Bool
  | .busCycle _ _ _ _ => false
  | .bwe _ => false
  | .read _ _ _ => true
  | .write _ _ _ => true
  | .delay _ => true
  | .complete => true
  | .handlerEntry => true
  | .handlerExit => true
  | .accept _ => true
  | .result _ _ => true
  | .attach _ => true
  | .opened _ => true
  | .closed => true
  | .detached => true

/-- An infinite run of single steps (spec/60_exceptions.md R209): the moves taken, and the state before each. -/
def InfiniteRun (moves : Nat → Move) (run : Nat → AtomicState) : Prop :=
  ∀ n, atomicStep (moves n) (run n) = .next (run (n + 1))

/-- The outcome Hang of R209: from some point of the run on, one command is between its acceptance and its result, BLOCK
held (R74), and never returns. -/
def Hangs (run : Nat → AtomicState) : Prop := ∃ n, ∀ m, n ≤ m → (run m).machine.blk = .held

/-- Weak fairness towards an agent (R209, spec/20_memory.md R76): again and again it has no step, or its turn comes. -/
def FairTo (t : Turn) (hasStep : State → Bool) (moves : Nat → Move) (run : Nat → AtomicState) : Prop :=
  ∀ n, ∃ m, n ≤ m ∧ (hasStep (run m).machine = false ∨ moves m = .agent t)

end Sys2Proof.Machine

namespace Sys2Proof

open Machine

/-- The storage registers a command writes, by their offsets (spec/41_seqbus.md R127, spec/42_capture_dma.md R147 to
R153, spec/43_session.md R170 to R179); the addresses are computed as its meaning computes them. -/
def Instr.storedOffsets (p : Params) : Instr → List Nat
  | .resetFull => [p.off .modeConfig]
  | .resetClear => [p.off .modeConfig]
  | .configure _ _ _ _ _ _ =>
    [p.off .dmaWrAddr, p.off .dmaSize, p.off .captureCount, p.off .delayCount, p.off .peakStart, p.off .peakEnd,
     p.off .modeConfig]
  | .runScan _ _ _ => [p.off .dmaRdAddr, p.off .dmaSize, p.off .modeConfig]
  | .dmaSelfTest _ => [p.off .dmaRdAddr, p.off .dmaWrAddr, p.off .dmaSize, p.off .modeConfig]
  | .triggerPps _ => [p.off .modeConfig]
  | .seqBus _ _ _ => if p.laneMode = .single then [p.off .spiDevice, p.off .spiAddress] else []
  | .readStatus => []
  | .debugRd _ _ => []
  | .debugWr roff _ => if (p.regAt roff.toNat).kind = .storage then [p.off (p.regAt roff.toNat)] else []
  | .readMaxMin => []
  | .tapRead _ => []
  | .tapWrite devid _ => [p.off (.tap0 devid.toNat), p.off (.tap1 devid.toNat)]
  | .readWindow _ => []
  | .completionCount => []

/-- The commands that write CFG (spec/10_state.md R21, R36). -/
def Instr.writesCfg : Instr → Bool
  | .resetFull => true
  | .resetClear => true
  | .configure _ _ _ _ _ _ => true
  | .runScan _ _ _ => true
  | .dmaSelfTest _ => true
  | .triggerPps _ => true
  | .seqBus _ _ _ => false
  | .readStatus => false
  | .debugRd _ _ => false
  | .debugWr _ _ => false
  | .readMaxMin => false
  | .tapRead _ => false
  | .tapWrite _ _ => false
  | .readWindow _ => false
  | .completionCount => false

/-- The commands that write INT_CTRL: CONFIGURE (R150), and DEBUG.WR where it names INT_CTRL (R172). -/
def Instr.writesIntCtrl (p : Params) : Instr → Bool
  | .configure _ _ _ _ _ _ => true
  | .completionCount => false
  | .debugWr roff _ => (p.regAt roff.toNat).kind == .command
  | .resetFull => false
  | .resetClear => false
  | .runScan _ _ _ => false
  | .dmaSelfTest _ => false
  | .triggerPps _ => false
  | .seqBus _ _ _ => false
  | .readStatus => false
  | .debugRd _ _ => false
  | .readMaxMin => false
  | .tapRead _ => false
  | .tapWrite _ _ => false
  | .readWindow _ => false

/-- The commands whose answer depends on what the handler did: COMPLETION_COUNT (R179), and DEBUG.RD where it names
INT_CTRL (R42). -/
def Instr.seesIrq (p : Params) : Instr → Bool
  | .completionCount => true
  | .debugRd roff _ => (p.regAt roff.toNat).kind == .command
  | .configure _ _ _ _ _ _ => false
  | .debugWr _ _ => false
  | .resetFull => false
  | .resetClear => false
  | .runScan _ _ _ => false
  | .dmaSelfTest _ => false
  | .triggerPps _ => false
  | .seqBus _ _ _ => false
  | .readStatus => false
  | .readMaxMin => false
  | .tapRead _ => false
  | .tapWrite _ _ => false
  | .readWindow _ => false

/-- The operands a command can run with to a result (spec/60_exceptions.md R233, R234): DEBUG.RD and DEBUG.WR need an
offset of the register space, DEBUG.WR one it may write, and READ_WINDOW whole words. -/
def Instr.runnable (p : Params) : Instr → Bool
  | .debugRd roff _ => p.goodOffset roff.toNat
  | .debugWr roff data => p.goodOffset roff.toNat && (debugWriteRefusal p (p.regAt roff.toNat) data).isNone
  | .readWindow len => decide (len.toNat > p.readMax) || len.toNat % 4 == 0
  | .resetFull => true
  | .resetClear => true
  | .configure _ _ _ _ _ _ => true
  | .runScan _ _ _ => true
  | .dmaSelfTest _ => true
  | .triggerPps _ => true
  | .seqBus _ _ _ => true
  | .readStatus => true
  | .readMaxMin => true
  | .tapRead _ => true
  | .tapWrite _ _ => true
  | .completionCount => true

end Sys2Proof
end

