-- ==== Sys2Proof/Certificates/Slice0/Obligations.lean ====
section
/-! DEFINITION. The statements for the provers, from the numbered rules of spec/: decoding, the command frame, the
register block, the values computed, one or more statements for each command, the interrupt, the session, and the whole
machine. "Calm" is a schedule without DETACH (`CanRun`), "quiet" one with no turn left and ILOCK free. A premise
`Params.valid` is the relations of spec/00_scope.md R7 with those of log 3. -/

open Sys2Proof Sys2Proof.Machine

/-! Decoding (spec/30_encoding.md). -/

/-- The examples of R98, word by word. -/
def Obligations.SampleWordsDecode : Prop :=
  decode true true [0x00000102, 0x00000081, 0x00000100, 0x00000010, 0x00000002]
      = .ok (.configure true none 0x81 0x100 16 2, []) ∧
  decode true true [0x00000202, 0x00000001, 0x00000000, 0x000003E8, 0x00000000, 0x00000005, 0x00011170]
      = .ok (.configure false (some (5, 70000)) 1 0 1000 0, []) ∧
  decode true true [0x00000101] = .ok (.resetFull, []) ∧
  decode true true [0x00000108, 0x00000014, 0x00000005] = .ok (.debugWr 0x14 0x5, []) ∧
  decode true true [0x0000000D] = .ok (.completionCount, []) ∧
  decode true true [0x00000401] = .error .reservedBits

/-- Decoding the encoding of a well-formed command of the variant gives it back, with every operand and whatever words
stand behind it. -/
def Obligations.DecodeOfEncode : Prop :=
  ∀ (mm tc : Bool) (i : Instr) (rest : List (Option Word)), i.wellFormed = true → i.op.present mm tc = true →
    decodeFrame mm tc ((encode i).map some ++ rest) = .command i rest

/-- A frame that decodes to a command is that command's encoding: no two frames spell one command. -/
def Obligations.EncodeOfDecode : Prop :=
  ∀ (mm tc : Bool) (port rest : List (Option Word)) (i : Instr), decodeFrame mm tc port = .command i rest →
    i.wellFormed = true ∧ i.op.present mm tc = true ∧ port = (encode i).map some ++ rest

/-- The headers that spell no command of the variant (R83, R92, R93, R99). -/
def Obligations.IllegalHeaders : Prop :=
  ∀ (mm tc : Bool) (h : Word),
    (∃ why, decodeHeader mm tc h = .error why) ↔
      ((h.extractLsb' 0 8).toNat = 0 ∨ 0x0D < (h.extractLsb' 0 8).toNat ∨ h.extractLsb' 10 22 ≠ 0 ∨
        (h.getLsbD 9 = true ∧ (h.extractLsb' 0 8).toNat ≠ 0x02) ∨
        (h.getLsbD 8 = true ∧ (h.extractLsb' 0 8).toNat ≠ 0x01 ∧ (h.extractLsb' 0 8).toNat ≠ 0x02 ∧
          (h.extractLsb' 0 8).toNat ≠ 0x08) ∨
        ((h.extractLsb' 0 8).toNat = 0x09 ∧ mm = false) ∨
        (((h.extractLsb' 0 8).toNat = 0x0A ∨ (h.extractLsb' 0 8).toNat = 0x0B) ∧ tc = false))

/-- The length of a frame (R84, R95): one word for an illegal or variant-absent header, else one and the operand words
of the opcode. -/
def Obligations.FrameLengths : Prop :=
  ∀ (mm tc : Bool) (h : Word) (rest : List (Option Word)),
    (∀ why h' r, decodeFrame mm tc (some h :: rest) = .illegal why h' r → h' = h ∧ r = rest) ∧
    (∀ i r, decodeFrame mm tc (some h :: rest) = .command i r →
      ∃ ws : List Word, rest = ws.map some ++ r ∧
        ws.length =
          (match (h.extractLsb' 0 8).toNat with
            | 0x02 => if h.getLsbD 9 then 6 else 4
            | 0x03 => 3
            | 0x04 => 1
            | 0x05 => 1
            | 0x06 => 50
            | 0x08 => 2
            | 0x0A => 1
            | 0x0B => 11
            | 0x0C => 1
            | _ => 0))

/-! The command frame (spec/40_register_interface.md). -/

/-- When the words at the port decode to a command and CMD may take it, the step is that command's meaning, with its
frame taken from the port and, where the schedule named the turn, the turn taken from it. That one step is the whole of
a command that runs, from its acceptance to its result, is the model's choice (log 4; `Obligations.SingleSteps` holds it
to the steps of R101), and that CMD steps when no turn is scheduled is too (log 5). Of a command turned away it is the
acceptance, and the result is CMD's next step (log 38; `Obligations.CommandsTurnedAway`). -/
def Obligations.StepRunsDecodedCommand : Prop :=
  ∀ (s : State) (i : Instr) (rest : List (Option Word)), mayAccept s = true → s.fetch = .command i rest →
    (s.sched = [] → step s = exec i { s with port := rest }) ∧
    (∀ l, s.sched = .cmd :: l → step s = exec i { s with sched := l, port := rest })

/-- A header that spells no command of the variant is consumed as one word and answered EILLEGAL (R92, R205), its
acceptance and its result two steps of CMD with the turns of the other agents between them (R17, R104, R108); `seq`
stays where it is (R25), a refusal of result words that is pending is spent, and nothing else changes but by those
turns. That CMD steps when no turn is scheduled, and that any result spends the refusal, are the model's choices (log 5,
log 24). -/
def Obligations.IllegalHeaderAnswered : Prop :=
  ∀ (s : State) (h : Word) (rest : List (Option Word)) (why : DecodeError), mayAccept s = true →
    s.port = some h :: rest → decodeHeader s.params.hasMaxMin s.params.hasTapCal h = .error why →
    FrameTurnedAway h .eillegal rest s

/-- An operand word that HOST fails to deliver ends the command with ECOPY before any transaction (R114, R206), its
acceptance and its result two steps of CMD with the turns of the other agents between them (R17, R104, R108); `seq`
stays where it is (R25), a refusal of result words that is pending is spent, and nothing else changes but by those
turns. That the words up to the failing one are consumed, in the step of the acceptance, that CMD steps when no turn is
scheduled, and that any result spends the refusal, are the model's choices (log 10, log 8, log 5, log 24). -/
def Obligations.UndeliveredOperandAnswered : Prop :=
  ∀ (s : State) (h : Word) (op : Op) (ws : List Word) (rest : List (Option Word)), mayAccept s = true →
    decodeHeader s.params.hasMaxMin s.params.hasTapCal h = .ok op → ws.length < op.operandCount →
    s.port = some h :: (ws.map some ++ none :: rest) →
    FrameTurnedAway h .ecopy rest s

/-- Result words that HOST refuses: the header carries ECOPY and no word follows, the transactions stand (R114); and no
command answers with words then. The last clause says so for every command and every schedule: beside a run whose result
carries `n` words, the same command in the same state with a refusal pending leaves the same state, history and
transactions, but for ECOPY and a count of 0 in the header and in the result event; a result without words is the same.
A command turned away leaves the refusal to its result, CMD's next step (`Obligations.CommandsTurnedAway`). That the
refusal is spent by the next result is the model's choice (log 24). -/
def Obligations.RefusedResult : Prop :=
  (∀ s : State, CanRun s → s.sched = [] → s.refuseOut = true →
    ∃ t v, exec .readStatus s = .next t ∧ t.portOut = s.portOut ++ [resultHeader .ecopy 0] ∧ t.refuseOut = false ∧
      cmdTrace t.hist =
        cmdTrace s.hist ++ [.accept 0x00000007, .read .cmd (s.params.off .status) v, .result .ecopy 0]) ∧
  (∀ (i : Instr) (s t : State), CanRun s → s.sched = [] → s.ilock = .free → s.refuseOut = true →
    exec i s = .next t → t.blk = .free →
    ∃ code, t.portOut = s.portOut ++ [resultHeader code 0] ∧ t.refuseOut = false) ∧
  (∀ (i : Instr) (s t : State), exec i s = .next t → t.blk = .held →
    exec i { s with refuseOut := true } = .next { t with refuseOut := true }) ∧
  (∀ (i : Instr) (s t : State), exec i s = .next t → t.blk = .free →
    ∃ h c n, t.hist = h ++ [.result c n] ∧
      (n = 0 → exec i { s with refuseOut := true } = .next t) ∧
      (0 < n → ∃ u o hdr words, c = .ok ∧ words.length = n ∧ t.portOut = o ++ hdr :: words ∧
        exec i { s with refuseOut := true } = .next u ∧
        u = { t with
              portOut := o ++ [resultHeader .ecopy 0]
              hist := h ++ [.result .ecopy 0]
              freeIx := u.freeIx } ∧
        (n < 2 ^ 16 → hdr = resultHeader .ok (BitVec.ofNat 16 n) ∧ u.freeIx = t.freeIx)))

/-- Whose turn it is (R26, R27, R209, R222), and what HOST's events do. A closed session takes no command; a scheduled
turn is that agent's step; HOST's words go to the port (R231), and its ATTACH with a configuration that is none of
this hardware is refused (log 19). R114 lets HOST refuse result words; that it decides so in a turn of its own, before
the result, and that the decision is remembered in a flag, is the model's choice (log 24), and so is that neither that
decision nor a submission of words is an event of the history (log 28). CMD's turn with no whole command at the port
and no result to send changes nothing (log 9), and a header slot whose word HOST did not deliver is dropped without a
result (log 10). With no turn left CMD steps if it can (`Obligations.StepRunsDecodedCommand`,
`Obligations.CommandsTurnedAway`), else IRQ does, else an attached core waits and a detached one is stuck. The
schedule as a list of turns, the order of the agents once it is used up, that a turn without a step is used up and
changes nothing, Stuck as an answer of a step, and the dropped header slot, on which the spec is silent, are the
model's choices (log 5, log 6, log 18, log 10). -/
def Obligations.TurnsOfTheAgents : Prop :=
  ∀ (s : State) (l : List Turn), s.seq = .idle →
    (s.sched = .cmd :: l → s.isOpen = false → s.blk = .free → step s = .next { s with sched := l }) ∧
    (s.sched = .irq :: l → step s = irqStep { s with sched := l }) ∧
    (s.sched = .dev :: l → step s = .next (devComplete { s with sched := l })) ∧
    (∀ e, s.sched = .host e :: l → step s = hostStep e { s with sched := l }) ∧
    (s.sched = [] → s.attached = false → step s = .fault .stuck) ∧
    (∀ words, s.sched = .host (.submit words) :: l → step s = .next { s with sched := l, port := s.port ++ words }) ∧
    (s.sched = .host .refuseResult :: l → step s = .next { s with sched := l, refuseOut := true }) ∧
    (∀ p allocated, s.sched = .host (.attach p allocated) :: l → s.attached = false → p.valid = false →
      step s = .refused .badConfiguration) ∧
    (∀ h, s.fetch = .nothing ∨ s.fetch = .incomplete h → s.blk = .free → s.sched = .cmd :: l →
      step s = .next { s with sched := l }) ∧
    (∀ h, s.fetch = .nothing ∨ s.fetch = .incomplete h → s.blk = .free → s.sched = [] → s.attached = true →
      irqEnabled s = false → step s = .next s) ∧
    (s.sched = [] → s.isOpen = false → s.blk = .free → irqEnabled s = true → step s = irqStep s) ∧
    (∀ h, s.fetch = .nothing ∨ s.fetch = .incomplete h → s.blk = .free → s.sched = [] → irqEnabled s = true →
      step s = irqStep s) ∧
    (s.sched = [] → s.isOpen = false → s.blk = .free → irqEnabled s = false → s.attached = true → step s = .next s) ∧
    (∀ rest, mayAccept s = true → s.port = none :: rest →
      (s.sched = [] → step s = .next { s with port := rest }) ∧
      (s.sched = .cmd :: l → step s = .next { s with sched := l, port := rest }))

/-- Why commands are turned away: EINVAL by its causes (R201), EILLEGAL where the variant lacks the command (R93); no
transaction is made, and no state changes but BLOCK, which is taken, and the history (R107); the command's meaning
ends there, `seq` as it was (R25), and its result, which frees BLOCK, is CMD's next step, the turns of the other
agents between the two (R17, R104, R108); a refusal of result words that is pending is spent by it. First, what every
result header is: the code in bits 7 to 0, by its number, zeros, and the count of words in bits 31 to 16 (R89, R90);
second, that result. That acceptance, latching and validation are one step, that the code waits in a field of State,
and that any result spends the refusal, are the model's choices (log 8, log 38, log 24). -/
def Obligations.CommandsTurnedAway : Prop :=
  (∀ (c : Code) (n : BitVec 16),
    (resultHeader c n).extractLsb' 0 8 = (match c with
      | .ok => 0x00
      | .einval => 0x01
      | .etimeout => 0x02
      | .eillegal => 0x03
      | .ecopy => 0x04
      | .enomem => 0x05) ∧
    (resultHeader c n).extractLsb' 8 8 = 0 ∧ (resultHeader c n).extractLsb' 16 16 = n) ∧
  (∀ (header : Word) (code : Code) (s : State), code ≠ .ok → s.attached = true → s.seq = .idle →
    AnsweredNext header code s) ∧
  ∀ s : State,
    let p := s.params
    (∀ irq peak cfgbits offset count delay, p.bufLen < offset.toNat + count.toNat * p.sampleWidth →
      exec (.configure irq peak cfgbits offset count delay) s
        = .next (awaiting (Instr.header (.configure irq peak cfgbits offset count delay)) .einval s)) ∧
    (∀ cfgbits offset count, p.bufLen < offset.toNat + count.toNat * p.sampleWidth →
      exec (.runScan cfgbits offset count) s = .next (awaiting 0x00000003 .einval s)) ∧
    (∀ size, p.bufLen < size.toNat → exec (.dmaSelfTest size) s = .next (awaiting 0x00000004 .einval s)) ∧
    (∀ value, value ≠ 1 → value ≠ 2 → exec (.triggerPps value) s = .next (awaiting 0x00000005 .einval s)) ∧
    (∀ nw nr entries, nw ≠ 0 → nr ≠ 0 → exec (.seqBus nw nr entries) s = .next (awaiting 0x00000006 .einval s)) ∧
    (∀ nw nr entries, 16 < nw.toNat ∨ 16 < nr.toNat →
      exec (.seqBus nw nr entries) s = .next (awaiting 0x00000006 .einval s)) ∧
    (∀ nw nr entries (k : Nat) (e : Entry), k < nw.toNat ∨ k < nr.toNat → entries[k]? = some e →
      2 ^ p.devW ≤ e.dev.toNat ∨ 2 ^ p.addrW ≤ e.addr.toNat ∨ 2 ^ p.dataW ≤ e.data.toNat →
      exec (.seqBus nw nr entries) s = .next (awaiting 0x00000006 .einval s)) ∧
    (∀ len, p.readMax < len.toNat → exec (.readWindow len) s = .next (awaiting 0x0000000C .einval s)) ∧
    (p.hasMaxMin = false → exec .readMaxMin s = .next (awaiting 0x00000009 .eillegal s)) ∧
    (∀ devid, (p.hasTapCal = false → exec (.tapRead devid) s = .next (awaiting 0x0000000A .eillegal s)) ∧
      (p.hasTapCal = true → p.tapDevMax ≤ devid.toNat →
        exec (.tapRead devid) s = .next (awaiting 0x0000000A .einval s))) ∧
    (∀ devid taps, (p.hasTapCal = false → exec (.tapWrite devid taps) s = .next (awaiting 0x0000000B .eillegal s)) ∧
      (p.hasTapCal = true →
        p.tapDevMax ≤ devid.toNat ∨ (∃ k t, k < p.ntaps ∧ taps[k]? = some t ∧ 16 ≤ t.toNat) →
        exec (.tapWrite devid taps) s = .next (awaiting 0x0000000B .einval s)))

/-- The operands that stop the machine (R63, R171, R172, R174, R233). The third clause names the offsets that DEBUG.WR
may not write in a valid configuration (R33, R34, R53, R54): STATUS, SPI_RESULT, each MAXMIN there is, the words of
the FIFO window, and every offset of no register. Where SPI_RESULT shares the offset of SPI_DATA the offset names
SPI_DATA, the model's choice (log 13). -/
def Obligations.OperandsThatStop : Prop :=
  ∀ (s : State) (roff data : Word),
    (roff.toNat % 4 ≠ 0 ∨ s.params.regSpace ≤ roff.toNat →
      exec (.debugRd roff data) s = .fault (.badRegOffset roff.toNat) ∧
      exec (.debugWr roff data) s = .fault (.badRegOffset roff.toNat)) ∧
    (roff.toNat % 4 = 0 → roff.toNat < s.params.regSpace →
      ((s.params.regAt roff.toNat).kind = .deviceDriven ∨ (s.params.regAt roff.toNat).kind = .unassigned →
        exec (.debugWr roff data) s = .refused (.writeToReadOnly roff.toNat)) ∧
      (s.params.regAt roff.toNat = .intCtrl → data ≠ s.params.intEnable → data ≠ s.params.intDisable →
        data ≠ s.params.intClear → exec (.debugWr roff data) s = .refused (.badIntCtrlValue data))) ∧
    (s.params.valid = true → roff.toNat % 4 = 0 → roff.toNat < s.params.regSpace →
      roff.toNat = s.params.off .status ∨
        (roff.toNat = s.params.off .spiResult ∧ s.params.off .spiResult ≠ s.params.off .spiData) ∨
        (s.params.hasMaxMin = true ∧ ∃ i, i < 12 ∧ roff.toNat = s.params.off (.maxMin i)) ∨
        (s.params.regOff.fifoWin ≤ roff.toNat ∧
          roff.toNat < s.params.regOff.fifoWin + s.params.fifoWinLen) ∨
        (∀ r ∈ s.params.registers, roff.toNat ≠ s.params.off r) →
      exec (.debugWr roff data) s = .refused (.writeToReadOnly roff.toNat)) ∧
    (∀ len : Word, len.toNat ≤ s.params.readMax → len.toNat % 4 ≠ 0 →
      exec (.readWindow len) s = .refused (.unalignedWindowLength len))

/-! The register block (spec/10_state.md, spec/20_memory.md). -/

/-- Of a valid configuration every register has an aligned offset in the space, which names that register (SPI_RESULT
may share the offset of SPI_DATA, R49; the offset then names SPI_DATA, the model's choice, log 13); every offset names
what stands at it; the reference configuration is valid (R7, R33, R54). -/
def Obligations.RegisterMap : Prop :=
  Params.ref.valid = true ∧
  ∀ p : Params,
    (∀ o, p.off (p.regAt o) = o) ∧
    (p.valid = true → ∀ r ∈ p.registers, p.off r % 4 = 0 ∧ p.off r < p.regSpace ∧
      (p.regAt (p.off r) = r ∨ (r = .spiResult ∧ p.off .spiResult = p.off .spiData ∧ p.regAt (p.off r) = .spiData)))

/-- A storage register reads back the last word written, by whichever agent, as four little-endian bytes of the register
space; a read before any write, or without read-back, is a draw; no other byte changes (R34, R58, R61). -/
def Obligations.StorageRegisters : Prop :=
  ∀ (a b : Agent) (r : Reg) (v : Word) (s : State), s.attached = true → r.kind = .storage →
    (s.stored r = none ∨ s.params.storageReadBack = false → s.readValue r = s.drawn) ∧
    ∃ t, regWrite a r v s = .next t ∧ t.stored r = some v ∧
      (∀ j, j < 4 → Memory.byteAt t.regs (s.params.off r + j) = some (v.extractLsb' (8 * j) 8)) ∧
      (∀ x, x < s.params.off r ∨ s.params.off r + 4 ≤ x → Memory.byteAt t.regs x = Memory.byteAt s.regs x) ∧
      (Memory.wf s.regs = true → Memory.wf t.regs = true) ∧
      (s.params.storageReadBack = true → ∃ u, regRead b r t = .next (v, u) ∧ u.regs = t.regs ∧ u.draws = t.draws)

/-- INT_CTRL takes three values, each a command to the interrupt logic, and reads as enable and pending (R41, R42). -/
def Obligations.InterruptControl : Prop :=
  ∀ (a : Agent) (s : State), s.attached = true → s.params.valid = true →
    let p := s.params
    let logged := fun v => s.hist ++ [Event.write a (p.off .intCtrl) v]
    regWrite a .intCtrl p.intEnable s = .next { s with intEn := true, hist := logged p.intEnable } ∧
    regWrite a .intCtrl p.intDisable s = .next { s with intEn := false, hist := logged p.intDisable } ∧
    regWrite a .intCtrl p.intClear s = .next { s with intPend := false, hist := logged p.intClear } ∧
    (∀ v, v ≠ p.intEnable → v ≠ p.intDisable → v ≠ p.intClear →
      regWrite a .intCtrl v s = .refused (.badIntCtrlValue v)) ∧
    ∃ v u, regRead a .intCtrl s = .next (v, u) ∧ v.toNat = 2 * s.intPend.toNat + s.intEn.toNat ∧ u.draws = s.draws

/-- With the register block unmapped every transaction faults (R109). -/
def Obligations.RegisterBlockRevoked : Prop :=
  ∀ (a : Agent) (r : Reg) (v : Word) (s : State), s.attached = false →
    regRead a r s = .fault .registerBlockRevoked ∧ regWrite a r v s = .fault .registerBlockRevoked

/-! The values computed (spec/42_capture_dma.md, spec/43_session.md). -/

/-- The masked merge, bit by bit, and its laws (R140, R155). -/
def Obligations.MergeLaws : Prop :=
  ∀ s m m1 m2 mask : Word,
    (∀ k, (merge s m mask).getLsbD k = if mask.getLsbD k then m.getLsbD k else s.getLsbD k) ∧
    merge (merge s m1 mask) m2 mask = merge s m2 mask ∧
    merge s m mask &&& ~~~mask = s &&& ~~~mask

/-- The peak clamp (R144). -/
def Obligations.PeakClamp : Prop :=
  ∀ (p : Params) (b : Word),
    (b.toNat ≤ p.peakSent.toNat → peakBound p (some b) = b) ∧
    (p.peakSent.toNat < b.toNat → peakBound p (some b) = p.peakSent) ∧
    clampPeak p (clampPeak p b) = clampPeak p b ∧ (clampPeak p b).toNat ≤ p.peakSent.toNat ∧
    peakBound p none = p.peakSent

/-- A transfer that passes the capacity check has its exact size and an address inside the buffer, or the address 0 at
the very end of the address space (R142, R143, R145). -/
def Obligations.TransferSizeAndAddress : Prop :=
  ∀ (p : Params) (offset count : Word), p.bufBase + p.bufLen ≤ 2 ^ 32 → p.bufLen < 2 ^ 32 → 0 < p.sampleWidth →
    offset.toNat + count.toNat * p.sampleWidth ≤ p.bufLen →
    (transferSize p count).toNat = count.toNat * p.sampleWidth ∧
    (dmaAddr p offset).toNat = (p.bufBase + offset.toNat) % 2 ^ 32 ∧
    (p.bufBase + offset.toNat < 2 ^ 32 → (dmaAddr p offset).toNat = p.bufBase + offset.toNat) ∧
    (2 ^ 32 ≤ p.bufBase + offset.toNat → offset.toNat = p.bufLen ∧ count = 0 ∧ dmaAddr p offset = 0)

/-- Unpacking packed taps gives each tap back, absent taps are packed as 0, and the second word has only two nibbles
(R50, R176). -/
def Obligations.TapPacking : Prop :=
  ∀ (p : Params) (taps : List Word), p.ntaps ≤ 10 → (∀ i, i < p.ntaps → (taps.getD i 0).toNat < 16) →
    (∀ i, i < p.ntaps → unpackTap (pack0 p taps) (pack1 p taps) i = taps.getD i 0) ∧
    (∀ i, p.ntaps ≤ i → i < 10 → unpackTap (pack0 p taps) (pack1 p taps) i = 0) ∧
    (pack1 p taps).toNat < 2 ^ 8

/-! The commands, under every calm schedule (spec/42_capture_dma.md). -/

/-- RESET.FULL (R147). -/
def Obligations.ResetFullResult : Prop :=
  ∀ s : State, CanRun s →
    let w : List (Reg × Word) := [(.modeConfig, s.params.resetFlag)]
    ∃ t, exec .resetFull s = .next t ∧ Answers .resetFull (cmdWrites s.params w) .ok [] s t ∧
      t.cfg = s.params.resetFlag ∧ t.regs = Memory.storeRegs s.regs s.params w ∧
      (s.sched = [] → s.ilock = .free → OthersKept s t)

/-- RESET.CLEAR (R148). -/
def Obligations.ResetClearResult : Prop :=
  ∀ s : State, CanRun s →
    let w : List (Reg × Word) := [(.modeConfig, s.cfg &&& ~~~s.params.resetFlag)]
    ∃ t, exec .resetClear s = .next t ∧ Answers .resetClear (cmdWrites s.params w) .ok [] s t ∧
      t.cfg = s.cfg &&& ~~~s.params.resetFlag ∧ t.regs = Memory.storeRegs s.regs s.params w ∧
      (s.sched = [] → s.ilock = .free → OthersKept s t)

/-- CONFIGURE (R149, R150): every write in its order, a count of zero included (R154). With nothing else scheduled the
interrupt ends armed with nothing pending, or disabled with the pending bit as it was. Under every calm schedule its
INT_CTRL writes are made under ILOCK (R75, R215): every handler run that began before them has ended before them, and
from the first to the last of them IRQ does nothing. That the handler takes its steps where CMD waits on ILOCK and no
turn is left is the model's choice (log 30). -/
def Obligations.ConfigureResult : Prop :=
  ∀ (irq : Bool) (peak : Option (Word × Word)) (cfgbits offset count delay : Word) (s : State),
    CanRun s → s.params.valid = true → offset.toNat + count.toNat * s.params.sampleWidth ≤ s.params.bufLen →
    let p := s.params
    let bound := fun b : Option Word => match b with
      | some x => if x.toNat ≤ p.peakSent.toNat then x else p.peakSent
      | none => p.peakSent
    let mode := (s.cfg &&& ~~~p.confMask) ||| (cfgbits &&& p.confMask)
    let w : List (Reg × Word) :=
      [(.dmaWrAddr, BitVec.ofNat 32 (p.bufBase + offset.toNat)),
       (.dmaSize, BitVec.ofNat 32 (count.toNat * p.sampleWidth)),
       (.captureCount, count), (.delayCount, delay),
       (.peakStart, bound (peak.map Prod.fst)), (.peakEnd, bound (peak.map Prod.snd)), (.modeConfig, mode)]
    let ints : List (Reg × Word) :=
      if irq then [(.intCtrl, p.intClear), (.intCtrl, p.intEnable)] else [(.intCtrl, p.intDisable)]
    ∃ t, exec (.configure irq peak cfgbits offset count delay) s = .next t ∧
      Answers (.configure irq peak cfgbits offset count delay) (cmdWrites p (w ++ ints)) .ok [] s t ∧
      t.cfg = mode ∧ t.regs = Memory.storeRegs s.regs p w ∧
      (s.sched = [] → s.ilock = .free →
        t.intEn = irq ∧ t.intPend = (if irq then false else s.intPend) ∧ t.icount = s.icount ∧
          t.irqPhase = s.irqPhase ∧ t.ilock = .free ∧ t.isOpen = s.isOpen ∧ t.port = s.port) ∧
      (∀ base, CountsRuns base s →
        ∃ pre mid post, t.hist = s.hist ++ pre ++ mid ++ post ∧ cmdTrace mid = cmdWrites p ints ∧
          (∀ e ∈ mid, e.byIrq = false) ∧ handlerEntries (s.hist ++ pre) = handlerRuns (s.hist ++ pre) ∧
          CountsRuns base t)

/-- RUN_SCAN (R151). Where RS_MASK holds neither the reset nor the trigger bits, the caller's are discarded and CFG's
kept; that a configuration need not have such a mask is the model's choice (log 39). -/
def Obligations.RunScanResult : Prop :=
  ∀ (cfgbits offset count : Word) (s : State),
    CanRun s → offset.toNat + count.toNat * s.params.sampleWidth ≤ s.params.bufLen →
    let p := s.params
    let mode := (s.cfg &&& ~~~p.rsMask) ||| (cfgbits &&& p.rsMask)
    let w : List (Reg × Word) :=
      [(.dmaRdAddr, BitVec.ofNat 32 (p.bufBase + offset.toNat)),
       (.dmaSize, BitVec.ofNat 32 (count.toNat * p.sampleWidth)), (.modeConfig, mode)]
    ∃ t, exec (.runScan cfgbits offset count) s = .next t ∧
      Answers (.runScan cfgbits offset count) (cmdWrites p w) .ok [] s t ∧
      t.cfg = mode ∧ t.regs = Memory.storeRegs s.regs p w ∧
      (p.rsMask &&& (p.resetFlag ||| p.dmaTrigger) = 0 →
        t.cfg &&& (p.resetFlag ||| p.dmaTrigger) = s.cfg &&& (p.resetFlag ||| p.dmaTrigger)) ∧
      (s.sched = [] → s.ilock = .free → OthersKept s t)

/-- DMA_SELF_TEST (R152): it reads STATUS until the DMA-done bit or the ceiling, and clears the trigger in every case.
-/
def Obligations.DmaSelfTestResult : Prop :=
  ∀ (size : Word) (s : State), CanRun s → size.toNat ≤ s.params.bufLen →
    let p := s.params
    let w : List (Reg × Word) :=
      [(.dmaRdAddr, BitVec.ofNat 32 p.bufBase), (.dmaWrAddr, BitVec.ofNat 32 p.bufBase), (.dmaSize, size),
       (.modeConfig, s.cfg ||| p.dmaTrigger)]
    let last : List (Reg × Word) := [(.modeConfig, s.cfg &&& ~~~p.dmaTrigger)]
    ∃ t vs, exec (.dmaSelfTest size) s = .next t ∧
      let seen := vs.any fun v : Word => v &&& p.dmaDone != 0
      vs.length ≤ p.spinDma ∧ (∀ v ∈ vs.dropLast, v &&& p.dmaDone = 0) ∧ (seen = false → vs.length = p.spinDma) ∧
      Answers (.dmaSelfTest size)
        (cmdWrites p w ++ vs.map (fun v => .read .cmd (p.off .status) v) ++ (if seen then [] else [.bwe .selfTest])
          ++ cmdWrites p last)
        (if seen ∨ p.timeoutPolicy = .proceed then .ok else .etimeout) [] s t ∧
      Drawn vs s t ∧ t.cfg = s.cfg &&& ~~~p.dmaTrigger ∧ t.regs = Memory.storeRegs s.regs p (w ++ last) ∧
      (s.sched = [] → s.ilock = .free → OthersKept s t)

/-- TRIGGER_PPS (R153): the PPS bits are replaced by the selected ones. Where PPS_MASK is the two flags and these are
disjoint, the selected flag is set, the other cleared and every other bit kept; that a configuration need not have such
a mask is the model's choice (log 39). -/
def Obligations.TriggerPpsResult : Prop :=
  ∀ (value : Word) (s : State), CanRun s → value = 1 ∨ value = 2 →
    let p := s.params
    let mode := (s.cfg &&& ~~~p.ppsMask) ||| ((if value = 1 then p.ppsGen else p.ppsTrig) &&& p.ppsMask)
    let w : List (Reg × Word) := [(.modeConfig, mode)]
    ∃ t, exec (.triggerPps value) s = .next t ∧ Answers (.triggerPps value) (cmdWrites p w) .ok [] s t ∧
      t.cfg = mode ∧ t.regs = Memory.storeRegs s.regs p w ∧
      (p.ppsMask = p.ppsGen ||| p.ppsTrig → p.ppsGen &&& p.ppsTrig = 0 →
        t.cfg &&& p.ppsGen = (if value = 1 then p.ppsGen else 0) ∧
        t.cfg &&& p.ppsTrig = (if value = 1 then 0 else p.ppsTrig) ∧
        t.cfg &&& ~~~(p.ppsGen ||| p.ppsTrig) = s.cfg &&& ~~~(p.ppsGen ||| p.ppsTrig)) ∧
      (s.sched = [] → s.ilock = .free → OthersKept s t)

/-! SEQ_BUS (spec/41_seqbus.md). -/

/-- SEQ_BUS on a valid batch (R127, R128, R130): the cycles of the first `n` entries, in order, their registers
stored, and OK with the masked reads of SPI_RESULT in entry order for a read batch; or, under FAIL alone, ETIMEOUT at
the first poll that reached its ceiling, its cycle started exactly if the poll came after it. `BatchSteps` says every
event of it, in order: of each poll its bounded reads of STATUS, the last of them the first idle one, and BWE after
exactly SPIN_BUS busy ones under both policies (R120, R121, R130). -/
def Obligations.SeqBusResult : Prop :=
  ∀ (nw nr : Word) (entries : List Entry) (s : State), CanRun s → s.takesResult = true →
    ValidBatch s.params nw nr entries →
    let p := s.params
    let count := nw.toNat + nr.toNat
    let dir := if nw ≠ 0 then Dir.write else Dir.read
    ∃ t txns code words n, exec (.seqBus nw nr entries) s = .next t ∧
      Answers (.seqBus nw nr entries) txns code words s t ∧
      n ≤ count ∧ txns.filter Event.isCycle = busCycles dir (entries.take n) ∧
      (∃ ws, BatchSteps p dir 0 (entries.take count) txns ws ∧ Drawn ws s t) ∧
      t.regs = Memory.storeRegs s.regs p (busStores p dir (entries.take n)) ∧ t.cfg = s.cfg ∧
      (code = .ok ∨ code = .etimeout) ∧
      (code = .etimeout ↔ p.timeoutPolicy = .fail ∧ ∃ e ∈ txns, e.isBwe = true) ∧
      (code = .ok → n = count ∧ words.length = (if dir = .read then count else 0) ∧
        words = (txns.filterMap (Event.readAt (p.off .spiResult))).map (· &&& p.readbackMask)) ∧
      (code = .etimeout → words = [] ∧ ∃ place, txns.getLast? = some (.bwe place) ∧
        ((place = .pre n ∧ n < count) ∨ ∃ m, n = m + 1 ∧ place = .post m)) ∧
      (s.sched = [] → s.ilock = .free → OthersKept s t)

/-- SEQ_BUS when every poll sees the bus idle at its first read (R124 to R126, R131, R132): its exact transactions and
result. For each entry `ws` holds the STATUS word of the poll before its cycle, that of the poll after it, and the word
of SPI_RESULT. -/
def Obligations.SeqBusIdleTransactions : Prop :=
  ∀ (nw nr : Word) (entries : List Entry) (s : State) (ws : List (Word × Word × Word)) (rest : List Word),
    CanRun s → s.takesResult = true → ValidBatch s.params nw nr entries →
    ws.length = nw.toNat + nr.toNat →
    (∀ w ∈ ws, w.1 &&& s.params.spiBusy = 0 ∧ w.2.1 &&& s.params.spiBusy = 0) →
    let p := s.params
    let dir := if nw ≠ 0 then Dir.write else Dir.read
    s.draws = (ws.flatMap fun w => if dir = .read then [w.1, w.2.1, w.2.2] else [w.1, w.2.1]) ++ rest →
    let poll := fun z : Word => Event.read .cmd (p.off .status) z
    let word := fun e : Entry => (if dir = .read then (1 : Word) <<< p.dirBit else 0) ||| e.addr
    let lane := fun e : Entry =>
      (if dir = .read then (1 : Word) <<< p.dirBit else 0) ||| (e.addr <<< p.dataW) ||| e.data
    let cycle := fun e : Entry =>
      (if p.laneMode = .single then
        [Event.write .cmd (p.off .spiDevice) e.dev, .write .cmd (p.off .spiAddress) (word e),
         .write .cmd (p.off .spiData) e.data]
      else [Event.write .cmd (p.off (.spiLane e.dev.toNat)) (lane e)]) ++ [.busCycle e.dev e.addr e.data dir]
    ∃ t, exec (.seqBus nw nr entries) s = .next t ∧
      Answers (.seqBus nw nr entries)
        ((entries.zip ws).flatMap fun x =>
          poll x.2.1 :: (cycle x.1 ++ poll x.2.2.1 ::
            if dir = .read then [.read .cmd (p.off .spiResult) x.2.2.2] else []))
        .ok (if dir = .read then ws.map (fun w => w.2.2 &&& p.readbackMask) else []) s t ∧
      t.draws = rest

/-- SEQ_BUS under FAIL when the first poll never sees the bus idle (R121, R127): SPIN_BUS reads, the BWE event, no
cycle, ETIMEOUT. `zs` are the busy STATUS words. -/
def Obligations.SeqBusFirstPollTimeout : Prop :=
  ∀ (nw nr : Word) (entries : List Entry) (s : State) (zs rest : List Word),
    CanRun s → ValidBatch s.params nw nr entries → nw ≠ 0 ∨ nr ≠ 0 →
    s.params.timeoutPolicy = .fail → zs.length = s.params.spinBus → (∀ z ∈ zs, z &&& s.params.spiBusy ≠ 0) →
    s.draws = zs ++ rest →
    ∃ t, exec (.seqBus nw nr entries) s = .next t ∧
      Answers (.seqBus nw nr entries)
        (zs.map (fun z => .read .cmd (s.params.off .status) z) ++ [.bwe (.pre 0)]) .etimeout [] s t ∧
      t.regs = s.regs ∧ t.cfg = s.cfg ∧ t.draws = rest

/-! The session commands (spec/43_session.md). -/

/-- READ_STATUS (R170): one read, its value returned whole. -/
def Obligations.ReadStatusResult : Prop :=
  ∀ s : State, CanRun s → s.takesResult = true →
    ∃ t v, exec .readStatus s = .next t ∧
      Answers .readStatus [.read .cmd (s.params.off .status) v] .ok [v] s t ∧ Drawn [v] s t ∧
      t.regs = s.regs ∧ t.cfg = s.cfg ∧ (s.sched = [] → s.ilock = .free → OthersKept s t)

/-- DEBUG.RD of any offset but INT_CTRL's (R171): the stored word where there is one to read back, else a draw. -/
def Obligations.DebugRdResult : Prop :=
  ∀ (roff data : Word) (s : State), CanRun s → s.takesResult = true → roff.toNat % 4 = 0 →
    roff.toNat < s.params.regSpace → s.params.regAt roff.toNat ≠ .intCtrl →
    let r := s.params.regAt roff.toNat
    ∃ t v, exec (.debugRd roff data) s = .next t ∧
      Answers (.debugRd roff data) [.read .cmd roff.toNat v] .ok [v] s t ∧
      (∀ x, r.kind = .storage → s.params.storageReadBack = true → s.stored r = some x → v = x ∧ t.draws = s.draws) ∧
      (r.kind ≠ .storage ∨ s.params.storageReadBack = false ∨ s.stored r = none → Drawn [v] s t) ∧
      t.regs = s.regs ∧ t.cfg = s.cfg ∧ (s.sched = [] → s.ilock = .free → OthersKept s t)

/-- DEBUG.RD and DEBUG.WR of INT_CTRL under every calm schedule (R41, R42, R172, R173): one transaction, without ILOCK
and without waiting on the handler, whatever its position; the word read has two bits. With nothing else scheduled
those are the two interrupt bits, or they are set as the value says, and the handler stays where it was. That a write
of INT_CLEAR is admitted between the handler's steps too, of which R173 says both, is the model's choice (log 32). -/
def Obligations.DebugInterruptControl : Prop :=
  ∀ (roff data : Word) (s : State), CanRun s → s.takesResult = true → s.params.valid = true →
    roff.toNat = s.params.off .intCtrl →
    (∃ t v, exec (.debugRd roff data) s = .next t ∧
      Answers (.debugRd roff data) [.read .cmd roff.toNat v] .ok [v] s t ∧ v.toNat < 4 ∧ t.draws = s.draws ∧
      t.regs = s.regs ∧ t.cfg = s.cfg ∧
      (s.sched = [] → v = BitVec.ofNat 32 (2 * s.intPend.toNat + s.intEn.toNat) ∧ OthersKept s t)) ∧
    (data = s.params.intEnable ∨ data = s.params.intDisable ∨ data = s.params.intClear →
      ∃ t, exec (.debugWr roff data) s = .next t ∧
        Answers (.debugWr roff data) [.write .cmd roff.toNat data] .ok [] s t ∧
        t.draws = s.draws ∧ t.regs = s.regs ∧ t.cfg = s.cfg ∧
        (s.sched = [] →
          t.intEn =
            (if data = s.params.intEnable then true else if data = s.params.intDisable then false else s.intEn) ∧
          t.intPend = (if data = s.params.intClear then false else s.intPend) ∧
          t.icount = s.icount ∧ t.irqPhase = s.irqPhase ∧ t.ilock = s.ilock ∧ t.isOpen = s.isOpen ∧
          t.port = s.port))

/-- DEBUG.WR of a storage register stores the word and leaves CFG; of the load strobe it changes nothing the core can
read (R172, R173). -/
def Obligations.DebugWrStores : Prop :=
  ∀ (roff data : Word) (s : State), CanRun s → roff.toNat % 4 = 0 → roff.toNat < s.params.regSpace →
    (s.params.regAt roff.toNat).kind = .storage ∨ s.params.regAt roff.toNat = .tapLoad →
    ∃ t, exec (.debugWr roff data) s = .next t ∧
      Answers (.debugWr roff data) [.write .cmd roff.toNat data] .ok [] s t ∧
      t.regs = (if s.params.regAt roff.toNat = .tapLoad then s.regs else Memory.storeWord s.regs roff.toNat data) ∧
      t.cfg = s.cfg ∧ (s.sched = [] → s.ilock = .free → OthersKept s t)

/-- DEBUG.WR of a cycle-start register starts one bus cycle without a poll (R47, R48, R173): of SPI_DATA with the
device and the address last written, of SPI_LANE(k) for device k. Where the device or the address was not written
since attach, the cycle is one with a word that nothing fixes in its place (the model's choice, log 12). -/
def Obligations.DebugWrStartsCycle : Prop :=
  ∀ (roff data : Word) (s : State), CanRun s → roff.toNat % 4 = 0 → roff.toNat < s.params.regSpace →
    let p := s.params
    (∀ d a, p.regAt roff.toNat = .spiData → s.stored .spiDevice = some d → s.stored .spiAddress = some a →
      ∃ t, exec (.debugWr roff data) s = .next t ∧
        Answers (.debugWr roff data)
          [.write .cmd roff.toNat data,
           .busCycle (BitVec.ofNat 32 (d.toNat % 2 ^ p.devW)) (BitVec.ofNat 32 (a.toNat % 2 ^ p.addrW))
             (BitVec.ofNat 32 (data.toNat % 2 ^ p.dataW)) (if a.getLsbD p.dirBit then .read else .write)] .ok [] s t ∧
        t.regs = s.regs ∧ t.cfg = s.cfg ∧ (s.sched = [] → s.ilock = .free → OthersKept s t)) ∧
    (p.regAt roff.toNat = .spiData →
      ∃ t d a, (∀ x, s.stored .spiDevice = some x → d = x) ∧ (∀ y, s.stored .spiAddress = some y → a = y) ∧
        exec (.debugWr roff data) s = .next t ∧
        Answers (.debugWr roff data)
          [.write .cmd roff.toNat data,
           .busCycle (BitVec.ofNat 32 (d.toNat % 2 ^ p.devW)) (BitVec.ofNat 32 (a.toNat % 2 ^ p.addrW))
             (BitVec.ofNat 32 (data.toNat % 2 ^ p.dataW)) (if a.getLsbD p.dirBit then .read else .write)] .ok [] s t ∧
        t.draws = s.draws ∧ t.regs = s.regs ∧ t.cfg = s.cfg ∧
        (s.sched = [] → s.ilock = .free → OthersKept s t)) ∧
    (∀ k, p.regAt roff.toNat = .spiLane k →
      ∃ t, exec (.debugWr roff data) s = .next t ∧
        Answers (.debugWr roff data)
          [.write .cmd roff.toNat data,
           .busCycle (BitVec.ofNat 32 k) (BitVec.ofNat 32 (data.toNat / 2 ^ p.dataW % 2 ^ p.addrW))
             (BitVec.ofNat 32 (data.toNat % 2 ^ p.dataW)) (if data.getLsbD p.dirBit then .read else .write)] .ok [] s t ∧
        t.regs = s.regs ∧ t.cfg = s.cfg ∧ (s.sched = [] → s.ilock = .free → OthersKept s t))

/-- READ_WINDOW (R174): LEN / 4 reads, each chunk from the window base, and the words read. That the window may run past
REG_SPACE is the model's choice (log 34). -/
def Obligations.ReadWindowResult : Prop :=
  ∀ (len : Word) (s : State), CanRun s → s.takesResult = true → s.params.valid = true →
    len.toNat ≤ s.params.readMax → len.toNat % 4 = 0 → len.toNat / 4 < 2 ^ 16 →
    let p := s.params
    ∃ t vs, exec (.readWindow len) s = .next t ∧ vs.length = len.toNat / 4 ∧
      Answers (.readWindow len)
        ((List.range (len.toNat / 4)).map fun j =>
          .read .cmd (p.off (.fifoWin (4 * (j % (p.chunk / 4))))) (vs.getD j 0)) .ok vs s t ∧
      Drawn vs s t ∧ t.regs = s.regs ∧ t.cfg = s.cfg ∧ (s.sched = [] → s.ilock = .free → OthersKept s t)

/-- READ_MAX_MIN (R175): twelve reads, values and locations cut to their significant width. -/
def Obligations.ReadMaxMinResult : Prop :=
  ∀ s : State, CanRun s → s.takesResult = true → s.params.hasMaxMin = true →
    let p := s.params
    ∃ t vs, exec .readMaxMin s = .next t ∧ vs.length = 12 ∧
      Answers .readMaxMin ((List.range 12).map fun i => .read .cmd (p.off (.maxMin i)) (vs.getD i 0)) .ok
        ((List.range 12).map fun i =>
          BitVec.ofNat 32 ((vs.getD i 0).toNat % 2 ^ (if i % 2 = 0 then p.mmValW else p.mmLocW))) s t ∧
      Drawn vs s t ∧ t.regs = s.regs ∧ t.cfg = s.cfg ∧ (s.sched = [] → s.ilock = .free → OthersKept s t)

/-- TAP_READ (R176, R177): the two tap registers of the device are read, and NTAPS nibbles returned; each word is the
one stored, where there is one to read back, else a draw. -/
def Obligations.TapReadResult : Prop :=
  ∀ (devid : Word) (s : State), CanRun s → s.takesResult = true → s.params.valid = true →
    s.params.hasTapCal = true → devid.toNat < s.params.tapDevMax →
    let p := s.params
    ∃ t w0 w1, exec (.tapRead devid) s = .next t ∧
      Answers (.tapRead devid)
        [.read .cmd (p.off (.tap0 devid.toNat)) w0, .read .cmd (p.off (.tap1 devid.toNat)) w1] .ok
        ((List.range p.ntaps).map fun i =>
          BitVec.ofNat 32 ((if i < 8 then w0.toNat >>> (4 * i) else w1.toNat >>> (4 * (i - 8))) % 16)) s t ∧
      (∀ x, p.storageReadBack = true → s.stored (.tap0 devid.toNat) = some x → w0 = x) ∧
      (∀ x, p.storageReadBack = true → s.stored (.tap1 devid.toNat) = some x → w1 = x) ∧
      (p.storageReadBack = false ∨ (s.stored (.tap0 devid.toNat) = none ∧ s.stored (.tap1 devid.toNat) = none) →
        Drawn [w0, w1] s t) ∧
      (∀ x, p.storageReadBack = true → s.stored (.tap0 devid.toNat) = none → s.stored (.tap1 devid.toNat) = some x →
        Drawn [w0] s t) ∧
      (∀ x, p.storageReadBack = true → s.stored (.tap0 devid.toNat) = some x → s.stored (.tap1 devid.toNat) = none →
        Drawn [w1] s t) ∧
      (∀ x y, p.storageReadBack = true → s.stored (.tap0 devid.toNat) = some x →
        s.stored (.tap1 devid.toNat) = some y → t.draws = s.draws) ∧
      t.regs = s.regs ∧ t.cfg = s.cfg ∧ (s.sched = [] → s.ilock = .free → OthersKept s t)

/-- TAP_WRITE (R178): the packed taps stored, then the load strobe pulsed between the two delays. -/
def Obligations.TapWriteResult : Prop :=
  ∀ (devid : Word) (taps : List Word) (s : State), CanRun s → s.params.hasTapCal = true →
    devid.toNat < s.params.tapDevMax → (∀ i, i < s.params.ntaps → (taps.getD i 0).toNat < 16) →
    let p := s.params
    let w : List (Reg × Word) :=
      [(.tap0 devid.toNat, pack0 p taps), (.tap1 devid.toNat, pack1 p taps)]
    ∃ t, exec (.tapWrite devid taps) s = .next t ∧
      Answers (.tapWrite devid taps)
        (cmdWrites p w ++ [.delay .settleBefore, .write .cmd (p.off .tapLoad) ((1 : Word) <<< devid.toNat),
          .write .cmd (p.off .tapLoad) 0, .delay .settleAfter]) .ok [] s t ∧
      t.cfg = s.cfg ∧ t.regs = Memory.storeRegs s.regs p w ∧
      (s.sched = [] → s.ilock = .free → OthersKept s t)

/-- The tap round trip (R180): a later TAP_READ of the device returns the taps written, as long as nothing stored other
words in its two tap registers. -/
def Obligations.TapRoundTrip : Prop :=
  ∀ (devid : Word) (taps : List Word) (s : State), CanRun s → s.params.valid = true → s.params.hasTapCal = true →
    s.params.storageReadBack = true → devid.toNat < s.params.tapDevMax → taps.length = 10 →
    (∀ i, i < s.params.ntaps → (taps.getD i 0).toNat < 16) →
    ∃ t, exec (.tapWrite devid taps) s = .next t ∧
      ∀ u : State, CanRun u → u.takesResult = true → u.params = t.params →
        u.stored (.tap0 devid.toNat) = t.stored (.tap0 devid.toNat) →
        u.stored (.tap1 devid.toNat) = t.stored (.tap1 devid.toNat) →
        ∃ x, exec (.tapRead devid) u = .next x ∧
          x.portOut =
            u.portOut ++ resultHeader .ok (BitVec.ofNat 16 s.params.ntaps) :: taps.take s.params.ntaps

/-- COMPLETION_COUNT with nothing else scheduled (R179): the counter is returned, and the lock is free again. -/
def Obligations.CompletionCountResult : Prop :=
  ∀ s : State, CanRun s → s.takesResult = true → s.sched = [] → s.ilock = .free →
    ∃ t, exec .completionCount s = .next t ∧ Answers .completionCount [] .ok [s.icount] s t ∧
      t.regs = s.regs ∧ t.cfg = s.cfg ∧ OthersKept s t

/-- COMPLETION_COUNT under every calm schedule (R215, R218): the value is the count of handler runs that were complete
at the read, no run being between its entry and its exit there. `base` stands for the count before the history's first
run, modulo the counter's width. That the handler takes its steps where CMD waits on ILOCK and no turn is left is the
model's choice (log 30). -/
def Obligations.CompletionCountConsistent : Prop :=
  ∀ (base : Nat) (s : State), CanRun s → s.takesResult = true → s.params.icountW ≤ 32 → CountsRuns base s →
    ∃ t v pre post, exec .completionCount s = .next t ∧ Answers .completionCount [] .ok [v] s t ∧
      t.hist = s.hist ++ pre ++ post ∧ t.regs = s.regs ∧ t.cfg = s.cfg ∧
      v.toNat = (base + handlerRuns (s.hist ++ pre)) % 2 ^ s.params.icountW ∧
      handlerEntries (s.hist ++ pre) = handlerRuns (s.hist ++ pre) ∧ CountsRuns base t

/-! What commands leave alone. -/

/-- The frame of every command, under every schedule: every byte of the register space outside the words it stores, CFG
unless it is a command that writes it, the parameters and the session (R20, R115). A command turned away changes BLOCK,
its code and the history, and nothing else (R107; log 38). -/
def Obligations.CommandFrame : Prop :=
  ∀ (i : Instr) (s t : State), s.attached = true → s.seq = .idle → s.lockRests → exec i s = .next t →
    (∀ a, (∀ o ∈ i.storedOffsets s.params, a < o ∨ o + 4 ≤ a) → Memory.byteAt t.regs a = Memory.byteAt s.regs a) ∧
    (i.writesCfg = false → t.cfg = s.cfg) ∧
    t.params = s.params ∧ t.attached = true ∧ t.lineReg = s.lineReg ∧ t.bufAlloc = s.bufAlloc ∧
    t.seq = .idle ∧ t.lockRests ∧ s.hist <+: t.hist ∧
    (t.blk = .held → t.code ≠ .ok ∧ t = awaiting i.header t.code s)

/-- With nothing else scheduled every command but CONFIGURE and a DEBUG.WR of INT_CTRL leaves the interrupt bits, the
counter, the handler, ILOCK, OPEN and the port as they were (R20, R41). -/
def Obligations.CommandsLeaveInterrupts : Prop :=
  ∀ (i : Instr) (s t : State), CanRun s → s.sched = [] → s.ilock = .free → i.writesIntCtrl s.params = false →
    exec i s = .next t → OthersKept s t

/-! The interrupt (spec/60_exceptions.md). -/

/-- When the handler may enter (R213), and that CMD's hold of ILOCK keeps it out (R215, R216). -/
def Obligations.HandlerEnabled : Prop :=
  ∀ s : State,
    (s.irqPhase = .idle → s.attached = true →
      (irqEnabled s = true ↔ s.lineReg = true ∧ s.intEn = true ∧ s.intPend = true ∧ s.ilock = .free)) ∧
    (s.irqPhase = .idle → s.ilock = .cmd → irqStep s = .next s) ∧
    (s.irqPhase = .idle → s.intEn = false ∨ s.intPend = false → irqStep s = .next s)

/-- The handler (R214, R220, R221): entry saves nothing and changes ILOCK and the phase alone; then clear, count and
disable; the return releases ILOCK and leaves the interrupt disabled. -/
def Obligations.HandlerRun : Prop :=
  ∀ s : State, s.attached = true → s.lineReg = true → s.irqPhase = .idle → s.ilock = .free →
    s.intEn = true → s.intPend = true →
    s.params.intClear ≠ s.params.intEnable → s.params.intClear ≠ s.params.intDisable →
    s.params.intDisable ≠ s.params.intEnable →
    let p := s.params
    let n := BitVec.ofNat 32 ((s.icount.toNat + 1) % 2 ^ p.icountW)
    let h1 := s.hist ++ [.handlerEntry]
    let h2 := h1 ++ [.write .irq (p.off .intCtrl) p.intClear]
    let h4 := h2 ++ [.write .irq (p.off .intCtrl) p.intDisable]
    let s1 := { s with ilock := .irq, irqPhase := .entered, hist := h1 }
    let s2 := { s1 with intPend := false, irqPhase := .cleared, hist := h2 }
    let s3 := { s2 with icount := n, irqPhase := .counted }
    let s4 := { s3 with intEn := false, irqPhase := .disabled, hist := h4 }
    let s5 := { s4 with ilock := .free, irqPhase := .idle, hist := h4 ++ [.handlerExit] }
    irqStep s = .next s1 ∧ irqStep s1 = .next s2 ∧ irqStep s2 = .next s3 ∧ irqStep s3 = .next s4 ∧
      irqStep s4 = .next s5 ∧ irqStep s5 = .next s5

/-- A completion, at any point while attached, sets the pending bit whatever the enable is, is recorded, and does
nothing else; two count as one (R217, R228). That it may come before the line is registered is the reading of R228, not
of R240 step 4 (log 35). -/
def Obligations.CompletionLatches : Prop :=
  ∀ s : State, s.attached = true →
    devComplete s = { s with intPend := true, hist := s.hist ++ [.complete] } ∧
    devComplete (devComplete s) = { devComplete s with hist := s.hist ++ [.complete, .complete] }

/-- The transitions of the interrupt states (R44, R212), at any point while attached. That a completion may come before
the line is registered is the reading of R228, not of R240 step 4 (log 35). -/
def Obligations.InterruptStates : Prop :=
  ∀ s : State, s.attached = true → s.params.valid = true →
    (s.irqState = .disabled → (devComplete s).irqState = .disabled ∧ (devComplete s).intPend = true) ∧
    (s.irqState = .armed → (devComplete s).irqState = .signaled) ∧
    (s.irqState = .signaled → (devComplete s).irqState = .signaled) ∧
    (∃ t u, regWrite .cmd .intCtrl s.params.intClear s = .next t ∧ regWrite .cmd .intCtrl s.params.intEnable t = .next u ∧
      (s.irqState = .signaled → t.irqState = .armed) ∧ u.irqState = .armed ∧ (devComplete t).intPend = true) ∧
    (∃ t, regWrite .cmd .intCtrl s.params.intDisable s = .next t ∧ t.irqState = .disabled ∧ t.intPend = s.intPend)

/-! The session (spec/70_reset_and_hazards.md). -/

/-- ATTACH (R240, R242, R56): its three writes, and the values it leaves. By single steps DEV may complete any number
of times between two of them; those before the write of INT_CLEAR leave no trace but in the history, one after it
leaves the pending bit set, and all else is as without them (R228, R56). The history holds the attach's own events
alone, whatever an earlier session left (R56, R243), so that it counts handler runs from 0. That the attach is one
event of HOST, and that DEV completes before the line is registered, are the model's choices (log 29, log 35). -/
def Obligations.AttachInitialises : Prop :=
  ∀ (p : Params) (s : State), s.attached = false → p.valid = true →
    ∃ t, hostStep (.attach p true) s = .next t ∧ t.params = p ∧ t.attached = true ∧ t.lineReg = true ∧
      t.bufAlloc = true ∧ t.isOpen = false ∧ t.cfg = 0 ∧ t.icount = 0 ∧ t.blk = .free ∧ t.ilock = .free ∧
      t.seq = .idle ∧ t.irqPhase = .idle ∧ t.intEn = false ∧ t.intPend = false ∧
      t.stored .modeConfig = some 0 ∧
      (∀ r ∈ p.registers, r.kind = .storage → r ≠ .modeConfig → t.stored r = none) ∧
      t.hist = [.write .host (p.off .modeConfig) 0, .write .host (p.off .intCtrl) p.intDisable,
        .write .host (p.off .intCtrl) p.intClear, .attach .ok] ∧ CountsRuns 0 t ∧
      ∀ n0 n1 n2 n3 n4 n5 : Nat,
        let dev := fun n => List.replicate n (Move.agent .dev)
        let done := fun n => List.replicate n Event.complete
        atomicRun (.agent (.host (.attach p true)) :: dev n0 ++ .boot :: dev n1 ++ .boot :: dev n2 ++ .boot :: dev n3
            ++ .boot :: dev n4 ++ .boot :: dev n5 ++ [.boot]) ⟨s, []⟩
          = .next ⟨{ t with
              intPend := decide (0 < n3 + n4 + n5)
              hist := done n0 ++ .write .host (p.off .modeConfig) 0 :: done n1
                ++ .write .host (p.off .intCtrl) p.intDisable :: done n2
                ++ .write .host (p.off .intCtrl) p.intClear :: done (n3 + n4 + n5) ++ [.attach .ok] }, []⟩

/-- ATTACH whose allocation fails (R241): ENOMEM as its event (R30), and nothing else. That the event stands behind the
history of the session before, where R27 says that no session state exists, is the model's choice (log 16). -/
def Obligations.AttachFails : Prop :=
  ∀ (p : Params) (s : State), s.attached = false → p.valid = true →
    hostStep (.attach p false) s = .next { s with hist := s.hist ++ [.attach .enomem] }

/-- Reset is the state that an attach with the reference configuration leaves, whatever parameters, registers, counter,
interrupt bits and history an earlier session left (R56, R243). That the model's reset has this configuration is its
choice (log 1). -/
def Obligations.ResetIsAttach : Prop :=
  ∀ (p : Params) (cfg icount : Word) (en pend opened : Bool) (regs : Memory) (hist : List Event),
    hostStep (.attach Params.ref true)
        { State.reset with
          params := p, attached := false, lineReg := false, bufAlloc := false, cfg := cfg, icount := icount
          intEn := en, intPend := pend, isOpen := opened, regs := regs, hist := hist }
      = .next State.reset

/-- OPEN and CLOSE (R244). -/
def Obligations.OpenAndClose : Prop :=
  ∀ s : State, s.attached = true →
    (s.isOpen = false →
      hostStep .openSession s = .next { s with isOpen := true, hist := s.hist ++ [.opened true] }) ∧
    (s.isOpen = true → hostStep .openSession s = .next { s with hist := s.hist ++ [.opened false] }) ∧
    hostStep .closeSession s = .next { s with isOpen := false, hist := s.hist ++ [.closed] }

/-- DETACH (R245): with `seq` and `irq_phase` idle alone; else a fault. That the session's registers keep their
contents until the next attach, where they cease to be (R27, R243), and that the three steps of R245 are one, with no
other agent between them, are the model's choices (log 16, log 36), and so is that BLOCK and the code of a command
turned away, which awaits its result with `seq` idle, cease with the session (log 38). -/
def Obligations.Detach : Prop :=
  ∀ s : State, s.attached = true →
    (s.seq = .idle → s.irqPhase = .idle →
      hostStep .detach s
        = .next { s with
            attached := false, lineReg := false, bufAlloc := false, blk := .free, code := .ok
            hist := s.hist ++ [.detached] }) ∧
    (s.seq ≠ .idle ∨ s.irqPhase ≠ .idle → hostStep .detach s = .fault .detachInFlight)

/-! The whole machine. -/

/-- The invariant holds at reset; that reset has the configuration REF is the model's choice (log 1). -/
def Obligations.InvariantAtReset : Prop := State.Inv State.reset

/-- Every step keeps the invariant: the configuration stays valid, the register space canonical, ILOCK with its
holder, the sequencer idle, BLOCK held exactly while a command turned away awaits its result, the session whole, the
counter in its width (R7, R22, R24, R25, R29, R108). That a step ends where `seq` is idle is the model's choice (log 4),
and so are that the code of a command turned away waits in a field of State (log 38) and that ATTACH takes valid
configurations alone (log 19). -/
def Obligations.InvariantKept : Prop :=
  ∀ s t : State, s.Inv → step s = .next t → t.Inv

/-- No schedule without DETACH keeps a command from its result (R76, R209, R259): one that runs ends with BLOCK free,
and one turned away is answered after the turns before CMD's next one. That CMD, or the handler it waits on, steps
once no turn is left is the model's choice (log 5, log 30), where R76 and R209 ask for weak fairness;
`Obligations.SingleSteps` says it so. -/
def Obligations.EveryCommandCompletes : Prop :=
  ∀ (i : Instr) (s : State), CanRun s → s.seq = .idle → i.runnable s.params = true →
    ∃ t, exec i s = .next t ∧
      (t.blk = .free ∨ ∃ n u, runSteps n t = .next u ∧ TurnedAway i.header t.code s u)

/-- What a command does and answers is the same under every calm schedule in which HOST takes its words, but for
COMPLETION_COUNT and a DEBUG.RD of INT_CTRL, which look at what the handler did (R20, R72, R215). -/
def Obligations.ScheduleIndependence : Prop :=
  ∀ (i : Instr) (s t1 t2 : State) (l1 l2 : List Turn), i.seesIrq s.params = false →
    CanRun { s with sched := l1 } → CanRun { s with sched := l2 } →
    State.takesResult { s with sched := l1 } = true → State.takesResult { s with sched := l2 } = true →
    exec i { s with sched := l1 } = .next t1 → exec i { s with sched := l2 } = .next t2 → SameCmdView t1 t2

/-- Every step of a session only appends to its history and keeps its parameters (R8, R30). A step of a detached
instrument only appends too, unless it attaches: then the history is the attach's own events (R56). That the history of
a session stands over its DETACH and while detached, where R27 says that no session state exists, is the model's choice
(log 16), and so is that a step takes an attach whole, so that its four events stand with no completion of DEV between
them (log 29). -/
def Obligations.HistoryAndParameters : Prop :=
  ∀ s t : State, s.Inv → step s = .next t →
    (s.attached = true → s.hist <+: t.hist ∧ t.params = s.params) ∧
    (s.attached = false → t.attached = false → s.hist <+: t.hist) ∧
    (s.attached = false → t.attached = true →
      t.hist = [.write .host (t.params.off .modeConfig) 0, .write .host (t.params.off .intCtrl) t.params.intDisable,
        .write .host (t.params.off .intCtrl) t.params.intClear, .attach .ok])

/-- Where the mode register holds what the cache holds, it does so after every step too, unless the step is a DEBUG.WR
of MODE_CONFIG: the two stay equal until then (R21, R141, R155). After such a write they may differ, and nothing is
said of the steps from there to the next write of CFG. -/
def Obligations.CacheMirrorsRegister : Prop :=
  ∀ s t : State, s.Inv → s.stored .modeConfig = some s.cfg →
    (∀ roff data rest, s.fetch = .command (.debugWr roff data) rest → s.params.regAt roff.toNat ≠ .modeConfig) →
    step s = .next t → t.stored .modeConfig = some t.cfg

/-- Every step of an attached machine counts handler runs: ICOUNT is what it was plus the runs since, and the history
holds an exit for every entry but of the run under way (R214, R217, R218). -/
def Obligations.HandlerRunsCounted : Prop :=
  ∀ (base : Nat) (s t : State), s.Inv → s.attached = true → CountsRuns base s → step s = .next t → CountsRuns base t

/-- The machine by the single steps of R17 and R101 (`atomicStep`), and the step that takes a command whole. One: a
single step records at most one event, but for a bus cycle's start beside its write and BWE beside its read: one
transaction, or one acceptance, or one result, never a command's acceptance and its result; in the history it goes on
with or, at an attach, begins (R56). Two: a step is a run of single steps. Three: a run of the agents' turns by single
steps, in any interleaving, that starts and ends between commands with no attach under way is a run of steps under
that schedule, so a whole command at a time leaves out no run of such turns to a command's end (R222). A command
turned away is between commands from its acceptance on, its result one more step of both machines. Three says nothing
of a run with the further steps of a successful attach (`Move.boot`): there other agents' events may come before the
attach's own event, which no run of steps gives (log 29). Four: while BLOCK is held, a run in which DEV alone steps
for ever is a Hang (R209). Five: no run, with steps of an attach or without, is a Hang that is weakly fair towards CMD
and towards IRQ (R76, R209). Six: every single step keeps that BLOCK is held exactly while a command runs or one
turned away has its code pending, and that IRQ holds ILOCK exactly while its handler is under way, which the invariant
gives where `seq` is idle (R23, R24, R29, R74, R108). Seven: in every run from a state with the invariant CMD holds
ILOCK only while BLOCK is held (R76). Eight: a step takes BLOCK exactly where it accepts a command, so none accepts
one while BLOCK is held; a result frees it, and outside an attach nothing else does but a DETACH (R23, R74, R106,
R108). The two machines are the model's choice (log 4, log 23, log 29, log 37), so are the pending code and what a
DETACH makes of it (log 38), and so is that R209's fairness is asked for IRQ as well, on which CMD may wait (log 33).
-/
def Obligations.SingleSteps : Prop :=
  (∀ (m : Move) (a b : AtomicState), atomicStep m a = .next b →
    ∃ l, (b.machine.hist = a.machine.hist ++ l ∨
        (a.machine.attached = false ∧ b.machine.attached = true ∧ b.machine.hist = l)) ∧
      l.countP Event.takesStep ≤ 1) ∧
  (∀ s t : State, s.Inv → step s = .next t →
    ∃ moves, atomicRun moves ⟨{ s with sched := [] }, []⟩ = .next ⟨{ t with sched := [] }, []⟩) ∧
  (∀ (s t : State) (l : List Turn), s.Inv → t.seq = .idle →
    atomicRun (l.map .agent) ⟨{ s with sched := [] }, []⟩ = .next ⟨{ t with sched := [] }, []⟩ →
    ∃ n, runSteps n { s with sched := l } = .next { t with sched := [] }) ∧
  (∀ s : State, s.attached = true → s.blk = .held →
    ∃ run, run 0 = ⟨s, []⟩ ∧ InfiniteRun (fun _ => .agent .dev) run ∧ Hangs run ∧
      ∀ n, (run n).machine.seq = s.seq) ∧
  (∀ (moves : Nat → Move) (run : Nat → AtomicState), (run 0).machine.Inv → (run 0).boot = [] →
    InfiniteRun moves run → FairTo .cmd cmdHasStep moves run → FairTo .irq irqEnabled moves run → ¬ Hangs run) ∧
  (∀ s : State, s.Inv → s.LocksHeld) ∧
  (∀ (m : Move) (a b : AtomicState), a.machine.LocksHeld → atomicStep m a = .next b → b.machine.LocksHeld) ∧
  (∀ (s : State) (moves : List Move) (b : AtomicState), s.Inv → atomicRun moves ⟨s, []⟩ = .next b →
    b.machine.ilock = .cmd → b.machine.blk = .held) ∧
  (∀ (m : Move) (a b : AtomicState), a.machine.LocksHeld → atomicStep m a = .next b →
    ∃ l, (b.machine.hist = a.machine.hist ++ l ∨
        (a.machine.attached = false ∧ b.machine.attached = true ∧ b.machine.hist = l)) ∧
      ((∃ header, Event.accept header ∈ l) ↔ a.machine.blk = .free ∧ b.machine.blk = .held) ∧
      ((∃ code n, Event.result code n ∈ l) → a.machine.blk = .held ∧ b.machine.blk = .free) ∧
      (a.boot = [] → a.machine.blk = .held → b.machine.blk = .free →
        (∃ code n, Event.result code n ∈ l) ∨ Event.detached ∈ l))
end

