-- ==== Sys2Proof/Laws/Encoding.lean ====
section
/-! SUPPORT. Lemmas about the decoder and the encoder: headers, latching, and putting commands together. -/

namespace Sys2Proof

/-- A whole frame is latched (R105). -/
theorem latch_words (ws : List Word) (rest : List (Option Word)) :
    latch ws.length (ws.map some ++ rest) = .words ws rest := by
  induction ws with
  | nil => rfl
  | cons w ws ih => simp [latch, ih]

/-- What a latched frame was. -/
theorem latch_words_inv {n : Nat} {port : List (Option Word)} {ws rest} (h : latch n port = .words ws rest) :
    ws.length = n ∧ port = ws.map some ++ rest := by
  induction n generalizing port ws with
  | zero => simp [latch] at h; obtain ⟨rfl, rfl⟩ := h; simp
  | succ n ih =>
    cases port with
    | nil => simp [latch] at h
    | cons x xs =>
      cases x with
      | none => simp [latch] at h
      | some w =>
        simp only [latch] at h
        cases hl : latch n xs with
        | words ws' r =>
          rw [hl] at h; simp at h; obtain ⟨rfl, rfl⟩ := h
          obtain ⟨h1, h2⟩ := ih hl
          simp [h1, h2]
        | failed r => rw [hl] at h; simp at h
        | short => rw [hl] at h; simp at h

/-- The operand words of a well-formed command are as many as its header asks for (R84, R85). -/
theorem operands_len (i : Instr) (h : i.wellFormed = true) : i.operands.length = i.op.operandCount := by
  cases i with
  | configure irq peak _ _ _ _ => cases peak <;> rfl
  | seqBus nw nr es =>
    simp [Instr.wellFormed] at h
    simp [Instr.operands, Instr.op, Op.operandCount, h, List.length_flatMap]
  | tapWrite d taps => simp [Instr.wellFormed] at h; simp [Instr.operands, Instr.op, Op.operandCount, h]
  | _ => rfl

/-- A header of the variant decodes to its command. -/
theorem decodeHeader_op (mm tc : Bool) (op : Op) (h : op.present mm tc = true) :
    decodeHeader mm tc op.header = .ok op := by
  cases op with
  | configure i p => cases i <;> cases p <;> cases mm <;> cases tc <;> decide
  | _ => cases mm <;> cases tc <;> first | decide | cases h

/-- The header of a command of the variant decodes to its command. -/
theorem decodeHeader_header (mm tc : Bool) (i : Instr) (h : i.op.present mm tc = true) :
    decodeHeader mm tc i.header = .ok i.op := decodeHeader_op mm tc i.op h

/-- The entries of a SEQ_BUS frame, slot by slot (R87). -/
theorem range_flatMap (es : List Entry) (n : Nat) (h : es.length = n) (pre : List Word) (hp : pre.length = 2) :
    ((List.range n).map fun k => (⟨(pre ++ es.flatMap fun e => [e.dev, e.addr, e.data]).getD (2 + 3 * k) 0,
      (pre ++ es.flatMap fun e => [e.dev, e.addr, e.data]).getD (3 + 3 * k) 0,
      (pre ++ es.flatMap fun e => [e.dev, e.addr, e.data]).getD (4 + 3 * k) 0⟩ : Entry)) = es := by
  match pre, hp with
  | [a, b], _ =>
    have key : ∀ (es : List Entry) (k : Nat) (e : Entry), es[k]? = some e →
        (es.flatMap fun e => [e.dev, e.addr, e.data]).getD (3 * k) 0 = e.dev ∧
        (es.flatMap fun e => [e.dev, e.addr, e.data]).getD (3 * k + 1) 0 = e.addr ∧
        (es.flatMap fun e => [e.dev, e.addr, e.data]).getD (3 * k + 2) 0 = e.data := by
      intro es
      induction es with
      | nil => simp
      | cons x xs ih =>
        intro k e hk
        cases k with
        | zero => simp at hk; subst hk; simp
        | succ k =>
          simp at hk
          have := ih k e hk
          simpa [Nat.mul_add, Nat.add_right_comm, List.flatMap_cons] using this
    apply List.ext_getElem
    · simp [h]
    · intro k h1 h2
      have := key es k es[k] (by simp)
      simp only [List.getElem_map, List.getElem_range]
      have e1 : 2 + 3 * k = (3 * k) + 2 := by omega
      have e2 : 3 + 3 * k = (3 * k + 1) + 2 := by omega
      have e3 : 4 + 3 * k = (3 * k + 2) + 2 := by omega
      rw [e1, e2, e3]
      simp only [List.cons_append, List.nil_append, List.getD_cons_succ]
      rw [this.1, this.2.1, this.2.2]

/-- A well-formed command is put together again from its operand words. -/
theorem assemble_operands (i : Instr) (h : i.wellFormed = true) : i.op.assemble i.operands = i := by
  cases i with
  | configure irq peak _ _ _ _ => cases peak <;> rfl
  | seqBus nw nr es =>
    simp [Instr.wellFormed] at h
    simp only [Instr.op, Op.assemble, Instr.operands]
    congr 1
    exact range_flatMap es 16 h [nw, nr] rfl
  | tapWrite d taps =>
    simp [Instr.wellFormed] at h
    simp only [Instr.op, Op.assemble, Instr.operands]
    congr 1
    apply List.ext_getElem
    · simp [h]
    · intro k h1 h2
      simp [Nat.add_comm 1, List.getD_eq_getElem?_getD, h2]
  | _ => rfl

/-- A header that decodes is the header of its command: no bit is dropped. -/
theorem header_of_ok {mm tc : Bool} {h : Word} {op : Op} (hd : decodeHeader mm tc h = .ok op) :
    h = op.header ∧ op.present mm tc = true := by
  unfold decodeHeader at hd
  split at hd
  · cases hd
  · rename_i op' hs
    split at hd
    · cases hd
    · rename_i hr
      split at hd
      · cases hd
      · rename_i h1
        split at hd
        · cases hd
        · rename_i h0
          split at hd
          · cases hd
          · rename_i hp
            cases hd
            refine ⟨?_, by simpa using hp⟩
            have hrec : ∀ (o : BitVec 8) (f0 f1 : Bool), h.extractLsb' 0 8 = o → h.getLsbD 8 = f0 → h.getLsbD 9 = f1 →
                h = (0#22 ++ BitVec.ofBool f1 ++ BitVec.ofBool f0 ++ o : BitVec 32) := by
              intro o f0 f1 ho h8 h9
              have hr' : headerRsv h = 0 := by simpa using hr
              unfold headerRsv at hr'
              apply BitVec.eq_of_getLsbD_eq
              intro k hk
              simp only [BitVec.getLsbD_append, BitVec.getLsbD_ofBool]
              by_cases k8 : k < 8
              · simp only [k8, ↓reduceIte, ← ho, BitVec.getLsbD_extractLsb']; simp
              · by_cases k9 : k = 8
                · subst k9; simpa using h8
                · by_cases k10 : k = 9
                  · subst k10; simpa using h9
                  · have : (h.extractLsb' 10 22).getLsbD (k - 10) = false := by rw [hr']; simp
                    simp [BitVec.getLsbD_extractLsb'] at this
                    have e : 10 + (k - 10) = k := by omega
                    rw [e] at this
                    have k1 : ¬ k - 8 < 1 := by omega
                    have k2 : ¬ k - 8 - 1 < 1 := by omega
                    simp [k8, k1, k2]
                    exact this (by omega)
            have := hrec _ _ _ rfl rfl rfl
            rw [this]
            unfold headerOp headerF0 headerF1 at *
            generalize h.extractLsb' 0 8 = o at *
            generalize h.getLsbD 8 = f0 at *
            generalize h.getLsbD 9 = f1 at *
            clear hrec this
            have ho : o.toNat < 256 := o.isLt
            unfold selectOp at hs
            split at hs <;> simp only [Option.some.injEq, reduceCtorEq] at hs
            all_goals
              rename_i hn
              have ho' : o = BitVec.ofNat 8 o.toNat := by simp
              rw [hn] at ho'
              subst ho'
              subst hs
              cases f0 <;> cases f1 <;> first | rfl | (simp [Op.takesF0, Op.takesF1] at h0 h1)

/-- Operand words are those of the command put together from them. -/
theorem assemble_op (op : Op) (ws : List Word) (h : ws.length = op.operandCount) :
    (op.assemble ws).wellFormed = true ∧ (op.assemble ws).op = op ∧ (op.assemble ws).operands = ws := by
  cases op with
  | configure i p =>
    cases p
    · match ws, h with
      | [_, _, _, _], _ => exact ⟨rfl, rfl, rfl⟩
    · match ws, h with
      | [_, _, _, _, _, _], _ => exact ⟨rfl, rfl, rfl⟩
  | runScan => match ws, h with | [_, _, _], _ => exact ⟨rfl, rfl, rfl⟩
  | dmaSelfTest => match ws, h with | [_], _ => exact ⟨rfl, rfl, rfl⟩
  | triggerPps => match ws, h with | [_], _ => exact ⟨rfl, rfl, rfl⟩
  | tapRead => match ws, h with | [_], _ => exact ⟨rfl, rfl, rfl⟩
  | readWindow => match ws, h with | [_], _ => exact ⟨rfl, rfl, rfl⟩
  | debugRd => match ws, h with | [_, _], _ => exact ⟨rfl, rfl, rfl⟩
  | debugWr => match ws, h with | [_, _], _ => exact ⟨rfl, rfl, rfl⟩
  | seqBus =>
    refine ⟨by simp [Op.assemble, Instr.wellFormed], rfl, ?_⟩
    simp only [Op.operandCount] at h
    have hws : ws = (List.range 50).map fun k => ws.getD k 0 := by
      apply List.ext_getElem
      · simp [h]
      · intro k h1 h2; simp [h1]
    conv_rhs => rw [hws]
    rfl
  | tapWrite =>
    refine ⟨by simp [Op.assemble, Instr.wellFormed], rfl, ?_⟩
    simp only [Op.operandCount] at h
    simp only [Op.assemble, Instr.operands]
    apply List.ext_getElem
    · simp [h]
    · intro k h1 h2
      cases k with
      | zero => simp [List.getD_eq_getElem?_getD, h]
      | succ k => simp [List.getD_eq_getElem?_getD, Nat.add_comm 1, h2]
  | _ => match ws, h with | [], _ => exact ⟨rfl, rfl, rfl⟩


end Sys2Proof
end

