-- ==== Sys2Proof/Laws/State.lean ====
section
/-! SUPPORT. One lemma per field of State for each small update of Machine/Ops.lean, so that no later proof unfolds
one. -/

namespace Sys2Proof.Machine

/-! `log`. -/

@[simp] theorem log_params (s : State) (e : Event) : (s.log e).params = s.params := rfl
@[simp] theorem log_attached (s : State) (e : Event) : (s.log e).attached = s.attached := rfl
@[simp] theorem log_isOpen (s : State) (e : Event) : (s.log e).isOpen = s.isOpen := rfl
@[simp] theorem log_lineReg (s : State) (e : Event) : (s.log e).lineReg = s.lineReg := rfl
@[simp] theorem log_bufAlloc (s : State) (e : Event) : (s.log e).bufAlloc = s.bufAlloc := rfl
@[simp] theorem log_cfg (s : State) (e : Event) : (s.log e).cfg = s.cfg := rfl
@[simp] theorem log_icount (s : State) (e : Event) : (s.log e).icount = s.icount := rfl
@[simp] theorem log_blk (s : State) (e : Event) : (s.log e).blk = s.blk := rfl
@[simp] theorem log_ilock (s : State) (e : Event) : (s.log e).ilock = s.ilock := rfl
@[simp] theorem log_seq (s : State) (e : Event) : (s.log e).seq = s.seq := rfl
@[simp] theorem log_todo (s : State) (e : Event) : (s.log e).todo = s.todo := rfl
@[simp] theorem log_vals (s : State) (e : Event) : (s.log e).vals = s.vals := rfl
@[simp] theorem log_emitted (s : State) (e : Event) : (s.log e).emitted = s.emitted := rfl
@[simp] theorem log_code (s : State) (e : Event) : (s.log e).code = s.code := rfl
@[simp] theorem log_spins (s : State) (e : Event) : (s.log e).spins = s.spins := rfl
@[simp] theorem log_irqPhase (s : State) (e : Event) : (s.log e).irqPhase = s.irqPhase := rfl
@[simp] theorem log_intEn (s : State) (e : Event) : (s.log e).intEn = s.intEn := rfl
@[simp] theorem log_intPend (s : State) (e : Event) : (s.log e).intPend = s.intPend := rfl
@[simp] theorem log_regs (s : State) (e : Event) : (s.log e).regs = s.regs := rfl
@[simp] theorem log_port (s : State) (e : Event) : (s.log e).port = s.port := rfl
@[simp] theorem log_portOut (s : State) (e : Event) : (s.log e).portOut = s.portOut := rfl
@[simp] theorem log_hist (s : State) (e : Event) : (s.log e).hist = s.hist ++ [e] := rfl
@[simp] theorem log_sched (s : State) (e : Event) : (s.log e).sched = s.sched := rfl
@[simp] theorem log_draws (s : State) (e : Event) : (s.log e).draws = s.draws := rfl
@[simp] theorem log_freeIx (s : State) (e : Event) : (s.log e).freeIx = s.freeIx := rfl
@[simp] theorem log_refuseOut (s : State) (e : Event) : (s.log e).refuseOut = s.refuseOut := rfl

/-! `advance`. -/

@[simp] theorem advance_params (s : State) : (s.advance).params = s.params := rfl
@[simp] theorem advance_attached (s : State) : (s.advance).attached = s.attached := rfl
@[simp] theorem advance_isOpen (s : State) : (s.advance).isOpen = s.isOpen := rfl
@[simp] theorem advance_lineReg (s : State) : (s.advance).lineReg = s.lineReg := rfl
@[simp] theorem advance_bufAlloc (s : State) : (s.advance).bufAlloc = s.bufAlloc := rfl
@[simp] theorem advance_cfg (s : State) : (s.advance).cfg = s.cfg := rfl
@[simp] theorem advance_icount (s : State) : (s.advance).icount = s.icount := rfl
@[simp] theorem advance_blk (s : State) : (s.advance).blk = s.blk := rfl
@[simp] theorem advance_ilock (s : State) : (s.advance).ilock = s.ilock := rfl
@[simp] theorem advance_todo (s : State) : (s.advance).todo = s.todo := rfl
@[simp] theorem advance_vals (s : State) : (s.advance).vals = s.vals := rfl
@[simp] theorem advance_emitted (s : State) : (s.advance).emitted = s.emitted := rfl
@[simp] theorem advance_code (s : State) : (s.advance).code = s.code := rfl
@[simp] theorem advance_spins (s : State) : (s.advance).spins = s.spins := rfl
@[simp] theorem advance_irqPhase (s : State) : (s.advance).irqPhase = s.irqPhase := rfl
@[simp] theorem advance_intEn (s : State) : (s.advance).intEn = s.intEn := rfl
@[simp] theorem advance_intPend (s : State) : (s.advance).intPend = s.intPend := rfl
@[simp] theorem advance_regs (s : State) : (s.advance).regs = s.regs := rfl
@[simp] theorem advance_port (s : State) : (s.advance).port = s.port := rfl
@[simp] theorem advance_portOut (s : State) : (s.advance).portOut = s.portOut := rfl
@[simp] theorem advance_hist (s : State) : (s.advance).hist = s.hist := rfl
@[simp] theorem advance_sched (s : State) : (s.advance).sched = s.sched := rfl
@[simp] theorem advance_draws (s : State) : (s.advance).draws = s.draws := rfl
@[simp] theorem advance_freeIx (s : State) : (s.advance).freeIx = s.freeIx := rfl
@[simp] theorem advance_refuseOut (s : State) : (s.advance).refuseOut = s.refuseOut := rfl

/-! `withTodo`. -/

@[simp] theorem withTodo_params (s : State) (ops : List Micro) : (s.withTodo ops).params = s.params := rfl
@[simp] theorem withTodo_attached (s : State) (ops : List Micro) : (s.withTodo ops).attached = s.attached := rfl
@[simp] theorem withTodo_isOpen (s : State) (ops : List Micro) : (s.withTodo ops).isOpen = s.isOpen := rfl
@[simp] theorem withTodo_lineReg (s : State) (ops : List Micro) : (s.withTodo ops).lineReg = s.lineReg := rfl
@[simp] theorem withTodo_bufAlloc (s : State) (ops : List Micro) : (s.withTodo ops).bufAlloc = s.bufAlloc := rfl
@[simp] theorem withTodo_cfg (s : State) (ops : List Micro) : (s.withTodo ops).cfg = s.cfg := rfl
@[simp] theorem withTodo_icount (s : State) (ops : List Micro) : (s.withTodo ops).icount = s.icount := rfl
@[simp] theorem withTodo_blk (s : State) (ops : List Micro) : (s.withTodo ops).blk = s.blk := rfl
@[simp] theorem withTodo_ilock (s : State) (ops : List Micro) : (s.withTodo ops).ilock = s.ilock := rfl
@[simp] theorem withTodo_seq (s : State) (ops : List Micro) : (s.withTodo ops).seq = s.seq := rfl
@[simp] theorem withTodo_todo (s : State) (ops : List Micro) : (s.withTodo ops).todo = ops := rfl
@[simp] theorem withTodo_vals (s : State) (ops : List Micro) : (s.withTodo ops).vals = s.vals := rfl
@[simp] theorem withTodo_emitted (s : State) (ops : List Micro) : (s.withTodo ops).emitted = s.emitted := rfl
@[simp] theorem withTodo_code (s : State) (ops : List Micro) : (s.withTodo ops).code = s.code := rfl
@[simp] theorem withTodo_spins (s : State) (ops : List Micro) : (s.withTodo ops).spins = s.spins := rfl
@[simp] theorem withTodo_irqPhase (s : State) (ops : List Micro) : (s.withTodo ops).irqPhase = s.irqPhase := rfl
@[simp] theorem withTodo_intEn (s : State) (ops : List Micro) : (s.withTodo ops).intEn = s.intEn := rfl
@[simp] theorem withTodo_intPend (s : State) (ops : List Micro) : (s.withTodo ops).intPend = s.intPend := rfl
@[simp] theorem withTodo_regs (s : State) (ops : List Micro) : (s.withTodo ops).regs = s.regs := rfl
@[simp] theorem withTodo_port (s : State) (ops : List Micro) : (s.withTodo ops).port = s.port := rfl
@[simp] theorem withTodo_portOut (s : State) (ops : List Micro) : (s.withTodo ops).portOut = s.portOut := rfl
@[simp] theorem withTodo_hist (s : State) (ops : List Micro) : (s.withTodo ops).hist = s.hist := rfl
@[simp] theorem withTodo_sched (s : State) (ops : List Micro) : (s.withTodo ops).sched = s.sched := rfl
@[simp] theorem withTodo_draws (s : State) (ops : List Micro) : (s.withTodo ops).draws = s.draws := rfl
@[simp] theorem withTodo_freeIx (s : State) (ops : List Micro) : (s.withTodo ops).freeIx = s.freeIx := rfl
@[simp] theorem withTodo_refuseOut (s : State) (ops : List Micro) : (s.withTodo ops).refuseOut = s.refuseOut := rfl

/-! `afterDraw`. -/

@[simp] theorem afterDraw_params (s : State) : (s.afterDraw).params = s.params := by unfold State.afterDraw; split <;> rfl
@[simp] theorem afterDraw_attached (s : State) : (s.afterDraw).attached = s.attached := by unfold State.afterDraw; split <;> rfl
@[simp] theorem afterDraw_isOpen (s : State) : (s.afterDraw).isOpen = s.isOpen := by unfold State.afterDraw; split <;> rfl
@[simp] theorem afterDraw_lineReg (s : State) : (s.afterDraw).lineReg = s.lineReg := by unfold State.afterDraw; split <;> rfl
@[simp] theorem afterDraw_bufAlloc (s : State) : (s.afterDraw).bufAlloc = s.bufAlloc := by unfold State.afterDraw; split <;> rfl
@[simp] theorem afterDraw_cfg (s : State) : (s.afterDraw).cfg = s.cfg := by unfold State.afterDraw; split <;> rfl
@[simp] theorem afterDraw_icount (s : State) : (s.afterDraw).icount = s.icount := by unfold State.afterDraw; split <;> rfl
@[simp] theorem afterDraw_blk (s : State) : (s.afterDraw).blk = s.blk := by unfold State.afterDraw; split <;> rfl
@[simp] theorem afterDraw_ilock (s : State) : (s.afterDraw).ilock = s.ilock := by unfold State.afterDraw; split <;> rfl
@[simp] theorem afterDraw_seq (s : State) : (s.afterDraw).seq = s.seq := by unfold State.afterDraw; split <;> rfl
@[simp] theorem afterDraw_todo (s : State) : (s.afterDraw).todo = s.todo := by unfold State.afterDraw; split <;> rfl
@[simp] theorem afterDraw_vals (s : State) : (s.afterDraw).vals = s.vals := by unfold State.afterDraw; split <;> rfl
@[simp] theorem afterDraw_emitted (s : State) : (s.afterDraw).emitted = s.emitted := by unfold State.afterDraw; split <;> rfl
@[simp] theorem afterDraw_code (s : State) : (s.afterDraw).code = s.code := by unfold State.afterDraw; split <;> rfl
@[simp] theorem afterDraw_spins (s : State) : (s.afterDraw).spins = s.spins := by unfold State.afterDraw; split <;> rfl
@[simp] theorem afterDraw_irqPhase (s : State) : (s.afterDraw).irqPhase = s.irqPhase := by unfold State.afterDraw; split <;> rfl
@[simp] theorem afterDraw_intEn (s : State) : (s.afterDraw).intEn = s.intEn := by unfold State.afterDraw; split <;> rfl
@[simp] theorem afterDraw_intPend (s : State) : (s.afterDraw).intPend = s.intPend := by unfold State.afterDraw; split <;> rfl
@[simp] theorem afterDraw_regs (s : State) : (s.afterDraw).regs = s.regs := by unfold State.afterDraw; split <;> rfl
@[simp] theorem afterDraw_port (s : State) : (s.afterDraw).port = s.port := by unfold State.afterDraw; split <;> rfl
@[simp] theorem afterDraw_portOut (s : State) : (s.afterDraw).portOut = s.portOut := by unfold State.afterDraw; split <;> rfl
@[simp] theorem afterDraw_hist (s : State) : (s.afterDraw).hist = s.hist := by unfold State.afterDraw; split <;> rfl
@[simp] theorem afterDraw_sched (s : State) : (s.afterDraw).sched = s.sched := by unfold State.afterDraw; split <;> rfl
@[simp] theorem afterDraw_refuseOut (s : State) : (s.afterDraw).refuseOut = s.refuseOut := by unfold State.afterDraw; split <;> rfl

/-! `afterRead`. -/

@[simp] theorem afterRead_params (s : State) (r : Reg) : (s.afterRead r).params = s.params := by unfold State.afterRead; split <;> simp
@[simp] theorem afterRead_attached (s : State) (r : Reg) : (s.afterRead r).attached = s.attached := by unfold State.afterRead; split <;> simp
@[simp] theorem afterRead_isOpen (s : State) (r : Reg) : (s.afterRead r).isOpen = s.isOpen := by unfold State.afterRead; split <;> simp
@[simp] theorem afterRead_lineReg (s : State) (r : Reg) : (s.afterRead r).lineReg = s.lineReg := by unfold State.afterRead; split <;> simp
@[simp] theorem afterRead_bufAlloc (s : State) (r : Reg) : (s.afterRead r).bufAlloc = s.bufAlloc := by unfold State.afterRead; split <;> simp
@[simp] theorem afterRead_cfg (s : State) (r : Reg) : (s.afterRead r).cfg = s.cfg := by unfold State.afterRead; split <;> simp
@[simp] theorem afterRead_icount (s : State) (r : Reg) : (s.afterRead r).icount = s.icount := by unfold State.afterRead; split <;> simp
@[simp] theorem afterRead_blk (s : State) (r : Reg) : (s.afterRead r).blk = s.blk := by unfold State.afterRead; split <;> simp
@[simp] theorem afterRead_ilock (s : State) (r : Reg) : (s.afterRead r).ilock = s.ilock := by unfold State.afterRead; split <;> simp
@[simp] theorem afterRead_seq (s : State) (r : Reg) : (s.afterRead r).seq = s.seq := by unfold State.afterRead; split <;> simp
@[simp] theorem afterRead_todo (s : State) (r : Reg) : (s.afterRead r).todo = s.todo := by unfold State.afterRead; split <;> simp
@[simp] theorem afterRead_vals (s : State) (r : Reg) : (s.afterRead r).vals = s.vals := by unfold State.afterRead; split <;> simp
@[simp] theorem afterRead_emitted (s : State) (r : Reg) : (s.afterRead r).emitted = s.emitted := by unfold State.afterRead; split <;> simp
@[simp] theorem afterRead_code (s : State) (r : Reg) : (s.afterRead r).code = s.code := by unfold State.afterRead; split <;> simp
@[simp] theorem afterRead_spins (s : State) (r : Reg) : (s.afterRead r).spins = s.spins := by unfold State.afterRead; split <;> simp
@[simp] theorem afterRead_irqPhase (s : State) (r : Reg) : (s.afterRead r).irqPhase = s.irqPhase := by unfold State.afterRead; split <;> simp
@[simp] theorem afterRead_intEn (s : State) (r : Reg) : (s.afterRead r).intEn = s.intEn := by unfold State.afterRead; split <;> simp
@[simp] theorem afterRead_intPend (s : State) (r : Reg) : (s.afterRead r).intPend = s.intPend := by unfold State.afterRead; split <;> simp
@[simp] theorem afterRead_regs (s : State) (r : Reg) : (s.afterRead r).regs = s.regs := by unfold State.afterRead; split <;> simp
@[simp] theorem afterRead_port (s : State) (r : Reg) : (s.afterRead r).port = s.port := by unfold State.afterRead; split <;> simp
@[simp] theorem afterRead_portOut (s : State) (r : Reg) : (s.afterRead r).portOut = s.portOut := by unfold State.afterRead; split <;> simp
@[simp] theorem afterRead_hist (s : State) (r : Reg) : (s.afterRead r).hist = s.hist := by unfold State.afterRead; split <;> simp
@[simp] theorem afterRead_sched (s : State) (r : Reg) : (s.afterRead r).sched = s.sched := by unfold State.afterRead; split <;> simp
@[simp] theorem afterRead_refuseOut (s : State) (r : Reg) : (s.afterRead r).refuseOut = s.refuseOut := by unfold State.afterRead; split <;> simp

/-! `afterHeld`. -/

@[simp] theorem afterHeld_params (s : State) (r : Reg) : (s.afterHeld r).params = s.params := by unfold State.afterHeld; split <;> rfl
@[simp] theorem afterHeld_attached (s : State) (r : Reg) : (s.afterHeld r).attached = s.attached := by unfold State.afterHeld; split <;> rfl
@[simp] theorem afterHeld_isOpen (s : State) (r : Reg) : (s.afterHeld r).isOpen = s.isOpen := by unfold State.afterHeld; split <;> rfl
@[simp] theorem afterHeld_lineReg (s : State) (r : Reg) : (s.afterHeld r).lineReg = s.lineReg := by unfold State.afterHeld; split <;> rfl
@[simp] theorem afterHeld_bufAlloc (s : State) (r : Reg) : (s.afterHeld r).bufAlloc = s.bufAlloc := by unfold State.afterHeld; split <;> rfl
@[simp] theorem afterHeld_cfg (s : State) (r : Reg) : (s.afterHeld r).cfg = s.cfg := by unfold State.afterHeld; split <;> rfl
@[simp] theorem afterHeld_icount (s : State) (r : Reg) : (s.afterHeld r).icount = s.icount := by unfold State.afterHeld; split <;> rfl
@[simp] theorem afterHeld_blk (s : State) (r : Reg) : (s.afterHeld r).blk = s.blk := by unfold State.afterHeld; split <;> rfl
@[simp] theorem afterHeld_ilock (s : State) (r : Reg) : (s.afterHeld r).ilock = s.ilock := by unfold State.afterHeld; split <;> rfl
@[simp] theorem afterHeld_seq (s : State) (r : Reg) : (s.afterHeld r).seq = s.seq := by unfold State.afterHeld; split <;> rfl
@[simp] theorem afterHeld_todo (s : State) (r : Reg) : (s.afterHeld r).todo = s.todo := by unfold State.afterHeld; split <;> rfl
@[simp] theorem afterHeld_vals (s : State) (r : Reg) : (s.afterHeld r).vals = s.vals := by unfold State.afterHeld; split <;> rfl
@[simp] theorem afterHeld_emitted (s : State) (r : Reg) : (s.afterHeld r).emitted = s.emitted := by unfold State.afterHeld; split <;> rfl
@[simp] theorem afterHeld_code (s : State) (r : Reg) : (s.afterHeld r).code = s.code := by unfold State.afterHeld; split <;> rfl
@[simp] theorem afterHeld_spins (s : State) (r : Reg) : (s.afterHeld r).spins = s.spins := by unfold State.afterHeld; split <;> rfl
@[simp] theorem afterHeld_irqPhase (s : State) (r : Reg) : (s.afterHeld r).irqPhase = s.irqPhase := by unfold State.afterHeld; split <;> rfl
@[simp] theorem afterHeld_intEn (s : State) (r : Reg) : (s.afterHeld r).intEn = s.intEn := by unfold State.afterHeld; split <;> rfl
@[simp] theorem afterHeld_intPend (s : State) (r : Reg) : (s.afterHeld r).intPend = s.intPend := by unfold State.afterHeld; split <;> rfl
@[simp] theorem afterHeld_regs (s : State) (r : Reg) : (s.afterHeld r).regs = s.regs := by unfold State.afterHeld; split <;> rfl
@[simp] theorem afterHeld_port (s : State) (r : Reg) : (s.afterHeld r).port = s.port := by unfold State.afterHeld; split <;> rfl
@[simp] theorem afterHeld_portOut (s : State) (r : Reg) : (s.afterHeld r).portOut = s.portOut := by unfold State.afterHeld; split <;> rfl
@[simp] theorem afterHeld_hist (s : State) (r : Reg) : (s.afterHeld r).hist = s.hist := by unfold State.afterHeld; split <;> rfl
@[simp] theorem afterHeld_sched (s : State) (r : Reg) : (s.afterHeld r).sched = s.sched := by unfold State.afterHeld; split <;> rfl
@[simp] theorem afterHeld_draws (s : State) (r : Reg) : (s.afterHeld r).draws = s.draws := by unfold State.afterHeld; split <;> rfl
@[simp] theorem afterHeld_refuseOut (s : State) (r : Reg) : (s.afterHeld r).refuseOut = s.refuseOut := by unfold State.afterHeld; split <;> rfl

/-! `startCycle`. -/

@[simp] theorem startCycle_params (r : Reg) (v : Word) (s : State) : (startCycle r v s).params = s.params := by unfold startCycle startLane startSingle; split <;> simp
@[simp] theorem startCycle_attached (r : Reg) (v : Word) (s : State) : (startCycle r v s).attached = s.attached := by unfold startCycle startLane startSingle; split <;> simp
@[simp] theorem startCycle_isOpen (r : Reg) (v : Word) (s : State) : (startCycle r v s).isOpen = s.isOpen := by unfold startCycle startLane startSingle; split <;> simp
@[simp] theorem startCycle_lineReg (r : Reg) (v : Word) (s : State) : (startCycle r v s).lineReg = s.lineReg := by unfold startCycle startLane startSingle; split <;> simp
@[simp] theorem startCycle_bufAlloc (r : Reg) (v : Word) (s : State) : (startCycle r v s).bufAlloc = s.bufAlloc := by unfold startCycle startLane startSingle; split <;> simp
@[simp] theorem startCycle_cfg (r : Reg) (v : Word) (s : State) : (startCycle r v s).cfg = s.cfg := by unfold startCycle startLane startSingle; split <;> simp
@[simp] theorem startCycle_icount (r : Reg) (v : Word) (s : State) : (startCycle r v s).icount = s.icount := by unfold startCycle startLane startSingle; split <;> simp
@[simp] theorem startCycle_blk (r : Reg) (v : Word) (s : State) : (startCycle r v s).blk = s.blk := by unfold startCycle startLane startSingle; split <;> simp
@[simp] theorem startCycle_ilock (r : Reg) (v : Word) (s : State) : (startCycle r v s).ilock = s.ilock := by unfold startCycle startLane startSingle; split <;> simp
@[simp] theorem startCycle_seq (r : Reg) (v : Word) (s : State) : (startCycle r v s).seq = s.seq := by unfold startCycle startLane startSingle; split <;> simp
@[simp] theorem startCycle_todo (r : Reg) (v : Word) (s : State) : (startCycle r v s).todo = s.todo := by unfold startCycle startLane startSingle; split <;> simp
@[simp] theorem startCycle_vals (r : Reg) (v : Word) (s : State) : (startCycle r v s).vals = s.vals := by unfold startCycle startLane startSingle; split <;> simp
@[simp] theorem startCycle_emitted (r : Reg) (v : Word) (s : State) : (startCycle r v s).emitted = s.emitted := by unfold startCycle startLane startSingle; split <;> simp
@[simp] theorem startCycle_code (r : Reg) (v : Word) (s : State) : (startCycle r v s).code = s.code := by unfold startCycle startLane startSingle; split <;> simp
@[simp] theorem startCycle_spins (r : Reg) (v : Word) (s : State) : (startCycle r v s).spins = s.spins := by unfold startCycle startLane startSingle; split <;> simp
@[simp] theorem startCycle_irqPhase (r : Reg) (v : Word) (s : State) : (startCycle r v s).irqPhase = s.irqPhase := by unfold startCycle startLane startSingle; split <;> simp
@[simp] theorem startCycle_intEn (r : Reg) (v : Word) (s : State) : (startCycle r v s).intEn = s.intEn := by unfold startCycle startLane startSingle; split <;> simp
@[simp] theorem startCycle_intPend (r : Reg) (v : Word) (s : State) : (startCycle r v s).intPend = s.intPend := by unfold startCycle startLane startSingle; split <;> simp
@[simp] theorem startCycle_regs (r : Reg) (v : Word) (s : State) : (startCycle r v s).regs = s.regs := by unfold startCycle startLane startSingle; split <;> simp
@[simp] theorem startCycle_port (r : Reg) (v : Word) (s : State) : (startCycle r v s).port = s.port := by unfold startCycle startLane startSingle; split <;> simp
@[simp] theorem startCycle_portOut (r : Reg) (v : Word) (s : State) : (startCycle r v s).portOut = s.portOut := by unfold startCycle startLane startSingle; split <;> simp
@[simp] theorem startCycle_sched (r : Reg) (v : Word) (s : State) : (startCycle r v s).sched = s.sched := by unfold startCycle startLane startSingle; split <;> simp
@[simp] theorem startCycle_draws (r : Reg) (v : Word) (s : State) : (startCycle r v s).draws = s.draws := by unfold startCycle startLane startSingle; split <;> simp
@[simp] theorem startCycle_refuseOut (r : Reg) (v : Word) (s : State) : (startCycle r v s).refuseOut = s.refuseOut := by unfold startCycle startLane startSingle; split <;> simp

/-! `acceptHeader`. -/

@[simp] theorem acceptHeader_params (h : Word) (s : State) : (acceptHeader h s).params = s.params := rfl
@[simp] theorem acceptHeader_attached (h : Word) (s : State) : (acceptHeader h s).attached = s.attached := rfl
@[simp] theorem acceptHeader_isOpen (h : Word) (s : State) : (acceptHeader h s).isOpen = s.isOpen := rfl
@[simp] theorem acceptHeader_lineReg (h : Word) (s : State) : (acceptHeader h s).lineReg = s.lineReg := rfl
@[simp] theorem acceptHeader_bufAlloc (h : Word) (s : State) : (acceptHeader h s).bufAlloc = s.bufAlloc := rfl
@[simp] theorem acceptHeader_cfg (h : Word) (s : State) : (acceptHeader h s).cfg = s.cfg := rfl
@[simp] theorem acceptHeader_icount (h : Word) (s : State) : (acceptHeader h s).icount = s.icount := rfl
@[simp] theorem acceptHeader_blk (h : Word) (s : State) : (acceptHeader h s).blk = .held := rfl
@[simp] theorem acceptHeader_ilock (h : Word) (s : State) : (acceptHeader h s).ilock = s.ilock := rfl
@[simp] theorem acceptHeader_seq (h : Word) (s : State) : (acceptHeader h s).seq = s.seq := rfl
@[simp] theorem acceptHeader_todo (h : Word) (s : State) : (acceptHeader h s).todo = s.todo := rfl
@[simp] theorem acceptHeader_vals (h : Word) (s : State) : (acceptHeader h s).vals = s.vals := rfl
@[simp] theorem acceptHeader_emitted (h : Word) (s : State) : (acceptHeader h s).emitted = s.emitted := rfl
@[simp] theorem acceptHeader_code (h : Word) (s : State) : (acceptHeader h s).code = s.code := rfl
@[simp] theorem acceptHeader_spins (h : Word) (s : State) : (acceptHeader h s).spins = s.spins := rfl
@[simp] theorem acceptHeader_irqPhase (h : Word) (s : State) : (acceptHeader h s).irqPhase = s.irqPhase := rfl
@[simp] theorem acceptHeader_intEn (h : Word) (s : State) : (acceptHeader h s).intEn = s.intEn := rfl
@[simp] theorem acceptHeader_intPend (h : Word) (s : State) : (acceptHeader h s).intPend = s.intPend := rfl
@[simp] theorem acceptHeader_regs (h : Word) (s : State) : (acceptHeader h s).regs = s.regs := rfl
@[simp] theorem acceptHeader_port (h : Word) (s : State) : (acceptHeader h s).port = s.port := rfl
@[simp] theorem acceptHeader_portOut (h : Word) (s : State) : (acceptHeader h s).portOut = s.portOut := rfl
@[simp] theorem acceptHeader_hist (h : Word) (s : State) : (acceptHeader h s).hist = s.hist ++ [.accept h] := rfl
@[simp] theorem acceptHeader_sched (h : Word) (s : State) : (acceptHeader h s).sched = s.sched := rfl
@[simp] theorem acceptHeader_draws (h : Word) (s : State) : (acceptHeader h s).draws = s.draws := rfl
@[simp] theorem acceptHeader_freeIx (h : Word) (s : State) : (acceptHeader h s).freeIx = s.freeIx := rfl
@[simp] theorem acceptHeader_refuseOut (h : Word) (s : State) : (acceptHeader h s).refuseOut = s.refuseOut := rfl

/-! `startCommand`. -/

@[simp] theorem startCommand_params (i : Instr) (s : State) : (startCommand i s).params = s.params := rfl
@[simp] theorem startCommand_attached (i : Instr) (s : State) : (startCommand i s).attached = s.attached := rfl
@[simp] theorem startCommand_isOpen (i : Instr) (s : State) : (startCommand i s).isOpen = s.isOpen := rfl
@[simp] theorem startCommand_lineReg (i : Instr) (s : State) : (startCommand i s).lineReg = s.lineReg := rfl
@[simp] theorem startCommand_bufAlloc (i : Instr) (s : State) : (startCommand i s).bufAlloc = s.bufAlloc := rfl
@[simp] theorem startCommand_cfg (i : Instr) (s : State) : (startCommand i s).cfg = s.cfg := rfl
@[simp] theorem startCommand_icount (i : Instr) (s : State) : (startCommand i s).icount = s.icount := rfl
@[simp] theorem startCommand_blk (i : Instr) (s : State) : (startCommand i s).blk = .held := rfl
@[simp] theorem startCommand_ilock (i : Instr) (s : State) : (startCommand i s).ilock = s.ilock := rfl
@[simp] theorem startCommand_seq (i : Instr) (s : State) : (startCommand i s).seq = .run i 0 := rfl
@[simp] theorem startCommand_todo (i : Instr) (s : State) : (startCommand i s).todo = s.todo := rfl
@[simp] theorem startCommand_vals (i : Instr) (s : State) : (startCommand i s).vals = [] := rfl
@[simp] theorem startCommand_emitted (i : Instr) (s : State) : (startCommand i s).emitted = [] := rfl
@[simp] theorem startCommand_code (i : Instr) (s : State) : (startCommand i s).code = .ok := rfl
@[simp] theorem startCommand_spins (i : Instr) (s : State) : (startCommand i s).spins = 0 := rfl
@[simp] theorem startCommand_irqPhase (i : Instr) (s : State) : (startCommand i s).irqPhase = s.irqPhase := rfl
@[simp] theorem startCommand_intEn (i : Instr) (s : State) : (startCommand i s).intEn = s.intEn := rfl
@[simp] theorem startCommand_intPend (i : Instr) (s : State) : (startCommand i s).intPend = s.intPend := rfl
@[simp] theorem startCommand_regs (i : Instr) (s : State) : (startCommand i s).regs = s.regs := rfl
@[simp] theorem startCommand_port (i : Instr) (s : State) : (startCommand i s).port = s.port := rfl
@[simp] theorem startCommand_portOut (i : Instr) (s : State) : (startCommand i s).portOut = s.portOut := rfl
@[simp] theorem startCommand_hist (i : Instr) (s : State) : (startCommand i s).hist = s.hist ++ [.accept i.header] := rfl
@[simp] theorem startCommand_sched (i : Instr) (s : State) : (startCommand i s).sched = s.sched := rfl
@[simp] theorem startCommand_draws (i : Instr) (s : State) : (startCommand i s).draws = s.draws := rfl
@[simp] theorem startCommand_freeIx (i : Instr) (s : State) : (startCommand i s).freeIx = s.freeIx := rfl
@[simp] theorem startCommand_refuseOut (i : Instr) (s : State) : (startCommand i s).refuseOut = s.refuseOut := rfl

/-! `startAway`. -/

@[simp] theorem startAway_params (h : Word) (c : Code) (s : State) : (startAway h c s).params = s.params := rfl
@[simp] theorem startAway_attached (h : Word) (c : Code) (s : State) : (startAway h c s).attached = s.attached := rfl
@[simp] theorem startAway_isOpen (h : Word) (c : Code) (s : State) : (startAway h c s).isOpen = s.isOpen := rfl
@[simp] theorem startAway_lineReg (h : Word) (c : Code) (s : State) : (startAway h c s).lineReg = s.lineReg := rfl
@[simp] theorem startAway_bufAlloc (h : Word) (c : Code) (s : State) : (startAway h c s).bufAlloc = s.bufAlloc := rfl
@[simp] theorem startAway_cfg (h : Word) (c : Code) (s : State) : (startAway h c s).cfg = s.cfg := rfl
@[simp] theorem startAway_icount (h : Word) (c : Code) (s : State) : (startAway h c s).icount = s.icount := rfl
@[simp] theorem startAway_blk (h : Word) (c : Code) (s : State) : (startAway h c s).blk = .held := rfl
@[simp] theorem startAway_ilock (h : Word) (c : Code) (s : State) : (startAway h c s).ilock = s.ilock := rfl
@[simp] theorem startAway_seq (h : Word) (c : Code) (s : State) : (startAway h c s).seq = s.seq := rfl
@[simp] theorem startAway_todo (h : Word) (c : Code) (s : State) : (startAway h c s).todo = s.todo := rfl
@[simp] theorem startAway_vals (h : Word) (c : Code) (s : State) : (startAway h c s).vals = s.vals := rfl
@[simp] theorem startAway_emitted (h : Word) (c : Code) (s : State) : (startAway h c s).emitted = s.emitted := rfl
@[simp] theorem startAway_code (h : Word) (c : Code) (s : State) : (startAway h c s).code = c := rfl
@[simp] theorem startAway_spins (h : Word) (c : Code) (s : State) : (startAway h c s).spins = s.spins := rfl
@[simp] theorem startAway_irqPhase (h : Word) (c : Code) (s : State) : (startAway h c s).irqPhase = s.irqPhase := rfl
@[simp] theorem startAway_intEn (h : Word) (c : Code) (s : State) : (startAway h c s).intEn = s.intEn := rfl
@[simp] theorem startAway_intPend (h : Word) (c : Code) (s : State) : (startAway h c s).intPend = s.intPend := rfl
@[simp] theorem startAway_regs (h : Word) (c : Code) (s : State) : (startAway h c s).regs = s.regs := rfl
@[simp] theorem startAway_port (h : Word) (c : Code) (s : State) : (startAway h c s).port = s.port := rfl
@[simp] theorem startAway_portOut (h : Word) (c : Code) (s : State) : (startAway h c s).portOut = s.portOut := rfl
@[simp] theorem startAway_hist (h : Word) (c : Code) (s : State) : (startAway h c s).hist = s.hist ++ [.accept h] := rfl
@[simp] theorem startAway_sched (h : Word) (c : Code) (s : State) : (startAway h c s).sched = s.sched := rfl
@[simp] theorem startAway_draws (h : Word) (c : Code) (s : State) : (startAway h c s).draws = s.draws := rfl
@[simp] theorem startAway_freeIx (h : Word) (c : Code) (s : State) : (startAway h c s).freeIx = s.freeIx := rfl
@[simp] theorem startAway_refuseOut (h : Word) (c : Code) (s : State) : (startAway h c s).refuseOut = s.refuseOut := rfl

/-! `sendResult`. -/

@[simp] theorem sendResult_params (c : Code) (ws : List Word) (s : State) : (sendResult c ws s).params = s.params := rfl
@[simp] theorem sendResult_attached (c : Code) (ws : List Word) (s : State) : (sendResult c ws s).attached = s.attached := rfl
@[simp] theorem sendResult_isOpen (c : Code) (ws : List Word) (s : State) : (sendResult c ws s).isOpen = s.isOpen := rfl
@[simp] theorem sendResult_lineReg (c : Code) (ws : List Word) (s : State) : (sendResult c ws s).lineReg = s.lineReg := rfl
@[simp] theorem sendResult_bufAlloc (c : Code) (ws : List Word) (s : State) : (sendResult c ws s).bufAlloc = s.bufAlloc := rfl
@[simp] theorem sendResult_cfg (c : Code) (ws : List Word) (s : State) : (sendResult c ws s).cfg = s.cfg := rfl
@[simp] theorem sendResult_icount (c : Code) (ws : List Word) (s : State) : (sendResult c ws s).icount = s.icount := rfl
@[simp] theorem sendResult_blk (c : Code) (ws : List Word) (s : State) : (sendResult c ws s).blk = .free := rfl
@[simp] theorem sendResult_ilock (c : Code) (ws : List Word) (s : State) : (sendResult c ws s).ilock = s.ilock := rfl
@[simp] theorem sendResult_seq (c : Code) (ws : List Word) (s : State) : (sendResult c ws s).seq = .idle := rfl
@[simp] theorem sendResult_todo (c : Code) (ws : List Word) (s : State) : (sendResult c ws s).todo = [] := rfl
@[simp] theorem sendResult_vals (c : Code) (ws : List Word) (s : State) : (sendResult c ws s).vals = [] := rfl
@[simp] theorem sendResult_emitted (c : Code) (ws : List Word) (s : State) : (sendResult c ws s).emitted = [] := rfl
@[simp] theorem sendResult_code (c : Code) (ws : List Word) (s : State) : (sendResult c ws s).code = .ok := rfl
@[simp] theorem sendResult_spins (c : Code) (ws : List Word) (s : State) : (sendResult c ws s).spins = 0 := rfl
@[simp] theorem sendResult_irqPhase (c : Code) (ws : List Word) (s : State) : (sendResult c ws s).irqPhase = s.irqPhase := rfl
@[simp] theorem sendResult_intEn (c : Code) (ws : List Word) (s : State) : (sendResult c ws s).intEn = s.intEn := rfl
@[simp] theorem sendResult_intPend (c : Code) (ws : List Word) (s : State) : (sendResult c ws s).intPend = s.intPend := rfl
@[simp] theorem sendResult_regs (c : Code) (ws : List Word) (s : State) : (sendResult c ws s).regs = s.regs := rfl
@[simp] theorem sendResult_port (c : Code) (ws : List Word) (s : State) : (sendResult c ws s).port = s.port := rfl
@[simp] theorem sendResult_hist (c : Code) (ws : List Word) (s : State) : (sendResult c ws s).hist = s.hist ++ [.result (resultCode c ws s) (resultWords c ws s).length] := rfl
@[simp] theorem sendResult_sched (c : Code) (ws : List Word) (s : State) : (sendResult c ws s).sched = s.sched := rfl
@[simp] theorem sendResult_draws (c : Code) (ws : List Word) (s : State) : (sendResult c ws s).draws = s.draws := rfl
@[simp] theorem sendResult_refuseOut (c : Code) (ws : List Word) (s : State) : (sendResult c ws s).refuseOut = false := rfl

/-- A command under way stays under way when `k` advances. -/
@[simp] theorem advance_seq_idle (s : State) : s.advance.seq = .idle ↔ s.seq = .idle := by
  unfold State.advance; cases s.seq <;> simp

end Sys2Proof.Machine
end

