-- ==== Sys2Proof/Laws/Interleave.lean ====
section
/-! SUPPORT. What the other agents can do between two steps of CMD, said once: `OthersOnly`. -/

namespace Sys2Proof.Machine

@[simp] theorem andThen_next {α β : Type} (a : α) (f : α → Res β) : andThen (.next a) f = f a := rfl
@[simp] theorem andThen_fault {α β : Type} (r : Fault) (f : α → Res β) :
    andThen (Host.Outcome.fault r : Res α) f = .fault r := rfl
@[simp] theorem andThen_refused {α β : Type} (r : Refusal) (f : α → Res β) :
    andThen (Host.Outcome.refused r : Res α) f = .refused r := rfl

/-- A sequence that answers a next value took both steps. -/
theorem andThen_eq_next {α β : Type} {x : Res α} {f : α → Res β} {b : β} :
    andThen x f = .next b ↔ ∃ a, x = .next a ∧ f a = .next b := by
  cases x <;> simp [andThen]

@[simp] theorem cmdTrace_append (h l : List Event) : cmdTrace (h ++ l) = cmdTrace h ++ cmdTrace l :=
  List.filter_append h l

theorem SameCmdView.refl (s : State) : SameCmdView s s := by constructor <;> rfl

theorem SameCmdView.trans {s t u : State} (h1 : SameCmdView s t) (h2 : SameCmdView t u) : SameCmdView s u := by
  constructor
  · exact h2.params.trans h1.params
  · exact h2.attached.trans h1.attached
  · exact h2.lineReg.trans h1.lineReg
  · exact h2.bufAlloc.trans h1.bufAlloc
  · exact h2.cfg.trans h1.cfg
  · exact h2.blk.trans h1.blk
  · exact h2.seq.trans h1.seq
  · exact h2.todo.trans h1.todo
  · exact h2.vals.trans h1.vals
  · exact h2.emitted.trans h1.emitted
  · exact h2.code.trans h1.code
  · exact h2.spins.trans h1.spins
  · exact h2.regs.trans h1.regs
  · exact h2.portOut.trans h1.portOut
  · exact h2.draws.trans h1.draws
  · exact h2.freeIx.trans h1.freeIx
  · exact h2.trace.trans h1.trace

/-- `t` is `s` after turns of other agents while a command is under way. -/
structure OthersOnly (s t : State) : Prop where
  view : SameCmdView s t
  /-- IRQ takes ILOCK only at its entry and gives it back at its exit. -/
  lockIrq : (s.ilock = .irq ↔ s.irqPhase ≠ .idle) → (t.ilock = .irq ↔ t.irqPhase ≠ .idle)
  /-- CMD's hold of ILOCK is CMD's. -/
  lockCmd : t.ilock = .cmd ↔ s.ilock = .cmd
  /-- While CMD holds ILOCK no handler starts: enable and count stay (R215). -/
  underLock : s.ilock = .cmd → s.irqPhase = .idle →
    t.irqPhase = .idle ∧ t.icount = s.icount ∧ t.intEn = s.intEn
  /-- The counter keeps to its width. -/
  count : s.icount.toNat < 2 ^ s.params.icountW → t.icount.toNat < 2 ^ s.params.icountW
  /-- The counter counts handler runs; it is a 32-bit register. -/
  runs : ∀ base, s.params.icountW ≤ 32 → CountsRuns base s → CountsRuns base t
  /-- The history only grows. -/
  hist : s.hist <+: t.hist

theorem OthersOnly.refl (s : State) : OthersOnly s s where
  view := .refl s
  lockIrq := id
  lockCmd := .rfl
  underLock := fun _ h => ⟨h, rfl, rfl⟩
  count := id
  runs := fun _ _ h => h
  hist := List.prefix_refl _

theorem OthersOnly.trans {s t u : State} (h1 : OthersOnly s t) (h2 : OthersOnly t u) : OthersOnly s u where
  view := h1.view.trans h2.view
  lockIrq := h2.lockIrq ∘ h1.lockIrq
  lockCmd := h2.lockCmd.trans h1.lockCmd
  underLock := fun hc hp => by
    obtain ⟨a, b, c⟩ := h1.underLock hc hp
    obtain ⟨d, e, f⟩ := h2.underLock (h1.lockCmd.mpr hc) a
    exact ⟨d, e.trans b, f.trans c⟩
  count := fun h => by
    have := h2.count (by rw [h1.view.params]; exact h1.count h)
    rwa [h1.view.params] at this
  runs := fun b hw h => h2.runs b (by rw [h1.view.params]; exact hw) (h1.runs b hw h)
  hist := h1.hist.trans h2.hist

/-- Replacing the schedule is no act of an agent. -/
theorem OthersOnly.withSched {s t : State} (h : OthersOnly s t) (l : List Turn) :
    OthersOnly s { t with sched := l } :=
  ⟨⟨h.view.params, h.view.attached, h.view.lineReg, h.view.bufAlloc, h.view.cfg, h.view.blk, h.view.seq, h.view.todo,
    h.view.vals, h.view.emitted, h.view.code, h.view.spins, h.view.regs, h.view.portOut, h.view.draws, h.view.freeIx,
    h.view.trace⟩, h.lockIrq, h.lockCmd, h.underLock, h.count, fun b hw hc => ⟨(h.runs b hw hc).count, (h.runs b hw hc).entries⟩, h.hist⟩

/-- Everything a write of INT_CTRL can do (R41): its value is one of the three commands, and it touches the two
interrupt bits alone. -/
theorem intCtrlWrite_cases {v : Word} {s t : State} (h : intCtrlWrite v s = .next t) :
    isIntCommand s.params v = true ∧ ∃ en pend, t = { s with intEn := en, intPend := pend } := by
  unfold intCtrlWrite at h
  unfold isIntCommand
  split at h
  · rename_i h1; cases h; exact ⟨by simp [h1], true, s.intPend, rfl⟩
  · split at h
    · rename_i h1; cases h; exact ⟨by simp [h1], false, s.intPend, rfl⟩
    · split at h
      · rename_i h1; cases h; exact ⟨by simp [h1], s.intEn, false, rfl⟩
      · cases h

/-- A register write of INT_CTRL by any agent: it touches the two interrupt bits and the history alone (R41). -/
theorem regWrite_intCtrl {a : Agent} {v : Word} {s t : State} (h : regWrite a .intCtrl v s = .next t) :
    ∃ en pend, t = { s with intEn := en, intPend := pend, hist := s.hist ++ [.write a (s.params.off .intCtrl) v] } := by
  unfold regWrite at h
  split at h
  · obtain ⟨-, en, pend, rfl⟩ := intCtrlWrite_cases (s := s.log _) h
    exact ⟨en, pend, rfl⟩
  · cases h

/-- Everything one step of IRQ can do (R213, R214). -/
theorem irqStep_cases {s t : State} (h : irqStep s = .next t) :
    t = s ∨
    (s.irqPhase = .idle ∧ s.ilock = .free ∧ s.attached = true ∧ t = enterHandler s) ∨
    (∃ en pend v ph, s.attached = true ∧
      ((s.irqPhase = .entered ∧ ph = .cleared) ∨ (s.irqPhase = .counted ∧ ph = .disabled)) ∧
      t = { s with intEn := en, intPend := pend, irqPhase := ph,
                   hist := s.hist ++ [.write .irq (s.params.off .intCtrl) v] }) ∨
    (s.irqPhase = .cleared ∧ s.attached = true ∧
      t = { s with icount := countNext s.params s.icount, irqPhase := .counted }) ∨
    (s.irqPhase = .disabled ∧ s.ilock = .irq ∧ s.attached = true ∧ t = leaveHandler s) := by
  unfold irqStep at h
  split at h
  · rename_i he
    unfold irqEnabled at he
    rw [Bool.and_eq_true] at he
    obtain ⟨ha, he⟩ := he
    cases hp : s.irqPhase with
    | idle =>
      rw [hp] at h he
      simp at he
      cases h
      exact .inr (.inl ⟨rfl, he.2, ha, rfl⟩)
    | entered =>
      rw [hp] at h
      obtain ⟨u, hu, hn⟩ := andThen_eq_next.mp h
      obtain ⟨en, pend, rfl⟩ := regWrite_intCtrl hu
      cases hn
      exact .inr (.inr (.inl ⟨en, pend, s.params.intClear, .cleared, ha, .inl ⟨rfl, rfl⟩, rfl⟩))
    | cleared =>
      rw [hp] at h
      cases h
      exact .inr (.inr (.inr (.inl ⟨rfl, ha, rfl⟩)))
    | counted =>
      rw [hp] at h
      obtain ⟨u, hu, hn⟩ := andThen_eq_next.mp h
      obtain ⟨en, pend, rfl⟩ := regWrite_intCtrl hu
      cases hn
      exact .inr (.inr (.inl ⟨en, pend, s.params.intDisable, .disabled, ha, .inr ⟨rfl, rfl⟩, rfl⟩))
    | disabled =>
      rw [hp] at h he
      simp at he
      cases h
      exact .inr (.inr (.inr (.inr ⟨rfl, he, ha, rfl⟩)))
  · cases h; exact .inl rfl

theorem countNext_lt (p : Params) (c : Word) : (countNext p c).toNat < 2 ^ p.icountW := by
  unfold countNext
  rw [BitVec.toNat_ofNat]
  calc _ ≤ (c.toNat + 1) % 2 ^ p.icountW := Nat.mod_le _ _
    _ < _ := Nat.mod_lt _ (Nat.two_pow_pos _)

theorem countNext_toNat {p : Params} {c : Word} (hw : p.icountW ≤ 32) :
    (countNext p c).toNat = (c.toNat + 1) % 2 ^ p.icountW := by
  unfold countNext
  rw [BitVec.toNat_ofNat]
  exact Nat.mod_eq_of_lt (Nat.lt_of_lt_of_le (Nat.mod_lt _ (Nat.two_pow_pos _))
    (Nat.pow_le_pow_right (by decide) hw))

theorem irqStep_others {s t : State} (h : irqStep s = .next t) : OthersOnly s t := by
  rcases irqStep_cases h with rfl | ⟨hp, hl, -, rfl⟩ | ⟨en, pend, v, ph, -, hph, rfl⟩ | ⟨hp, -, rfl⟩ |
    ⟨hp, hl, -, rfl⟩
  · exact .refl _
  · refine ⟨?_, ?_, ?_, ?_, id, ?_, List.prefix_append _ _⟩
    · constructor <;> simp [enterHandler, cmdTrace, Event.byCmd]
    · simp [enterHandler]
    · simp [enterHandler, hl]
    · intro hc; rw [hl] at hc; cases hc
    · rintro b hw ⟨hc, he⟩
      constructor
      · simpa [enterHandler, handlerRuns, hp, IrqPhase.incremented] using hc
      · simpa [enterHandler, handlerRuns, handlerEntries, hp, IrqPhase.running] using he
  · refine ⟨?_, ?_, .rfl, ?_, id, ?_, List.prefix_append _ _⟩
    · constructor <;> simp [cmdTrace, Event.byCmd]
    · rcases hph with ⟨h1, rfl⟩ | ⟨h1, rfl⟩ <;> simp [h1]
    · intro _ hi; rcases hph with ⟨h1, rfl⟩ | ⟨h1, rfl⟩ <;> rw [h1] at hi <;> cases hi
    · rintro b hw ⟨hc, he⟩
      rcases hph with ⟨h1, rfl⟩ | ⟨h1, rfl⟩ <;> constructor
      · simpa [handlerRuns, h1, IrqPhase.incremented] using hc
      · simpa [handlerRuns, handlerEntries, h1, IrqPhase.running] using he
      · simpa [handlerRuns, h1, IrqPhase.incremented] using hc
      · simpa [handlerRuns, handlerEntries, h1, IrqPhase.running] using he
  · refine ⟨?_, ?_, .rfl, ?_, fun _ => countNext_lt _ _, ?_, List.prefix_refl _⟩
    · constructor <;> rfl
    · simp [hp]
    · intro _ hi; rw [hp] at hi; cases hi
    · rintro b hw ⟨hc, he⟩
      constructor
      · simp only [countNext_toNat hw, hc, hp, IrqPhase.incremented, Nat.mod_add_mod, Nat.add_zero]
      · simpa [hp, IrqPhase.running] using he
  · refine ⟨?_, ?_, ?_, ?_, id, ?_, List.prefix_append _ _⟩
    · constructor <;> simp [leaveHandler, cmdTrace, Event.byCmd]
    · simp [leaveHandler]
    · simp [leaveHandler, hl]
    · intro hc; rw [hl] at hc; cases hc
    · rintro b hw ⟨hc, he⟩
      constructor
      · simpa [leaveHandler, handlerRuns, hp, IrqPhase.incremented, Nat.add_assoc] using hc
      · simpa [leaveHandler, handlerRuns, handlerEntries, hp, IrqPhase.running] using he

/-- Events that are no handler entry or exit leave the count of runs alone. -/
theorem CountsRuns.same {b : Nat} {s t : State} (h : CountsRuns b s) (hp : t.params = s.params)
    (hi : t.icount = s.icount) (hq : t.irqPhase = s.irqPhase) (hr : handlerRuns t.hist = handlerRuns s.hist)
    (he : handlerEntries t.hist = handlerEntries s.hist) : CountsRuns b t :=
  ⟨by rw [hi, hr, hq, hp]; exact h.count, by rw [he, hr, hq]; exact h.entries⟩

theorem devComplete_others (s : State) : OthersOnly s (devComplete s) := by
  unfold devComplete
  split
  · refine ⟨?_, id, .rfl, fun _ h => ⟨h, rfl, rfl⟩, id,
      fun _ _ h => h.same rfl rfl rfl (by simp [handlerRuns]) (by simp [handlerEntries]), List.prefix_append _ _⟩
    constructor <;> simp [cmdTrace, Event.byCmd]
  · exact .refl s

/-- An event of HOST other than DETACH leaves what CMD owns, whether a command is under way or not. -/
theorem hostStep_others {e : HostEvent} {s t : State} (ha : s.attached = true) (hs : e ≠ .detach ∨ s.seq ≠ .idle)
    (h : hostStep e s = .next t) : OthersOnly s t := by
  cases e with
  | attach p b => simp [hostStep, ha] at h; subst h; exact .refl _
  | openSession =>
    simp only [hostStep, ha, if_true, openStep] at h
    split at h <;> cases h <;>
      exact ⟨by constructor <;> simp [ha, cmdTrace, Event.byCmd], id, .rfl, fun _ h => ⟨h, rfl, rfl⟩, id,
      fun _ _ h => h.same rfl rfl rfl (by simp [handlerRuns]) (by simp [handlerEntries]), List.prefix_append _ _⟩
  | closeSession =>
    simp only [hostStep, ha, if_true] at h
    cases h
    exact ⟨by constructor <;> simp [ha, cmdTrace, Event.byCmd], id, .rfl, fun _ h => ⟨h, rfl, rfl⟩, id,
      fun _ _ h => h.same rfl rfl rfl (by simp [handlerRuns]) (by simp [handlerEntries]), List.prefix_append _ _⟩
  | detach => simp [hostStep, ha, detachStep, hs.resolve_left (fun h => h rfl)] at h
  | submit ws =>
    cases h
    exact ⟨by constructor <;> rfl, id, .rfl, fun _ h => ⟨h, rfl, rfl⟩, id, fun _ _ h => ⟨h.count, h.entries⟩, List.prefix_refl _⟩
  | refuseResult =>
    cases h
    exact ⟨by constructor <;> rfl, id, .rfl, fun _ h => ⟨h, rfl, rfl⟩, id, fun _ _ h => ⟨h.count, h.entries⟩, List.prefix_refl _⟩

theorem agentTurn_others {u : Turn} {s t : State} (ha : s.attached = true) (hs : s.seq ≠ .idle)
    (h : agentTurn u s = .next t) : OthersOnly s t := by
  cases u with
  | cmd => cases h; exact .refl _
  | irq => exact irqStep_others h
  | dev => cases h; exact devComplete_others s
  | host e => exact hostStep_others ha (.inr hs) h

/-- The same for a turn that is no DETACH, whether a command is under way or not. -/
theorem agentTurn_calm {u : Turn} {s t : State} (ha : s.attached = true) (hu : u.detaches = false)
    (h : agentTurn u s = .next t) : OthersOnly s t := by
  cases u with
  | cmd => cases h; exact .refl _
  | irq => exact irqStep_others h
  | dev => cases h; exact devComplete_others s
  | host e => exact hostStep_others ha (.inl (by rintro rfl; cases hu)) h

theorem irqDrain_others {n : Nat} {s t : State} (h : irqDrain n s = .next t) : OthersOnly s t := by
  induction n generalizing s with
  | zero => cases h; exact .refl _
  | succ n ih =>
    unfold irqDrain at h
    split at h
    · cases h; exact .refl _
    · obtain ⟨u, hu, hn⟩ := andThen_eq_next.mp h
      exact (irqStep_others hu).trans (ih hn)

/-- Everything that can happen before CMD's next step: turns of other agents only, and CMD can then step. -/
theorem interleave_others {l : List Turn} {s t : State} (ha : s.attached = true) (hs : s.seq ≠ .idle)
    (h : interleave l s = .next t) : OthersOnly s t ∧ cmdReady t = true := by
  induction l generalizing s with
  | nil =>
    unfold interleave at h
    obtain ⟨u, hu, hn⟩ := andThen_eq_next.mp h
    split at hn
    · cases hn
      exact ⟨((OthersOnly.refl s).withSched []).trans (irqDrain_others hu), ‹_›⟩
    · cases hn
  | cons u l ih =>
    have other : andThen (agentTurn u s) (interleave l) = .next t → OthersOnly s t ∧ cmdReady t = true := by
      intro h
      obtain ⟨v, hv, hn⟩ := andThen_eq_next.mp h
      have ho := agentTurn_others ha hs hv
      obtain ⟨h1, h2⟩ := ih (ho.view.attached.trans ha) (by rw [ho.view.seq]; exact hs) hn
      exact ⟨ho.trans h1, h2⟩
    cases u with
    | cmd =>
      unfold interleave at h
      split at h
      · cases h; exact ⟨(OthersOnly.refl s).withSched l, by assumption⟩
      · exact ih ha hs h
    | irq => exact other h
    | dev => exact other h
    | host e => exact other h

theorem toCmd_others {s t : State} (ha : s.attached = true) (hs : s.seq ≠ .idle) (h : toCmd s = .next t) :
    OthersOnly s t ∧ cmdReady t = true :=
  interleave_others ha hs h

/-! A calm schedule never stops a command. -/

/-- CMD's next micro-operation can wait only for IRQ: it does not ask for a lock CMD holds, nor give back one it does
not hold. -/
def State.waitOk (s : State) : Prop :=
  match s.todo with
  | .acquireI :: _ => s.ilock ≠ .cmd
  | .releaseI :: _ => s.ilock = .cmd
  | _ => True

/-- How many steps the handler still has to take. -/
def IrqPhase.left : IrqPhase → Nat
  | .idle => 0
  | .entered => 4
  | .cleared => 3
  | .counted => 2
  | .disabled => 1

theorem intCtrlWrite_next {v : Word} {s : State} (hv : isIntCommand s.params v = true) :
    ∃ t, intCtrlWrite v s = .next t := by
  unfold intCtrlWrite
  by_cases h1 : v = s.params.intEnable
  · exact ⟨_, if_pos h1⟩
  · by_cases h2 : v = s.params.intDisable
    · exact ⟨_, (if_neg h1).trans (if_pos h2)⟩
    · by_cases h3 : v = s.params.intClear
      · exact ⟨_, (if_neg h1).trans ((if_neg h2).trans (if_pos h3))⟩
      · simp [isIntCommand, h1, h2, h3] at hv

theorem regWrite_intCtrl_next (a : Agent) {v : Word} {s : State} (ha : s.attached = true)
    (hv : isIntCommand s.params v = true) : ∃ t, regWrite a .intCtrl v s = .next t := by
  unfold regWrite
  rw [if_pos ha]
  exact intCtrlWrite_next (s := s.log _) hv

theorem irqStep_next (s : State) : ∃ t, irqStep s = .next t := by
  unfold irqStep
  split
  · rename_i he
    have ha : s.attached = true := by
      unfold irqEnabled at he; rw [Bool.and_eq_true] at he; exact he.1
    cases hp : s.irqPhase with
    | idle => exact ⟨_, rfl⟩
    | entered =>
      obtain ⟨t, ht⟩ := regWrite_intCtrl_next .irq (v := s.params.intClear) ha (by simp [isIntCommand])
      exact ⟨_, by simp [ht]; rfl⟩
    | cleared => exact ⟨_, rfl⟩
    | counted =>
      obtain ⟨t, ht⟩ := regWrite_intCtrl_next .irq (v := s.params.intDisable) ha (by simp [isIntCommand])
      exact ⟨_, by simp [ht]; rfl⟩
    | disabled => exact ⟨_, rfl⟩
  · exact ⟨_, rfl⟩

/-- A step of a handler under way brings it one step nearer its exit. -/
theorem irqStep_left {s t : State} (ha : s.attached = true) (hl : s.ilock = .irq) (hp : s.irqPhase ≠ .idle)
    (h : irqStep s = .next t) : t.irqPhase.left + 1 = s.irqPhase.left := by
  have he : irqEnabled s = true := by
    unfold irqEnabled
    cases hq : s.irqPhase <;> simp_all
  unfold irqStep at h
  rw [if_pos he] at h
  cases hq : s.irqPhase with
  | idle => exact absurd hq hp
  | entered =>
    rw [hq] at h
    obtain ⟨u, -, hn⟩ := andThen_eq_next.mp h
    cases hn; rfl
  | cleared => rw [hq] at h; cases h; rfl
  | counted =>
    rw [hq] at h
    obtain ⟨u, -, hn⟩ := andThen_eq_next.mp h
    cases hn; rfl
  | disabled => rw [hq] at h; cases h; rfl

theorem irqDrain_ready {n : Nat} {s : State} (ha : s.attached = true) (hs : s.seq ≠ .idle)
    (hl : s.ilock = .irq ↔ s.irqPhase ≠ .idle) (hw : s.waitOk) (hn : s.irqPhase.left ≤ n) :
    ∃ t, irqDrain n s = .next t ∧ cmdReady t = true := by
  by_cases hr : cmdReady s = true
  · cases n with
    | zero => exact ⟨s, rfl, hr⟩
    | succ n => exact ⟨s, by unfold irqDrain; rw [if_pos hr], hr⟩
  · have hirq : s.ilock = .irq := by
      unfold cmdReady at hr
      unfold State.waitOk at hw
      split at hw
      · rename_i h; rw [h] at hr; cases hk : s.ilock <;> simp_all
      · rename_i h; rw [h] at hr; simp_all
      · rename_i h1 h2
        exfalso; apply hr
        split
        · rename_i h; exact absurd h (h1 _)
        · rename_i h; exact absurd h (h2 _)
        · rfl
    have hp := hl.mp hirq
    obtain ⟨t, ht⟩ := irqStep_next s
    have hleft := irqStep_left ha hirq hp ht
    have ho := irqStep_others ht
    cases n with
    | zero => omega
    | succ n =>
      have hw' : t.waitOk := by
        unfold State.waitOk at hw ⊢
        rw [ho.view.todo]
        split
        · rename_i h; rw [h] at hw
          exact fun hc => hw (ho.lockCmd.mp hc)
        · rename_i h; rw [h] at hw; exact ho.lockCmd.mpr hw
        · trivial
      obtain ⟨u, hu, hur⟩ := irqDrain_ready (n := n) (ho.view.attached.trans ha)
        (by rw [ho.view.seq]; exact hs) (ho.lockIrq hl) hw' (by omega)
      exact ⟨u, by unfold irqDrain; rw [if_neg hr, ht]; exact hu, hur⟩

theorem OthersOnly.waitOk {s t : State} (ho : OthersOnly s t) (hw : s.waitOk) : t.waitOk := by
  unfold State.waitOk at hw ⊢
  rw [ho.view.todo]
  split
  · rename_i h; rw [h] at hw; exact fun hc => hw (ho.lockCmd.mp hc)
  · rename_i h; rw [h] at hw; exact ho.lockCmd.mpr hw
  · trivial

theorem agentTurn_next {u : Turn} {s : State} (ha : s.attached = true)
    (hu : u.detaches = false) : ∃ t, agentTurn u s = .next t := by
  cases u with
  | cmd => exact ⟨_, rfl⟩
  | irq => exact irqStep_next s
  | dev => exact ⟨_, rfl⟩
  | host e =>
    cases e with
    | attach p b => exact ⟨s, by simp [agentTurn, hostStep, ha]⟩
    | detach => cases hu
    | openSession => exact ⟨_, rfl⟩
    | closeSession => exact ⟨_, rfl⟩
    | submit ws => exact ⟨_, rfl⟩
    | refuseResult => exact ⟨_, rfl⟩

theorem interleave_next {l : List Turn} {s : State} (ha : s.attached = true) (hs : s.seq ≠ .idle)
    (hl : s.ilock = .irq ↔ s.irqPhase ≠ .idle) (hw : s.waitOk) (hc : l.all (fun t => !t.detaches) = true) :
    ∃ t, interleave l s = .next t := by
  induction l generalizing s with
  | nil =>
    obtain ⟨t, ht, hr⟩ := irqDrain_ready (n := 5) (s := { s with sched := [] }) ha hs hl hw
      (by cases s.irqPhase <;> decide)
    exact ⟨t, by unfold interleave; rw [ht]; simp [hr]⟩
  | cons u l ih =>
    have hu : u.detaches = false := by simpa using (List.all_eq_true.mp hc) u (by simp)
    have hc' : l.all (fun t => !t.detaches) = true := by
      simp only [List.all_cons, Bool.and_eq_true] at hc; exact hc.2
    have other : ∃ t, andThen (agentTurn u s) (interleave l) = .next t := by
      obtain ⟨v, hv⟩ := agentTurn_next ha hu
      have ho := agentTurn_others ha hs hv
      obtain ⟨t, ht⟩ := ih (ho.view.attached.trans ha) (by rw [ho.view.seq]; exact hs) (ho.lockIrq hl) (ho.waitOk hw) hc'
      exact ⟨t, by rw [hv]; exact ht⟩
    cases u with
    | cmd =>
      unfold interleave
      split
      · exact ⟨_, rfl⟩
      · exact ih ha hs hl hw hc'
    | irq => exact other
    | dev => exact other
    | host e => exact other

/-- The schedule left after the interleaving is the end of the one before it. -/
theorem interleave_sched {l : List Turn} {s t : State} (h : interleave l s = .next t) : t.sched <:+ l := by
  induction l generalizing s with
  | nil =>
    unfold interleave at h
    obtain ⟨u, hu, hn⟩ := andThen_eq_next.mp h
    split at hn
    · cases hn
      have : ∀ {n : Nat} {a b : State}, a.sched = [] → irqDrain n a = .next b → b.sched = [] := by
        intro n
        induction n with
        | zero => intro a b ha hb; cases hb; exact ha
        | succ n ih =>
          intro a b ha hb
          unfold irqDrain at hb
          split at hb
          · cases hb; exact ha
          · obtain ⟨c, hc, hd⟩ := andThen_eq_next.mp hb
            refine ih ?_ hd
            rcases irqStep_cases hc with rfl | ⟨-, -, -, rfl⟩ | ⟨_, _, _, _, -, -, rfl⟩ | ⟨-, -, rfl⟩ | ⟨-, -, -, rfl⟩ <;>
              simpa [enterHandler, leaveHandler] using ha
      rw [this rfl hu]
    · cases hn
  | cons u l ih =>
    have other : andThen (agentTurn u s) (interleave l) = .next t → t.sched <:+ u :: l := by
      intro h
      obtain ⟨v, -, hn⟩ := andThen_eq_next.mp h
      exact (ih hn).trans (List.suffix_cons _ _)
    cases u with
    | cmd =>
      unfold interleave at h
      split at h
      · cases h; exact List.suffix_cons _ _
      · exact (ih h).trans (List.suffix_cons _ _)
    | irq => exact other h
    | dev => exact other h
    | host e => exact other h

theorem irqDrain_refuseOut {n : Nat} {s t : State} (h : irqDrain n s = .next t) : t.refuseOut = s.refuseOut := by
  induction n generalizing s with
  | zero => cases h; rfl
  | succ n ih =>
    unfold irqDrain at h
    split at h
    · cases h; rfl
    · obtain ⟨u, hu, hn⟩ := andThen_eq_next.mp h
      rw [ih hn]
      rcases irqStep_cases hu with rfl | ⟨-, -, -, rfl⟩ | ⟨_, _, _, _, -, -, rfl⟩ | ⟨-, -, rfl⟩ | ⟨-, -, -, rfl⟩ <;> rfl

/-- HOST refuses result words only by a turn of its own. -/
theorem interleave_refuseOut {l : List Turn} {s t : State} (ha : s.attached = true) (hs : s.seq ≠ .idle)
    (h : interleave l s = .next t) (hr : s.refuseOut = false) (hl : l.all (fun t => !t.refuses) = true) :
    t.refuseOut = false := by
  induction l generalizing s with
  | nil =>
    unfold interleave at h
    obtain ⟨u, hu, hn⟩ := andThen_eq_next.mp h
    split at hn
    · cases hn; rw [irqDrain_refuseOut hu]; exact hr
    · cases hn
  | cons u l ih =>
    simp only [List.all_cons, Bool.and_eq_true] at hl
    have other : andThen (agentTurn u s) (interleave l) = .next t → t.refuseOut = false := by
      intro h
      obtain ⟨v, hv, hn⟩ := andThen_eq_next.mp h
      have ho := agentTurn_others ha hs hv
      refine ih (ho.view.attached.trans ha) (by rw [ho.view.seq]; exact hs) hn ?_ hl.2
      cases u with
      | cmd => cases hv; exact hr
      | irq =>
        rw [← hr]
        rcases irqStep_cases hv with rfl | ⟨-, -, -, rfl⟩ | ⟨_, _, _, _, -, -, rfl⟩ | ⟨-, -, rfl⟩ | ⟨-, -, -, rfl⟩ <;> rfl
      | dev => cases hv; unfold devComplete; split <;> exact hr
      | host e =>
        cases e with
        | attach p b => simp [agentTurn, hostStep, ha] at hv; subst hv; exact hr
        | openSession =>
          simp only [agentTurn, hostStep, ha, if_true, openStep] at hv
          split at hv <;> cases hv <;> exact hr
        | closeSession => simp only [agentTurn, hostStep, ha, if_true] at hv; cases hv; exact hr
        | detach => simp [agentTurn, hostStep, ha, detachStep, hs] at hv
        | submit ws => cases hv; exact hr
        | refuseResult => simp [Turn.refuses] at hl
    cases u with
    | cmd =>
      unfold interleave at h
      split at h
      · cases h; exact hr
      · exact ih ha hs h hr hl.2
    | irq => exact other h
    | dev => exact other h
    | host e => exact other h

theorem all_of_suffix {f : Turn → Bool} {l m : List Turn} (h : l <:+ m) (hm : m.all f = true) : l.all f = true := by
  rw [List.all_eq_true] at hm ⊢
  exact fun x hx => hm x (h.subset hx)

end Sys2Proof.Machine
end

