-- ==== Sys2Proof/Laws/Memory.lean ====
section
/-! SUPPORT. The laws of the register space: a byte written reads back, other bytes keep, the canonical form is kept,
and the same for words. -/

namespace Sys2Proof.Machine

theorem byteAt_setByte (m : Memory) (a x : Nat) (b : Byte) :
    Memory.byteAt (Memory.setByte m a b) x = if x = a then some b else Memory.byteAt m x := by
  induction m with
  | nil =>
    by_cases h : x = a
    · subst h; simp [Memory.setByte, Memory.byteAt]
    · simp [Memory.setByte, Memory.byteAt, h, Ne.symm h]
  | cons e rest ih =>
    obtain ⟨y, c⟩ := e
    by_cases h1 : a < y
    · by_cases hx : x = a
      · subst hx; simp [Memory.setByte, Memory.byteAt, h1]
      · simp [Memory.setByte, Memory.byteAt, h1, hx, Ne.symm hx]
    · by_cases h2 : a = y
      · subst h2
        by_cases hx : x = a
        · subst hx; simp [Memory.setByte, Memory.byteAt]
        · simp [Memory.setByte, Memory.byteAt, hx, Ne.symm hx]
      · by_cases hy : y = x
        · subst hy; simp [Memory.setByte, Memory.byteAt, h1, h2, Ne.symm h2]
        · simp [Memory.setByte, Memory.byteAt, h1, h2, hy, ih]

/-- `a` lies below every address of the list. -/
def Memory.below (a : Nat) : Memory → Prop
  | [] => True
  | (x, _) :: _ => a < x

theorem wf_cons {a : Nat} {b : Byte} {m : Memory} :
    Memory.wf ((a, b) :: m) = true ↔ Memory.below a m ∧ Memory.wf m = true := by
  cases m with
  | nil => simp [Memory.wf, Memory.below]
  | cons e rest => obtain ⟨x, c⟩ := e; simp [Memory.wf, Memory.below]

theorem below_setByte {y a : Nat} {b : Byte} {m : Memory} (hy : y < a) (h : Memory.below y m) :
    Memory.below y (Memory.setByte m a b) := by
  cases m with
  | nil => exact hy
  | cons e rest =>
    obtain ⟨x, c⟩ := e
    unfold Memory.setByte
    by_cases h1 : a < x
    · rw [if_pos h1]; exact hy
    · rw [if_neg h1]
      by_cases h2 : a = x
      · rw [if_pos h2]; exact hy
      · rw [if_neg h2]; exact h

theorem setByte_wf {m : Memory} (a : Nat) (b : Byte) (h : Memory.wf m = true) :
    Memory.wf (Memory.setByte m a b) = true := by
  induction m with
  | nil => rfl
  | cons e rest ih =>
    obtain ⟨x, c⟩ := e
    obtain ⟨hb, hr⟩ := wf_cons.mp h
    unfold Memory.setByte
    by_cases h1 : a < x
    · rw [if_pos h1]; exact wf_cons.mpr ⟨h1, h⟩
    · rw [if_neg h1]
      by_cases h2 : a = x
      · subst h2; rw [if_pos rfl]; exact wf_cons.mpr ⟨hb, hr⟩
      · rw [if_neg h2]
        exact wf_cons.mpr ⟨below_setByte (by omega) hb, ih hr⟩

theorem storeWord_wf {m : Memory} (o : Nat) (v : Word) (h : Memory.wf m = true) :
    Memory.wf (Memory.storeWord m o v) = true :=
  setByte_wf _ _ (setByte_wf _ _ (setByte_wf _ _ (setByte_wf _ _ h)))

theorem byteAt_storeWord_outside {m : Memory} {o a : Nat} (v : Word) (h : a < o ∨ o + 4 ≤ a) :
    Memory.byteAt (Memory.storeWord m o v) a = Memory.byteAt m a := by
  have h0 : a ≠ o := by omega
  have h1 : a ≠ o + 1 := by omega
  have h2 : a ≠ o + 2 := by omega
  have h3 : a ≠ o + 3 := by omega
  simp [Memory.storeWord, byteAt_setByte, h0, h1, h2, h3]

/-- The four bytes of a word put together again (R61). -/
theorem bytes_append (v : Word) : byteOf v 3 ++ byteOf v 2 ++ byteOf v 1 ++ byteOf v 0 = v := by
  unfold byteOf
  ext i hi
  simp only [BitVec.getElem_append, BitVec.getElem_extractLsb']
  split <;> [skip; split <;> [skip; split]] <;>
    (rw [← BitVec.getLsbD_eq_getElem]; congr 1; omega)

@[simp] theorem loadWord_storeWord (m : Memory) (o : Nat) (v : Word) :
    Memory.loadWord (Memory.storeWord m o v) o = some v := by
  simp [Memory.loadWord, Memory.storeWord, byteAt_setByte, bytes_append]

theorem loadWord_storeWord_outside {m : Memory} {o a : Nat} (v : Word) (h : a + 4 ≤ o ∨ o + 4 ≤ a) :
    Memory.loadWord (Memory.storeWord m o v) a = Memory.loadWord m a := by
  unfold Memory.loadWord
  rw [byteAt_storeWord_outside v (by omega), byteAt_storeWord_outside v (by omega),
    byteAt_storeWord_outside v (by omega), byteAt_storeWord_outside v (by omega)]

end Sys2Proof.Machine
end

