-- ==== Sys2Proof/Laws/Run.lean ====
section
/-! SUPPORT. A command under any calm schedule does what it does alone. `runAlone` is a micro-program with no other
agent between its operations; `runCommand_calm` says that the same program under any schedule without DETACH runs to a
result that agrees with it on everything CMD writes. -/

namespace Sys2Proof.Machine

/-! What each micro-operation is. -/

@[simp] theorem microOp_write (r : Reg) (v : Word) (s : State) : microOp (.write r v) s = regWrite .cmd r v s := rfl
@[simp] theorem microOp_overwriteCfg (v : Word) (s : State) :
    microOp (.overwriteCfg v) s = regWrite .cmd .modeConfig v { s with cfg := v } := rfl
@[simp] theorem microOp_mergeCfg (m mask : Word) (s : State) :
    microOp (.mergeCfg m mask) s =
      regWrite .cmd .modeConfig (merge s.cfg m mask) { s with cfg := merge s.cfg m mask } := rfl
@[simp] theorem microOp_read (r : Reg) (mask : Word) (s : State) :
    microOp (.read r mask) s =
      andThen (regRead .cmd r s) fun x => .next { x.2 with vals := x.2.vals ++ [x.1 &&& mask] } := rfl
@[simp] theorem microOp_emit (i : Nat) (s : State) :
    microOp (.emit i) s = .next { s with emitted := s.emitted ++ [s.vals.getD i 0] } := rfl
@[simp] theorem microOp_emitTap (i : Nat) (s : State) :
    microOp (.emitTap i) s =
      .next { s with emitted := s.emitted ++ [unpackTap (s.vals.getD 0 0) (s.vals.getD 1 0) i] } := rfl
@[simp] theorem microOp_emitCount (s : State) :
    microOp .emitCount s = .next { s with emitted := s.emitted ++ [s.icount] } := rfl
@[simp] theorem microOp_acquireI (s : State) : microOp .acquireI s = .next { s with ilock := .cmd } := rfl
@[simp] theorem microOp_releaseI (s : State) : microOp .releaseI s = .next { s with ilock := .free } := rfl
@[simp] theorem microOp_delay (tag : DelayTag) (s : State) : microOp (.delay tag) s = .next (s.log (.delay tag)) := rfl

/-- A poll with no other agent between its reads. -/
def spinAlone (place : Where) (pred : Pred) : Nat → State → Res (State × Bool)
  | 0, s => .next ({ s with spins := 0 }.log (.bwe place), false)
  | n + 1, s =>
    andThen (regRead .cmd .status s) fun x =>
      if pollReady x.2.params pred x.1 then .next ({ x.2 with spins := 0 }, true)
      else spinAlone place pred n { x.2 with spins := x.2.spins + 1 }

/-- One micro-operation alone. -/
def opAlone (op : Micro) (s : State) : Res (State × Bool) :=
  match op with
  | .poll place pred n giveUp => andThen (spinAlone place pred (n - s.spins) s) fun x => .next (afterSpin giveUp x)
  | _ => andThen (microOp op s) fun t => .next (t, true)

/-- A micro-program alone, up to its result. -/
def runAlone : List Micro → State → Res State
  | [], s => .next s
  | op :: rest, s => andThen (opAlone op s) fun x => if x.2 then runAlone rest x.1 else .next x.1

/-- `u` is where a command under way is when other agents stepped in between; `c` is where it would be alone, and `b`
says whether CMD holds ILOCK; if `k`, HOST takes the result words. -/
structure Follows (k b : Bool) (c u : State) : Prop where
  params : u.params = c.params
  attached : u.attached = c.attached
  lineReg : u.lineReg = c.lineReg
  bufAlloc : u.bufAlloc = c.bufAlloc
  cfg : u.cfg = c.cfg
  vals : u.vals = c.vals
  emitted : u.emitted = c.emitted
  code : u.code = c.code
  spins : u.spins = c.spins
  regs : u.regs = c.regs
  portOut : u.portOut = c.portOut
  draws : u.draws = c.draws
  freeIx : u.freeIx = c.freeIx
  trace : cmdTrace u.hist = cmdTrace c.hist
  isAttached : u.attached = true
  busy : u.seq ≠ .idle
  calm : u.calm = true
  lockIrq : u.ilock = .irq ↔ u.irqPhase ≠ .idle
  lockCmd : u.ilock = .cmd ↔ b = true
  takes : k = true → u.takesResult = true

/-- Does the micro-operation read only what CMD and the device's stored registers give it? -/
def Micro.viewOnly : Micro → Bool
  | .read r _ => r.kind != .command
  | .emitCount => false
  | _ => true

/-- May the micro-operation be next, given whether CMD holds ILOCK? -/
def Micro.allowed (b : Bool) : Micro → Bool
  | .acquireI => !b
  | .releaseI => b
  | _ => true

/-- Does CMD hold ILOCK after the micro-operation? -/
def Micro.holds (b : Bool) : Micro → Bool
  | .acquireI => true
  | .releaseI => false
  | _ => b

/-- The lock operations of a micro-program alternate, and it ends with ILOCK released; a program that may give up
early does not hold it there. -/
def bracketed (b : Bool) : List Micro → Bool
  | [] => !b
  | .poll _ _ _ _ :: rest => !b && bracketed b rest
  | op :: rest => op.allowed b && bracketed (op.holds b) rest

theorem Follows.env {k b : Bool} {c u v : State} (h : Follows k b c u) (ho : OthersOnly u v) (hs : v.sched <:+ u.sched)
    (hr : u.refuseOut = false → u.sched.all (fun t => !t.refuses) = true → v.refuseOut = false) :
    Follows k b c v where
  params := ho.view.params.trans h.params
  attached := ho.view.attached.trans h.attached
  lineReg := ho.view.lineReg.trans h.lineReg
  bufAlloc := ho.view.bufAlloc.trans h.bufAlloc
  cfg := ho.view.cfg.trans h.cfg
  vals := ho.view.vals.trans h.vals
  emitted := ho.view.emitted.trans h.emitted
  code := ho.view.code.trans h.code
  spins := ho.view.spins.trans h.spins
  regs := ho.view.regs.trans h.regs
  portOut := ho.view.portOut.trans h.portOut
  draws := ho.view.draws.trans h.draws
  freeIx := ho.view.freeIx.trans h.freeIx
  trace := ho.view.trace.trans h.trace
  isAttached := ho.view.attached.trans h.isAttached
  busy := by rw [ho.view.seq]; exact h.busy
  calm := all_of_suffix hs h.calm
  lockIrq := ho.lockIrq h.lockIrq
  lockCmd := ho.lockCmd.trans h.lockCmd
  takes := fun hk => by
    have := h.takes hk
    simp only [State.takesResult, Bool.and_eq_true, Bool.not_eq_true'] at this ⊢
    exact ⟨hr this.1 this.2, all_of_suffix hs this.2⟩

theorem Follows.withTodo {k b : Bool} {c u : State} (h : Follows k b c u) (ops : List Micro) :
    Follows k b c (u.withTodo ops) :=
  ⟨h.params, h.attached, h.lineReg, h.bufAlloc, h.cfg, h.vals, h.emitted, h.code, h.spins, h.regs, h.portOut, h.draws,
    h.freeIx, h.trace, h.isAttached, h.busy, h.calm, h.lockIrq, h.lockCmd, h.takes⟩

theorem Follows.advance {k b : Bool} {c u : State} (h : Follows k b c u) : Follows k b c u.advance :=
  ⟨h.params, h.attached, h.lineReg, h.bufAlloc, h.cfg, h.vals, h.emitted, h.code, h.spins, h.regs, h.portOut, h.draws,
    h.freeIx, h.trace, h.isAttached, fun hi => h.busy ((advance_seq_idle u).mp hi), h.calm, h.lockIrq, h.lockCmd, h.takes⟩

/-- Everything that happens before CMD's next step leaves it where it was, and CMD can step. -/
theorem Follows.toCmd {k b : Bool} {c u : State} {op : Micro} {rest : List Micro} (h : Follows k b c u)
    (ht : u.todo = op :: rest) (ha : op.allowed b = true) :
    ∃ v, toCmd u = .next v ∧ Follows k b c v ∧ OthersOnly u v ∧ cmdReady v = true ∧ v.sched <:+ u.sched := by
  have hw : u.waitOk := by
    unfold State.waitOk
    rw [ht]
    cases op <;> simp [Micro.allowed] at ha ⊢
    · rw [h.lockCmd, ha]; decide
    · rw [h.lockCmd, ha]
  obtain ⟨v, hv⟩ := interleave_next h.isAttached h.busy h.lockIrq hw h.calm
  obtain ⟨ho, hr⟩ := interleave_others h.isAttached h.busy hv
  exact ⟨v, hv, h.env ho (interleave_sched hv) (interleave_refuseOut h.isAttached h.busy hv), ho, hr, interleave_sched hv⟩

theorem Follows.toCmd_nil {k b : Bool} {c u : State} (h : Follows k b c u) (ht : u.todo = []) :
    ∃ v, Machine.toCmd u = .next v ∧ Follows k b c v ∧ OthersOnly u v ∧ v.sched <:+ u.sched := by
  have hw : u.waitOk := by unfold State.waitOk; rw [ht]; trivial
  obtain ⟨v, hv⟩ := interleave_next h.isAttached h.busy h.lockIrq hw h.calm
  obtain ⟨ho, -⟩ := interleave_others h.isAttached h.busy hv
  exact ⟨v, hv, h.env ho (interleave_sched hv) (interleave_refuseOut h.isAttached h.busy hv), ho, interleave_sched hv⟩

/-! Register transactions follow. -/

theorem Follows.stored {k b : Bool} {c u : State} (h : Follows k b c u) (r : Reg) : u.stored r = c.stored r := by
  unfold State.stored; rw [h.regs, h.params]

theorem Follows.fixedRead {k b : Bool} {c u : State} (h : Follows k b c u) {r : Reg} (hr : r.kind ≠ .command) :
    u.fixedRead r = c.fixedRead r := by
  unfold State.fixedRead
  rw [h.params, h.stored]
  cases hk : r.kind <;> simp_all

theorem Follows.drawn {k b : Bool} {c u : State} (h : Follows k b c u) : u.drawn = c.drawn := by
  unfold State.drawn; rw [h.draws, h.freeIx]

theorem Follows.readValue {k b : Bool} {c u : State} (h : Follows k b c u) {r : Reg} (hr : r.kind ≠ .command) :
    u.readValue r = c.readValue r := by
  unfold State.readValue; rw [h.fixedRead hr, h.drawn]

theorem afterDraw_draws_freeIx {c u : State} (hd : u.draws = c.draws) (hf : u.freeIx = c.freeIx) :
    u.afterDraw.draws = c.afterDraw.draws ∧ u.afterDraw.freeIx = c.afterDraw.freeIx := by
  unfold State.afterDraw
  rw [hd]
  split
  · exact ⟨rfl, hf⟩
  · exact ⟨rfl, congrArg (· + 1) hf⟩

theorem Follows.afterRead {k b : Bool} {c u : State} (h : Follows k b c u) {r : Reg} (hr : r.kind ≠ .command) :
    (u.afterRead r).draws = (c.afterRead r).draws ∧ (u.afterRead r).freeIx = (c.afterRead r).freeIx := by
  unfold State.afterRead
  rw [h.fixedRead hr]
  split
  · exact ⟨h.draws, h.freeIx⟩
  · exact afterDraw_draws_freeIx h.draws h.freeIx

/-- A register read follows: the value is the same, and so is all that is left. -/
theorem Follows.regRead {k b : Bool} {c u c' : State} {v : Word} {r : Reg} (h : Follows k b c u) (hr : r.kind ≠ .command)
    (hc : regRead .cmd r c = .next (v, c')) : ∃ u', Machine.regRead .cmd r u = .next (v, u') ∧ Follows k b c' u' := by
  unfold Machine.regRead at hc ⊢
  split at hc
  · cases hc
    rw [if_pos h.isAttached]
    refine ⟨_, by rw [h.readValue hr], ?_⟩
    obtain ⟨hd, hf⟩ := h.afterRead hr
    constructor <;> simp only [log_params, log_attached, log_lineReg, log_bufAlloc, log_cfg, log_vals, log_emitted,
      log_code, log_spins, log_regs, log_portOut, log_draws, log_freeIx, log_hist, log_seq, log_ilock, log_irqPhase,
      afterRead_params, afterRead_attached, afterRead_lineReg, afterRead_bufAlloc, afterRead_cfg, afterRead_vals,
      afterRead_emitted, afterRead_code, afterRead_spins, afterRead_regs, afterRead_portOut, afterRead_hist,
      afterRead_seq, afterRead_ilock, afterRead_irqPhase, h.params, h.attached, h.lineReg, h.bufAlloc, h.cfg, h.vals,
      h.emitted, h.code, h.spins, h.regs, h.portOut, hd, hf]
    · rw [cmdTrace_append, cmdTrace_append, h.trace]
    · rw [← h.attached]; exact h.isAttached
    · exact h.busy
    · simpa [State.calm] using h.calm
    · exact h.lockIrq
    · exact h.lockCmd
    · simpa [State.takesResult] using h.takes
  · cases hc

theorem Follows.held {k b : Bool} {c u : State} (h : Follows k b c u) (r : Reg) : u.held r = c.held r := by
  unfold State.held; rw [h.stored, h.freeIx]

/-- Recording the same event of CMD follows. -/
theorem Follows.log {k b : Bool} {c u : State} (h : Follows k b c u) (e : Event) : Follows k b (c.log e) (u.log e) :=
  ⟨h.params, h.attached, h.lineReg, h.bufAlloc, h.cfg, h.vals, h.emitted, h.code, h.spins, h.regs, h.portOut, h.draws,
    h.freeIx, by simp [h.trace], h.isAttached, h.busy, h.calm, h.lockIrq, h.lockCmd, h.takes⟩

theorem Follows.afterHeld {k b : Bool} {c u : State} (h : Follows k b c u) (r : Reg) :
    Follows k b (c.afterHeld r) (u.afterHeld r) := by
  unfold State.afterHeld
  rw [h.stored]
  split
  · exact h
  · exact ⟨h.params, h.attached, h.lineReg, h.bufAlloc, h.cfg, h.vals, h.emitted, h.code, h.spins, h.regs, h.portOut,
      h.draws, congrArg (· + 1) h.freeIx, h.trace, h.isAttached, h.busy, h.calm, h.lockIrq, h.lockCmd, h.takes⟩

theorem Follows.startCycle {k b : Bool} {c u : State} (h : Follows k b c u) (r : Reg) (v : Word) :
    Follows k b (startCycle r v c) (Machine.startCycle r v u) := by
  unfold Machine.startCycle
  split
  · unfold startLane; rw [h.params]; exact h.log _
  · unfold startSingle
    have h1 := h.afterHeld .spiDevice
    have h2 := h1.afterHeld .spiAddress
    simp only [h.params, h.held, h1.held]
    exact h2.log _

/-- A register write follows. -/
theorem Follows.regWrite {k b : Bool} {c u c' : State} {v : Word} {r : Reg} (h : Follows k b c u)
    (hc : regWrite .cmd r v c = .next c') : ∃ u', Machine.regWrite .cmd r v u = .next u' ∧ Follows k b c' u' := by
  unfold Machine.regWrite at hc ⊢
  split at hc
  · rw [if_pos h.isAttached, h.params]
    have hl := h.log (.write .cmd (c.params.off r) v)
    cases hk : r.kind <;> simp only [hk] at hc ⊢
    · cases hc
      refine ⟨_, rfl, ?_⟩
      exact ⟨hl.params, hl.attached, hl.lineReg, hl.bufAlloc, hl.cfg, hl.vals, hl.emitted, hl.code, hl.spins,
        by simp [h.regs], hl.portOut, hl.draws, hl.freeIx, hl.trace, hl.isAttached, hl.busy, hl.calm, hl.lockIrq,
        hl.lockCmd, hl.takes⟩
    · cases hc; exact ⟨_, rfl, hl.startCycle r v⟩
    · obtain ⟨hv, en, pend, rfl⟩ := intCtrlWrite_cases hc
      obtain ⟨u', hu⟩ := intCtrlWrite_next (v := v) (s := u.log (.write .cmd (c.params.off r) v))
        (by rw [hl.params]; exact hv)
      obtain ⟨-, en', pend', rfl⟩ := intCtrlWrite_cases hu
      exact ⟨_, hu, ⟨hl.params, hl.attached, hl.lineReg, hl.bufAlloc, hl.cfg, hl.vals, hl.emitted, hl.code, hl.spins,
        hl.regs, hl.portOut, hl.draws, hl.freeIx, hl.trace, hl.isAttached, hl.busy, hl.calm, hl.lockIrq, hl.lockCmd,
        hl.takes⟩⟩
    · cases hc; exact ⟨_, rfl, hl⟩
    · cases hc
    · cases hc
  · cases hc

/-- Setting CFG follows. -/
theorem Follows.withCfg {k b : Bool} {c u : State} (h : Follows k b c u) (v : Word) :
    Follows k b { c with cfg := v } { u with cfg := v } :=
  ⟨h.params, h.attached, h.lineReg, h.bufAlloc, rfl, h.vals, h.emitted, h.code, h.spins, h.regs, h.portOut, h.draws,
    h.freeIx, h.trace, h.isAttached, h.busy, h.calm, h.lockIrq, h.lockCmd, h.takes⟩

theorem Follows.emit {k b : Bool} {c u : State} (h : Follows k b c u) (w : Word) :
    Follows k b { c with emitted := c.emitted ++ [w] } { u with emitted := u.emitted ++ [w] } :=
  ⟨h.params, h.attached, h.lineReg, h.bufAlloc, h.cfg, h.vals, by simp [h.emitted], h.code, h.spins, h.regs, h.portOut,
    h.draws, h.freeIx, h.trace, h.isAttached, h.busy, h.calm, h.lockIrq, h.lockCmd, h.takes⟩

/-- An atomic micro-operation follows. -/
theorem Follows.microOp {k b : Bool} {c u c' : State} {op : Micro} (h : Follows k b c u) (hr : op.viewOnly = true)
    (ha : op.allowed b = true) (hready : op = .acquireI → u.ilock = .free) (hc : microOp op c = .next c') :
    ∃ u', Machine.microOp op u = .next u' ∧ Follows k (op.holds b) c' u' := by
  cases op with
  | write r v => exact h.regWrite hc
  | overwriteCfg v =>
    rw [microOp_overwriteCfg] at hc ⊢
    exact (h.withCfg v).regWrite hc
  | mergeCfg m mask =>
    have hm : merge u.cfg m mask = merge c.cfg m mask := by rw [h.cfg]
    rw [microOp_mergeCfg] at hc ⊢
    rw [hm]
    exact (h.withCfg _).regWrite hc
  | read r mask =>
    have hk : r.kind ≠ .command := by simpa [Micro.viewOnly] using hr
    obtain ⟨⟨v, c1⟩, h1, h2⟩ := andThen_eq_next.mp hc
    obtain ⟨u1, hu, hf⟩ := h.regRead hk h1
    cases h2
    exact ⟨{ u1 with vals := u1.vals ++ [v &&& mask] }, by rw [microOp_read, hu]; rfl,
      ⟨hf.params, hf.attached, hf.lineReg, hf.bufAlloc, hf.cfg, by simp [hf.vals], hf.emitted, hf.code, hf.spins,
        hf.regs, hf.portOut, hf.draws, hf.freeIx, hf.trace, hf.isAttached, hf.busy, hf.calm, hf.lockIrq, hf.lockCmd, hf.takes⟩⟩
  | emit i => cases hc; exact ⟨_, by rw [microOp_emit, h.vals], h.emit _⟩
  | emitTap i => cases hc; exact ⟨_, by rw [microOp_emitTap, h.vals], h.emit _⟩
  | emitCount => simp [Micro.viewOnly] at hr
  | acquireI =>
    cases hc
    have hfree := hready rfl
    refine ⟨_, rfl, ?_⟩
    have hidle : u.irqPhase = .idle := by
      by_contra hne
      rw [h.lockIrq.mpr hne] at hfree
      cases hfree
    exact ⟨h.params, h.attached, h.lineReg, h.bufAlloc, h.cfg, h.vals, h.emitted, h.code, h.spins, h.regs, h.portOut,
      h.draws, h.freeIx, h.trace, h.isAttached, h.busy, h.calm, by simp [hidle], by simp [Micro.holds], h.takes⟩
  | releaseI =>
    cases hc
    refine ⟨_, rfl, ?_⟩
    have hb : b = true := by simpa [Micro.allowed] using ha
    have hcmd := h.lockCmd.mpr hb
    have hidle : u.irqPhase = .idle := by
      by_contra hne
      rw [h.lockIrq.mpr hne] at hcmd
      cases hcmd
    exact ⟨h.params, h.attached, h.lineReg, h.bufAlloc, h.cfg, h.vals, h.emitted, h.code, h.spins, h.regs, h.portOut,
      h.draws, h.freeIx, h.trace, h.isAttached, h.busy, h.calm, by simp [hidle], by simp [Micro.holds], h.takes⟩
  | delay tag => cases hc; exact ⟨_, rfl, h.log _⟩
  | poll _ _ _ _ => cases hc; exact ⟨_, rfl, h⟩

theorem Follows.withSpins {k b : Bool} {c u : State} (h : Follows k b c u) (n : Nat) :
    Follows k b { c with spins := n } { u with spins := n } :=
  ⟨h.params, h.attached, h.lineReg, h.bufAlloc, h.cfg, h.vals, h.emitted, h.code, rfl, h.regs, h.portOut, h.draws,
    h.freeIx, h.trace, h.isAttached, h.busy, h.calm, h.lockIrq, h.lockCmd, h.takes⟩

/-- A poll follows. -/
theorem Follows.spin {k b : Bool} {place : Where} {pred : Pred} {n : Nat} {c u c' : State} {r : Bool}
    {op : Micro} {rest : List Micro} (h : Follows k b c u) (ht : u.todo = op :: rest) (ha : op.allowed b = true)
    (hc : spinAlone place pred n c = .next (c', r)) :
    ∃ u', spin place pred n u = .next (u', r) ∧ Follows k b c' u' := by
  induction n generalizing c u with
  | zero => cases hc; exact ⟨_, rfl, (h.withSpins 0).log _⟩
  | succ n ih =>
    obtain ⟨⟨v, c1⟩, h1, h2⟩ := andThen_eq_next.mp hc
    obtain ⟨u0, hu0, hf0, ho, -, -⟩ := h.toCmd ht ha
    obtain ⟨u1, hu1, hf1⟩ := hf0.regRead (by simp [Reg.kind]) h1
    have htodo : u1.todo = op :: rest := by
      unfold Machine.regRead at hu1
      split at hu1
      · cases hu1; simpa using ho.view.todo.trans ht
      · cases hu1
    unfold Machine.spin
    rw [hu0]
    simp only [andThen_next, hu1]
    simp only at h2
    rw [hf1.params]
    split at h2
    · rename_i hp
      cases h2
      rw [if_pos hp]
      exact ⟨_, rfl, (hf1.advance).withSpins 0⟩
    · rename_i hp
      rw [if_neg hp]
      refine ih (u := { u1.advance with spins := u1.spins + 1 }) ?_ (by simpa using htodo) h2
      rw [hf1.spins]
      exact (hf1.advance).withSpins _

theorem Follows.withCode {k b : Bool} {c u : State} (h : Follows k b c u) (x : Code) :
    Follows k b { c with code := x } { u with code := x } :=
  ⟨h.params, h.attached, h.lineReg, h.bufAlloc, h.cfg, h.vals, h.emitted, rfl, h.spins, h.regs, h.portOut, h.draws,
    h.freeIx, h.trace, h.isAttached, h.busy, h.calm, h.lockIrq, h.lockCmd, h.takes⟩

/-- What a poll's answer does follows. -/
theorem Follows.afterSpin {k b : Bool} {c u : State} (h : Follows k b c u) (g r : Bool) :
    Follows k b (afterSpin g (c, r)).1 (Machine.afterSpin g (u, r)).1 ∧
      (Machine.afterSpin g (u, r)).2 = (Machine.afterSpin g (c, r)).2 := by
  have hp : u.params.timeoutPolicy = c.params.timeoutPolicy := by rw [h.params]
  unfold Machine.afterSpin
  simp only [hp]
  split
  · exact ⟨h, rfl⟩
  · exact ⟨h.withCode _, rfl⟩

/-- A micro-operation that is no poll is atomic, and the command goes on. -/
theorem opAlone_atomic {op : Micro} (hn : ¬ ∃ place pred n g, op = .poll place pred n g) (c : State) :
    opAlone op c = andThen (microOp op c) fun t => .next (t, true) := by
  cases op <;> first | rfl | exact absurd ⟨_, _, _, _, rfl⟩ hn

/-- Any micro-operation follows, and both go on or both end. -/
theorem Follows.runOp {k b : Bool} {c u c' : State} {go : Bool} {op : Micro} {rest : List Micro} (h : Follows k b c u)
    (ht : u.todo = op :: rest) (hr : op.viewOnly = true) (ha : op.allowed b = true)
    (hc : opAlone op c = .next (c', go)) :
    ∃ u', Machine.runOp op u = .next (u', go) ∧ Follows k (op.holds b) c' u' := by
  by_cases hp : ∃ place pred n g, op = .poll place pred n g
  · obtain ⟨place, pred, n, g, rfl⟩ := hp
    obtain ⟨⟨c1, r⟩, h1, h2⟩ := andThen_eq_next.mp hc
    rw [← h.spins] at h1
    obtain ⟨u1, hu, hf⟩ := h.spin ht ha h1
    unfold Machine.runOp
    simp only [hu, andThen_next]
    obtain ⟨h3, h4⟩ := hf.afterSpin g r
    simp only [Host.Outcome.next.injEq] at h2
    rw [h2] at h3 h4
    exact ⟨(Machine.afterSpin g (u1, r)).1, congrArg _ (Prod.ext rfl h4), h3⟩
  · have e1 := opAlone_atomic hp c
    have e2 : Machine.runOp op u =
        andThen (Machine.toCmd u) fun s1 => andThen (Machine.microOp op s1) fun s2 => .next (s2.advance, true) := by
      cases op <;> first | rfl | exact absurd ⟨_, _, _, _, rfl⟩ hp
    rw [e1] at hc
    obtain ⟨c1, h1, h2⟩ := andThen_eq_next.mp hc
    cases h2
    obtain ⟨v, hv, hf, ho, hready, -⟩ := h.toCmd ht ha
    have hfree : op = .acquireI → v.ilock = .free := by
      rintro rfl
      unfold cmdReady at hready
      rw [ho.view.todo, ht] at hready
      simpa using hready
    obtain ⟨u', hu, hf'⟩ := hf.microOp hr ha hfree h1
    exact ⟨u'.advance, by rw [e2, hv]; simp only [andThen_next, hu], hf'.advance⟩

/-- The result of a micro-program under any calm schedule is that of the program alone: where `runAlone` ends at `c`,
the command ends with `sendResult` at a state that follows `c`. -/
theorem Follows.runOps {prog : List Micro} {k b : Bool} {c u c' : State} (h : Follows k b c u)
    (hr : prog.all Micro.viewOnly = true) (hb : bracketed b prog = true) (hc : runAlone prog c = .next c') :
    ∃ v, Machine.runOps prog u = .next (sendResult v.code v.emitted v) ∧ Follows k false c' v := by
  have hfinish : ∀ {b : Bool} {c u : State}, Follows k b c u → b = false →
      ∃ v, finish u = .next (sendResult v.code v.emitted v) ∧ Follows k false c v := by
    rintro b c u h rfl
    obtain ⟨v, hv, hf, -, -⟩ := (h.withTodo []).toCmd_nil rfl
    exact ⟨v, by unfold finish; rw [hv]; rfl, hf⟩
  induction prog generalizing b c u with
  | nil =>
    cases hc
    exact hfinish h (by simpa [bracketed] using hb)
  | cons op rest ih =>
    simp only [List.all_cons, Bool.and_eq_true] at hr
    have hb' : op.allowed b = true ∧ bracketed (op.holds b) rest = true ∧
        ((∃ place pred n g, op = .poll place pred n g) → b = false) := by
      cases op with
      | poll _ _ _ _ =>
        simp only [bracketed, Bool.and_eq_true, Bool.not_eq_true'] at hb
        exact ⟨rfl, hb.2, fun _ => hb.1⟩
      | _ =>
        simp only [bracketed, Bool.and_eq_true] at hb
        exact ⟨hb.1, hb.2, by rintro ⟨_, _, _, _, h⟩; cases h⟩
    obtain ⟨⟨c1, go⟩, h1, h2⟩ := andThen_eq_next.mp hc
    obtain ⟨u', hu, hf⟩ := (h.withTodo (op :: rest)).runOp rfl hr.1 hb'.1 h1
    unfold Machine.runOps
    rw [hu]
    simp only [andThen_next] at h2 ⊢
    cases go with
    | true => exact ih hf hr.2 hb'.2.1 h2
    | false =>
      cases h2
      have hpoll : ∃ place pred n g, op = .poll place pred n g := by
        by_contra hn
        rw [opAlone_atomic hn] at h1
        obtain ⟨t, -, ht⟩ := andThen_eq_next.mp h1
        cases ht
      have hbf := hb'.2.2 hpoll
      obtain ⟨place, pred, n, g, rfl⟩ := hpoll
      exact hfinish hf hbf

/-- A command that starts follows itself. -/
theorem Follows.start {k : Bool} {s : State} (i : Instr) (h : CanRun s) (hk : k = true → s.takesResult = true) :
    Follows k false (startCommand i s) (startCommand i s) where
  params := rfl
  attached := rfl
  lineReg := rfl
  bufAlloc := rfl
  cfg := rfl
  vals := rfl
  emitted := rfl
  code := rfl
  spins := rfl
  regs := rfl
  portOut := rfl
  draws := rfl
  freeIx := rfl
  trace := rfl
  isAttached := h.attached
  busy := by simp
  calm := h.calm
  lockIrq := h.lock.1
  lockCmd := by simpa using h.lock.2
  takes := hk

/-- A command under any calm schedule: where its program alone ends at `c`, it answers with the result of a state that
follows `c`. -/
theorem runCommand_calm {k : Bool} {i : Instr} {prog : List Micro} {s c : State} (h : CanRun s)
    (hk : k = true → s.takesResult = true) (hr : prog.all Micro.viewOnly = true) (hb : bracketed false prog = true)
    (hc : runAlone prog (startCommand i s) = .next c) :
    ∃ v, runCommand i prog s = .next (sendResult v.code v.emitted v) ∧ Follows k false c v :=
  (Follows.start i h hk).runOps hr hb hc

end Sys2Proof.Machine
end

