-- ==== Sys2Proof/Laws/Quiet.lean ====
section
/-! SUPPORT. A command with nothing scheduled and ILOCK free runs exactly as it does alone: `runCommand_quiet`. -/

namespace Sys2Proof.Machine

/-- The same state at another position of the sequencer. -/
def State.at (c : State) (q : Seq) (td : List Micro) : State := { c with seq := q, todo := td }

/-- The same outcome at another position of the sequencer. -/
def atPosition (q : Seq) (td : List Micro) (x : Res State) : Res State := andThen x fun t => .next (t.at q td)

/-- With nothing scheduled CMD steps at once. -/
theorem toCmd_quiet {s : State} (hs : s.sched = []) (hr : cmdReady s = true) : toCmd s = .next s := by
  have e : { s with sched := [] } = s := by rw [← hs]
  unfold toCmd
  rw [hs]
  unfold interleave
  rw [e]
  have hd : irqDrain 5 s = .next s := by unfold irqDrain; rw [if_pos hr]
  rw [hd]
  simp only [andThen_next]
  rw [if_pos hr]

theorem afterDraw_at (c : State) (q : Seq) (td : List Micro) : (c.at q td).afterDraw = c.afterDraw.at q td := by
  unfold State.afterDraw State.at
  cases c.draws <;> simp

theorem afterRead_at (c : State) (q : Seq) (td : List Micro) (r : Reg) :
    (c.at q td).afterRead r = (c.afterRead r).at q td := by
  unfold State.afterRead
  rw [afterDraw_at]
  exact (apply_ite (fun x : State => x.at q td) _ _ _).symm

theorem regRead_at (c : State) (q : Seq) (td : List Micro) (r : Reg) :
    regRead .cmd r (c.at q td) = andThen (regRead .cmd r c) fun x => .next (x.1, x.2.at q td) := by
  unfold regRead
  rw [afterRead_at]
  by_cases h : c.attached = true
  · rw [if_pos h, if_pos (show (c.at q td).attached = true from h)]; rfl
  · rw [if_neg h, if_neg (show ¬ (c.at q td).attached = true from h)]; rfl

theorem afterHeld_at (c : State) (q : Seq) (td : List Micro) (r : Reg) :
    (c.at q td).afterHeld r = (c.afterHeld r).at q td := by
  have e : (c.at q td).stored r = c.stored r := rfl
  unfold State.afterHeld
  rw [e]
  split <;> rfl

theorem startCycle_at (c : State) (q : Seq) (td : List Micro) (r : Reg) (v : Word) :
    startCycle r v (c.at q td) = (startCycle r v c).at q td := by
  unfold startCycle
  split
  · rfl
  · unfold startSingle
    simp only [afterHeld_at]
    rfl

theorem intCtrlWrite_at (c : State) (q : Seq) (td : List Micro) (v : Word) :
    intCtrlWrite v (c.at q td) = atPosition q td (intCtrlWrite v c) := by
  unfold intCtrlWrite
  by_cases h1 : v = c.params.intEnable
  · rw [if_pos h1, if_pos (show v = (c.at q td).params.intEnable from h1)]; rfl
  · rw [if_neg h1, if_neg (show ¬ v = (c.at q td).params.intEnable from h1)]
    by_cases h2 : v = c.params.intDisable
    · rw [if_pos h2, if_pos (show v = (c.at q td).params.intDisable from h2)]; rfl
    · rw [if_neg h2, if_neg (show ¬ v = (c.at q td).params.intDisable from h2)]
      by_cases h3 : v = c.params.intClear
      · rw [if_pos h3, if_pos (show v = (c.at q td).params.intClear from h3)]; rfl
      · rw [if_neg h3, if_neg (show ¬ v = (c.at q td).params.intClear from h3)]; rfl

theorem regWrite_at (c : State) (q : Seq) (td : List Micro) (r : Reg) (v : Word) :
    regWrite .cmd r v (c.at q td) = atPosition q td (regWrite .cmd r v c) := by
  unfold regWrite
  by_cases h : c.attached = true
  · rw [if_pos h, if_pos (show (c.at q td).attached = true from h)]
    cases r.kind
    · rfl
    · exact congrArg _ (startCycle_at (c.log _) q td r v)
    · exact intCtrlWrite_at (c.log _) q td v
    · rfl
    · rfl
    · rfl
  · rw [if_neg h, if_neg (show ¬ (c.at q td).attached = true from h)]; rfl

/-- A micro-operation does the same at every position. -/
theorem microOp_at (op : Micro) (c : State) (q : Seq) (td : List Micro) :
    microOp op (c.at q td) = atPosition q td (microOp op c) := by
  cases op with
  | write r v => exact regWrite_at c q td r v
  | overwriteCfg v => exact regWrite_at { c with cfg := v } q td .modeConfig v
  | mergeCfg m mask => exact regWrite_at { c with cfg := merge c.cfg m mask } q td .modeConfig (merge c.cfg m mask)
  | read r mask =>
    rw [microOp_read, microOp_read, regRead_at]
    cases regRead .cmd r c <;> rfl
  | _ => rfl

/-- Nothing is scheduled, and CMD holds ILOCK exactly if `b`, no other agent does. -/
structure Quiet (b : Bool) (c : State) : Prop where
  sched : c.sched = []
  ilock : c.ilock = if b then .cmd else .free

theorem regWrite_sched_ilock {a : Agent} {r : Reg} {v : Word} {s t : State} (h : regWrite a r v s = .next t) :
    t.sched = s.sched ∧ t.ilock = s.ilock := by
  unfold regWrite at h
  split at h
  · cases hk : r.kind <;> rw [hk] at h
    · cases h; exact ⟨rfl, rfl⟩
    · cases h; simp
    · obtain ⟨-, en, pend, rfl⟩ := intCtrlWrite_cases (s := s.log _) h; exact ⟨rfl, rfl⟩
    · cases h; exact ⟨rfl, rfl⟩
    · cases h
    · cases h
  · cases h

theorem regRead_sched_ilock {a : Agent} {r : Reg} {v : Word} {s t : State} (h : regRead a r s = .next (v, t)) :
    t.sched = s.sched ∧ t.ilock = s.ilock := by
  unfold regRead at h
  split at h
  · cases h; simp
  · cases h

theorem Quiet.microOp {b : Bool} {c c' : State} {op : Micro} (h : Quiet b c) (hc : microOp op c = .next c') :
    Quiet (op.holds b) c' := by
  cases op with
  | write r v =>
    obtain ⟨h1, h2⟩ := regWrite_sched_ilock hc
    exact ⟨h1.trans h.sched, h2.trans h.ilock⟩
  | overwriteCfg v =>
    rw [microOp_overwriteCfg] at hc
    obtain ⟨h1, h2⟩ := regWrite_sched_ilock hc
    exact ⟨h1.trans h.sched, h2.trans h.ilock⟩
  | mergeCfg m mask =>
    rw [microOp_mergeCfg] at hc
    obtain ⟨h1, h2⟩ := regWrite_sched_ilock hc
    exact ⟨h1.trans h.sched, h2.trans h.ilock⟩
  | read r mask =>
    obtain ⟨⟨v, t⟩, h1, h2⟩ := andThen_eq_next.mp hc
    obtain ⟨h3, h4⟩ := regRead_sched_ilock h1
    cases h2
    exact ⟨h3.trans h.sched, h4.trans h.ilock⟩
  | acquireI => cases hc; exact ⟨h.sched, rfl⟩
  | releaseI => cases hc; exact ⟨h.sched, rfl⟩
  | _ => cases hc; exact ⟨h.sched, h.ilock⟩

theorem Quiet.ready {b : Bool} {c : State} {op : Micro} {rest : List Micro} {q : Seq} (h : Quiet b c)
    (ha : op.allowed b = true) : cmdReady (c.at q (op :: rest)) = true := by
  cases op <;> simp_all [cmdReady, State.at, Micro.allowed, h.ilock]

theorem Quiet.toCmd {b : Bool} {c : State} {op : Micro} {rest : List Micro} {q : Seq} (h : Quiet b c)
    (ha : op.allowed b = true) : toCmd (c.at q (op :: rest)) = .next (c.at q (op :: rest)) :=
  toCmd_quiet h.sched (h.ready ha)

theorem spin_quiet {b : Bool} {place : Where} {pred : Pred} {n : Nat} {c c' : State} {r : Bool} {q : Seq} {i : Instr}
    {op : Micro} {rest : List Micro} (hq : ∃ k, q = .run i k) (h : Quiet b c) (ha : op.allowed b = true)
    (hc : spinAlone place pred n c = .next (c', r)) :
    ∃ k, spin place pred n (c.at q (op :: rest)) = .next (c'.at (.run i k) (op :: rest), r) ∧ Quiet b c' := by
  obtain ⟨k, rfl⟩ := hq
  induction n generalizing c k with
  | zero => cases hc; exact ⟨k, rfl, h.sched, h.ilock⟩
  | succ n ih =>
    obtain ⟨⟨v, c1⟩, h1, h2⟩ := andThen_eq_next.mp hc
    obtain ⟨h3, h4⟩ := regRead_sched_ilock h1
    unfold spin
    rw [h.toCmd ha]
    simp only [andThen_next]
    rw [regRead_at, h1]
    simp only [andThen_next]
    simp only at h2
    by_cases hp : pollReady c1.params pred v = true
    · rw [if_pos hp] at h2
      rw [show (c1.at (.run i k) (op :: rest)).params = c1.params from rfl, if_pos hp]
      cases h2
      exact ⟨k + 1, rfl, h3.trans h.sched, h4.trans h.ilock⟩
    · rw [if_neg hp] at h2
      rw [show (c1.at (.run i k) (op :: rest)).params = c1.params from rfl, if_neg hp]
      exact ih (c := { c1 with spins := c1.spins + 1 }) ⟨h3.trans h.sched, h4.trans h.ilock⟩ h2 (k + 1)

theorem afterSpin_at (g : Bool) (c : State) (r : Bool) (q : Seq) (td : List Micro) :
    afterSpin g (c.at q td, r) = ((afterSpin g (c, r)).1.at q td, (afterSpin g (c, r)).2) := by
  unfold afterSpin
  by_cases h : (r || c.params.timeoutPolicy == .proceed) = true
  · rw [if_pos h, if_pos (show (r || (c.at q td).params.timeoutPolicy == .proceed) = true from h)]
  · rw [if_neg h, if_neg (show ¬ (r || (c.at q td).params.timeoutPolicy == .proceed) = true from h)]; rfl

theorem Quiet.afterSpin {b g r : Bool} {c : State} (h : Quiet b c) : Quiet b (afterSpin g (c, r)).1 := by
  unfold Machine.afterSpin
  split
  · exact h
  · exact ⟨h.sched, h.ilock⟩

theorem runOp_quiet {b go : Bool} {c c' : State} {i : Instr} {k : Nat} {op : Micro} {rest : List Micro}
    (h : Quiet b c) (ha : op.allowed b = true) (hc : opAlone op c = .next (c', go)) :
    ∃ k', runOp op (c.at (.run i k) (op :: rest)) = .next (c'.at (.run i k') (op :: rest), go) ∧
      Quiet (op.holds b) c' := by
  by_cases hp : ∃ place pred n g, op = .poll place pred n g
  · obtain ⟨place, pred, n, g, rfl⟩ := hp
    obtain ⟨⟨c1, r⟩, h1, h2⟩ := andThen_eq_next.mp hc
    obtain ⟨k', hk, hq⟩ := spin_quiet (i := i) (rest := rest) ⟨k, rfl⟩ h ha h1
    simp only [Host.Outcome.next.injEq] at h2
    refine ⟨k', ?_, ?_⟩
    · unfold runOp
      have e : n - (c.at (.run i k) (Micro.poll place pred n g :: rest)).spins = n - c.spins := rfl
      simp only [e, hk, andThen_next, afterSpin_at, h2]
    · have := hq.afterSpin (g := g) (r := r)
      rw [h2] at this
      exact this
  · rw [opAlone_atomic hp] at hc
    obtain ⟨c1, h1, h2⟩ := andThen_eq_next.mp hc
    cases h2
    refine ⟨k + 1, ?_, h.microOp h1⟩
    have e2 : runOp op (c.at (.run i k) (op :: rest)) =
        andThen (toCmd (c.at (.run i k) (op :: rest))) fun s1 => andThen (microOp op s1) fun s2 => .next (s2.advance, true) := by
      cases op <;> first | rfl | exact absurd ⟨_, _, _, _, rfl⟩ hp
    rw [e2, h.toCmd ha]
    simp only [andThen_next]
    rw [microOp_at, h1]
    rfl

/-- The lock discipline of the next micro-operation. -/
theorem bracketed_cons {b : Bool} {op : Micro} {rest : List Micro} (hb : bracketed b (op :: rest) = true) :
    op.allowed b = true ∧ bracketed (op.holds b) rest = true ∧
      ((∃ place pred n g, op = .poll place pred n g) → b = false) := by
  cases op with
  | poll _ _ _ _ =>
    simp only [bracketed, Bool.and_eq_true, Bool.not_eq_true'] at hb
    exact ⟨rfl, hb.2, fun _ => hb.1⟩
  | _ =>
    simp only [bracketed, Bool.and_eq_true] at hb
    exact ⟨hb.1, hb.2, by rintro ⟨_, _, _, _, h⟩; cases h⟩

theorem finish_quiet {c : State} (h : c.sched = []) (i : Instr) (k : Nat) (td : List Micro) :
    finish (c.at (.run i k) td) = .next (sendResult c.code c.emitted c) := by
  unfold finish
  rw [toCmd_quiet (s := (c.at (.run i k) td).withTodo []) h rfl]
  rfl

/-- Nothing scheduled, the program runs as it does alone, to the very same result. -/
theorem runOps_quiet {b : Bool} {prog : List Micro} {c c' : State} {i : Instr} {k : Nat} {td : List Micro}
    (h : Quiet b c) (hb : bracketed b prog = true) (hc : runAlone prog c = .next c') :
    runOps prog (c.at (.run i k) td) = .next (sendResult c'.code c'.emitted c') ∧ Quiet false c' := by
  induction prog generalizing b c k td with
  | nil =>
    cases hc
    have : b = false := by simpa [bracketed] using hb
    subst this
    exact ⟨finish_quiet h.sched i k td, h⟩
  | cons op rest ih =>
    obtain ⟨ha, hb', hpoll⟩ := bracketed_cons hb
    obtain ⟨⟨c1, go⟩, h1, h2⟩ := andThen_eq_next.mp hc
    obtain ⟨k', hk, hq⟩ := runOp_quiet (i := i) (k := k) (rest := rest) h ha h1
    have e : (c.at (.run i k) td).withTodo (op :: rest) = c.at (.run i k) (op :: rest) := rfl
    unfold runOps
    rw [e, hk]
    simp only [andThen_next] at h2 ⊢
    cases go with
    | true => exact ih hq hb' h2
    | false =>
      cases h2
      have hp : ∃ place pred n g, op = .poll place pred n g := by
        by_contra hn
        rw [opAlone_atomic hn] at h1
        obtain ⟨t, -, ht⟩ := andThen_eq_next.mp h1
        cases ht
      have hbf := hpoll hp
      obtain ⟨place, pred, n, g, rfl⟩ := hp
      subst hbf
      exact ⟨finish_quiet hq.sched i k' _, hq⟩

/-- A command with nothing scheduled and ILOCK free: it answers exactly with the result of its program alone. -/
theorem runCommand_quiet {i : Instr} {prog : List Micro} {s c : State} (hs : s.sched = []) (hl : s.ilock = .free)
    (hb : bracketed false prog = true) (hc : runAlone prog (startCommand i s) = .next c) :
    runCommand i prog s = .next (sendResult c.code c.emitted c) ∧ c.sched = [] ∧ c.ilock = .free := by
  have hq : Quiet false (startCommand i s) := ⟨hs, hl⟩
  obtain ⟨h1, h2⟩ := runOps_quiet (i := i) (k := 0) (td := s.todo) hq hb hc
  exact ⟨h1, h2.sched, h2.ilock⟩

end Sys2Proof.Machine
end

