-- ==== Sys2Proof/Laws/Keep.lean ====
section
/-! SUPPORT. What a micro-program keeps whatever the schedule is: parameters, canonical memory, the words it does not
store to, CFG unless it writes it, the lock discipline and the counter. -/

namespace Sys2Proof.Machine

/-- Where a micro-operation stores a word. -/
def Micro.storesAt (p : Params) : Micro → List Nat
  | .write r _ => if r.kind = .storage then [p.off r] else []
  | .overwriteCfg _ => [p.off .modeConfig]
  | .mergeCfg _ _ => [p.off .modeConfig]
  | _ => []

/-- Does the micro-operation write CFG? -/
def Micro.setsCfg : Micro → Bool
  | .overwriteCfg _ => true
  | .mergeCfg _ _ => true
  | _ => false

/-- `t` is later than `s` in one session, where CMD stored words only at the offsets `O`, and wrote CFG only if `w`. -/
structure Kept (O : List Nat) (w : Bool) (s t : State) : Prop where
  params : t.params = s.params
  attached : t.attached = s.attached
  lineReg : t.lineReg = s.lineReg
  bufAlloc : t.bufAlloc = s.bufAlloc
  memory : Memory.wf s.regs = true → Memory.wf t.regs = true
  bytes : ∀ a, (∀ o ∈ O, a < o ∨ o + 4 ≤ a) → Memory.byteAt t.regs a = Memory.byteAt s.regs a
  cfg : w = false → t.cfg = s.cfg
  count : s.icount.toNat < 2 ^ s.params.icountW → t.icount.toNat < 2 ^ s.params.icountW
  runs : ∀ base, s.params.icountW ≤ 32 → CountsRuns base s → CountsRuns base t
  hist : s.hist <+: t.hist

theorem Kept.refl (O : List Nat) (w : Bool) (s : State) : Kept O w s s :=
  ⟨rfl, rfl, rfl, rfl, id, fun _ _ => rfl, fun _ => rfl, id, fun _ _ h => h, List.prefix_refl _⟩

theorem Kept.trans {O : List Nat} {w : Bool} {s t u : State} (h1 : Kept O w s t) (h2 : Kept O w t u) : Kept O w s u where
  params := h2.params.trans h1.params
  attached := h2.attached.trans h1.attached
  lineReg := h2.lineReg.trans h1.lineReg
  bufAlloc := h2.bufAlloc.trans h1.bufAlloc
  memory := h2.memory ∘ h1.memory
  bytes := fun a ha => (h2.bytes a ha).trans (h1.bytes a ha)
  cfg := fun hw => (h2.cfg hw).trans (h1.cfg hw)
  count := fun h => by
    have := h2.count (by rw [h1.params]; exact h1.count h)
    rwa [h1.params] at this
  runs := fun b hw h => h2.runs b (by rw [h1.params]; exact hw) (h1.runs b hw h)
  hist := h1.hist.trans h2.hist

/-- A change of fields that none of the kept things depends on. -/
theorem Kept.of_eq {O : List Nat} {w : Bool} {s t : State} (hp : t.params = s.params) (ha : t.attached = s.attached)
    (hl : t.lineReg = s.lineReg) (hb : t.bufAlloc = s.bufAlloc) (hr : t.regs = s.regs) (hc : w = false → t.cfg = s.cfg)
    (hi : t.icount = s.icount) (hq : t.irqPhase = s.irqPhase) (l : List Event) (hh : t.hist = s.hist ++ l)
    (hl' : ∀ e ∈ l, e ≠ .handlerEntry ∧ e ≠ .handlerExit) : Kept O w s t where
  params := hp
  attached := ha
  lineReg := hl
  bufAlloc := hb
  memory := by rw [hr]; exact id
  bytes := fun _ _ => by rw [hr]
  cfg := hc
  count := by rw [hi]; exact id
  runs := fun b _ h => h.same hp hi hq
    (by simp only [handlerRuns, hh, List.count_append]
        rw [List.count_eq_zero.mpr fun hm => (hl' _ hm).2 rfl]; rfl)
    (by simp only [handlerEntries, hh, List.count_append]
        rw [List.count_eq_zero.mpr fun hm => (hl' _ hm).1 rfl]; rfl)
  hist := ⟨l, hh.symm⟩

theorem OthersOnly.kept {O : List Nat} {w : Bool} {s t : State} (h : OthersOnly s t) : Kept O w s t where
  params := h.view.params
  attached := h.view.attached
  lineReg := h.view.lineReg
  bufAlloc := h.view.bufAlloc
  memory := by rw [h.view.regs]; exact id
  bytes := fun _ _ => by rw [h.view.regs]
  cfg := fun _ => h.view.cfg
  count := h.count
  runs := h.runs
  hist := h.hist

/-- Everything a register read can do (R103): it spends a draw where the value is one, and is recorded. -/
theorem regRead_cases {a : Agent} {r : Reg} {v : Word} {s t : State} (h : regRead a r s = .next (v, t)) :
    s.attached = true ∧ v = s.readValue r ∧ t = (s.afterRead r).log (.read a (s.params.off r) (s.readValue r)) := by
  unfold regRead at h
  split at h
  · cases h; exact ⟨by assumption, rfl, rfl⟩
  · cases h

/-- Everything a register write can do (R102), by the kind of the register. -/
theorem regWrite_cases {a : Agent} {r : Reg} {v : Word} {s t : State} (h : regWrite a r v s = .next t) :
    s.attached = true ∧
    ((r.kind = .storage ∧
        t = { s with regs := Memory.storeWord s.regs (s.params.off r) v,
                     hist := s.hist ++ [.write a (s.params.off r) v] }) ∨
     (r.kind = .cycleStart ∧ t = startCycle r v (s.log (.write a (s.params.off r) v))) ∨
     (r.kind = .command ∧ ∃ en pend, isIntCommand s.params v = true ∧
        t = { s with intEn := en, intPend := pend, hist := s.hist ++ [.write a (s.params.off r) v] }) ∨
     (r.kind = .strobe ∧ t = s.log (.write a (s.params.off r) v))) := by
  unfold regWrite at h
  split at h
  · refine ⟨by assumption, ?_⟩
    cases hk : r.kind <;> rw [hk] at h
    · cases h; exact .inl ⟨rfl, rfl⟩
    · cases h; exact .inr (.inl ⟨rfl, rfl⟩)
    · obtain ⟨hv, en, pend, rfl⟩ := intCtrlWrite_cases (s := s.log _) h
      exact .inr (.inr (.inl ⟨rfl, en, pend, hv, rfl⟩))
    · cases h; exact .inr (.inr (.inr ⟨rfl, rfl⟩))
    · cases h
    · cases h
  · cases h

theorem startCycle_hist (r : Reg) (v : Word) (s : State) :
    ∃ dev addr data dir, (startCycle r v s).hist = s.hist ++ [.busCycle dev addr data dir] := by
  unfold startCycle
  split
  · exact ⟨_, _, _, _, rfl⟩
  · unfold startSingle
    refine ⟨_, _, _, _, (log_hist _ _).trans (congrArg (· ++ [_]) ?_)⟩
    rw [afterHeld_hist, afterHeld_hist]

theorem regRead_kept {O : List Nat} {w : Bool} {r : Reg} {v : Word} {s t : State}
    (h : regRead .cmd r s = .next (v, t)) : Kept O w s t := by
  obtain ⟨-, -, rfl⟩ := regRead_cases h
  exact .of_eq (by simp) (by simp) (by simp) (by simp) (by simp) (by simp) (by simp) (by simp) [_] (by simp; rfl)
    (by simp)

/-- A register write of CMD stores at most the one word of its register. -/
theorem regWrite_kept {O : List Nat} {w : Bool} {r : Reg} {v : Word} {s t : State}
    (h : regWrite .cmd r v s = .next t) (hO : r.kind = .storage → s.params.off r ∈ O) : Kept O w s t := by
  obtain ⟨-, ⟨hk, rfl⟩ | ⟨hk, rfl⟩ | ⟨hk, en, pend, -, rfl⟩ | ⟨hk, rfl⟩⟩ := regWrite_cases h
  · exact ⟨rfl, rfl, rfl, rfl, storeWord_wf _ _, fun a ha => byteAt_storeWord_outside _ (ha _ (hO hk)), fun _ => rfl, id,
      fun b _ hc => hc.same rfl rfl rfl (by simp [handlerRuns]) (by simp [handlerEntries]), List.prefix_append _ _⟩
  · obtain ⟨d, ad, da, di, hh⟩ := startCycle_hist r v (s.log (.write .cmd (s.params.off r) v))
    exact .of_eq (by simp) (by simp) (by simp) (by simp) (by simp) (by simp) (by simp) (by simp)
      [.write .cmd (s.params.off r) v, .busCycle d ad da di] (by rw [hh]; simp) (by simp)
  · exact .of_eq rfl rfl rfl rfl rfl (fun _ => rfl) rfl rfl [_] rfl (by simp)
  · exact .of_eq rfl rfl rfl rfl rfl (fun _ => rfl) rfl rfl [_] rfl (by simp)

theorem regWrite_lock {r : Reg} {v : Word} {s t : State} (h : regWrite .cmd r v s = .next t) :
    t.ilock = s.ilock ∧ t.irqPhase = s.irqPhase ∧ t.seq = s.seq := by
  obtain ⟨-, ⟨hk, rfl⟩ | ⟨hk, rfl⟩ | ⟨hk, en, pend, -, rfl⟩ | ⟨hk, rfl⟩⟩ := regWrite_cases h <;> simp

/-- A command is under way, and CMD holds ILOCK exactly if `b`. -/
structure Under (b : Bool) (s : State) : Prop where
  attached : s.attached = true
  busy : s.seq ≠ .idle
  lockIrq : s.ilock = .irq ↔ s.irqPhase ≠ .idle
  lockCmd : s.ilock = .cmd ↔ b = true

theorem Under.others {b : Bool} {s t : State} (h : Under b s) (ho : OthersOnly s t) : Under b t :=
  ⟨ho.view.attached.trans h.attached, by rw [ho.view.seq]; exact h.busy, ho.lockIrq h.lockIrq,
    ho.lockCmd.trans h.lockCmd⟩

/-- The offsets and the CFG writes of a micro-operation are among those announced. -/
def Micro.within (O : List Nat) (w : Bool) (p : Params) (op : Micro) : Prop :=
  (∀ o ∈ op.storesAt p, o ∈ O) ∧ (op.setsCfg = true → w = true)

theorem regWrite_under {b : Bool} {r : Reg} {v : Word} {s t : State} (h : Under b s)
    (hw : regWrite .cmd r v s = .next t) : Under b t := by
  obtain ⟨h1, h2, h3⟩ := regWrite_lock hw
  obtain ⟨ha, -⟩ := regWrite_cases hw
  exact ⟨(regWrite_kept (O := [s.params.off r]) (w := true) hw (by simp)).attached.trans ha, by rw [h3]; exact h.busy,
    by rw [h1, h2]; exact h.lockIrq, by rw [h1]; exact h.lockCmd⟩

theorem setCfg_kept {O : List Nat} {w : Bool} (s : State) (v : Word) (hw : w = true) :
    Kept O w s { s with cfg := v } :=
  .of_eq rfl rfl rfl rfl rfl (by rw [hw]; intro h; cases h) rfl rfl [] (List.append_nil _).symm (by simp)

theorem microOp_kept {b w : Bool} {O : List Nat} {op : Micro} {s t : State} (h : Under b s)
    (hi : op.within O w s.params) (ha : op.allowed b = true) (hready : op = .acquireI → s.ilock = .free)
    (hm : microOp op s = .next t) : Kept O w s t ∧ Under (op.holds b) t := by
  cases op with
  | write r v =>
    exact ⟨regWrite_kept hm fun hk => hi.1 _ (by simp [Micro.storesAt, hk]), regWrite_under h hm⟩
  | overwriteCfg v =>
    rw [microOp_overwriteCfg] at hm
    exact ⟨(setCfg_kept s v (hi.2 rfl)).trans (regWrite_kept hm fun _ => hi.1 _ (by simp [Micro.storesAt])),
      regWrite_under (s := { s with cfg := v }) ⟨h.attached, h.busy, h.lockIrq, h.lockCmd⟩ hm⟩
  | mergeCfg m mask =>
    rw [microOp_mergeCfg] at hm
    exact ⟨(setCfg_kept s _ (hi.2 rfl)).trans (regWrite_kept hm fun _ => hi.1 _ (by simp [Micro.storesAt])),
      regWrite_under (s := { s with cfg := merge s.cfg m mask }) ⟨h.attached, h.busy, h.lockIrq, h.lockCmd⟩ hm⟩
  | read r mask =>
    obtain ⟨⟨v, u⟩, h1, h2⟩ := andThen_eq_next.mp hm
    cases h2
    have hk := regRead_kept (O := O) (w := w) h1
    obtain ⟨-, -, rfl⟩ := regRead_cases h1
    exact ⟨hk.trans (.of_eq rfl rfl rfl rfl rfl (fun _ => rfl) rfl rfl [] (List.append_nil _).symm (by simp)),
      by simpa using h.attached, by simpa using h.busy, by simpa using h.lockIrq,
      by simpa [Micro.holds] using h.lockCmd⟩
  | emit i =>
    cases hm
    exact ⟨.of_eq rfl rfl rfl rfl rfl (fun _ => rfl) rfl rfl [] (List.append_nil _).symm (by simp),
      h.attached, h.busy, h.lockIrq, h.lockCmd⟩
  | emitTap i =>
    cases hm
    exact ⟨.of_eq rfl rfl rfl rfl rfl (fun _ => rfl) rfl rfl [] (List.append_nil _).symm (by simp),
      h.attached, h.busy, h.lockIrq, h.lockCmd⟩
  | emitCount =>
    cases hm
    exact ⟨.of_eq rfl rfl rfl rfl rfl (fun _ => rfl) rfl rfl [] (List.append_nil _).symm (by simp),
      h.attached, h.busy, h.lockIrq, h.lockCmd⟩
  | acquireI =>
    cases hm
    have hfree := hready rfl
    have hidle : s.irqPhase = .idle := by
      by_contra hne
      rw [h.lockIrq.mpr hne] at hfree
      cases hfree
    exact ⟨.of_eq rfl rfl rfl rfl rfl (fun _ => rfl) rfl rfl [] (List.append_nil _).symm (by simp),
      h.attached, h.busy, by simp [hidle], by simp [Micro.holds]⟩
  | releaseI =>
    cases hm
    have hb : b = true := by simpa [Micro.allowed] using ha
    have hcmd := h.lockCmd.mpr hb
    have hidle : s.irqPhase = .idle := by
      by_contra hne
      rw [h.lockIrq.mpr hne] at hcmd
      cases hcmd
    exact ⟨.of_eq rfl rfl rfl rfl rfl (fun _ => rfl) rfl rfl [] (List.append_nil _).symm (by simp),
      h.attached, h.busy, by simp [hidle], by simp [Micro.holds]⟩
  | delay tag =>
    cases hm
    exact ⟨.of_eq rfl rfl rfl rfl rfl (fun _ => rfl) rfl rfl [_] rfl (by simp),
      h.attached, h.busy, h.lockIrq, h.lockCmd⟩
  | poll _ _ _ _ => cases hm; exact ⟨.refl _ _ _, h⟩

theorem spin_kept {b w r : Bool} {O : List Nat} {place : Where} {pred : Pred} {n : Nat} {s t : State}
    (h : Under b s) (hs : spin place pred n s = .next (t, r)) : Kept O w s t ∧ Under b t := by
  induction n generalizing s with
  | zero =>
    cases hs
    exact ⟨.of_eq rfl rfl rfl rfl rfl (fun _ => rfl) rfl rfl [_] rfl (by simp), h.attached, h.busy, h.lockIrq, h.lockCmd⟩
  | succ n ih =>
    obtain ⟨s1, h1, hs⟩ := andThen_eq_next.mp hs
    obtain ⟨⟨v, s2⟩, h2, hs⟩ := andThen_eq_next.mp hs
    obtain ⟨ho, -⟩ := toCmd_others h.attached h.busy h1
    have hu1 := h.others ho
    have hk2 := regRead_kept (O := O) (w := w) h2
    have hu2 : Under b s2 := by
      obtain ⟨-, -, rfl⟩ := regRead_cases h2
      exact ⟨by simpa using hu1.attached, by simpa using hu1.busy, by simpa using hu1.lockIrq, by simpa using hu1.lockCmd⟩
    have hk := (ho.kept (O := O) (w := w)).trans hk2
    have step : ∀ n, Kept O w s2 { s2.advance with spins := n } ∧ Under b { s2.advance with spins := n } := fun n =>
      ⟨.of_eq rfl rfl rfl rfl rfl (fun _ => rfl) rfl rfl [] (List.append_nil _).symm (by simp),
        hu2.attached, fun hi => hu2.busy ((advance_seq_idle s2).mp hi), hu2.lockIrq, hu2.lockCmd⟩
    simp only at hs
    split at hs
    · cases hs; exact ⟨hk.trans (step 0).1, (step 0).2⟩
    · obtain ⟨h3, h4⟩ := ih (step _).2 hs
      exact ⟨hk.trans ((step _).1.trans h3), h4⟩

theorem afterSpin_kept {b w g r : Bool} {O : List Nat} {s : State} (h : Under b s) :
    Kept O w s (afterSpin g (s, r)).1 ∧ Under b (afterSpin g (s, r)).1 := by
  unfold afterSpin
  split
  · exact ⟨.refl _ _ _, h⟩
  · exact ⟨.of_eq rfl rfl rfl rfl rfl (fun _ => rfl) rfl rfl [] (List.append_nil _).symm (by simp),
      h.attached, h.busy, h.lockIrq, h.lockCmd⟩

/-- A micro-operation that is no poll waits its turn, and then takes effect. -/
theorem runOp_atomic {op : Micro} (hn : ¬ ∃ place pred n g, op = .poll place pred n g) (s : State) :
    runOp op s = andThen (toCmd s) fun s1 => andThen (microOp op s1) fun s2 => .next (s2.advance, true) := by
  cases op <;> first | rfl | exact absurd ⟨_, _, _, _, rfl⟩ hn

theorem runOp_kept {b w go : Bool} {O : List Nat} {op : Micro} {rest : List Micro} {s t : State} (h : Under b s)
    (htodo : s.todo = op :: rest) (hi : op.within O w s.params) (ha : op.allowed b = true)
    (hr : runOp op s = .next (t, go)) : Kept O w s t ∧ Under (op.holds b) t := by
  by_cases hp : ∃ place pred n g, op = .poll place pred n g
  · obtain ⟨place, pred, n, g, rfl⟩ := hp
    obtain ⟨⟨s1, r⟩, h1, h2⟩ := andThen_eq_next.mp hr
    obtain ⟨hk, hu⟩ := spin_kept (O := O) (w := w) h h1
    obtain ⟨hk2, hu2⟩ := afterSpin_kept (O := O) (w := w) (g := g) (r := r) hu
    simp only [Host.Outcome.next.injEq] at h2
    rw [h2] at hk2 hu2
    exact ⟨hk.trans hk2, hu2⟩
  · rw [runOp_atomic hp] at hr
    obtain ⟨s1, h1, hr⟩ := andThen_eq_next.mp hr
    obtain ⟨s2, h2, hr⟩ := andThen_eq_next.mp hr
    cases hr
    obtain ⟨ho, hready⟩ := toCmd_others h.attached h.busy h1
    have hfree : op = .acquireI → s1.ilock = .free := by
      rintro rfl
      unfold cmdReady at hready
      rw [ho.view.todo, htodo] at hready
      simpa using hready
    obtain ⟨hk, hu⟩ := microOp_kept (h.others ho) (by rw [ho.view.params]; exact hi) ha hfree h2
    exact ⟨ho.kept.trans (hk.trans (.of_eq rfl rfl rfl rfl rfl (fun _ => rfl) rfl rfl []
        (List.append_nil _).symm (by simp))),
      hu.attached, fun hi => hu.busy ((advance_seq_idle s2).mp hi), hu.lockIrq, hu.lockCmd⟩

/-- What stands between commands: the sequencer idle, no partial work, BLOCK free (R25, R108). -/
structure Between (t : State) : Prop where
  seq : t.seq = .idle
  todo : t.todo = []
  vals : t.vals = []
  emitted : t.emitted = []
  code : t.code = .ok
  spins : t.spins = 0
  blk : t.blk = .free

theorem sendResult_between (c : Code) (ws : List Word) (s : State) : Between (sendResult c ws s) :=
  ⟨rfl, rfl, rfl, rfl, rfl, rfl, rfl⟩

theorem sendResult_kept {O : List Nat} {w : Bool} (c : Code) (ws : List Word) (s : State) :
    Kept O w s (sendResult c ws s) :=
  .of_eq rfl rfl rfl rfl rfl (fun _ => rfl) rfl rfl [_] rfl (by simp)

theorem withTodo_kept {O : List Nat} {w : Bool} (s : State) (td : List Micro) : Kept O w s (s.withTodo td) :=
  .of_eq rfl rfl rfl rfl rfl (fun _ => rfl) rfl rfl [] (List.append_nil _).symm (by simp)

theorem finish_kept {w : Bool} {O : List Nat} {s t : State} (h : Under false s) (hf : finish s = .next t) :
    Kept O w s t ∧ t.lockRests ∧ Between t := by
  obtain ⟨u, h1, h2⟩ := andThen_eq_next.mp hf
  cases h2
  obtain ⟨ho, -⟩ := toCmd_others (s := s.withTodo []) h.attached h.busy h1
  have hu := Under.others (s := s.withTodo []) ⟨h.attached, h.busy, h.lockIrq, h.lockCmd⟩ ho
  exact ⟨(withTodo_kept s []).trans (ho.kept.trans (sendResult_kept _ _ _)),
    ⟨hu.lockIrq, fun hc => by simpa using hu.lockCmd.mp hc⟩, sendResult_between _ _ _⟩

/-- Whatever the schedule, a micro-program that answers has kept all but what it announced. -/
theorem runOps_kept {b w : Bool} {O : List Nat} {prog : List Micro} {s t : State} (h : Under b s)
    (hi : ∀ op ∈ prog, op.within O w s.params) (hb : bracketed b prog = true) (hr : runOps prog s = .next t) :
    Kept O w s t ∧ t.lockRests ∧ Between t := by
  induction prog generalizing b s with
  | nil =>
    have : b = false := by simpa [bracketed] using hb
    subst this
    exact finish_kept h hr
  | cons op rest ih =>
    obtain ⟨ha, hb', hpoll⟩ := bracketed_cons hb
    obtain ⟨⟨u, go⟩, h1, h2⟩ := andThen_eq_next.mp hr
    obtain ⟨hk, hu⟩ := runOp_kept (s := s.withTodo (op :: rest)) ⟨h.attached, h.busy, h.lockIrq, h.lockCmd⟩ rfl
      (hi op (by simp)) ha h1
    have hk' := (withTodo_kept s (op :: rest)).trans hk
    cases go with
    | true =>
      obtain ⟨h3, h4⟩ := ih hu (fun op' hm => by rw [hk'.params]; exact hi op' (by simp [hm])) hb' h2
      exact ⟨hk'.trans h3, h4⟩
    | false =>
      have hp : ∃ place pred n g, op = .poll place pred n g := by
        by_contra hn
        rw [runOp_atomic hn] at h1
        obtain ⟨s1, -, h1⟩ := andThen_eq_next.mp h1
        obtain ⟨s2, -, h1⟩ := andThen_eq_next.mp h1
        cases h1
      have hbf := hpoll hp
      obtain ⟨place, pred, n, g, rfl⟩ := hp
      subst hbf
      obtain ⟨h3, h4⟩ := finish_kept hu h2
      exact ⟨hk'.trans h3, h4⟩

theorem startCommand_kept {O : List Nat} {w : Bool} (i : Instr) (s : State) : Kept O w s (startCommand i s) :=
  .of_eq rfl rfl rfl rfl rfl (fun _ => rfl) rfl rfl [_] rfl (by simp)

/-- Whatever the schedule, a command that answers has kept all but what its program announced. -/
theorem runCommand_kept {w : Bool} {O : List Nat} {i : Instr} {prog : List Micro} {s t : State}
    (ha : s.attached = true) (hl : s.lockRests) (hi : ∀ op ∈ prog, op.within O w s.params)
    (hb : bracketed false prog = true) (hr : runCommand i prog s = .next t) :
    Kept O w s t ∧ t.lockRests ∧ Between t := by
  obtain ⟨h1, h2⟩ := runOps_kept (s := startCommand i s)
    ⟨ha, by simp, hl.1, by simpa using hl.2⟩ hi hb hr
  exact ⟨(startCommand_kept i s).trans h1, h2⟩

/-- A command that is turned away keeps everything (R107). -/
theorem startAway_kept {O : List Nat} {w : Bool} (h : Word) (c : Code) (s : State) : Kept O w s (startAway h c s) :=
  .of_eq rfl rfl rfl rfl rfl (fun _ => rfl) rfl rfl [_] rfl (by simp)

end Sys2Proof.Machine
end

