-- ==== Sys2Proof/Laws/Result.lean ====
section
/-! SUPPORT. From a program alone to the command's answer: `runAlone_next` says when a program runs to its end alone,
`command_result` says what the command then answers under any calm schedule, and the `runAlone_*` lemmas run a program
alone one micro-operation at a time. -/

namespace Sys2Proof.Machine

/-! A program alone, one micro-operation at a time. -/

/-- CMD's write of a storage register. -/
def State.stow (s : State) (r : Reg) (v : Word) : State :=
  { s with regs := Memory.storeWord s.regs (s.params.off r) v, hist := s.hist ++ [.write .cmd (s.params.off r) v] }

/-- `WriteCfg` as an update (R141). -/
def State.stowCfg (s : State) (v : Word) : State := { s with cfg := v }.stow .modeConfig v

@[simp] theorem stow_params (s : State) (r : Reg) (v : Word) : (s.stow r v).params = s.params := rfl
@[simp] theorem stow_attached (s : State) (r : Reg) (v : Word) : (s.stow r v).attached = s.attached := rfl
@[simp] theorem stow_lineReg (s : State) (r : Reg) (v : Word) : (s.stow r v).lineReg = s.lineReg := rfl
@[simp] theorem stow_bufAlloc (s : State) (r : Reg) (v : Word) : (s.stow r v).bufAlloc = s.bufAlloc := rfl
@[simp] theorem stow_cfg (s : State) (r : Reg) (v : Word) : (s.stow r v).cfg = s.cfg := rfl
@[simp] theorem stow_vals (s : State) (r : Reg) (v : Word) : (s.stow r v).vals = s.vals := rfl
@[simp] theorem stow_emitted (s : State) (r : Reg) (v : Word) : (s.stow r v).emitted = s.emitted := rfl
@[simp] theorem stow_code (s : State) (r : Reg) (v : Word) : (s.stow r v).code = s.code := rfl
@[simp] theorem stow_spins (s : State) (r : Reg) (v : Word) : (s.stow r v).spins = s.spins := rfl
@[simp] theorem stow_portOut (s : State) (r : Reg) (v : Word) : (s.stow r v).portOut = s.portOut := rfl
@[simp] theorem stow_draws (s : State) (r : Reg) (v : Word) : (s.stow r v).draws = s.draws := rfl
@[simp] theorem stow_freeIx (s : State) (r : Reg) (v : Word) : (s.stow r v).freeIx = s.freeIx := rfl
@[simp] theorem stow_regs (s : State) (r : Reg) (v : Word) :
    (s.stow r v).regs = Memory.storeWord s.regs (s.params.off r) v := rfl
@[simp] theorem stow_hist (s : State) (r : Reg) (v : Word) :
    (s.stow r v).hist = s.hist ++ [.write .cmd (s.params.off r) v] := rfl

@[simp] theorem stowCfg_params (s : State) (v : Word) : (s.stowCfg v).params = s.params := rfl
@[simp] theorem stowCfg_attached (s : State) (v : Word) : (s.stowCfg v).attached = s.attached := rfl
@[simp] theorem stowCfg_cfg (s : State) (v : Word) : (s.stowCfg v).cfg = v := rfl
@[simp] theorem stowCfg_vals (s : State) (v : Word) : (s.stowCfg v).vals = s.vals := rfl
@[simp] theorem stowCfg_emitted (s : State) (v : Word) : (s.stowCfg v).emitted = s.emitted := rfl
@[simp] theorem stowCfg_code (s : State) (v : Word) : (s.stowCfg v).code = s.code := rfl
@[simp] theorem stowCfg_spins (s : State) (v : Word) : (s.stowCfg v).spins = s.spins := rfl
@[simp] theorem stowCfg_draws (s : State) (v : Word) : (s.stowCfg v).draws = s.draws := rfl
@[simp] theorem stowCfg_freeIx (s : State) (v : Word) : (s.stowCfg v).freeIx = s.freeIx := rfl
@[simp] theorem stowCfg_regs (s : State) (v : Word) :
    (s.stowCfg v).regs = Memory.storeWord s.regs (s.params.off .modeConfig) v := rfl
@[simp] theorem stowCfg_hist (s : State) (v : Word) :
    (s.stowCfg v).hist = s.hist ++ [.write .cmd (s.params.off .modeConfig) v] := rfl

theorem runAlone_nil (s : State) : runAlone [] s = .next s := rfl

/-- Two programs in a row. -/
theorem runAlone_append {a b : List Micro} {s : State} (ha : ∀ op ∈ a, ¬ ∃ place pred n g, op = .poll place pred n g) :
    runAlone (a ++ b) s = andThen (runAlone a s) (runAlone b) := by
  induction a generalizing s with
  | nil => rfl
  | cons op rest ih =>
    have ih := fun s => ih (s := s) fun o ho => ha o (by simp [ho])
    rw [List.cons_append]
    unfold runAlone
    rw [opAlone_atomic (ha op (by simp))]
    cases microOp op s with
    | next t => simp only [andThen_next]; exact ih t
    | fault f => rfl
    | refused f => rfl

/-- An atomic micro-operation first. -/
theorem runAlone_cons {op : Micro} {rest : List Micro} {s t : State}
    (hn : ¬ ∃ place pred n g, op = .poll place pred n g) (h : microOp op s = .next t) :
    runAlone (op :: rest) s = runAlone rest t := by
  rw [runAlone, opAlone_atomic hn, h]; rfl

theorem runAlone_write {r : Reg} {v : Word} {rest : List Micro} {s : State} (ha : s.attached = true)
    (hk : r.kind = .storage) : runAlone (.write r v :: rest) s = runAlone rest (s.stow r v) :=
  runAlone_cons (by simp) (by rw [microOp_write, regWrite, if_pos ha, hk]; rfl)

theorem runAlone_strobe {v : Word} {rest : List Micro} {s : State} (ha : s.attached = true) :
    runAlone (.write .tapLoad v :: rest) s = runAlone rest (s.log (.write .cmd (s.params.off .tapLoad) v)) :=
  runAlone_cons (by simp) (by rw [microOp_write, regWrite, if_pos ha]; rfl)

theorem runAlone_overwriteCfg {v : Word} {rest : List Micro} {s : State} (ha : s.attached = true) :
    runAlone (.overwriteCfg v :: rest) s = runAlone rest (s.stowCfg v) :=
  runAlone_cons (by simp) (by rw [microOp_overwriteCfg, regWrite, if_pos (show State.attached _ = true from ha)]; rfl)

theorem runAlone_mergeCfg {m mask : Word} {rest : List Micro} {s : State} (ha : s.attached = true) :
    runAlone (.mergeCfg m mask :: rest) s = runAlone rest (s.stowCfg (merge s.cfg m mask)) :=
  runAlone_cons (by simp) (by rw [microOp_mergeCfg, regWrite, if_pos (show State.attached _ = true from ha)]; rfl)

theorem runAlone_delay {tag : DelayTag} {rest : List Micro} {s : State} :
    runAlone (.delay tag :: rest) s = runAlone rest (s.log (.delay tag)) :=
  runAlone_cons (by simp) rfl

theorem runAlone_emit {i : Nat} {rest : List Micro} {s : State} :
    runAlone (.emit i :: rest) s = runAlone rest { s with emitted := s.emitted ++ [s.vals.getD i 0] } :=
  runAlone_cons (by simp) rfl

/-- One register read of CMD as an update. -/
def State.fetched (s : State) (r : Reg) (mask : Word) : State :=
  { (s.afterRead r).log (.read .cmd (s.params.off r) (s.readValue r)) with vals := s.vals ++ [s.readValue r &&& mask] }

theorem runAlone_read {r : Reg} {mask : Word} {rest : List Micro} {s : State} (ha : s.attached = true) :
    runAlone (.read r mask :: rest) s = runAlone rest (s.fetched r mask) :=
  runAlone_cons (by simp) (by rw [microOp_read, regRead, if_pos ha]; simp [State.fetched])

/-! What a program alone leaves alone. -/

/-- What no micro-operation touches. -/
structure SameSession (s t : State) : Prop where
  params : t.params = s.params
  attached : t.attached = s.attached
  lineReg : t.lineReg = s.lineReg
  bufAlloc : t.bufAlloc = s.bufAlloc
  portOut : t.portOut = s.portOut
  isOpen : t.isOpen = s.isOpen
  port : t.port = s.port
  icount : t.icount = s.icount
  irqPhase : t.irqPhase = s.irqPhase
  sched : t.sched = s.sched
  refuseOut : t.refuseOut = s.refuseOut

theorem SameSession.refl (s : State) : SameSession s s := ⟨rfl, rfl, rfl, rfl, rfl, rfl, rfl, rfl, rfl, rfl, rfl⟩

theorem SameSession.trans {s t u : State} (h1 : SameSession s t) (h2 : SameSession t u) : SameSession s u :=
  ⟨h2.params.trans h1.params, h2.attached.trans h1.attached, h2.lineReg.trans h1.lineReg,
    h2.bufAlloc.trans h1.bufAlloc, h2.portOut.trans h1.portOut, h2.isOpen.trans h1.isOpen, h2.port.trans h1.port,
    h2.icount.trans h1.icount, h2.irqPhase.trans h1.irqPhase, h2.sched.trans h1.sched,
    h2.refuseOut.trans h1.refuseOut⟩

theorem regWrite_same {r : Reg} {v : Word} {s t : State} (h : regWrite .cmd r v s = .next t) : SameSession s t := by
  obtain ⟨-, ⟨hk, rfl⟩ | ⟨hk, rfl⟩ | ⟨hk, en, pend, -, rfl⟩ | ⟨hk, rfl⟩⟩ := regWrite_cases h <;> constructor <;> simp

theorem regRead_same {r : Reg} {v : Word} {s t : State} (h : regRead .cmd r s = .next (v, t)) : SameSession s t := by
  obtain ⟨-, -, rfl⟩ := regRead_cases h
  constructor <;> simp

theorem microOp_same {op : Micro} {s t : State} (h : microOp op s = .next t) : SameSession s t := by
  cases op with
  | write r v => exact regWrite_same h
  | overwriteCfg v =>
    rw [microOp_overwriteCfg] at h
    exact (show SameSession s { s with cfg := v } from ⟨rfl, rfl, rfl, rfl, rfl, rfl, rfl, rfl, rfl, rfl, rfl⟩).trans
      (regWrite_same h)
  | mergeCfg m mask =>
    rw [microOp_mergeCfg] at h
    exact (show SameSession s { s with cfg := merge s.cfg m mask } from
      ⟨rfl, rfl, rfl, rfl, rfl, rfl, rfl, rfl, rfl, rfl, rfl⟩).trans (regWrite_same h)
  | read r mask =>
    obtain ⟨⟨v, u⟩, h1, h2⟩ := andThen_eq_next.mp h
    have h3 := regRead_same h1
    cases h2
    exact ⟨h3.params, h3.attached, h3.lineReg, h3.bufAlloc, h3.portOut, h3.isOpen, h3.port, h3.icount, h3.irqPhase,
      h3.sched, h3.refuseOut⟩
  | _ => cases h; exact ⟨rfl, rfl, rfl, rfl, rfl, rfl, rfl, rfl, rfl, rfl, rfl⟩

theorem spinAlone_same {place : Where} {pred : Pred} {n : Nat} {s t : State} {r : Bool}
    (h : spinAlone place pred n s = .next (t, r)) : SameSession s t := by
  induction n generalizing s with
  | zero => cases h; exact ⟨rfl, rfl, rfl, rfl, rfl, rfl, rfl, rfl, rfl, rfl, rfl⟩
  | succ n ih =>
    obtain ⟨⟨v, u⟩, h1, h2⟩ := andThen_eq_next.mp h
    have h3 := regRead_same h1
    have h4 : ∀ m, SameSession s { u with spins := m } := fun m =>
      ⟨h3.params, h3.attached, h3.lineReg, h3.bufAlloc, h3.portOut, h3.isOpen, h3.port, h3.icount, h3.irqPhase,
        h3.sched, h3.refuseOut⟩
    simp only at h2
    split at h2
    · cases h2; exact h4 0
    · exact (h4 _).trans (ih h2)

theorem opAlone_same {op : Micro} {s t : State} {go : Bool} (h : opAlone op s = .next (t, go)) : SameSession s t := by
  by_cases hp : ∃ place pred n g, op = .poll place pred n g
  · obtain ⟨place, pred, n, g, rfl⟩ := hp
    obtain ⟨⟨u, r⟩, h1, h2⟩ := andThen_eq_next.mp h
    have h3 := spinAlone_same h1
    unfold afterSpin at h2
    split at h2
    · cases h2; exact h3
    · cases h2
      exact ⟨h3.params, h3.attached, h3.lineReg, h3.bufAlloc, h3.portOut, h3.isOpen, h3.port, h3.icount, h3.irqPhase,
        h3.sched, h3.refuseOut⟩
  · rw [opAlone_atomic hp] at h
    obtain ⟨u, h1, h2⟩ := andThen_eq_next.mp h
    cases h2
    exact microOp_same h1

/-- A program alone leaves the session, the port, the results and the counter. -/
theorem runAlone_same {prog : List Micro} {s t : State} (h : runAlone prog s = .next t) : SameSession s t := by
  induction prog generalizing s with
  | nil => cases h; exact .refl _
  | cons op rest ih =>
    obtain ⟨⟨u, go⟩, h1, h2⟩ := andThen_eq_next.mp h
    have h3 := opAlone_same h1
    cases go with
    | true => exact h3.trans (ih h2)
    | false => cases h2; exact h3

/-! When a program runs to its end. -/

/-- A register write the core may make: of a register that takes writes, and to INT_CTRL a command (R41, R102). -/
def Micro.sound (p : Params) : Micro → Bool
  | .write r v =>
    match r.kind with
    | .storage => true
    | .cycleStart => true
    | .strobe => true
    | .command => isIntCommand p v
    | .deviceDriven => false
    | .unassigned => false
  | _ => true

theorem regWrite_next {r : Reg} {v : Word} {s : State} (ha : s.attached = true)
    (hs : Micro.sound s.params (.write r v) = true) : ∃ t, regWrite .cmd r v s = .next t := by
  unfold regWrite
  rw [if_pos ha]
  cases hk : r.kind <;> simp only [Micro.sound, hk] at hs
  · exact ⟨_, rfl⟩
  · exact ⟨_, rfl⟩
  · exact intCtrlWrite_next (s := s.log _) hs
  · exact ⟨_, rfl⟩
  · cases hs
  · cases hs

theorem microOp_next {op : Micro} {s : State} (ha : s.attached = true) (hs : op.sound s.params = true) :
    ∃ t, microOp op s = .next t := by
  cases op with
  | write r v => exact regWrite_next ha hs
  | overwriteCfg v =>
    rw [microOp_overwriteCfg]
    exact regWrite_next (s := { s with cfg := v }) (r := .modeConfig) ha rfl
  | mergeCfg m mask =>
    rw [microOp_mergeCfg]
    exact regWrite_next (s := { s with cfg := merge s.cfg m mask }) (r := .modeConfig) ha rfl
  | read r mask => rw [microOp_read, regRead, if_pos ha]; exact ⟨_, rfl⟩
  | _ => exact ⟨_, rfl⟩

theorem spinAlone_next {place : Where} {pred : Pred} {n : Nat} {s : State} (ha : s.attached = true) :
    ∃ x, spinAlone place pred n s = .next x := by
  induction n generalizing s with
  | zero => exact ⟨_, rfl⟩
  | succ n ih =>
    unfold spinAlone
    rw [regRead, if_pos ha]
    simp only [andThen_next]
    split
    · exact ⟨_, rfl⟩
    · exact ih (by simpa using ha)

/-- A program of writes the core may make runs to its end alone. -/
theorem runAlone_next {prog : List Micro} {s : State} (ha : s.attached = true)
    (hs : ∀ op ∈ prog, op.sound s.params = true) : ∃ t, runAlone prog s = .next t := by
  induction prog generalizing s with
  | nil => exact ⟨s, rfl⟩
  | cons op rest ih =>
    have h1 : ∃ x, opAlone op s = .next x := by
      by_cases hp : ∃ place pred n g, op = .poll place pred n g
      · obtain ⟨place, pred, n, g, rfl⟩ := hp
        obtain ⟨x, hx⟩ := spinAlone_next (place := place) (pred := pred) (n := n - s.spins) ha
        exact ⟨afterSpin g x, by simp only [opAlone, hx, andThen_next]⟩
      · obtain ⟨t, ht⟩ := microOp_next ha (hs op (by simp))
        exact ⟨_, by rw [opAlone_atomic hp, ht]; rfl⟩
    obtain ⟨⟨t, go⟩, ht⟩ := h1
    unfold runAlone
    rw [ht]
    have hk := opAlone_same ht
    cases go with
    | true => exact ih (hk.attached.trans ha) fun o ho => by rw [hk.params]; exact hs o (by simp [ho])
    | false => exact ⟨t, rfl⟩

/-! The answer. -/

theorem resultCode_eq {code : Code} {words : List Word} {s : State}
    (h : code = .ok → words ≠ [] → s.refuseOut = false) : resultCode code words s = code := by
  unfold resultCode
  split
  · rename_i hc
    simp only [Bool.and_eq_true, beq_iff_eq, Bool.not_eq_true', List.isEmpty_eq_false_iff] at hc
    rw [h hc.1.2 hc.2] at hc
    exact absurd hc.1.1 (by decide)
  · rfl

/-- The result that CMD sends (R89, R106). -/
theorem sendResult_answer {code : Code} {words : List Word} {s : State}
    (hr : code = .ok → words ≠ [] → s.refuseOut = false) (hw : code ≠ .ok → words = [])
    (hn : words.length < 2 ^ 16) :
    (sendResult code words s).portOut = s.portOut ++ resultHeader code (BitVec.ofNat 16 words.length) :: words ∧
      (sendResult code words s).hist = s.hist ++ [.result code words.length] := by
  have h1 := resultCode_eq hr
  have h2 : resultWords code words s = words := by
    unfold resultWords
    rw [h1]
    split
    · rfl
    · rename_i hc; exact (hw hc).symm
  have h3 : countField words.length s = BitVec.ofNat 16 words.length := if_pos hn
  rw [sendResult, h1, h2, ← h3]
  exact ⟨rfl, rfl⟩

/-- The words of a result with another code than OK are none. -/
theorem sendResult_not_ok {code : Code} {words : List Word} {s : State} (h : code ≠ .ok) :
    sendResult code words s = sendResult code [] s := by
  have h1 : resultCode code words s = code := resultCode_eq fun hc => absurd hc h
  have h2 : resultCode code [] s = code := resultCode_eq fun hc => absurd hc h
  unfold sendResult resultWords
  rw [h1, h2, if_neg h, if_neg h]

/-- The answer of a command whose program alone ends at `c`, under any calm schedule; and with nothing scheduled and
ILOCK free, what the other agents own is as the program alone left it. -/
theorem command_result {i : Instr} {prog : List Micro} {s c : State} {txns : List Event} {code : Code}
    {words : List Word} (h : CanRun s) (hr : prog.all Micro.viewOnly = true) (hb : bracketed false prog = true)
    (hc : runAlone prog (startCommand i s) = .next c)
    (htr : cmdTrace c.hist = cmdTrace s.hist ++ .accept i.header :: txns) (hcode : c.code = code)
    (hok : code = .ok → c.emitted = words) (hno : code ≠ .ok → words = []) (hn : words.length < 2 ^ 16)
    (ht : code = .ok → words ≠ [] → s.takesResult = true) :
    ∃ t, runCommand i prog s = .next t ∧ Answers i txns code words s t ∧ t.regs = c.regs ∧ t.cfg = c.cfg ∧
      t.draws = c.draws ∧ (s.takesResult = true → t.takesResult = true) ∧
      (s.sched = [] → s.ilock = .free → OthersKept c t) := by
  obtain ⟨v, hv, hf⟩ := runCommand_calm (k := s.takesResult) h id hr hb hc
  have hs := runAlone_same hc
  have hvc : v.code = code := hf.code.trans hcode
  have hve : sendResult v.code v.emitted v = sendResult code words v := by
    rw [hvc]
    by_cases hcc : code = .ok
    · rw [hf.emitted, hok hcc]
    · rw [hno hcc, sendResult_not_ok hcc]
  have htk : ∀ {x : State}, x.takesResult = true → x.refuseOut = false := by
    intro x hx
    simp only [State.takesResult, Bool.and_eq_true, Bool.not_eq_true'] at hx
    exact hx.1
  obtain ⟨hp, hh⟩ := sendResult_answer (code := code) (words := words) (s := v)
    (fun h1 h2 => htk (hf.takes (ht h1 h2))) hno hn
  rw [hve] at hv
  refine ⟨_, hv, ?_, hf.regs, hf.cfg, hf.draws, fun hk => ?_, fun hq hl => ?_⟩
  · refine ⟨hf.params.trans hs.params, hf.lineReg.trans hs.lineReg, hf.bufAlloc.trans hs.bufAlloc, rfl, rfl, rfl, rfl,
      rfl, rfl, rfl, ⟨hf.isAttached, hf.calm, hf.lockIrq, fun hcl => ?_⟩, ?_, ?_⟩
    · have := hf.lockCmd.mp hcl; cases this
    · rw [hp, hf.portOut, hs.portOut]; rfl
    · rw [hh, cmdTrace_append, hf.trace, htr]
      simp [cmdTrace, Event.byCmd]
  · have := hf.takes hk
    simp only [State.takesResult, Bool.and_eq_true] at this
    simp only [State.takesResult, sendResult_refuseOut, sendResult_sched, Bool.not_false, Bool.true_and]
    exact this.2
  · obtain ⟨hq, -, -⟩ := runCommand_quiet hq hl hb hc
    rw [hv] at hq
    have heq := Host.Outcome.next.inj hq
    rw [heq]
    exact ⟨rfl, rfl, rfl, rfl, rfl, rfl, rfl⟩

end Sys2Proof.Machine
end

