-- ==== Sys2Proof/Laws/Programs.lean ====
section
/-! SUPPORT. The micro-programs of the commands: `exec_cases` says for every command that it is turned away, stops, or
runs a program that keeps the lock discipline, makes only writes it may make, and writes only where it announces. -/

namespace Sys2Proof.Machine

/-- A lock operation. -/
def Micro.locks : Micro → Bool
  | .acquireI => true
  | .releaseI => true
  | _ => false

/-- A program without lock operations keeps the lock discipline. -/
theorem bracketed_of_no_locks {prog : List Micro} (h : ∀ op ∈ prog, op.locks = false) : bracketed false prog = true := by
  induction prog with
  | nil => rfl
  | cons op rest ih =>
    have h1 := h op (by simp)
    have h2 := ih fun o ho => h o (by simp [ho])
    cases op <;> simp_all [bracketed, Micro.allowed, Micro.holds, Micro.locks]

theorem mem_readAndEmit {op : Micro} {l : List (Reg × Word)} {i : Nat} (h : op ∈ readAndEmit i l) :
    (∃ x ∈ l, op = .read x.1 x.2) ∨ ∃ j, op = .emit j := by
  induction l generalizing i with
  | nil => simp [readAndEmit] at h
  | cons x l ih =>
    simp only [readAndEmit, List.mem_cons] at h
    rcases h with rfl | rfl | h
    · exact .inl ⟨x, by simp, rfl⟩
    · exact .inr ⟨i, rfl⟩
    · rcases ih h with ⟨y, hy, rfl⟩ | hj
      · exact .inl ⟨y, by simp [hy], rfl⟩
      · exact .inr hj

theorem readAndEmit_bracketed (i : Nat) (l : List (Reg × Word)) : bracketed false (readAndEmit i l) = true :=
  bracketed_of_no_locks fun op h => by
    rcases mem_readAndEmit h with ⟨x, -, rfl⟩ | ⟨j, rfl⟩ <;> rfl

theorem readAndEmit_within (i : Nat) (l : List (Reg × Word)) {O : List Nat} {w : Bool} {p : Params} :
    ∀ op ∈ readAndEmit i l, op.within O w p := fun op h => by
  rcases mem_readAndEmit h with ⟨x, -, rfl⟩ | ⟨j, rfl⟩ <;> exact ⟨by simp [Micro.storesAt], by simp [Micro.setsCfg]⟩

theorem readAndEmit_viewOnly {i : Nat} {l : List (Reg × Word)} (h : ∀ x ∈ l, x.1.kind ≠ .command) :
    (readAndEmit i l).all Micro.viewOnly = true := by
  rw [List.all_eq_true]
  intro op ho
  rcases mem_readAndEmit ho with ⟨x, hx, rfl⟩ | ⟨j, rfl⟩
  · simpa [Micro.viewOnly] using h x hx
  · rfl

/-- A micro-operation of a batch: a poll of the bus, a framing write, a read-back or an emit. -/
theorem mem_entriesProgram {op : Micro} {p : Params} {dir : Dir} {k : Nat} {es : List Entry}
    (h : op ∈ entriesProgram p dir k es) :
    (∃ place, op = .poll place .busIdle p.spinBus true) ∨ (∃ e ∈ es, op ∈ cycleWrites p dir e) ∨
      (dir = .read ∧ op = .read .spiResult p.readbackMask) := by
  induction es generalizing k with
  | nil => simp [entriesProgram] at h
  | cons e es ih =>
    simp only [entriesProgram, entryProgram, List.cons_append, List.mem_cons, List.mem_append] at h
    rcases h with rfl | (h | rfl | h) | h
    · exact .inl ⟨_, rfl⟩
    · exact .inr (.inl ⟨e, by simp, h⟩)
    · exact .inl ⟨_, rfl⟩
    · cases dir <;> simp_all [readBack]
    · rcases ih h with h | ⟨e', he, h⟩ | h
      · exact .inl h
      · exact .inr (.inl ⟨e', by simp [he], h⟩)
      · exact .inr (.inr h)

theorem mem_emitReadData {op : Micro} {dir : Dir} {n : Nat} (h : op ∈ emitReadData dir n) : ∃ j, op = .emit j := by
  cases dir with
  | read => obtain ⟨j, -, rfl⟩ := List.mem_map.mp h; exact ⟨j, rfl⟩
  | write => simp [emitReadData] at h

theorem mem_cycleWrites {op : Micro} {p : Params} {dir : Dir} {e : Entry} (h : op ∈ cycleWrites p dir e) :
    (p.laneMode = .single ∧ ∃ v, op = .write .spiDevice v ∨ op = .write .spiAddress v ∨ op = .write .spiData v) ∨
      (p.laneMode = .composite ∧ ∃ d v, op = .write (.spiLane d) v) := by
  unfold cycleWrites at h
  cases hm : p.laneMode <;> rw [hm] at h <;> simp only [List.mem_cons, List.not_mem_nil, or_false] at h
  · rcases h with rfl | rfl | rfl
    · exact .inl ⟨rfl, _, .inl rfl⟩
    · exact .inl ⟨rfl, _, .inr (.inl rfl)⟩
    · exact .inl ⟨rfl, _, .inr (.inr rfl)⟩
  · exact .inr ⟨rfl, _, _, h⟩

theorem mem_batchProgram {op : Micro} {p : Params} {dir : Dir} {used : List Entry} (h : op ∈ batchProgram p dir used) :
    (∃ place, op = .poll place .busIdle p.spinBus true) ∨
      (p.laneMode = .single ∧ ∃ v, op = .write .spiDevice v ∨ op = .write .spiAddress v ∨ op = .write .spiData v) ∨
      (p.laneMode = .composite ∧ ∃ d v, op = .write (.spiLane d) v) ∨
      op = .read .spiResult p.readbackMask ∨ ∃ j, op = .emit j := by
  rcases List.mem_append.mp h with h | h
  · rcases mem_entriesProgram h with h | ⟨e, -, h⟩ | ⟨-, h⟩
    · exact .inl h
    · rcases mem_cycleWrites h with h | h
      · exact .inr (.inl h)
      · exact .inr (.inr (.inl h))
    · exact .inr (.inr (.inr (.inl h)))
  · exact .inr (.inr (.inr (.inr (mem_emitReadData h))))

theorem batchProgram_bracketed (p : Params) (dir : Dir) (used : List Entry) :
    bracketed false (batchProgram p dir used) = true :=
  bracketed_of_no_locks fun op h => by
    rcases mem_batchProgram h with ⟨_, rfl⟩ | ⟨-, _, rfl | rfl | rfl⟩ | ⟨-, _, _, rfl⟩ | rfl | ⟨_, rfl⟩ <;> rfl

theorem batchProgram_viewOnly (p : Params) (dir : Dir) (used : List Entry) :
    (batchProgram p dir used).all Micro.viewOnly = true := by
  rw [List.all_eq_true]
  intro op h
  rcases mem_batchProgram h with ⟨_, rfl⟩ | ⟨-, _, rfl | rfl | rfl⟩ | ⟨-, _, _, rfl⟩ | rfl | ⟨_, rfl⟩ <;> rfl

/-- A write of INT_CTRL. -/
def Micro.arms : Micro → Bool
  | .write r _ => r.kind == .command
  | _ => false

/-- What the micro-program of a command is. -/
structure ProgramOf (i : Instr) (p : Params) (prog : List Micro) : Prop where
  within : ∀ op ∈ prog, op.within (i.storedOffsets p) i.writesCfg p
  bracketed : bracketed false prog = true
  sound : ∀ op ∈ prog, op.sound p = true
  arms : i.writesIntCtrl p = false → ∀ op ∈ prog, op.arms = false
  view : i.seesIrq p = false → prog.all Micro.viewOnly = true

/-- A program of reads and emits. -/
theorem programOf_reads {i : Instr} {p : Params} {l : List (Reg × Word)}
    (hv : i.seesIrq p = false → ∀ x ∈ l, x.1.kind ≠ .command) : ProgramOf i p (readAndEmit 0 l) where
  within := readAndEmit_within _ _
  bracketed := readAndEmit_bracketed _ _
  sound := fun op h => by rcases mem_readAndEmit h with ⟨x, -, rfl⟩ | ⟨j, rfl⟩ <;> rfl
  arms := fun _ op h => by rcases mem_readAndEmit h with ⟨x, -, rfl⟩ | ⟨j, rfl⟩ <;> rfl
  view := fun h => readAndEmit_viewOnly (hv h)

theorem programOf_batch {nw nr : Word} {entries : List Entry} {p : Params} (dir : Dir) (used : List Entry) :
    ProgramOf (.seqBus nw nr entries) p (batchProgram p dir used) where
  within := fun op h => by
    rcases mem_batchProgram h with ⟨_, rfl⟩ | ⟨hm, _, rfl | rfl | rfl⟩ | ⟨hm, _, _, rfl⟩ | rfl | ⟨_, rfl⟩ <;>
      simp_all [Micro.within, Micro.storesAt, Micro.setsCfg, Instr.storedOffsets, Instr.writesCfg, Reg.kind]
  bracketed := batchProgram_bracketed _ _ _
  sound := fun op h => by
    rcases mem_batchProgram h with ⟨_, rfl⟩ | ⟨-, _, rfl | rfl | rfl⟩ | ⟨-, _, _, rfl⟩ | rfl | ⟨_, rfl⟩ <;> rfl
  arms := fun _ op h => by
    rcases mem_batchProgram h with ⟨_, rfl⟩ | ⟨-, _, rfl | rfl | rfl⟩ | ⟨-, _, _, rfl⟩ | rfl | ⟨_, rfl⟩ <;> rfl
  view := fun _ => batchProgram_viewOnly _ _ _

theorem programOf_taps {devid : Word} {p : Params} :
    ProgramOf (.tapRead devid) p
      (.read (.tap0 devid.toNat) wholeWord :: .read (.tap1 devid.toNat) wholeWord
        :: (List.range p.ntaps).map .emitTap) := by
  have mem : ∀ op ∈ (.read (.tap0 devid.toNat) wholeWord :: .read (.tap1 devid.toNat) wholeWord
      :: (List.range p.ntaps).map Micro.emitTap : List Micro),
      op = .read (.tap0 devid.toNat) wholeWord ∨ op = .read (.tap1 devid.toNat) wholeWord ∨ ∃ j, op = .emitTap j := by
    intro op h
    simp only [List.mem_cons, List.mem_map] at h
    rcases h with rfl | rfl | ⟨j, -, rfl⟩
    · exact .inl rfl
    · exact .inr (.inl rfl)
    · exact .inr (.inr ⟨j, rfl⟩)
  constructor
  · intro op h
    rcases mem op h with rfl | rfl | ⟨j, rfl⟩ <;> exact ⟨by simp [Micro.storesAt], by simp [Micro.setsCfg]⟩
  · exact bracketed_of_no_locks fun op h => by rcases mem op h with rfl | rfl | ⟨j, rfl⟩ <;> rfl
  · intro op h
    rcases mem op h with rfl | rfl | ⟨j, rfl⟩ <;> rfl
  · intro _ op h
    rcases mem op h with rfl | rfl | ⟨j, rfl⟩ <;> rfl
  · intro _
    rw [List.all_eq_true]
    intro op h
    rcases mem op h with rfl | rfl | ⟨j, rfl⟩ <;> rfl

theorem isIntCommand_enable (p : Params) : isIntCommand p p.intEnable = true := by simp [isIntCommand]
theorem isIntCommand_disable (p : Params) : isIntCommand p p.intDisable = true := by simp [isIntCommand]
theorem isIntCommand_clear (p : Params) : isIntCommand p p.intClear = true := by simp [isIntCommand]

theorem programOf_configure {irq : Bool} {peak : Option (Word × Word)} {cfgbits offset count delay : Word} {p : Params} :
    ProgramOf (.configure irq peak cfgbits offset count delay) p
      (captureSetup p peak cfgbits offset count delay ++ if irq then armIrq p else disarmIrq p) := by
  constructor
  · cases irq <;> simp [captureSetup, armIrq, disarmIrq, Micro.within, Micro.storesAt, Micro.setsCfg,
      Instr.storedOffsets, Instr.writesCfg, Reg.kind]
  · cases irq <;> simp [captureSetup, armIrq, disarmIrq, Machine.bracketed, Micro.allowed, Micro.holds]
  · cases irq <;> simp [captureSetup, armIrq, disarmIrq, Micro.sound, Reg.kind, isIntCommand_enable,
      isIntCommand_disable, isIntCommand_clear]
  · intro h; cases h
  · intro _; cases irq <;> simp [captureSetup, armIrq, disarmIrq, Micro.viewOnly]

theorem debugWriteRefusal_sound {p : Params} {r : Reg} {data : Word} (h : debugWriteRefusal p r data = none) :
    Micro.sound p (.write r data) = true := by
  unfold debugWriteRefusal at h
  unfold Micro.sound
  cases hk : r.kind <;> simp_all

/-- A command whose plan is known. -/
theorem runPlan_of {i : Instr} {plan plan' : Plan} {s : State} {r : Res State} (h : plan = plan')
    (hr : runPlan i plan' s = r) : runPlan i plan s = r := h ▸ hr

/-- What a command is, the same for every state of one configuration: turned away with EINVAL or EILLEGAL, the run of
its program, or a stop (R93, R104, R201, R233, R234). -/
theorem exec_uniform (i : Instr) (p : Params) :
    (∀ s : State, s.params = p → exec i s = .next (startAway i.header .einval s)) ∨
      (∀ s : State, s.params = p → exec i s = .next (startAway i.header .eillegal s)) ∨
      (∃ prog, (∀ s : State, s.params = p → exec i s = runCommand i prog s) ∧ ProgramOf i p prog) ∨
      (i.runnable p = false ∧ ((∃ f, ∀ s : State, s.params = p → exec i s = .fault f) ∨
        ∃ r, ∀ s : State, s.params = p → exec i s = .refused r)) := by
  cases i with
  | resetFull =>
    refine .inr (.inr (.inl ⟨[.overwriteCfg p.resetFlag],
      by rintro s rfl; rfl, ?_, rfl, ?_, ?_, fun _ => rfl⟩)) <;>
      simp [Micro.within, Micro.storesAt, Micro.setsCfg, Instr.storedOffsets, Instr.writesCfg, Micro.sound, Micro.arms]
  | resetClear =>
    refine .inr (.inr (.inl ⟨[.mergeCfg 0 p.resetFlag],
      by rintro s rfl; rfl, ?_, rfl, ?_, ?_, fun _ => rfl⟩)) <;>
      simp [Micro.within, Micro.storesAt, Micro.setsCfg, Instr.storedOffsets, Instr.writesCfg, Micro.sound, Micro.arms]
  | configure irq peak cfgbits offset count delay =>
    by_cases h : overCapacity p offset count = true
    · exact .inl (by rintro s rfl; exact runPlan_of (if_pos h) rfl)
    · exact .inr (.inr (.inl ⟨captureSetup p peak cfgbits offset count delay
      ++ if irq then armIrq p else disarmIrq p,
      by rintro s rfl; exact runPlan_of (if_neg h) rfl, programOf_configure⟩))
  | runScan cfgbits offset count =>
    by_cases h : overCapacity p offset count = true
    · exact .inl (by rintro s rfl; exact runPlan_of (if_pos h) rfl)
    · refine .inr (.inr (.inl ⟨[.write .dmaRdAddr (dmaAddr p offset), .write .dmaSize (transferSize p count),
      .mergeCfg cfgbits p.rsMask],
      by rintro s rfl; exact runPlan_of (if_neg h) rfl, ?_, rfl, ?_, ?_, fun _ => rfl⟩)) <;>
        simp [Micro.within, Micro.storesAt, Micro.setsCfg, Instr.storedOffsets, Instr.writesCfg, Reg.kind, Micro.sound,
          Micro.arms]
  | dmaSelfTest size =>
    by_cases h : size.toNat > p.bufLen
    · exact .inl (by rintro s rfl; exact runPlan_of (if_pos h) rfl)
    · refine .inr (.inr (.inl ⟨[.write .dmaRdAddr (dmaAddr p 0), .write .dmaWrAddr (dmaAddr p 0), .write .dmaSize size,
      .mergeCfg p.dmaTrigger p.dmaTrigger, .poll .selfTest .dmaDone p.spinDma false, .mergeCfg 0 p.dmaTrigger],
      by rintro s rfl; exact runPlan_of (if_neg h) rfl, ?_, rfl, ?_, ?_, fun _ => rfl⟩)) <;>
        simp [Micro.within, Micro.storesAt, Micro.setsCfg, Instr.storedOffsets, Instr.writesCfg, Reg.kind, Micro.sound,
          Micro.arms]
  | triggerPps value =>
    by_cases h : ppsValid value = true
    · refine .inr (.inr (.inl ⟨[.mergeCfg (ppsFlag p value) p.ppsMask],
      by rintro s rfl; exact runPlan_of (if_pos h) rfl, ?_, rfl, ?_, ?_, fun _ => rfl⟩)) <;>
        simp [Micro.within, Micro.storesAt, Micro.setsCfg, Instr.storedOffsets, Instr.writesCfg, Micro.sound, Micro.arms]
    · exact .inl (by rintro s rfl; exact runPlan_of (if_neg h) rfl)
  | seqBus nw nr entries =>
    by_cases h : batchInvalid p nw nr entries = true
    · exact .inl (by rintro s rfl; exact runPlan_of (if_pos h) rfl)
    · exact .inr (.inr (.inl ⟨batchProgram p (batchDir nw) (usedEntries nw nr entries),
      by rintro s rfl; exact runPlan_of (if_neg h) rfl, programOf_batch _ _⟩))
  | readStatus => exact .inr (.inr (.inl ⟨readAndEmit 0 [(.status, wholeWord)],
      by rintro s rfl; rfl, programOf_reads (by simp [Reg.kind])⟩))
  | debugRd roff data =>
    by_cases h : p.goodOffset roff.toNat = true
    · refine .inr (.inr (.inl ⟨readAndEmit 0 [(p.regAt roff.toNat, wholeWord)],
      by rintro s rfl; exact runPlan_of (if_pos h) rfl, programOf_reads ?_⟩))
      simp [Instr.seesIrq]
    · exact .inr (.inr (.inr ⟨by simpa [Instr.runnable] using h, .inl ⟨_, by rintro s rfl; exact runPlan_of (if_neg h) rfl⟩⟩))
  | debugWr roff data =>
    by_cases h : p.goodOffset roff.toNat = true
    · cases hd : debugWriteRefusal p (p.regAt roff.toNat) data with
      | some r =>
        refine .inr (.inr (.inr ⟨by simp [Instr.runnable, hd], .inr ⟨r, ?_⟩⟩))
        rintro s rfl
        exact runPlan_of ((if_pos h).trans (by rw [hd])) rfl
      | none =>
        refine .inr (.inr (.inl ⟨[.write (p.regAt roff.toNat) data], ?_, ?_, rfl, ?_, ?_, fun _ => rfl⟩))
        · rintro s rfl
          exact runPlan_of ((if_pos h).trans (by rw [hd])) rfl
        · simp only [List.mem_cons, List.not_mem_nil, or_false, forall_eq]
          refine ⟨?_, by simp [Micro.setsCfg]⟩
          simp only [Micro.storesAt, Instr.storedOffsets]
          exact fun o ho => ho
        · simpa using debugWriteRefusal_sound hd
        · simp [Instr.writesIntCtrl, Micro.arms]
    · exact .inr (.inr (.inr ⟨by simp [Instr.runnable, h], .inl ⟨_, by rintro s rfl; exact runPlan_of (if_neg h) rfl⟩⟩))
  | readMaxMin =>
    by_cases h : p.hasMaxMin = true
    · exact .inr (.inr (.inl ⟨readAndEmit 0 (maxMinReads p),
      by rintro s rfl; exact runPlan_of (if_pos h) rfl, programOf_reads (by simp [maxMinReads, Reg.kind])⟩))
    · exact .inr (.inl (by rintro s rfl; exact runPlan_of (if_neg h) rfl))
  | tapRead devid =>
    by_cases h : p.hasTapCal = true
    · by_cases hb : badDevice p devid = true
      · exact .inl (by rintro s rfl; exact runPlan_of ((if_pos h).trans (if_pos hb)) rfl)
      · exact .inr (.inr (.inl ⟨.read (.tap0 devid.toNat) wholeWord :: .read (.tap1 devid.toNat) wholeWord
      :: (List.range p.ntaps).map .emitTap,
      by rintro s rfl; exact runPlan_of ((if_pos h).trans (if_neg hb)) rfl, programOf_taps⟩))
    · exact .inr (.inl (by rintro s rfl; exact runPlan_of (if_neg h) rfl))
  | tapWrite devid taps =>
    by_cases h : p.hasTapCal = true
    · by_cases hb : (badDevice p devid || badTaps p taps) = true
      · exact .inl (by rintro s rfl; exact runPlan_of ((if_pos h).trans (if_pos hb)) rfl)
      · refine .inr (.inr (.inl ⟨[.write (.tap0 devid.toNat) (pack0 p taps), .write (.tap1 devid.toNat) (pack1 p taps),
      .delay .settleBefore, .write .tapLoad ((1 : Word) <<< devid.toNat), .write .tapLoad 0, .delay .settleAfter],
      by rintro s rfl; exact runPlan_of ((if_pos h).trans (if_neg hb)) rfl, ?_, rfl, ?_, ?_, fun _ => rfl⟩)) <;>
          simp [Micro.within, Micro.storesAt, Micro.setsCfg, Instr.storedOffsets, Reg.kind, Micro.sound, Micro.arms]
    · exact .inr (.inl (by rintro s rfl; exact runPlan_of (if_neg h) rfl))
  | readWindow len =>
    by_cases h1 : len.toNat > p.readMax
    · exact .inl (by rintro s rfl; exact runPlan_of (if_pos h1) rfl)
    · by_cases h2 : len.toNat % 4 ≠ 0
      · exact .inr (.inr (.inr ⟨by simp [Instr.runnable, h1, h2],
          .inr ⟨_, by rintro s rfl; exact runPlan_of ((if_neg h1).trans (if_pos h2)) rfl⟩⟩))
      · refine .inr (.inr (.inl ⟨readAndEmit 0 (windowReads p len),
      by rintro s rfl; exact runPlan_of ((if_neg h1).trans (if_neg h2)) rfl, programOf_reads ?_⟩))
        intro _ x hx
        obtain ⟨o, -, rfl⟩ := List.mem_map.mp hx
        simp [Reg.kind]
  | completionCount =>
    refine .inr (.inr (.inl ⟨[.acquireI, .emitCount, .releaseI],
      by rintro s rfl; rfl, ?_, rfl, ?_, ?_, ?_⟩))
    · simp [Micro.within, Micro.storesAt, Micro.setsCfg]
    · simp [Micro.sound]
    · simp [Micro.arms]
    · intro h; cases h

/-- The same, at one state. -/
theorem exec_cases (i : Instr) (s : State) :
    exec i s = .next (startAway i.header .einval s) ∨ exec i s = .next (startAway i.header .eillegal s) ∨
      (∃ prog, exec i s = runCommand i prog s ∧ ProgramOf i s.params prog) ∨
      (i.runnable s.params = false ∧ ((∃ f, exec i s = .fault f) ∨ ∃ r, exec i s = .refused r)) := by
  rcases exec_uniform i s.params with h | h | ⟨prog, h, hp⟩ | ⟨hr, ⟨f, h⟩ | ⟨r, h⟩⟩
  · exact .inl (h s rfl)
  · exact .inr (.inl (h s rfl))
  · exact .inr (.inr (.inl ⟨prog, h s rfl, hp⟩))
  · exact .inr (.inr (.inr ⟨hr, .inl ⟨f, h s rfl⟩⟩))
  · exact .inr (.inr (.inr ⟨hr, .inr ⟨r, h s rfl⟩⟩))

/-- What a command that answers has kept, whatever the schedule: it ran to its result, or it was turned away and awaits
it. -/
theorem exec_kept {i : Instr} {s t : State} (ha : s.attached = true) (hl : s.lockRests) (h : exec i s = .next t) :
    Kept (i.storedOffsets s.params) i.writesCfg s t ∧ t.lockRests ∧
      (Between t ∨ ∃ code, code ≠ .ok ∧ t = startAway i.header code s) := by
  rcases exec_cases i s with he | he | ⟨prog, he, hp⟩ | ⟨-, ⟨f, he⟩ | ⟨r, he⟩⟩ <;> rw [he] at h
  · cases h; exact ⟨startAway_kept _ _ _, hl, .inr ⟨_, by simp, rfl⟩⟩
  · cases h; exact ⟨startAway_kept _ _ _, hl, .inr ⟨_, by simp, rfl⟩⟩
  · obtain ⟨h1, h2, h3⟩ := runCommand_kept ha hl hp.within hp.bracketed h
    exact ⟨h1, h2, .inl h3⟩
  · cases h
  · cases h

end Sys2Proof.Machine
end

