-- ==== Sys2Proof/Laws/Total.lean ====
section
/-! SUPPORT. A calm schedule never stops a command (`exec_next`); what a poll alone does (`spinAlone_spec`); what a
program alone without interrupt writes leaves to the other agents (`runAlone_others`). -/

namespace Sys2Proof.Machine

/-! A calm schedule never stops a command. -/

/-- A command is under way, CMD holds ILOCK exactly if `b`, and no DETACH is scheduled. -/
structure Calm (b : Bool) (s : State) : Prop where
  under : Under b s
  calm : s.calm = true

theorem Calm.toCmd {b : Bool} {s : State} {td : List Micro} (h : Calm b s) (ht : s.todo = td)
    (ha : ∀ op rest, td = op :: rest → op.allowed b = true) :
    ∃ t, toCmd s = .next t ∧ Calm b t ∧ OthersOnly s t ∧ cmdReady t = true := by
  have hw : s.waitOk := by
    unfold State.waitOk
    rw [ht]
    split
    · rename_i rest
      have := ha _ _ rfl
      have hb : b = false := by simpa [Micro.allowed] using this
      rw [Ne, h.under.lockCmd, hb]
      decide
    · rename_i rest
      have := ha _ _ rfl
      exact h.under.lockCmd.mpr (by simpa [Micro.allowed] using this)
    · trivial
  obtain ⟨t, ht⟩ := interleave_next h.under.attached h.under.busy h.under.lockIrq hw h.calm
  obtain ⟨ho, hr⟩ := interleave_others h.under.attached h.under.busy ht
  exact ⟨t, ht, ⟨h.under.others ho, all_of_suffix (interleave_sched ht) h.calm⟩, ho, hr⟩

/-- A change of fields that no lock or schedule depends on. -/
theorem Calm.of_eq {b : Bool} {s t : State} (h : Calm b s) (ha : t.attached = s.attached)
    (hs : t.seq = .idle → s.seq = .idle) (hl : t.ilock = s.ilock) (hq : t.irqPhase = s.irqPhase)
    (hc : t.sched = s.sched) : Calm b t :=
  ⟨⟨ha.trans h.under.attached, fun hi => h.under.busy (hs hi), by rw [hl, hq]; exact h.under.lockIrq,
    by rw [hl]; exact h.under.lockCmd⟩, by unfold State.calm; rw [hc]; exact h.calm⟩

theorem microOp_sched {op : Micro} {s t : State} (h : microOp op s = .next t) : t.sched = s.sched :=
  (microOp_same h).sched

theorem spin_next {b : Bool} {place : Where} {pred : Pred} {n : Nat} {s : State} {td : List Micro} (h : Calm b s)
    (ht : s.todo = td) (ha : ∀ op rest, td = op :: rest → op.allowed b = true) :
    ∃ t r, spin place pred n s = .next (t, r) ∧ Calm b t := by
  induction n generalizing s with
  | zero => exact ⟨_, _, rfl, h.of_eq rfl id rfl rfl rfl⟩
  | succ n ih =>
    obtain ⟨u, hu, hc, ho, -⟩ := h.toCmd ht ha
    unfold spin
    rw [hu]
    simp only [andThen_next]
    rw [regRead, if_pos hc.under.attached]
    simp only [andThen_next]
    have hc' : ∀ m, Calm b { ((u.afterRead .status).log (.read .cmd (u.params.off .status) (u.readValue .status))).advance
        with spins := m } := fun m => hc.of_eq (by simp)
          (fun hi => by
            have := (advance_seq_idle ((u.afterRead .status).log
              (.read .cmd (u.params.off .status) (u.readValue .status)))).mp hi
            simpa using this) (by simp) (by simp) (by simp)
    split
    · exact ⟨_, _, rfl, hc' 0⟩
    · exact ih (hc' _) (by simpa using ho.view.todo.trans ht)

theorem runOp_next {b : Bool} {op : Micro} {rest : List Micro} {s : State} (h : Calm b s) (ht : s.todo = op :: rest)
    (ha : op.allowed b = true) (hs : op.sound s.params = true) :
    ∃ t go, runOp op s = .next (t, go) ∧ Calm (op.holds b) t := by
  have ha' : ∀ op' rest', (op :: rest) = op' :: rest' → op'.allowed b = true := by
    intro op' rest' he; cases he; exact ha
  by_cases hp : ∃ place pred n g, op = .poll place pred n g
  · obtain ⟨place, pred, n, g, rfl⟩ := hp
    obtain ⟨t, r, h1, hc⟩ := spin_next (place := place) (pred := pred) (n := n - s.spins) h ht ha'
    refine ⟨(afterSpin g (t, r)).1, (afterSpin g (t, r)).2, by unfold runOp; simp only [h1, andThen_next], ?_⟩
    unfold afterSpin
    split
    · exact hc
    · exact hc.of_eq rfl id rfl rfl rfl
  · rw [runOp_atomic hp]
    obtain ⟨u, hu, hc, ho, hready⟩ := h.toCmd ht ha'
    obtain ⟨v, hv⟩ := microOp_next (op := op) hc.under.attached (by rw [ho.view.params]; exact hs)
    have hfree : op = .acquireI → u.ilock = .free := by
      rintro rfl
      unfold cmdReady at hready
      rw [ho.view.todo, ht] at hready
      simpa using hready
    obtain ⟨-, hk⟩ := microOp_kept (O := op.storesAt u.params) (w := true) hc.under ⟨fun o ho => ho, fun _ => rfl⟩ ha hfree hv
    refine ⟨v.advance, true, by rw [hu]; simp only [andThen_next, hv], ?_⟩
    refine Calm.of_eq (s := v) ⟨hk, ?_⟩ rfl (advance_seq_idle v).mp rfl rfl rfl
    unfold State.calm
    rw [microOp_sched hv]
    exact hc.calm

theorem finish_next {s : State} (h : Calm false s) : ∃ t, finish s = .next t := by
  obtain ⟨u, hu, -⟩ := (h.of_eq (t := s.withTodo []) rfl id rfl rfl rfl).toCmd rfl (by intro _ _ h; cases h)
  exact ⟨_, by unfold finish; rw [hu]; rfl⟩

/-- A program of sound writes that keeps the lock discipline runs to a result under any calm schedule. -/
theorem runOps_next {b : Bool} {prog : List Micro} {s : State} (h : Calm b s) (hb : bracketed b prog = true)
    (hs : ∀ op ∈ prog, op.sound s.params = true) : ∃ t, runOps prog s = .next t := by
  induction prog generalizing b s with
  | nil =>
    have : b = false := by simpa [bracketed] using hb
    subst this
    exact finish_next h
  | cons op rest ih =>
    obtain ⟨ha, hb', hpoll⟩ := bracketed_cons hb
    have h' : Calm b (s.withTodo (op :: rest)) := h.of_eq rfl id rfl rfl rfl
    obtain ⟨t, go, ht, hc⟩ := runOp_next h' rfl ha (hs op (by simp))
    have hk := (runOp_kept (O := op.storesAt s.params) (w := true) h'.under rfl ⟨fun o ho => ho, fun _ => rfl⟩ ha ht).1
    unfold runOps
    rw [ht]
    simp only [andThen_next]
    cases go with
    | true => exact ih hc hb' fun o ho => by rw [hk.params]; exact hs o (by simp [ho])
    | false =>
      have hp : ∃ place pred n g, op = .poll place pred n g := by
        by_contra hn
        rw [runOp_atomic hn] at ht
        obtain ⟨s1, -, h1⟩ := andThen_eq_next.mp ht
        obtain ⟨s2, -, h1⟩ := andThen_eq_next.mp h1
        cases h1
      have hbf := hpoll hp
      obtain ⟨place, pred, n, g, rfl⟩ := hp
      subst hbf
      exact finish_next hc

theorem runCommand_next {i : Instr} {prog : List Micro} {s : State} (h : CanRun s) (hb : bracketed false prog = true)
    (hs : ∀ op ∈ prog, op.sound s.params = true) : ∃ t, runCommand i prog s = .next t :=
  runOps_next (s := startCommand i s)
    ⟨⟨h.attached, by simp, h.lock.1, by simpa using h.lock.2⟩, h.calm⟩ hb hs

/-! What a poll alone does. -/

/-- A draw changes the source of draws alone, and gives the next value the input fixes. -/
theorem afterDraw_shape (s : State) : ∃ d f, s.afterDraw = { s with draws := d, freeIx := f } ∧
    ∀ w ws, s.draws = w :: ws → s.drawn = w ∧ d = ws := by
  unfold State.afterDraw State.drawn
  split
  · rename_i w ws h
    exact ⟨ws, s.freeIx, rfl, fun w' ws' h' => by rw [h] at h'; cases h'; exact ⟨rfl, rfl⟩⟩
  · rename_i h
    exact ⟨s.draws, s.freeIx + 1, rfl, fun w' ws' h' => by rw [h] at h'; cases h'⟩

/-- Everything a poll alone does (R120, R121): it reads STATUS until a read is ready or the ceiling is reached, records
BWE in the second case, and changes nothing else but the draws used. -/
theorem spinAlone_spec {place : Where} {pred : Pred} {n : Nat} {s t : State} {r : Bool}
    (h : spinAlone place pred n s = .next (t, r)) :
    ∃ vs d f, t = { s with spins := 0, draws := d, freeIx := f,
                           hist := s.hist ++ statusReads s.params vs ++ if r then [] else [.bwe place] } ∧
      (if r then ∃ init last, vs = init ++ [last] ∧ pollReady s.params pred last = true ∧ vs.length ≤ n ∧
          ∀ v ∈ init, pollReady s.params pred v = false
        else vs.length = n ∧ ∀ v ∈ vs, pollReady s.params pred v = false) ∧
      ∀ ws rest, s.draws = ws ++ rest → ws.length = vs.length → vs = ws ∧ d = rest := by
  induction n generalizing s with
  | zero =>
    cases h
    refine ⟨[], s.draws, s.freeIx, by simp [statusReads, State.log], by simp, ?_⟩
    intro ws rest hd hl
    have : ws = [] := List.length_eq_zero_iff.mp hl
    subst this
    exact ⟨rfl, by simpa using hd⟩
  | succ n ih =>
    obtain ⟨⟨v, u⟩, h1, h2⟩ := andThen_eq_next.mp h
    obtain ⟨ha, rfl, rfl⟩ := regRead_cases h1
    have hval : s.readValue .status = s.drawn := rfl
    have hafter : s.afterRead .status = s.afterDraw := rfl
    obtain ⟨d, f, hd, hdr⟩ := afterDraw_shape s
    rw [hafter, hval, hd] at h2
    simp only at h2
    split at h2
    · rename_i hp
      cases h2
      refine ⟨[s.drawn], d, f, ?_, ?_, ?_⟩
      · simp [statusReads, State.log]
      · rw [if_pos rfl]
        exact ⟨[], s.drawn, rfl, hp, by simp, by simp⟩
      · intro ws rest hws hl
        obtain ⟨w, rfl⟩ := List.length_eq_one_iff.mp hl
        obtain ⟨h3, h4⟩ := hdr w rest hws
        exact ⟨by rw [h3], h4⟩
    · rename_i hp
      obtain ⟨vs, d', f', ht, hvs, hdraw⟩ := ih h2
      refine ⟨s.drawn :: vs, d', f', ?_, ?_, ?_⟩
      · rw [ht]; simp [statusReads, State.log]
      · have hp' : pollReady s.params pred s.drawn = false := by simpa [State.log] using hp
        cases r with
        | true =>
          simp only [if_true] at hvs ⊢
          obtain ⟨init, last, rfl, h5, h6, h7⟩ := hvs
          refine ⟨s.drawn :: init, last, rfl, h5, by simp at h6 ⊢; omega, ?_⟩
          intro v hv
          rcases List.mem_cons.mp hv with rfl | hv
          · exact hp'
          · exact h7 v hv
        | false =>
          simp only [Bool.false_eq_true, if_false] at hvs ⊢
          refine ⟨by simp [hvs.1], ?_⟩
          intro v hv
          rcases List.mem_cons.mp hv with rfl | hv
          · exact hp'
          · exact hvs.2 v hv
      · intro ws rest hws hl
        cases ws with
        | nil => simp at hl
        | cons w ws =>
          obtain ⟨h3, h4⟩ := hdr w (ws ++ rest) hws
          obtain ⟨h5, h6⟩ := hdraw ws rest h4 (by simpa using hl)
          exact ⟨by rw [h3, h5], h6⟩

/-! What a program alone leaves to the other agents. -/

/-- The interrupt bits and ILOCK as they were. -/
structure SameIrq (s t : State) : Prop where
  intEn : t.intEn = s.intEn
  intPend : t.intPend = s.intPend

theorem regWrite_sameIrq {r : Reg} {v : Word} {s t : State} (h : regWrite .cmd r v s = .next t)
    (hk : r.kind ≠ .command) : SameIrq s t := by
  obtain ⟨-, ⟨hk', rfl⟩ | ⟨hk', rfl⟩ | ⟨hk', en, pend, -, rfl⟩ | ⟨hk', rfl⟩⟩ := regWrite_cases h
  · exact ⟨rfl, rfl⟩
  · exact ⟨by simp, by simp⟩
  · exact absurd hk' hk
  · exact ⟨rfl, rfl⟩

theorem opAlone_sameIrq {op : Micro} {s t : State} {go : Bool} (h : opAlone op s = .next (t, go))
    (ha : op.arms = false) : SameIrq s t := by
  by_cases hp : ∃ place pred n g, op = .poll place pred n g
  · obtain ⟨place, pred, n, g, rfl⟩ := hp
    obtain ⟨⟨u, r⟩, h1, h2⟩ := andThen_eq_next.mp h
    obtain ⟨vs, d, f, hu, -, -⟩ := spinAlone_spec h1
    have h3 : u.intEn = s.intEn := by rw [hu]
    have h4 : u.intPend = s.intPend := by rw [hu]
    unfold afterSpin at h2
    split at h2 <;> cases h2 <;> exact ⟨h3, h4⟩
  · rw [opAlone_atomic hp] at h
    obtain ⟨u, h1, h2⟩ := andThen_eq_next.mp h
    cases h2
    cases op with
    | write r v => exact regWrite_sameIrq h1 (by simpa [Micro.arms] using ha)
    | overwriteCfg v =>
      rw [microOp_overwriteCfg] at h1
      have := regWrite_sameIrq h1 (by simp [Reg.kind])
      exact ⟨this.intEn, this.intPend⟩
    | mergeCfg m mask =>
      rw [microOp_mergeCfg] at h1
      have := regWrite_sameIrq h1 (by simp [Reg.kind])
      exact ⟨this.intEn, this.intPend⟩
    | read r mask =>
      obtain ⟨⟨v, w⟩, h3, h4⟩ := andThen_eq_next.mp h1
      obtain ⟨-, -, rfl⟩ := regRead_cases h3
      cases h4
      exact ⟨by simp, by simp⟩
    | _ => cases h1; exact ⟨rfl, rfl⟩

theorem runAlone_sameIrq {prog : List Micro} {s t : State} (h : runAlone prog s = .next t)
    (ha : ∀ op ∈ prog, op.arms = false) : SameIrq s t := by
  induction prog generalizing s with
  | nil => cases h; exact ⟨rfl, rfl⟩
  | cons op rest ih =>
    obtain ⟨⟨u, go⟩, h1, h2⟩ := andThen_eq_next.mp h
    have h3 := opAlone_sameIrq h1 (ha op (by simp))
    cases go with
    | true =>
      have h4 := ih h2 fun o ho => ha o (by simp [ho])
      exact ⟨h4.intEn.trans h3.intEn, h4.intPend.trans h3.intPend⟩
    | false => cases h2; exact h3

/-- A program alone that writes no INT_CTRL, started with ILOCK free, leaves all that the other agents own. -/
theorem runAlone_others {prog : List Micro} {s t : State} (h : runAlone prog s = .next t)
    (ha : ∀ op ∈ prog, op.arms = false) (hl : t.ilock = s.ilock) : OthersKept s t := by
  have h1 := runAlone_same h
  have h2 := runAlone_sameIrq h ha
  exact ⟨h1.isOpen, h1.port, h1.icount, hl, h1.irqPhase, h2.intEn, h2.intPend⟩

end Sys2Proof.Machine
end

