-- ==== Sys2Proof/Laws/Step.lean ====
section
/-! SUPPORT. What a step is, by the turn it takes; what turning a command away leaves; what an offset names. -/

namespace Sys2Proof.Machine

theorem step_default {s : State} (hq : s.seq = .idle) (hs : s.sched = []) : step s = defaultTurn s := by
  unfold step
  split
  · rename_i h; rw [hq] at h; cases h
  · split
    · rfl
    all_goals rename_i h; rw [hs] at h; cases h

theorem step_cmd {s : State} {l : List Turn} (hq : s.seq = .idle) (hs : s.sched = .cmd :: l) :
    step s = cmdTurn { s with sched := l } := by
  unfold step
  split
  · rename_i h; rw [hq] at h; cases h
  · split
    all_goals rename_i h; rw [hs] at h; cases h
    rfl

theorem step_irq {s : State} {l : List Turn} (hq : s.seq = .idle) (hs : s.sched = .irq :: l) :
    step s = irqStep { s with sched := l } := by
  unfold step
  split
  · rename_i h; rw [hq] at h; cases h
  · split
    all_goals rename_i h; rw [hs] at h; cases h
    rfl

theorem step_dev {s : State} {l : List Turn} (hq : s.seq = .idle) (hs : s.sched = .dev :: l) :
    step s = .next (devComplete { s with sched := l }) := by
  unfold step
  split
  · rename_i h; rw [hq] at h; cases h
  · split
    all_goals rename_i h; rw [hs] at h; cases h
    rfl

theorem step_host {s : State} {l : List Turn} {e : HostEvent} (hq : s.seq = .idle) (hs : s.sched = .host e :: l) :
    step s = hostStep e { s with sched := l } := by
  unfold step
  split
  · rename_i h; rw [hq] at h; cases h
  · split
    all_goals rename_i h; rw [hs] at h; cases h
    rfl

theorem mayAccept_iff {s : State} :
    mayAccept s = true ↔ s.attached = true ∧ s.isOpen = true ∧ s.seq = .idle ∧ s.blk = .free := by
  simp [mayAccept, and_assoc]

/-- Where CMD may take a command, none awaits its result. -/
theorem awaits_of_mayAccept {s : State} (hm : mayAccept s = true) : s.awaits = false := by
  simp [State.awaits, (mayAccept_iff.mp hm).2.2.2]

theorem awaits_of_free {s : State} (hb : s.blk = .free) : s.awaits = false := by simp [State.awaits, hb]

theorem awaits_iff {s : State} : s.awaits = true ↔ s.attached = true ∧ s.seq = .idle ∧ s.blk = .held := by
  simp [State.awaits, and_assoc]

/-- A command accepted and turned away awaits its result. -/
theorem startAway_awaits {h : Word} {c : Code} {s : State} (ha : s.attached = true) (hq : s.seq = .idle) :
    (startAway h c s).awaits = true := awaits_iff.mpr ⟨ha, hq, rfl⟩

/-- The result of a command turned away is CMD's next step (R104). -/
theorem takeCommand_awaits {run : Instr → State → Res State} {s : State} (hw : s.awaits = true) :
    takeCommand run s = .next (sendResult s.code [] s) := if_pos hw

/-- CMD's turn where no command can be taken and none awaits its result (R26). -/
theorem takeCommand_none {run : Instr → State → Res State} {s : State} (hw : s.awaits = false)
    (hm : mayAccept s = false) : takeCommand run s = .next s := by
  unfold takeCommand; rw [hw, hm]; rfl

/-- CMD's turn by what stands at the port. -/
theorem takeCommand_of_fetch {run : Instr → State → Res State} {s : State} (hm : mayAccept s = true) :
    takeCommand run s =
      match s.fetch with
      | .nothing => .next s
      | .incomplete _ => .next s
      | .noHeader rest => .next { s with port := rest }
      | .illegal _ h rest => .next (startAway h .eillegal { s with port := rest })
      | .copyFailed h rest => .next (startAway h .ecopy { s with port := rest })
      | .command i rest => run i { s with port := rest } := by
  unfold takeCommand
  rw [awaits_of_mayAccept hm, hm]
  cases s.fetch <;> rfl

/-- Everything CMD's turn can do while `seq` is idle: the result of a command turned away, the acceptance of another
one, a word less at the port or nothing, or `run` of the command there. -/
theorem takeCommand_cases {run : Instr → State → Res State} {s t : State} (h : takeCommand run s = .next t) :
    (s.awaits = true ∧ t = sendResult s.code [] s) ∨
      (mayAccept s = true ∧ ∃ h' code port, code ≠ .ok ∧ t = startAway h' code { s with port := port }) ∨
      (s.awaits = false ∧ ∃ port, t = { s with port := port }) ∨
      (mayAccept s = true ∧ ∃ i port, s.fetch = .command i port ∧ run i { s with port := port } = .next t) := by
  cases hw : s.awaits with
  | true => rw [takeCommand_awaits hw] at h; cases h; exact .inl ⟨rfl, rfl⟩
  | false =>
    refine .inr ?_
    cases hm : mayAccept s with
    | false => rw [takeCommand_none hw hm] at h; cases h; exact .inr (.inl ⟨rfl, s.port, rfl⟩)
    | true =>
      rw [takeCommand_of_fetch hm] at h
      split at h
      · cases h; exact .inr (.inl ⟨rfl, s.port, rfl⟩)
      · cases h; exact .inr (.inl ⟨rfl, s.port, rfl⟩)
      · cases h; exact .inr (.inl ⟨rfl, _, rfl⟩)
      · cases h; exact .inl ⟨rfl, _, _, _, by simp, rfl⟩
      · cases h; exact .inl ⟨rfl, _, _, _, by simp, rfl⟩
      · rename_i hf; exact .inr (.inr ⟨rfl, _, _, hf, h⟩)

/-- With no turn left CMD steps where it can. -/
theorem defaultTurn_cmd {s : State} (he : cmdEnabled s = true) : defaultTurn s = cmdTurn s := if_pos he

theorem cmdEnabled_take {s : State} (hm : mayAccept s = true) (hf : takesTurn s.fetch = true) :
    cmdEnabled s = true := by unfold cmdEnabled; rw [hm, hf]; simp

theorem cmdEnabled_awaits {s : State} (hw : s.awaits = true) : cmdEnabled s = true := by unfold cmdEnabled; rw [hw]; rfl

/-- Where CMD is next and has a step, the step is CMD's turn. -/
theorem step_cmdIsNext {s : State} (hq : s.seq = .idle) (he : cmdEnabled s = true) (hn : cmdIsNext s.sched = true) :
    step s = cmdTurn { s with sched := s.sched.tail } := by
  cases hs : s.sched with
  | nil =>
    rw [step_default hq hs, defaultTurn_cmd he]
    show _ = cmdTurn { s with sched := [] }
    rw [← hs]
  | cons u l =>
    cases u with
    | cmd => exact step_cmd hq hs
    | _ => rw [hs] at hn; cases hn

/-- The result of a command that was turned away. -/
theorem sendResult_away {h : Word} {code : Code} {s : State} (hc : code ≠ .ok) :
    sendResult code [] (startAway h code s) = turnedAway h code s := by
  rw [sendResult, resultCode_eq (fun h => absurd h hc)]
  unfold resultWords
  rw [resultCode_eq (fun h => absurd h hc), if_neg hc]
  unfold deliver turnedAway startAway acceptHeader State.log
  simp [countField]

/-- A result without words spends no free value. -/
theorem sendResult_away_freeIx {code : Code} {s : State} (hc : code ≠ .ok) : (sendResult code [] s).freeIx = s.freeIx := by
  rw [sendResult, resultCode_eq (fun h => absurd h hc)]
  unfold resultWords
  rw [resultCode_eq (fun h => absurd h hc), if_neg hc]
  rfl

/-- Where CMD is next, the next step answers a command that was turned away. -/
theorem step_answers {h : Word} {code : Code} {s : State} (ha : s.attached = true) (hq : s.seq = .idle) (hc : code ≠ .ok)
    (hn : cmdIsNext s.sched = true) :
    step (startAway h code s) = .next (turnedAway h code { s with sched := s.sched.tail }) := by
  have hw := startAway_awaits (h := h) (c := code) ha hq
  rw [step_cmdIsNext (by exact hq) (cmdEnabled_awaits hw) (by exact hn)]
  exact (takeCommand_awaits (s := startAway h code { s with sched := s.sched.tail }) (startAway_awaits ha hq)).trans
    (congrArg _ (sendResult_away hc))

/-- A frame with a word that was not delivered is not latched. -/
theorem latch_failed (ws : List Word) (n : Nat) (rest : List (Option Word)) (h : ws.length < n) :
    latch n (ws.map some ++ none :: rest) = .failed rest := by
  induction ws generalizing n with
  | nil =>
    cases n with
    | zero => simp at h
    | succ n => rfl
  | cons w ws ih =>
    cases n with
    | zero => simp at h
    | succ n => simp at h; simp [latch, ih n h]

/-- Every offset is the offset of what stands at it. -/
theorem off_regAt (p : Params) (o : Nat) : p.off (p.regAt o) = o := by
  unfold Params.regAt
  split
  · rename_i r h
    have := List.find?_some h
    simpa using this
  · split
    · rename_i h
      simp [Params.inWindow] at h
      simp [Params.off]; omega
    · rfl

/-- Two registers of a list with distinct offsets. -/
theorem off_ne_of_distinct {p : Params} {l : List Reg} (h : p.offsetsDistinct l = true) {a b : Reg}
    (ha : a ∈ l) (hb : b ∈ l) (hab : a ≠ b) :
    p.off a ≠ p.off b ∨ (a = .spiData ∧ b = .spiResult) ∨ (a = .spiResult ∧ b = .spiData) := by
  induction l with
  | nil => simp at ha
  | cons r rs ih =>
    simp only [Params.offsetsDistinct, Bool.and_eq_true, List.all_eq_true] at h
    simp only [Params.mayShare, Bool.or_eq_true, bne_iff_ne, ne_eq, Bool.and_eq_true, beq_iff_eq] at h
    rcases List.mem_cons.mp ha with h1 | h1 <;> rcases List.mem_cons.mp hb with h2 | h2
    · exact absurd (h1.trans h2.symm) hab
    · subst h1
      rcases h.1 b h2 with h | h
      · exact .inl h
      · exact .inr (.inl h)
    · subst h2
      rcases h.1 a h1 with h | h
      · exact .inl (Ne.symm h)
      · exact .inr (.inr ⟨h.2, h.1⟩)
    · exact ih h.2 h1 h2

/-- The parts of a valid configuration's map. -/
theorem valid_map {p : Params} (h : p.valid = true) :
    p.tableWhole = true ∧ (∀ r ∈ p.registers, p.goodOffset (p.off r) = true) ∧
      p.offsetsDistinct p.registers = true ∧ ∀ r ∈ p.registers, p.inWindow (p.off r) = false := by
  simp only [Params.valid, Params.mapValid, Bool.and_eq_true, List.all_eq_true, Bool.not_eq_true'] at h
  obtain ⟨-, ⟨⟨⟨h1, h2⟩, h3⟩, h4⟩, -⟩ := h
  exact ⟨h1, h2, h3, h4⟩

/-- Registers of a valid configuration that are not the pair of R49 lie at least four bytes apart. -/
theorem valid_apart {p : Params} (h : p.valid = true) {a b : Reg} (ha : a ∈ p.registers) (hb : b ∈ p.registers)
    (hab : a ≠ b) (hs : a ≠ .spiResult ∧ b ≠ .spiResult) : p.off a + 4 ≤ p.off b ∨ p.off b + 4 ≤ p.off a := by
  obtain ⟨-, h2, h3, -⟩ := valid_map h
  have g1 := h2 a ha
  have g2 := h2 b hb
  simp only [Params.goodOffset, Bool.and_eq_true, beq_iff_eq, decide_eq_true_eq] at g1 g2
  rcases off_ne_of_distinct h3 ha hb hab with h | ⟨-, h⟩ | ⟨h, -⟩
  · omega
  · exact absurd h hs.2
  · exact absurd h hs.1

/-- The three values of INT_CTRL of a valid configuration differ. -/
theorem valid_ints {p : Params} (h : p.valid = true) :
    p.intEnable ≠ p.intDisable ∧ p.intEnable ≠ p.intClear ∧ p.intDisable ≠ p.intClear := by
  simp only [Params.valid, Bool.and_eq_true, bne_iff_ne, ne_eq] at h
  obtain ⟨⟨⟨⟨⟨⟨-, h1⟩, h2⟩, h3⟩, -⟩, -⟩, -⟩ := h
  exact ⟨h1, h2, h3⟩

/-- A step between commands is one agent's turn, or a wait. -/
theorem step_turns {s t : State} (hq : s.seq = .idle) (h : step s = .next t) :
    t = s ∨ cmdTurn s = .next t ∨ irqStep s = .next t ∨
      ∃ l, cmdTurn { s with sched := l } = .next t ∨ irqStep { s with sched := l } = .next t ∨
      t = devComplete { s with sched := l } ∨ ∃ e, hostStep e { s with sched := l } = .next t := by
  cases hs : s.sched with
  | nil =>
    rw [step_default hq hs] at h
    unfold defaultTurn at h
    split at h
    · exact .inr (.inl h)
    · split at h
      · exact .inr (.inr (.inl h))
      · split at h
        · cases h; exact .inl rfl
        · cases h
  | cons u l =>
    refine .inr (.inr (.inr ⟨l, ?_⟩))
    cases u with
    | cmd => rw [step_cmd hq hs] at h; exact .inl h
    | irq => rw [step_irq hq hs] at h; exact .inr (.inl h)
    | dev => rw [step_dev hq hs] at h; cases h; exact .inr (.inr (.inl rfl))
    | host e => rw [step_host hq hs] at h; exact .inr (.inr (.inr ⟨e, h⟩))

/-- Detached, IRQ has no step (R213). -/
theorem irqStep_detached {s : State} (ha : s.attached = false) : irqStep s = .next s := by
  unfold irqStep irqEnabled; rw [ha]; rfl

/-- What the last three HOST steps of an attach leave (R240 steps 4 and 5, R242). -/
def attachEnd (s : State) : State :=
  { s with icount := 0, blk := .free, ilock := .free, seq := .idle, todo := [], vals := [], emitted := [],
           code := .ok, spins := 0, irqPhase := .idle, isOpen := false, lineReg := true }.log (.attach .ok)

/-- Everything an attach can do (R240 to R242). -/
theorem attachStep_next {p : Params} {al : Bool} {s t : State} (h : attachStep p al s = .next t) :
    p.valid = true ∧ ((al = false ∧ t = s.log (.attach .enomem)) ∨
      (al = true ∧ ∃ en pend, t = attachEnd { attachBegin p s with
        cfg := 0
        intEn := en, intPend := pend
        regs := Memory.storeWord [] (p.off .modeConfig) 0
        hist := [.write .host (p.off .modeConfig) 0] ++ [.write .host (p.off .intCtrl) p.intDisable] ++
          [.write .host (p.off .intCtrl) p.intClear] })) := by
  obtain ⟨⟨u, boot⟩, h0, h⟩ := andThen_eq_next.mp h
  unfold attachStart at h0
  by_cases hv : p.valid = true
  · rw [hv] at h0
    cases al with
    | false => cases h0; cases h; exact ⟨hv, .inl ⟨rfl, rfl⟩⟩
    | true =>
      cases h0
      refine ⟨hv, .inr ⟨rfl, ?_⟩⟩
      obtain ⟨s1, h1, h⟩ := andThen_eq_next.mp h
      obtain ⟨s2, h2, h⟩ := andThen_eq_next.mp h
      obtain ⟨s3, h3, h⟩ := andThen_eq_next.mp h
      cases h1
      obtain ⟨e2, p2, rfl⟩ := regWrite_intCtrl h2
      obtain ⟨e3, p3, rfl⟩ := regWrite_intCtrl h3
      cases h
      exact ⟨e3, p3, rfl⟩
  · rw [Bool.not_eq_true] at hv; rw [hv] at h0; cases h0

end Sys2Proof.Machine
end

