-- ==== Sys2Proof/Laws/Blind.lean ====
section
/-! SUPPORT. No operation but the result looks at what is still to come from outside: the schedule, and HOST's
decision to refuse result words. `agentTurn_outside` and `microOp_outside` say so for every turn and every
micro-operation, and `runOps_refused` what a refusal changes of a whole command. -/

namespace Sys2Proof.Machine

/-- The same state under another schedule, and with a refusal pending if `b`. -/
def State.outside (s : State) (l : List Turn) (b : Bool) : State := { s with sched := l, refuseOut := b || s.refuseOut }

/-- The same outcome so changed. -/
def outsided (l : List Turn) (b : Bool) (x : Res State) : Res State := andThen x fun t => .next (t.outside l b)

@[simp] theorem outside_seq (s : State) (l : List Turn) (b : Bool) : (s.outside l b).seq = s.seq := rfl
@[simp] theorem outside_todo (s : State) (l : List Turn) (b : Bool) : (s.outside l b).todo = s.todo := rfl
@[simp] theorem outside_attached (s : State) (l : List Turn) (b : Bool) : (s.outside l b).attached = s.attached := rfl
@[simp] theorem outside_sched (s : State) (l : List Turn) (b : Bool) : (s.outside l b).sched = l := rfl
@[simp] theorem outside_params (s : State) (l : List Turn) (b : Bool) : (s.outside l b).params = s.params := rfl
@[simp] theorem outside_spins (s : State) (l : List Turn) (b : Bool) : (s.outside l b).spins = s.spins := rfl
@[simp] theorem outsided_next (s : State) (l : List Turn) (b : Bool) :
    outsided l b (.next s) = .next (s.outside l b) := rfl

theorem afterDraw_outside (s : State) (l : List Turn) (b : Bool) : (s.outside l b).afterDraw = s.afterDraw.outside l b := by
  unfold State.afterDraw State.outside
  cases s.draws <;> simp

theorem afterRead_outside (s : State) (l : List Turn) (b : Bool) (r : Reg) :
    (s.outside l b).afterRead r = (s.afterRead r).outside l b := by
  unfold State.afterRead
  rw [afterDraw_outside]
  exact (apply_ite (fun x : State => x.outside l b) _ _ _).symm

theorem regRead_outside (a : Agent) (s : State) (l : List Turn) (b : Bool) (r : Reg) :
    regRead a r (s.outside l b) = andThen (regRead a r s) fun x => .next (x.1, x.2.outside l b) := by
  unfold regRead
  rw [afterRead_outside]
  by_cases h : s.attached = true
  · rw [if_pos h, if_pos (show (s.outside l b).attached = true from h)]; rfl
  · rw [if_neg h, if_neg (show ¬ (s.outside l b).attached = true from h)]; rfl

theorem afterHeld_outside (s : State) (l : List Turn) (b : Bool) (r : Reg) :
    (s.outside l b).afterHeld r = (s.afterHeld r).outside l b := by
  have e : (s.outside l b).stored r = s.stored r := rfl
  unfold State.afterHeld
  rw [e]
  split <;> rfl

theorem startCycle_outside (s : State) (l : List Turn) (b : Bool) (r : Reg) (v : Word) :
    startCycle r v (s.outside l b) = (startCycle r v s).outside l b := by
  unfold startCycle
  split
  · rfl
  · unfold startSingle
    simp only [afterHeld_outside]
    rfl

theorem intCtrlWrite_outside (s : State) (l : List Turn) (b : Bool) (v : Word) :
    intCtrlWrite v (s.outside l b) = outsided l b (intCtrlWrite v s) := by
  unfold intCtrlWrite
  by_cases h1 : v = s.params.intEnable
  · rw [if_pos h1, if_pos (show v = (s.outside l b).params.intEnable from h1)]; rfl
  · rw [if_neg h1, if_neg (show ¬ v = (s.outside l b).params.intEnable from h1)]
    by_cases h2 : v = s.params.intDisable
    · rw [if_pos h2, if_pos (show v = (s.outside l b).params.intDisable from h2)]; rfl
    · rw [if_neg h2, if_neg (show ¬ v = (s.outside l b).params.intDisable from h2)]
      by_cases h3 : v = s.params.intClear
      · rw [if_pos h3, if_pos (show v = (s.outside l b).params.intClear from h3)]; rfl
      · rw [if_neg h3, if_neg (show ¬ v = (s.outside l b).params.intClear from h3)]; rfl

theorem regWrite_outside (a : Agent) (s : State) (l : List Turn) (b : Bool) (r : Reg) (v : Word) :
    regWrite a r v (s.outside l b) = outsided l b (regWrite a r v s) := by
  unfold regWrite
  by_cases h : s.attached = true
  · rw [if_pos h, if_pos (show (s.outside l b).attached = true from h)]
    cases r.kind
    · rfl
    · exact congrArg _ (startCycle_outside (s.log _) l b r v)
    · exact intCtrlWrite_outside (s.log _) l b v
    · rfl
    · rfl
    · rfl
  · rw [if_neg h, if_neg (show ¬ (s.outside l b).attached = true from h)]; rfl

/-- A micro-operation does the same whatever the schedule and the refusal. -/
theorem microOp_outside (op : Micro) (s : State) (l : List Turn) (b : Bool) :
    microOp op (s.outside l b) = outsided l b (microOp op s) := by
  cases op with
  | write r v => exact regWrite_outside .cmd s l b r v
  | overwriteCfg v => exact regWrite_outside .cmd { s with cfg := v } l b .modeConfig v
  | mergeCfg m mask =>
    exact regWrite_outside .cmd { s with cfg := merge s.cfg m mask } l b .modeConfig (merge s.cfg m mask)
  | read r mask =>
    rw [microOp_read, microOp_read, regRead_outside]
    cases regRead .cmd r s <;> rfl
  | _ => rfl

theorem irqStep_outside (s : State) (l : List Turn) (b : Bool) : irqStep (s.outside l b) = outsided l b (irqStep s) := by
  have he : irqEnabled (s.outside l b) = irqEnabled s := rfl
  unfold irqStep
  rw [he]
  cases irqEnabled s with
  | false => rfl
  | true =>
    simp only [if_true]
    have hp : (s.outside l b).irqPhase = s.irqPhase := rfl
    rw [hp]
    cases s.irqPhase with
    | entered =>
      simp only
      rw [regWrite_outside]
      simp only [outside_params]
      cases regWrite .irq .intCtrl s.params.intClear s <;> rfl
    | counted =>
      simp only
      rw [regWrite_outside]
      simp only [outside_params]
      cases regWrite .irq .intCtrl s.params.intDisable s <;> rfl
    | _ => rfl

theorem devComplete_outside (s : State) (l : List Turn) (b : Bool) : devComplete (s.outside l b) = (devComplete s).outside l b := by
  have he : (s.outside l b).attached = s.attached := rfl
  unfold devComplete
  rw [he]
  cases s.attached <;> rfl

theorem bootOp_outside (o : BootOp) (s : State) (l : List Turn) (b : Bool) :
    bootOp o (s.outside l b) = outsided l b (bootOp o s) := by
  cases o with
  | writeMode => exact regWrite_outside .host { s with cfg := 0 } l b .modeConfig 0
  | writeDisable => exact regWrite_outside .host s l b .intCtrl s.params.intDisable
  | writeClear => exact regWrite_outside .host s l b .intCtrl s.params.intClear
  | _ => rfl

theorem runBoot_outside (bs : List BootOp) (s : State) (l : List Turn) (b : Bool) :
    runBoot bs (s.outside l b) = outsided l b (runBoot bs s) := by
  induction bs generalizing s with
  | nil => rfl
  | cons o bs ih =>
    unfold runBoot
    rw [bootOp_outside]
    cases bootOp o s with
    | next t => exact ih t
    | _ => rfl

theorem attachStart_outside (p : Params) (al : Bool) (s : State) (l : List Turn) (b : Bool) :
    attachStart p al (s.outside l b) = andThen (attachStart p al s) fun x => .next (x.1.outside l b, x.2) := by
  unfold attachStart
  cases p.valid <;> cases al <;> rfl

theorem hostStep_outside (e : HostEvent) (s : State) (l : List Turn) (b : Bool) :
    hostStep e (s.outside l b) = outsided l b (hostStep e s) := by
  unfold hostStep
  rw [outside_attached]
  cases e with
  | attach p al =>
    simp only
    cases s.attached with
    | true => rfl
    | false =>
      simp only [Bool.false_eq_true, if_false]
      unfold attachStep
      rw [attachStart_outside]
      cases attachStart p al s with
      | next x => exact runBoot_outside x.2 x.1 l b
      | _ => rfl
  | openSession =>
    cases s.attached with
    | false => rfl
    | true =>
      simp only [if_true, openStep]
      have he : (s.outside l b).isOpen = s.isOpen := rfl
      rw [he]
      cases s.isOpen <;> rfl
  | closeSession => cases s.attached <;> rfl
  | detach =>
    cases s.attached with
    | false => rfl
    | true =>
      simp only [if_true, detachStep]
      have he : ((s.outside l b).seq = .idle ∧ (s.outside l b).irqPhase = .idle) = (s.seq = .idle ∧ s.irqPhase = .idle) := rfl
      by_cases h : s.seq = .idle ∧ s.irqPhase = .idle
      · rw [if_pos h, if_pos (he ▸ h)]; rfl
      · rw [if_neg h, if_neg (he ▸ h)]; rfl
  | submit ws => rfl
  | refuseResult => cases b <;> rfl

/-- An agent's turn does the same whatever the schedule and the refusal. -/
theorem agentTurn_outside (u : Turn) (s : State) (l : List Turn) (b : Bool) :
    agentTurn u (s.outside l b) = outsided l b (agentTurn u s) := by
  cases u with
  | cmd => rfl
  | irq => exact irqStep_outside s l b
  | dev => exact congrArg _ (devComplete_outside s l b)
  | host e => exact hostStep_outside e s l b

/-- No turn of another agent changes the schedule. -/
theorem agentTurn_sched {u : Turn} {s t : State} (h : agentTurn u s = .next t) : t.sched = s.sched := by
  have h1 := agentTurn_outside u s s.sched false
  rw [show s.outside s.sched false = s from rfl, h] at h1
  have h2 := Host.Outcome.next.inj h1
  rw [h2]
  rfl

/-! A refusal changes the result alone. -/

/-- The same state with a refusal pending. -/
def State.refusing (s : State) : State := { s with refuseOut := true }

/-- Every turn before CMD's next step does the same with a refusal pending. -/
theorem interleave_refusing {l : List Turn} {s t : State} (h : interleave l s = .next t) :
    interleave l s.refusing = .next t.refusing := by
  have turn : ∀ {u : Turn} {s t : State}, agentTurn u s = .next t → agentTurn u s.refusing = .next t.refusing := by
    intro u s t h
    have h1 := agentTurn_outside u s s.sched true
    rw [h] at h1
    have h2 : t.sched = s.sched := agentTurn_sched h
    have h3 : agentTurn u s.refusing = .next (t.outside s.sched true) := h1
    rw [h3, ← h2]
    rfl
  induction l generalizing s with
  | nil =>
    unfold interleave at h ⊢
    have drain : ∀ {n : Nat} {s t : State}, irqDrain n s = .next t → irqDrain n s.refusing = .next t.refusing := by
      intro n
      induction n with
      | zero => intro s t h; cases h; rfl
      | succ n ih =>
        intro s t h
        unfold irqDrain at h ⊢
        rw [show cmdReady s.refusing = cmdReady s from rfl]
        split at h
        · rename_i hc; cases h; rw [if_pos hc]
        · rename_i hc
          rw [if_neg hc]
          obtain ⟨u, h1, h2⟩ := andThen_eq_next.mp h
          rw [show irqStep s.refusing = .next u.refusing from turn (u := .irq) h1]
          exact ih h2
    obtain ⟨u, h1, h2⟩ := andThen_eq_next.mp h
    have h3 := drain h1
    rw [show ({ s.refusing with sched := [] } : State) = State.refusing { s with sched := [] } from rfl, h3]
    simp only [andThen_next]
    rw [show cmdReady u.refusing = cmdReady u from rfl]
    split at h2
    · rename_i hc; cases h2; rw [if_pos hc]
    · cases h2
  | cons u l ih =>
    have other : andThen (agentTurn u s) (interleave l) = .next t →
        andThen (agentTurn u s.refusing) (interleave l) = .next t.refusing := by
      intro h
      obtain ⟨v, h1, h2⟩ := andThen_eq_next.mp h
      rw [turn h1]
      exact ih h2
    cases u with
    | cmd =>
      unfold interleave at h ⊢
      rw [show cmdReady s.refusing = cmdReady s from rfl]
      split at h
      · rename_i hc; cases h; rw [if_pos hc]; rfl
      · rename_i hc; rw [if_neg hc]; exact ih h
    | irq => exact other h
    | dev => exact other h
    | host e => exact other h

theorem toCmd_refusing {s t : State} (h : toCmd s = .next t) : toCmd s.refusing = .next t.refusing :=
  interleave_refusing h

theorem microOp_refusing {op : Micro} {s t : State} (h : microOp op s = .next t) :
    microOp op s.refusing = .next t.refusing := by
  have h1 := microOp_outside op s s.sched true
  rw [h] at h1
  have h3 : microOp op s.refusing = .next (t.outside s.sched true) := h1
  rw [h3, ← microOp_sched h]
  rfl

theorem regRead_refusing {r : Reg} {v : Word} {s t : State} (h : regRead .cmd r s = .next (v, t)) :
    regRead .cmd r s.refusing = .next (v, t.refusing) := by
  have h1 := regRead_outside .cmd s s.sched true r
  rw [h] at h1
  have h3 : regRead .cmd r s.refusing = .next (v, t.outside s.sched true) := h1
  rw [h3, ← (regRead_sched_ilock h).1]
  rfl

theorem spin_refusing {place : Where} {pred : Pred} {n : Nat} {s t : State} {r : Bool}
    (h : spin place pred n s = .next (t, r)) : spin place pred n s.refusing = .next (t.refusing, r) := by
  induction n generalizing s with
  | zero => cases h; rfl
  | succ n ih =>
    obtain ⟨u, h1, h⟩ := andThen_eq_next.mp h
    obtain ⟨⟨v, w⟩, h2, h⟩ := andThen_eq_next.mp h
    unfold spin
    rw [toCmd_refusing h1]
    simp only [andThen_next]
    rw [regRead_refusing h2]
    simp only [andThen_next]
    simp only at h
    rw [show w.refusing.params = w.params from rfl]
    split at h
    · rename_i hc; cases h; rw [if_pos hc]; rfl
    · rename_i hc; rw [if_neg hc]; exact ih h

theorem runOp_refusing {op : Micro} {s t : State} {go : Bool} (h : runOp op s = .next (t, go)) :
    runOp op s.refusing = .next (t.refusing, go) := by
  by_cases hp : ∃ place pred n g, op = .poll place pred n g
  · obtain ⟨place, pred, n, g, rfl⟩ := hp
    obtain ⟨⟨u, r⟩, h1, h2⟩ := andThen_eq_next.mp h
    have h3 := spin_refusing h1
    unfold runOp
    simp only
    rw [show n - s.refusing.spins = n - s.spins from rfl, h3]
    simp only [andThen_next]
    have h4 : afterSpin g (u.refusing, r) = ((afterSpin g (u, r)).1.refusing, (afterSpin g (u, r)).2) := by
      have hq : (r || u.refusing.params.timeoutPolicy == .proceed) = (r || u.params.timeoutPolicy == .proceed) := rfl
      unfold afterSpin
      simp only [hq]
      cases r || u.params.timeoutPolicy == .proceed <;> rfl
    rw [h4]
    simp only [Host.Outcome.next.injEq] at h2
    rw [h2]
  · rw [runOp_atomic hp] at h ⊢
    obtain ⟨u, h1, h⟩ := andThen_eq_next.mp h
    obtain ⟨v, h2, h⟩ := andThen_eq_next.mp h
    cases h
    rw [toCmd_refusing h1]
    simp only [andThen_next]
    rw [microOp_refusing h2]
    rfl

/-- What a refusal changes of a command: the same run ends in a state `v`, and the result is sent from `v` with the
refusal pending or not (R114). -/
theorem runOps_refused {prog : List Micro} {s t : State} (h : runOps prog s = .next t) :
    ∃ v, t = sendResult v.code v.emitted v ∧
      runOps prog s.refusing = .next (sendResult v.code v.emitted v.refusing) := by
  have fin : ∀ {s t : State}, finish s = .next t → ∃ v, t = sendResult v.code v.emitted v ∧
      finish s.refusing = .next (sendResult v.code v.emitted v.refusing) := by
    intro s t h
    obtain ⟨v, h1, h2⟩ := andThen_eq_next.mp h
    cases h2
    refine ⟨v, rfl, ?_⟩
    unfold finish
    rw [show s.refusing.withTodo [] = (s.withTodo []).refusing from rfl, toCmd_refusing h1]
    rfl
  induction prog generalizing s with
  | nil => exact fin h
  | cons op rest ih =>
    obtain ⟨⟨u, go⟩, h1, h2⟩ := andThen_eq_next.mp h
    unfold runOps
    rw [show s.refusing.withTodo (op :: rest) = (s.withTodo (op :: rest)).refusing from rfl, runOp_refusing h1]
    simp only [andThen_next]
    cases go with
    | true => exact ih h2
    | false => exact fin h2

end Sys2Proof.Machine
end

