-- ==== Sys2Proof/Laws/Atomic.lean ====
section
/-! SUPPORT. The machine by its single steps against `step`: no operation looks at the schedule (`agentTurn_outside`,
`microOp_outside`), so what `step` does under a schedule is a run of single steps (`runOps_atomic`), and a run of single
steps that ends between commands is a run of `step` under the schedule of its turns (`atomicRun_finishes`). -/

namespace Sys2Proof.Machine

/-- The same state under another schedule. -/
abbrev State.scheduled (s : State) (l : List Turn) : State := s.outside l false

/-- The same outcome under another schedule. -/
abbrev rescheduled (l : List Turn) (x : Res State) : Res State := outsided l false x

/-! A command under way, one single step at a time. -/

/-- How many steps of CMD a micro-operation takes at most. -/
def Micro.cost : Micro → Nat
  | .poll _ _ n _ => n
  | _ => 1

/-- The reads already made fit the micro-operation that is next: below the ceiling of a poll, none for another (R120).
-/
def spinsFit (spins : Nat) : List Micro → Prop
  | .poll _ _ n _ :: _ => spins < n
  | _ => spins = 0

/-- A command is under way: attached, every poll of it with a ceiling of at least 1, and the poll under way below it. -/
structure InFlight (s : State) : Prop where
  attached : s.attached = true
  busy : s.seq ≠ .idle
  ceilings : ∀ op ∈ s.todo, 1 ≤ op.cost
  spins : spinsFit s.spins s.todo

/-- How many steps of CMD the command under way takes at most to its result. -/
def State.stepsLeft (s : State) : Nat := 1 + (s.todo.map Micro.cost).sum - s.spins

theorem spinsFit_zero {ops : List Micro} (h : ∀ op ∈ ops, 1 ≤ op.cost) : spinsFit 0 ops := by
  cases ops with
  | nil => rfl
  | cons op rest =>
    cases op with
    | poll _ _ n _ => exact h _ List.mem_cons_self
    | _ => rfl

/-- Turns of other agents leave the command under way. -/
theorem InFlight.others {s t : State} (h : InFlight s) (ho : OthersOnly s t) : InFlight t :=
  ⟨ho.view.attached.trans h.attached, by rw [ho.view.seq]; exact h.busy, by rw [ho.view.todo]; exact h.ceilings,
    by rw [ho.view.todo, ho.view.spins]; exact h.spins⟩

theorem InFlight.scheduled {s : State} (h : InFlight s) (l : List Turn) : InFlight (s.scheduled l) :=
  ⟨h.attached, h.busy, h.ceilings, h.spins⟩

theorem OthersOnly.stepsLeft {s t : State} (ho : OthersOnly s t) : t.stepsLeft = s.stepsLeft := by
  unfold State.stepsLeft; rw [ho.view.todo, ho.view.spins]

/-- A micro-operation leaves the sequencer, what is to do and the reads of a poll. -/
theorem microOp_seq {op : Micro} {s t : State} (h : microOp op s = .next t) :
    t.seq = s.seq ∧ t.todo = s.todo ∧ t.spins = s.spins := by
  have hw : ∀ {r : Reg} {v : Word} {s t : State}, regWrite .cmd r v s = .next t →
      t.seq = s.seq ∧ t.todo = s.todo ∧ t.spins = s.spins := by
    intro r v s t h
    obtain ⟨-, ⟨-, rfl⟩ | ⟨-, rfl⟩ | ⟨-, _, _, -, rfl⟩ | ⟨-, rfl⟩⟩ := regWrite_cases h <;> simp
  cases op with
  | write r v => exact hw h
  | overwriteCfg v => exact hw (r := .modeConfig) (v := v) (s := { s with cfg := v }) h
  | mergeCfg m mask => exact hw (r := .modeConfig) (v := merge s.cfg m mask) (s := { s with cfg := merge s.cfg m mask }) h
  | read r mask =>
    obtain ⟨⟨v, u⟩, h1, h2⟩ := andThen_eq_next.mp h
    obtain ⟨-, -, rfl⟩ := regRead_cases h1
    cases h2
    simp
  | _ => cases h; exact ⟨rfl, rfl, rfl⟩

theorem microStep_poll {s : State} {place : Where} {pred : Pred} {n : Nat} {g : Bool} {rest : List Micro}
    (h : s.todo = .poll place pred n g :: rest) : microStep s = pollStep place pred n g rest s := by
  unfold microStep; rw [h]

theorem microStep_nil {s : State} (h : s.todo = []) : microStep s = .next (sendResult s.code s.emitted s) := by
  unfold microStep; rw [h]

theorem microStep_op {s : State} {op : Micro} {rest : List Micro} (h : s.todo = op :: rest)
    (hn : ¬ ∃ place pred n g, op = .poll place pred n g) :
    microStep s = andThen (microOp op s) fun t => .next (t.advance.withTodo rest) := by
  unfold microStep
  rw [h]
  cases op <;> first | rfl | exact absurd ⟨_, _, _, _, rfl⟩ hn

theorem afterSpin_fields (g : Bool) (x : State × Bool) :
    (afterSpin g x).1.attached = x.1.attached ∧ (afterSpin g x).1.seq = x.1.seq ∧
      (afterSpin g x).1.spins = x.1.spins := by
  unfold afterSpin; split <;> exact ⟨rfl, rfl, rfl⟩

/-- Everything a step of CMD does to the command under way: after its last micro-operation the sequencer is idle, else
it comes nearer to its result. -/
theorem microStep_next {s t : State} (h : InFlight s) (hm : microStep s = .next t) :
    (s.todo = [] ∧ t.seq = .idle) ∨ (InFlight t ∧ t.stepsLeft < s.stepsLeft) := by
  cases ht : s.todo with
  | nil => rw [microStep_nil ht] at hm; cases hm; exact .inl ⟨rfl, rfl⟩
  | cons op rest =>
    refine .inr ?_
    have hc := h.ceilings
    have hrest : ∀ o ∈ rest, 1 ≤ o.cost := fun o ho => hc o (by rw [ht]; simp [ho])
    have hfit := h.spins
    rw [ht] at hfit
    by_cases hp : ∃ place pred n g, op = .poll place pred n g
    · obtain ⟨place, pred, n, g, rfl⟩ := hp
      rw [microStep_poll ht] at hm
      obtain ⟨⟨v, u⟩, h1, h2⟩ := andThen_eq_next.mp hm
      obtain ⟨-, -, rfl⟩ := regRead_cases h1
      have hfit' : s.spins < n := hfit
      have hend : ∀ x : State, x.attached = true → x.seq ≠ .idle → x.spins = 0 → ∀ r,
          InFlight (endPoll g rest (x, r)) ∧ (endPoll g rest (x, r)).stepsLeft < s.stepsLeft := by
        intro x ha hb hs r
        obtain ⟨e1, e2, e3⟩ := afterSpin_fields g (x, r)
        have hz : (endPoll g rest (x, r)).spins = 0 := e3.trans hs
        refine ⟨⟨e1.trans ha, by show (afterSpin g (x, r)).1.seq ≠ _; rw [e2]; exact hb, ?_, ?_⟩, ?_⟩
        · show ∀ op ∈ (if (afterSpin g (x, r)).2 then rest else []), _
          split
          · exact hrest
          · simp
        · rw [hz]
          apply spinsFit_zero
          show ∀ op ∈ (if (afterSpin g (x, r)).2 then rest else []), _
          split
          · exact hrest
          · simp
        · unfold State.stepsLeft
          rw [hz, ht]
          have : ((endPoll g rest (x, r)).todo.map Micro.cost).sum ≤ (rest.map Micro.cost).sum := by
            show ((if (afterSpin g (x, r)).2 then rest else []).map Micro.cost).sum ≤ _
            split <;> simp
          simp only [List.map_cons, List.sum_cons, Micro.cost]
          omega
      have ha : ((s.afterRead .status).log (.read .cmd (s.params.off .status) (s.readValue .status))).advance.attached
          = true := by simpa using h.attached
      have hb : ((s.afterRead .status).log (.read .cmd (s.params.off .status) (s.readValue .status))).advance.seq ≠ .idle :=
        fun hi => h.busy (by simpa using (advance_seq_idle _).mp hi)
      cases h2
      unfold afterStatus
      split
      · exact hend { ((s.afterRead .status).log (.read .cmd (s.params.off .status) (s.readValue .status))).advance with
          spins := 0 } ha hb rfl true
      · split
        · exact hend (State.log { ((s.afterRead .status).log
            (.read .cmd (s.params.off .status) (s.readValue .status))).advance with spins := 0 } (.bwe place)) ha hb rfl
            false
        · rename_i hn
          have hn' : ¬ n ≤ s.spins + 1 := by simpa using hn
          refine ⟨⟨ha, hb, by simpa using hc, ?_⟩, ?_⟩
          · show spinsFit (_ + 1) _
            simp only [advance_todo, log_todo, afterRead_todo, ht, log_spins, afterRead_spins, spinsFit]
            omega
          · unfold State.stepsLeft
            simp only [advance_todo, log_todo, afterRead_todo, ht, log_spins, afterRead_spins, List.map_cons,
              List.sum_cons, Micro.cost]
            omega
    · rw [microStep_op ht hp] at hm
      obtain ⟨u, h1, h2⟩ := andThen_eq_next.mp hm
      cases h2
      obtain ⟨e1, -, e3⟩ := microOp_seq h1
      have hs0 : s.spins = 0 := by
        cases op <;> first | exact hfit | exact absurd ⟨_, _, _, _, rfl⟩ hp
      have hz : (u.advance.withTodo rest).spins = 0 := e3.trans hs0
      refine ⟨⟨(microOp_same h1).attached.trans h.attached, fun hi => h.busy ?_, hrest, ?_⟩, ?_⟩
      · rw [← e1]; exact (advance_seq_idle u).mp hi
      · rw [hz]; exact spinsFit_zero hrest
      · unfold State.stepsLeft
        rw [hz, ht, hs0]
        have := hc op (by rw [ht]; simp)
        show 1 + (rest.map Micro.cost).sum - 0 < _
        simp only [List.map_cons, List.sum_cons]
        omega

/-- What is left of `step` after one step of CMD: the rest of the command under way, or nothing. -/
def goOn (s : State) : Res State :=
  match s.seq with
  | .idle => .next s
  | .run _ _ => resume s

theorem goOn_idle {s : State} (h : s.seq = .idle) : goOn s = .next s := by unfold goOn; rw [h]

theorem goOn_busy {s : State} (h : s.seq ≠ .idle) : goOn s = runOps s.todo s := by
  unfold goOn
  split
  · rename_i hi; exact absurd hi h
  · rfl

theorem runOps_withTodo (ops todo : List Micro) (s : State) : runOps ops (s.withTodo todo) = runOps ops s := by
  cases ops <;> rfl

theorem withTodo_self {s : State} {ops : List Micro} (h : s.todo = ops) : s.withTodo ops = s := by subst h; rfl

/-- A command under way goes on as its next single step and then the rest of it. -/
theorem runOps_step {s : State} (h : InFlight s) :
    runOps s.todo s = andThen (toCmd s) fun u => andThen (microStep u) goOn := by
  have others : ∀ {u : State}, toCmd s = .next u → OthersOnly s u := fun hu => (toCmd_others h.attached h.busy hu).1
  cases ht : s.todo with
  | nil =>
    unfold runOps finish
    rw [withTodo_self ht]
    cases hu : toCmd s with
    | next u =>
      have hut : u.todo = [] := (others hu).view.todo.trans ht
      simp only [andThen_next]
      rw [microStep_nil hut]
      rfl
    | _ => rfl
  | cons op rest =>
    unfold runOps
    rw [withTodo_self ht]
    by_cases hp : ∃ place pred n g, op = .poll place pred n g
    · obtain ⟨place, pred, n, g, rfl⟩ := hp
      have hfit : s.spins < n := by have := h.spins; rw [ht] at this; exact this
      obtain ⟨m, hm⟩ : ∃ m, n - s.spins = m + 1 := ⟨n - s.spins - 1, by omega⟩
      unfold runOp
      simp only [hm]
      unfold spin
      cases hu : toCmd s with
      | next u =>
        have ho := others hu
        have hut : u.todo = _ := ho.view.todo.trans ht
        have hus : u.spins = s.spins := ho.view.spins
        have hub : u.seq ≠ .idle := by rw [ho.view.seq]; exact h.busy
        simp only [andThen_next]
        rw [microStep_poll hut]
        unfold pollStep
        cases hr : regRead .cmd .status u with
        | next x =>
          obtain ⟨v, w⟩ := x
          obtain ⟨-, -, hw⟩ := regRead_cases hr
          have hwb : w.advance.seq ≠ .idle := by
            intro hi; apply hub
            have := (advance_seq_idle w).mp hi
            rw [hw] at this
            simpa using this
          have hws : w.spins = s.spins := by rw [hw]; simpa using hus
          have hwt : w.todo = .poll place pred n g :: rest := by rw [hw]; simpa using hut
          have hend : ∀ (x : State) (r : Bool), x.seq ≠ .idle →
              (if (afterSpin g (x, r)).2 = true then runOps rest (afterSpin g (x, r)).1
                else finish (afterSpin g (x, r)).1) = goOn (endPoll g rest (x, r)) := by
            intro x r hx
            have hb : (endPoll g rest (x, r)).seq ≠ .idle := by
              show (afterSpin g (x, r)).1.seq ≠ .idle
              rw [(afterSpin_fields g (x, r)).2.1]; exact hx
            rw [goOn_busy hb]
            unfold endPoll
            rw [runOps_withTodo]
            show _ = runOps (if (afterSpin g (x, r)).2 = true then rest else []) _
            split <;> rfl
          simp only [andThen_next]
          unfold afterStatus
          by_cases hready : pollReady w.params pred v = true
          · rw [if_pos hready, if_pos hready]
            exact hend { w.advance with spins := 0 } true hwb
          · rw [if_neg hready, if_neg hready]
            by_cases hlast : n ≤ w.spins + 1
            · rw [if_pos hlast]
              have hm0 : m = 0 := by omega
              subst hm0
              exact hend (State.log { w.advance with spins := 0 } (.bwe place)) false hwb
            · rw [if_neg hlast]
              rw [goOn_busy (by exact hwb)]
              show _ = runOps w.todo _
              rw [hwt]
              rw [runOps, withTodo_self (s := { w.advance with spins := w.spins + 1 }) hwt]
              unfold runOp
              simp only
              have : n - (w.spins + 1) = m := by omega
              rw [this]
        | _ => rfl
      | _ => rfl
    · rw [runOp_atomic hp]
      cases hu : toCmd s with
      | next u =>
        have ho := others hu
        simp only [andThen_next]
        rw [microStep_op (ho.view.todo.trans ht) hp]
        cases hv : microOp op u with
        | next v =>
          simp only [andThen_next, if_true]
          rw [goOn_busy, runOps_withTodo]
          · rfl
          · intro hi
            apply h.busy
            rw [← ho.view.seq, ← (microOp_seq hv).1]
            exact (advance_seq_idle v).mp hi
        | _ => rfl
      | _ => rfl

/-! What `step` does is a run of single steps. -/

theorem atomicRun_append (l k : List Move) (a : AtomicState) :
    atomicRun (l ++ k) a = andThen (atomicRun l a) (atomicRun k) := by
  induction l generalizing a with
  | nil => rfl
  | cons m l ih =>
    show andThen (atomicStep m a) (atomicRun (l ++ k)) = andThen (andThen (atomicStep m a) (atomicRun l)) (atomicRun k)
    cases atomicStep m a with
    | next b => exact ih b
    | _ => rfl

/-- Two runs of single steps in a row. -/
theorem atomicRun_trans {l k : List Move} {a b c : AtomicState} (h1 : atomicRun l a = .next b)
    (h2 : atomicRun k b = .next c) : atomicRun (l ++ k) a = .next c := by
  rw [atomicRun_append, h1]; exact h2

/-- A single step, and then more. -/
theorem atomicRun_cons {m : Move} {l : List Move} {a b c : AtomicState} (h1 : atomicStep m a = .next b)
    (h2 : atomicRun l b = .next c) : atomicRun (m :: l) a = .next c := by
  unfold atomicRun; rw [h1]; exact h2

/-- While attached, every turn of an agent other than CMD is one single step. -/
theorem atomicStep_other {u : Turn} {s : State} (ha : s.attached = true) (hu : u ≠ .cmd) :
    atomicStep (.agent u) ⟨s, []⟩ = andThen (agentTurn u s) fun t => .next ⟨t, []⟩ := by
  cases u with
  | cmd => exact absurd rfl hu
  | irq => rfl
  | dev => rfl
  | host e =>
    show (if ([] : List BootOp) = [] then hostMove e s else .next ⟨s, []⟩) = _
    rw [if_pos rfl]
    cases e with
    | attach p al => simp [hostMove, agentTurn, hostStep, ha]
    | _ => rfl

/-- A single step of CMD between commands. -/
theorem atomicStep_idle {s : State} {boot : List BootOp} (hq : s.seq = .idle) :
    atomicStep (.agent .cmd) ⟨s, boot⟩ = andThen (takeCommand beginCommand s) fun t => .next ⟨t, boot⟩ := by
  show andThen (cmdStep s) _ = _
  unfold cmdStep
  rw [hq]

/-- A single step of CMD in a command under way. -/
theorem atomicStep_busy {s : State} {boot : List BootOp} (hq : s.seq ≠ .idle) :
    atomicStep (.agent .cmd) ⟨s, boot⟩ =
      andThen (if cmdReady s then microStep s else .next s) fun t => .next ⟨t, boot⟩ := by
  show andThen (cmdStep s) _ = _
  unfold cmdStep
  split
  · rename_i h; exact absurd h hq
  · rfl

theorem microStep_scheduled (s : State) (l : List Turn) : microStep (s.scheduled l) = rescheduled l (microStep s) := by
  have hend : ∀ (g : Bool) (rest : List Micro) (x : State) (r : Bool),
      endPoll g rest (x.scheduled l, r) = (endPoll g rest (x, r)).scheduled l := by
    intro g rest x r
    have hp : (r || (x.scheduled l).params.timeoutPolicy == .proceed) = (r || x.params.timeoutPolicy == .proceed) := rfl
    unfold endPoll afterSpin
    simp only [hp]
    cases r || x.params.timeoutPolicy == .proceed <;> rfl
  cases ht : s.todo with
  | nil => rw [microStep_nil ht, microStep_nil (s := s.scheduled l) ht]; rfl
  | cons op rest =>
    by_cases hp : ∃ place pred n g, op = .poll place pred n g
    · obtain ⟨place, pred, n, g, rfl⟩ := hp
      rw [microStep_poll ht, microStep_poll (s := s.scheduled l) ht]
      unfold pollStep
      rw [regRead_outside]
      cases regRead .cmd .status s with
      | next x =>
        obtain ⟨v, w⟩ := x
        show Host.Outcome.next (afterStatus place pred n g rest v (w.scheduled l)) =
          .next ((afterStatus place pred n g rest v w).scheduled l)
        unfold afterStatus
        rw [outside_params, outside_spins]
        split
        · exact congrArg _ (hend g rest { w.advance with spins := 0 } true)
        · split
          · exact congrArg _ (hend g rest (State.log { w.advance with spins := 0 } (.bwe place)) false)
          · rfl
      | _ => rfl
    · rw [microStep_op ht hp, microStep_op (s := s.scheduled l) ht hp, microOp_outside]
      cases microOp op s <;> rfl

theorem interleave_scheduled (l k : List Turn) (s : State) : interleave l (s.scheduled k) = interleave l s := by
  induction l generalizing s with
  | nil => rfl
  | cons u l ih =>
    have other : andThen (agentTurn u (s.scheduled k)) (interleave l) = andThen (agentTurn u s) (interleave l) := by
      rw [agentTurn_outside]
      cases agentTurn u s with
      | next t => exact ih t
      | _ => rfl
    cases u with
    | cmd =>
      unfold interleave
      have : cmdReady (s.scheduled k) = cmdReady s := rfl
      rw [this]
      split
      · rfl
      · exact ih s
    | irq => exact other
    | dev => exact other
    | host e => exact other

theorem irqDrain_atomic {n : Nat} {s t : State} (ha : s.attached = true) (h : irqDrain n s = .next t) :
    ∃ ms, atomicRun ms ⟨s.scheduled [], []⟩ = .next ⟨t.scheduled [], []⟩ := by
  induction n generalizing s with
  | zero => cases h; exact ⟨[], rfl⟩
  | succ n ih =>
    unfold irqDrain at h
    split at h
    · cases h; exact ⟨[], rfl⟩
    · obtain ⟨u, hu, hn⟩ := andThen_eq_next.mp h
      obtain ⟨ms, hms⟩ := ih ((irqStep_others hu).view.attached.trans ha) hn
      refine ⟨.agent .irq :: ms, atomicRun_cons ?_ hms⟩
      rw [atomicStep_other (u := .irq) (by exact ha) (by simp), agentTurn_outside, show agentTurn .irq s = irqStep s from rfl, hu]
      rfl

/-- The turns before CMD's next step, one single step each. -/
theorem interleave_atomic {l : List Turn} {s t : State} (ha : s.attached = true) (hs : s.seq ≠ .idle)
    (h : interleave l s = .next t) : ∃ ms, atomicRun ms ⟨s.scheduled [], []⟩ = .next ⟨t.scheduled [], []⟩ := by
  induction l generalizing s with
  | nil =>
    unfold interleave at h
    obtain ⟨u, hu, hn⟩ := andThen_eq_next.mp h
    split at hn
    · cases hn; exact irqDrain_atomic (s := { s with sched := [] }) ha hu
    · cases hn
  | cons u l ih =>
    have other : u ≠ .cmd → andThen (agentTurn u s) (interleave l) = .next t →
        ∃ ms, atomicRun ms ⟨s.scheduled [], []⟩ = .next ⟨t.scheduled [], []⟩ := by
      intro hu h
      obtain ⟨v, hv, hn⟩ := andThen_eq_next.mp h
      have ho := agentTurn_others ha hs hv
      obtain ⟨ms, hms⟩ := ih (ho.view.attached.trans ha) (by rw [ho.view.seq]; exact hs) hn
      refine ⟨.agent u :: ms, atomicRun_cons ?_ hms⟩
      rw [atomicStep_other (by exact ha) hu, agentTurn_outside, hv]
      rfl
    cases u with
    | cmd =>
      unfold interleave at h
      split at h
      · cases h; exact ⟨[], rfl⟩
      · exact ih ha hs h
    | irq => exact other (by simp) h
    | dev => exact other (by simp) h
    | host e => exact other (by simp) h

/-- The rest of a command under way, as `step` runs it, is a run of single steps. -/
theorem runOps_atomic {s t : State} (h : InFlight s) (hr : runOps s.todo s = .next t) :
    ∃ ms, atomicRun ms ⟨s.scheduled [], []⟩ = .next ⟨t.scheduled [], []⟩ := by
  induction hn : s.stepsLeft using Nat.strongRecOn generalizing s with
  | _ n ih =>
    subst hn
    rw [runOps_step h] at hr
    obtain ⟨u, hu, hr⟩ := andThen_eq_next.mp hr
    obtain ⟨v, hv, hr⟩ := andThen_eq_next.mp hr
    obtain ⟨ho, hready⟩ := toCmd_others h.attached h.busy hu
    obtain ⟨ms, hms⟩ := interleave_atomic h.attached h.busy hu
    have hu' := h.others ho
    have hstep : atomicStep (.agent .cmd) ⟨u.scheduled [], []⟩ = .next ⟨v.scheduled [], []⟩ := by
      rw [atomicStep_busy (by exact hu'.busy), if_pos (show cmdReady (u.scheduled []) = true from hready),
        microStep_scheduled, hv]
      rfl
    rcases microStep_next hu' hv with ⟨-, hi⟩ | ⟨hv', hlt⟩
    · unfold goOn at hr
      rw [hi] at hr
      cases hr
      exact ⟨ms ++ [.agent .cmd], atomicRun_trans hms (atomicRun_cons hstep rfl)⟩
    · rw [goOn_busy hv'.busy] at hr
      obtain ⟨ms2, hms2⟩ := ih _ (by rw [← ho.stepsLeft]; exact hlt) hv' hr rfl
      exact ⟨ms ++ .agent .cmd :: ms2, atomicRun_trans hms (atomicRun_cons hstep hms2)⟩

/-! A run of single steps that ends between commands is a run of `step`. -/

/-- Another agent's turn at the head of the schedule is taken before anything else. -/
theorem toCmd_other {u : Turn} {l : List Turn} {s : State} (hu : u ≠ .cmd) :
    toCmd (s.scheduled (u :: l)) = andThen (agentTurn u s) fun t => toCmd (t.scheduled l) := by
  have e : toCmd (s.scheduled (u :: l)) = andThen (agentTurn u (s.scheduled (u :: l))) (interleave l) := by
    cases u with
    | cmd => exact absurd rfl hu
    | _ => rfl
  rw [e, agentTurn_outside]
  cases agentTurn u s with
  | next t =>
    show interleave l (t.scheduled (u :: l)) = interleave l (t.scheduled l)
    rw [interleave_scheduled, interleave_scheduled]
  | _ => rfl

/-- CMD's turn at the head of the schedule is passed over while CMD waits, else it is taken. -/
theorem toCmd_cmd {l : List Turn} {s : State} :
    toCmd (s.scheduled (.cmd :: l)) = if cmdReady s then .next (s.scheduled l) else toCmd (s.scheduled l) := by
  show (if cmdReady s then _ else interleave l (s.scheduled (.cmd :: l))) = _
  rw [interleave_scheduled, show toCmd (s.scheduled l) = interleave l (s.scheduled l) from rfl, interleave_scheduled]
  rfl

/-- Turns taken as single steps that find a command under way and leave the machine between commands: the first of them
bring the command to its result, as `step` does under the same schedule; the others come after it. -/
theorem atomicRun_finishes {l : List Turn} {s t : State} (h : InFlight s)
    (hr : atomicRun (l.map .agent) ⟨s, []⟩ = .next ⟨t, []⟩) (ht : t.seq = .idle) :
    ∃ v l1 l2, l = l1 ++ l2 ∧ l1 ≠ [] ∧ atomicRun (l1.map .agent) ⟨s, []⟩ = .next ⟨v, []⟩ ∧ v.seq = .idle ∧
      runOps s.todo (s.scheduled l) = .next (v.scheduled l2) ∧
      atomicRun (l2.map .agent) ⟨v, []⟩ = .next ⟨t, []⟩ := by
  induction l generalizing s with
  | nil => cases hr; exact absurd ht h.busy
  | cons u l ih =>
    obtain ⟨b, hb, hr⟩ := andThen_eq_next.mp hr
    have hb0 := hb
    have hsame : ∀ l, runOps s.todo (s.scheduled l) =
        andThen (toCmd (s.scheduled l)) fun u => andThen (microStep u) goOn := fun l => runOps_step (h.scheduled l)
    by_cases hu : u = .cmd
    · subst hu
      rw [atomicStep_busy h.busy] at hb
      obtain ⟨w, hw, hb⟩ := andThen_eq_next.mp hb
      cases hb
      by_cases hready : cmdReady s = true
      · rw [if_pos hready] at hw
        have hstep : runOps s.todo (s.scheduled (.cmd :: l)) = goOn (w.scheduled l) := by
          rw [hsame, toCmd_cmd, if_pos hready]
          simp only [andThen_next]
          rw [microStep_scheduled, hw]
          rfl
        rcases microStep_next h hw with ⟨-, hi⟩ | ⟨hf, -⟩
        · refine ⟨w, [.cmd], l, rfl, by simp, atomicRun_cons hb0 rfl, hi, ?_, hr⟩
          rw [hstep]
          unfold goOn
          rw [outside_seq, hi]
        · obtain ⟨v, l1, l2, rfl, -, hv, hi, h1, h2⟩ := ih hf hr
          refine ⟨v, .cmd :: l1, l2, rfl, by simp, atomicRun_cons hb0 hv, hi, ?_, h2⟩
          rw [hstep]
          exact (goOn_busy (hf.scheduled _).busy).trans h1
      · rw [if_neg hready] at hw
        cases hw
        obtain ⟨v, l1, l2, rfl, -, hv, hi, h1, h2⟩ := ih h hr
        refine ⟨v, .cmd :: l1, l2, rfl, by simp, atomicRun_cons hb0 hv, hi, ?_, h2⟩
        rw [← h1, hsame, hsame, toCmd_cmd, if_neg hready]
    · rw [atomicStep_other h.attached hu] at hb
      obtain ⟨w, hw, hb⟩ := andThen_eq_next.mp hb
      cases hb
      have hf := h.others (agentTurn_others h.attached h.busy hw)
      obtain ⟨v, l1, l2, rfl, -, hv, hi, h1, h2⟩ := ih hf hr
      refine ⟨v, u :: l1, l2, rfl, by simp, atomicRun_cons hb0 hv, hi, ?_, h2⟩
      rw [← h1, hsame, toCmd_other hu, hw]
      exact (runOps_step (hf.scheduled _)).symm

/-! A command at its beginning. -/

/-- A command's meaning is the run of its plan. -/
theorem exec_eq_runPlan (i : Instr) (s : State) : exec i s = runPlan i (planOf i s.params) s := by
  cases i <;> rfl

/-- Every poll of a command has a ceiling of at least 1 (R7, R120). -/
theorem planOf_ceilings {i : Instr} {p : Params} {prog : List Micro} (hv : p.valid = true)
    (h : planOf i p = .run prog) : ∀ op ∈ prog, 1 ≤ op.cost := by
  have hs : 1 ≤ p.spinBus ∧ 1 ≤ p.spinDma := by
    simp only [Params.valid, Bool.and_eq_true, decide_eq_true_eq] at hv
    obtain ⟨⟨⟨⟨⟨⟨⟨⟨⟨⟨⟨⟨⟨⟨⟨⟨⟨-, h1⟩, h2⟩, -⟩, -⟩, -⟩, -⟩, -⟩, -⟩, -⟩, -⟩, -⟩, -⟩, -⟩, -⟩, -⟩, -⟩, -⟩ := hv
    exact ⟨h1, h2⟩
  have hreads : ∀ l : List (Reg × Word), ∀ op ∈ readAndEmit 0 l, 1 ≤ op.cost := by
    intro l op ho
    rcases mem_readAndEmit ho with ⟨x, -, rfl⟩ | ⟨j, rfl⟩ <;> exact Nat.le_refl _
  cases i with
  | resetFull => cases h; simp [Micro.cost]
  | resetClear => cases h; simp [Micro.cost]
  | configure irq peak cfgbits offset count delay =>
    simp only [planOf, planConfigure] at h
    split at h
    · cases h
    · cases h; cases irq <;> simp [captureSetup, armIrq, disarmIrq, Micro.cost]
  | runScan cfgbits offset count =>
    simp only [planOf, planRunScan] at h
    split at h <;> cases h
    simp [Micro.cost]
  | dmaSelfTest size =>
    simp only [planOf, planDmaSelfTest] at h
    split at h <;> cases h
    simp [Micro.cost, hs.2]
  | triggerPps value =>
    simp only [planOf, planTriggerPps] at h
    split at h <;> cases h
    simp [Micro.cost]
  | seqBus nw nr entries =>
    simp only [planOf, planSeqBus] at h
    split at h
    · cases h
    · cases h
      intro op ho
      rcases mem_batchProgram ho with ⟨_, rfl⟩ | ⟨-, _, rfl | rfl | rfl⟩ | ⟨-, _, _, rfl⟩ | rfl | ⟨_, rfl⟩ <;>
        first | exact hs.1 | exact Nat.le_refl _
  | readStatus => cases h; exact hreads _
  | debugRd roff data =>
    simp only [planOf, planDebugRd] at h
    split at h <;> cases h
    exact hreads _
  | debugWr roff data =>
    simp only [planOf, planDebugWr] at h
    split at h
    · split at h <;> cases h
      simp [Micro.cost]
    · cases h
  | readMaxMin =>
    simp only [planOf, planReadMaxMin] at h
    split at h <;> cases h
    exact hreads _
  | tapRead devid =>
    simp only [planOf, planTapRead] at h
    split at h
    · split at h
      · cases h
      · cases h; simp [Micro.cost]
    · cases h
  | tapWrite devid taps =>
    simp only [planOf, planTapWrite] at h
    split at h
    · split at h
      · cases h
      · cases h; simp [Micro.cost]
    · cases h
  | readWindow len =>
    simp only [planOf, planReadWindow] at h
    split at h
    · cases h
    · split at h
      · cases h
      · cases h; exact hreads _
  | completionCount => cases h; simp [Micro.cost]

/-- The micro-program of a command keeps the lock discipline. -/
theorem planOf_bracketed {i : Instr} {s : State} {prog : List Micro} (h : planOf i s.params = .run prog) :
    bracketed false prog = true := by
  cases i with
  | resetFull => cases h; rfl
  | resetClear => cases h; rfl
  | configure irq peak cfgbits offset count delay =>
    simp only [planOf, planConfigure] at h
    split at h
    · cases h
    · cases h; exact programOf_configure.bracketed
  | runScan cfgbits offset count =>
    simp only [planOf, planRunScan] at h
    split at h <;> cases h
    rfl
  | dmaSelfTest size =>
    simp only [planOf, planDmaSelfTest] at h
    split at h <;> cases h
    rfl
  | triggerPps value =>
    simp only [planOf, planTriggerPps] at h
    split at h <;> cases h
    rfl
  | seqBus nw nr entries =>
    simp only [planOf, planSeqBus] at h
    split at h <;> cases h
    exact batchProgram_bracketed _ _ _
  | readStatus => cases h; rfl
  | debugRd roff data =>
    simp only [planOf, planDebugRd] at h
    split at h <;> cases h
    exact readAndEmit_bracketed _ _
  | debugWr roff data =>
    simp only [planOf, planDebugWr] at h
    split at h
    · split at h <;> cases h
      rfl
    · cases h
  | readMaxMin =>
    simp only [planOf, planReadMaxMin] at h
    split at h <;> cases h
    exact readAndEmit_bracketed _ _
  | tapRead devid =>
    simp only [planOf, planTapRead] at h
    split at h
    · split at h
      · cases h
      · cases h; exact (programOf_taps (devid := devid)).bracketed
    · cases h
  | tapWrite devid taps =>
    simp only [planOf, planTapWrite] at h
    split at h
    · split at h
      · cases h
      · cases h; rfl
    · cases h
  | readWindow len =>
    simp only [planOf, planReadWindow] at h
    split at h
    · cases h
    · split at h
      · cases h
      · cases h; exact readAndEmit_bracketed _ _
  | completionCount => cases h; rfl

/-- A command turned away is answered EINVAL or EILLEGAL (R93, R107). -/
theorem planOf_turnAway {i : Instr} {p : Params} {code : Code} (h : planOf i p = .turnAway code) : code ≠ .ok := by
  rintro rfl
  cases i <;> simp only [planOf, planResetFull, planResetClear, planConfigure, planRunScan, planDmaSelfTest, planTriggerPps,
    planSeqBus, planReadStatus, planDebugRd, planDebugWr, planReadMaxMin, planTapRead, planTapWrite, planReadWindow,
    planCompletionCount, invalid, absent] at h <;> (repeat' split at h) <;> cases h

/-- Everything the beginning of a command can do: it is turned away, or its micro-program stands before it. -/
theorem beginCommand_next {i : Instr} {s t : State} (h : beginCommand i s = .next t) :
    (∃ code, code ≠ .ok ∧ t = startAway i.header code s) ∨
      ∃ prog, planOf i s.params = .run prog ∧ t = (startCommand i s).withTodo prog := by
  unfold beginCommand beginPlan at h
  split at h
  · rename_i prog hp; cases h; exact .inr ⟨prog, hp, rfl⟩
  · rename_i code hp; cases h; exact .inl ⟨code, planOf_turnAway hp, rfl⟩
  · cases h
  · cases h

/-- A command begun is under way. -/
theorem InFlight.start {i : Instr} {s : State} {prog : List Micro} (ha : s.attached = true)
    (hv : s.params.valid = true) (hp : planOf i s.params = .run prog) : InFlight ((startCommand i s).withTodo prog) where
  attached := ha
  busy := by simp
  ceilings := planOf_ceilings hv hp
  spins := spinsFit_zero (planOf_ceilings hv hp)

/-- A command's meaning is its beginning, and then the rest of it. -/
theorem exec_eq_begin (i : Instr) {s : State} (hq : s.seq = .idle) : exec i s = andThen (beginCommand i s) goOn := by
  rw [exec_eq_runPlan]
  unfold beginCommand runPlan beginPlan
  cases planOf i s.params with
  | run prog =>
    show runOps prog (startCommand i s) = goOn ((startCommand i s).withTodo prog)
    rw [goOn_busy (by simp), runOps_withTodo]
    rfl
  | turnAway code => exact (goOn_idle (s := startAway i.header code s) hq).symm
  | _ => rfl

/-- CMD's turn in `step` is its single step, and then the rest of the command. -/
theorem cmdTurn_eq_begin {s : State} (hq : s.seq = .idle) : cmdTurn s = andThen (takeCommand beginCommand s) goOn := by
  have hg : ∀ {t : State}, t.seq = .idle → Host.Outcome.next t = andThen (.next t) goOn := fun ht => (goOn_idle ht).symm
  unfold cmdTurn takeCommand
  split
  · exact hg rfl
  · split
    · cases s.fetch with
      | command i rest => exact exec_eq_begin i (by exact hq)
      | _ => exact hg hq
    · exact hg hq

theorem beginCommand_scheduled (i : Instr) (s : State) (l : List Turn) :
    beginCommand i (s.scheduled l) = rescheduled l (beginCommand i s) := by
  unfold beginCommand beginPlan
  rw [outside_params]
  cases planOf i s.params <;> rfl

theorem takeCommand_scheduled (s : State) (l : List Turn) :
    takeCommand beginCommand (s.scheduled l) = rescheduled l (takeCommand beginCommand s) := by
  have hw : (s.scheduled l).awaits = s.awaits := rfl
  have hm : mayAccept (s.scheduled l) = mayAccept s := rfl
  have hf : (s.scheduled l).fetch = s.fetch := rfl
  unfold takeCommand
  rw [hw, hm, hf]
  split
  · rfl
  · split
    · cases s.fetch with
      | command i rest => exact beginCommand_scheduled i { s with port := rest } l
      | _ => rfl
    · rfl

/-- Everything CMD's single step between commands can do: the result of a command turned away, the acceptance of
another, a word less at the port, or a command under way. -/
theorem takeCommand_next {s t : State} (h : takeCommand beginCommand s = .next t) :
    (s.awaits = true ∧ t = sendResult s.code [] s) ∨
      (mayAccept s = true ∧ ∃ h' code port, code ≠ .ok ∧ t = startAway h' code { s with port := port }) ∨
      (s.awaits = false ∧ ∃ port, t = { s with port := port }) ∨
      (mayAccept s = true ∧ ∃ i port prog, planOf i s.params = .run prog ∧
        t = (startCommand i { s with port := port }).withTodo prog) := by
  rcases takeCommand_cases h with h | h | h | ⟨hm, i, port, -, h⟩
  · exact .inl h
  · exact .inr (.inl h)
  · exact .inr (.inr (.inl h))
  · rcases beginCommand_next h with ⟨code, hc, rfl⟩ | ⟨prog, hp, rfl⟩
    · exact .inr (.inl ⟨hm, _, _, _, hc, rfl⟩)
    · exact .inr (.inr (.inr ⟨hm, _, _, prog, hp, rfl⟩))

/-- HOST's attach, step by step. -/
theorem runBoot_atomic {bs : List BootOp} {s t : State} (h : runBoot bs s = .next t) :
    ∃ ms, atomicRun ms ⟨s, bs⟩ = .next ⟨t, []⟩ := by
  induction bs generalizing s with
  | nil => cases h; exact ⟨[], rfl⟩
  | cons b bs ih =>
    obtain ⟨u, hu, h⟩ := andThen_eq_next.mp h
    obtain ⟨ms, hms⟩ := ih h
    refine ⟨.boot :: ms, atomicRun_cons (b := ⟨u, bs⟩) ?_ hms⟩
    show andThen (bootOp b s) _ = _
    rw [hu]; rfl

/-- One HOST event of `step` is a run of single steps. -/
theorem hostStep_atomic {e : HostEvent} {s t : State} (h : hostStep e s = .next t) :
    ∃ ms, atomicRun ms ⟨s, []⟩ = .next ⟨t, []⟩ := by
  have one : ∀ e, (∀ p al, e ≠ .attach p al) → hostStep e s = .next t → ∃ ms, atomicRun ms ⟨s, []⟩ = .next ⟨t, []⟩ := by
    intro e hne h
    refine ⟨[.agent (.host e)], atomicRun_cons (b := ⟨t, []⟩) ?_ rfl⟩
    show (if ([] : List BootOp) = [] then hostMove e s else .next ⟨s, []⟩) = _
    rw [if_pos rfl]
    cases e with
    | attach p al => exact absurd rfl (hne p al)
    | _ => simp only [hostMove, h, andThen_next]
  cases e with
  | attach p al =>
    by_cases ha : s.attached = true
    · simp only [hostStep, ha, if_true] at h
      cases h
      exact ⟨[], rfl⟩
    · simp only [hostStep, ha] at h
      obtain ⟨⟨u, bs⟩, h1, h2⟩ := andThen_eq_next.mp h
      obtain ⟨ms, hms⟩ := runBoot_atomic h2
      refine ⟨.agent (.host (.attach p al)) :: ms, atomicRun_cons (b := ⟨u, bs⟩) ?_ hms⟩
      show (if ([] : List BootOp) = [] then hostMove (.attach p al) s else .next ⟨s, []⟩) = _
      rw [if_pos rfl]
      simp only [hostMove, ha, h1, andThen_next]
      rfl
  | _ => exact one _ (by simp) h

/-! What every single step keeps. -/

/-- The machine between two single steps: the configuration is valid, HOST's attach finds the session closed and idle,
ILOCK stands with its holder, and a command under way keeps the lock discipline. -/
structure Sound (a : AtomicState) : Prop where
  valid : a.machine.params.valid = true
  booting : a.boot ≠ [] → a.machine.seq = .idle ∧ a.machine.isOpen = false
  detached : a.machine.attached = false → a.machine.seq = .idle ∧ a.machine.irqPhase = .idle ∧ a.machine.blk = .free
  lockIrq : a.machine.ilock = .irq ↔ a.machine.irqPhase ≠ .idle
  rests : a.machine.seq = .idle → a.machine.ilock ≠ .cmd
  inFlight : a.machine.seq ≠ .idle → InFlight a.machine
  bracketed : a.machine.seq ≠ .idle → bracketed (a.machine.ilock == .cmd) a.machine.todo = true

theorem Sound.of_inv {s : State} (h : s.Inv) : Sound ⟨s, []⟩ where
  valid := h.params
  booting := fun hb => absurd rfl hb
  detached := fun ha => ⟨h.seq, by_contra fun hp => absurd (h.handler hp) (by simp [show s.attached = false from ha]), h.revoked ha⟩
  lockIrq := h.lock.1
  rests := fun _ => h.lock.2
  inFlight := fun hq => absurd h.seq hq
  bracketed := fun hq => absurd h.seq hq

theorem Sound.under {s : State} {boot : List BootOp} (h : Sound ⟨s, boot⟩) (hq : s.seq ≠ .idle) :
    Under (s.ilock == .cmd) s :=
  ⟨(h.inFlight hq).attached, hq, h.lockIrq, by simp⟩

/-- Turns of other agents in a command under way keep it. -/
theorem Sound.others {s t : State} {boot : List BootOp} (h : Sound ⟨s, boot⟩) (hq : s.seq ≠ .idle)
    (ho : OthersOnly s t) : Sound ⟨t, []⟩ where
  valid := by rw [show (AtomicState.mk t []).machine.params = s.params from ho.view.params]; exact h.valid
  booting := fun hb => absurd rfl hb
  detached := fun ha => by
    have h1 := (h.inFlight hq).attached
    rw [show s.attached = t.attached from ho.view.attached.symm, ha] at h1
    cases h1
  lockIrq := ho.lockIrq h.lockIrq
  rests := fun hi => absurd (ho.view.seq.symm.trans hi) hq
  inFlight := fun _ => (h.inFlight hq).others ho
  bracketed := fun _ => by
    have e : (t.ilock == .cmd) = (s.ilock == .cmd) := by
      have := ho.lockCmd
      cases h1 : t.ilock <;> cases h2 : s.ilock <;> simp_all
    show Machine.bracketed (t.ilock == .cmd) t.todo = true
    rw [e, ho.view.todo]
    exact h.bracketed hq

/-- A change of fields of an idle machine that no lock depends on. -/
theorem Sound.of_idle {s t : State} {boot boot' : List BootOp} (h : Sound ⟨s, boot⟩) (hv : t.params.valid = true)
    (hq : s.seq = .idle) (hs : t.seq = s.seq) (hb : boot' ≠ [] → t.isOpen = false)
    (ha : t.attached = false → (s.attached = false ∧ t.blk = s.blk) ∨ (t.irqPhase = .idle ∧ t.blk = .free))
    (hl : t.ilock = s.ilock)
    (hp : t.irqPhase = s.irqPhase) : Sound ⟨t, boot'⟩ where
  valid := hv
  booting := fun h => ⟨hs.trans hq, hb h⟩
  detached := fun h1 => ⟨hs.trans hq, by
    rcases ha h1 with ⟨h2, h3⟩ | h2
    · exact ⟨hp.trans (h.detached h2).2.1, h3.trans (h.detached h2).2.2⟩
    · exact h2⟩
  lockIrq := by show t.ilock = .irq ↔ t.irqPhase ≠ .idle; rw [hl, hp]; exact h.lockIrq
  rests := fun _ => by show t.ilock ≠ .cmd; rw [hl]; exact h.rests hq
  inFlight := fun h1 => absurd (hs.trans hq) h1
  bracketed := fun h1 => absurd (hs.trans hq) h1

theorem devComplete_shape (s : State) :
    devComplete s = s ∨ devComplete s = { s with intPend := true, hist := s.hist ++ [.complete] } := by
  unfold devComplete; split
  · exact .inr rfl
  · exact .inl rfl

/-- IRQ's step on an idle machine. -/
theorem Sound.irqStep {s t : State} {boot : List BootOp} (h : Sound ⟨s, boot⟩) (hq : s.seq = .idle)
    (hi : irqStep s = .next t) : Sound ⟨t, boot⟩ := by
  have ho := irqStep_others hi
  have hopen : t.isOpen = s.isOpen := by
    rcases irqStep_cases hi with rfl | ⟨-, -, -, rfl⟩ | ⟨_, _, _, _, -, -, rfl⟩ | ⟨-, -, rfl⟩ | ⟨-, -, -, rfl⟩ <;> rfl
  refine ⟨by rw [show (AtomicState.mk t boot).machine.params = s.params from ho.view.params]; exact h.valid,
    fun hb => ⟨ho.view.seq.trans hq, hopen.trans (h.booting hb).2⟩, fun ha => ?_, ho.lockIrq h.lockIrq,
    fun _ hc => h.rests hq (ho.lockCmd.mp hc), fun h1 => absurd (ho.view.seq.trans hq) h1,
    fun h1 => absurd (ho.view.seq.trans hq) h1⟩
  have ha' : s.attached = false := ho.view.attached.symm.trans ha
  rw [irqStep_detached ha'] at hi
  cases hi
  exact h.detached ha'

theorem attachStart_next {p : Params} {al : Bool} {s t : State} {bs : List BootOp}
    (h : attachStart p al s = .next (t, bs)) :
    (bs = [] ∧ t = s.log (.attach .enomem)) ∨ (p.valid = true ∧ bs = attachProgram ∧ t = attachBegin p s) := by
  unfold attachStart at h
  cases hv : p.valid <;> rw [hv] at h <;> cases al <;> cases h
  · exact .inl ⟨rfl, rfl⟩
  · exact .inr ⟨rfl, rfl, rfl⟩

/-- An event of HOST on an idle machine. -/
theorem Sound.hostMove {e : HostEvent} {s : State} {b : AtomicState} (h : Sound ⟨s, []⟩) (hq : s.seq = .idle)
    (hm : hostMove e s = .next b) : Sound b := by
  have keep : ∀ {t : State}, t.params = s.params → t.seq = s.seq → t.attached = s.attached → t.blk = s.blk →
      t.ilock = s.ilock → t.irqPhase = s.irqPhase → Sound ⟨t, []⟩ := fun h1 h2 h3 hb h4 h5 =>
    h.of_idle (by rw [h1]; exact h.valid) hq h2 (fun h => absurd rfl h) (fun h => .inl ⟨h3.symm.trans h, hb⟩) h4 h5
  cases e with
  | attach p al =>
    unfold Machine.hostMove at hm
    simp only at hm
    split at hm
    · cases hm; exact h
    · rename_i ha
      obtain ⟨⟨t, bs⟩, h1, h2⟩ := andThen_eq_next.mp hm
      cases h2
      rcases attachStart_next h1 with ⟨rfl, rfl⟩ | ⟨hv, rfl, rfl⟩
      · exact keep rfl rfl rfl rfl rfl rfl
      · have ha' : s.attached = false := by simpa using ha
        exact h.of_idle hv hq rfl (fun _ => rfl) (fun h1 => by cases h1) rfl rfl
  | openSession =>
    simp only [Machine.hostMove, hostStep, andThen_next] at hm
    cases hm
    unfold openStep
    split
    · split <;> exact keep rfl rfl rfl rfl rfl rfl
    · exact h
  | closeSession =>
    simp only [Machine.hostMove, hostStep, andThen_next] at hm
    cases hm
    split
    · exact keep rfl rfl rfl rfl rfl rfl
    · exact h
  | detach =>
    obtain ⟨t, h1, h2⟩ := andThen_eq_next.mp hm
    cases h2
    simp only [hostStep] at h1
    split at h1
    · unfold detachStep at h1
      split at h1
      · rename_i hd
        cases h1
        exact h.of_idle h.valid hq rfl (fun h => absurd rfl h) (fun _ => .inr ⟨hd.2, rfl⟩) rfl rfl
      · cases h1
    · cases h1; exact h
  | submit ws => cases hm; exact keep rfl rfl rfl rfl rfl rfl
  | refuseResult => cases hm; exact keep rfl rfl rfl rfl rfl rfl

theorem regWrite_host {r : Reg} {v : Word} {s t : State} (h : regWrite .host r v s = .next t) :
    t.params = s.params ∧ t.seq = s.seq ∧ t.isOpen = s.isOpen ∧ t.attached = s.attached ∧ t.blk = s.blk ∧
      t.ilock = s.ilock ∧ t.irqPhase = s.irqPhase := by
  obtain ⟨-, ⟨-, rfl⟩ | ⟨-, rfl⟩ | ⟨-, _, _, -, rfl⟩ | ⟨-, rfl⟩⟩ := regWrite_cases h <;> simp

/-- A HOST step of an attach. -/
theorem Sound.bootOp {b : BootOp} {rest : List BootOp} {s t : State} (h : Sound ⟨s, b :: rest⟩)
    (hb : bootOp b s = .next t) : Sound ⟨t, rest⟩ := by
  obtain ⟨hq, hopen⟩ := h.booting (by simp)
  have write : ∀ {r : Reg} {v c : Word}, regWrite .host r v { s with cfg := c } = .next t → Sound ⟨t, rest⟩ := by
    intro r v c hw
    obtain ⟨h1, h2, h3, h4, hb, h5, h6⟩ := regWrite_host hw
    exact h.of_idle (by rw [h1]; exact h.valid) hq h2 (fun _ => h3.trans hopen) (fun ha => .inl ⟨h4.symm.trans ha, hb⟩)
      h5 h6
  cases b with
  | writeMode => exact write (r := .modeConfig) (v := 0) (c := 0) hb
  | writeDisable => exact write (r := .intCtrl) (v := s.params.intDisable) (c := s.cfg) hb
  | writeClear => exact write (r := .intCtrl) (v := s.params.intClear) (c := s.cfg) hb
  | initialise =>
    cases hb
    exact ⟨h.valid, fun _ => ⟨rfl, rfl⟩, fun _ => ⟨rfl, rfl, rfl⟩, by simp, fun _ => by simp, fun h1 => absurd rfl h1,
      fun h1 => absurd rfl h1⟩
  | registerLine => cases hb; exact h.of_idle h.valid hq rfl (fun _ => hopen) (fun h1 => .inl ⟨h1, rfl⟩) rfl rfl
  | publish => cases hb; exact h.of_idle h.valid hq rfl (fun _ => hopen) (fun h1 => .inl ⟨h1, rfl⟩) rfl rfl

/-- A micro-operation that is no poll keeps the discipline of the rest. -/
theorem Sound.microStep {s t : State} (h : Sound ⟨s, []⟩) (hq : s.seq ≠ .idle) (hready : cmdReady s = true)
    (hm : microStep s = .next t) : Sound ⟨t, []⟩ := by
  have hf := h.inFlight hq
  have hb := h.bracketed hq
  have hu := h.under hq
  cases ht : s.todo with
  | nil =>
    rw [microStep_nil ht] at hm
    cases hm
    refine ⟨h.valid, fun h1 => absurd rfl h1, fun ha => ?_, h.lockIrq, fun _ hc => ?_, fun h1 => absurd rfl h1,
      fun h1 => absurd rfl h1⟩
    · have := hf.attached
      rw [show s.attached = false from ha] at this
      cases this
    · rw [ht] at hb
      have : s.ilock = .cmd := hc
      simp [Machine.bracketed, this] at hb
  | cons op rest =>
    have hnext := microStep_next hf hm
    rw [ht] at hnext
    obtain ⟨hft, -⟩ : InFlight t ∧ _ := hnext.resolve_left (fun h => by simp at h)
    rw [ht] at hb
    obtain ⟨hallow, hrest, hpoll⟩ := bracketed_cons hb
    -- the lock and the rest of the program after the micro-operation
    suffices hs : t.params = s.params ∧ (t.ilock = .irq ↔ t.irqPhase ≠ .idle) ∧
        Machine.bracketed (t.ilock == .cmd) t.todo = true by
      obtain ⟨h1, h2, h3⟩ := hs
      refine ⟨by rw [show (AtomicState.mk t []).machine.params = s.params from h1]; exact h.valid, fun h1 => absurd rfl h1,
        fun ha => ?_, h2, fun hi => absurd hi hft.busy, fun _ => hft, fun _ => h3⟩
      have := hft.attached
      rw [show t.attached = false from ha] at this
      cases this
    by_cases hp : ∃ place pred n g, op = .poll place pred n g
    · have hbf := hpoll hp
      obtain ⟨place, pred, n, g, rfl⟩ := hp
      rw [microStep_poll ht] at hm
      obtain ⟨⟨v, u⟩, h1, h2⟩ := andThen_eq_next.mp hm
      obtain ⟨-, -, rfl⟩ := regRead_cases h1
      cases h2
      have hrest' : Machine.bracketed (s.ilock == .cmd) rest = true := hrest
      have hnil : Machine.bracketed (s.ilock == .cmd) ([] : List Micro) = true := by rw [hbf]; rfl
      have hend : ∀ (x : State) (r : Bool), x.params = s.params → x.ilock = s.ilock → x.irqPhase = s.irqPhase →
          (endPoll g rest (x, r)).params = s.params ∧
          ((endPoll g rest (x, r)).ilock = .irq ↔ (endPoll g rest (x, r)).irqPhase ≠ .idle) ∧
          Machine.bracketed ((endPoll g rest (x, r)).ilock == .cmd) (endPoll g rest (x, r)).todo = true := by
        intro x r e1 e2 e3
        have e4 : (endPoll g rest (x, r)).params = x.params ∧ (endPoll g rest (x, r)).ilock = x.ilock ∧
            (endPoll g rest (x, r)).irqPhase = x.irqPhase := by
          unfold endPoll afterSpin; split <;> exact ⟨rfl, rfl, rfl⟩
        rw [e4.1, e4.2.1, e4.2.2, e1, e2, e3]
        refine ⟨rfl, h.lockIrq, ?_⟩
        show Machine.bracketed _ (if (afterSpin g (x, r)).2 = true then rest else []) = true
        split
        · exact hrest'
        · exact hnil
      unfold afterStatus
      split
      · exact hend _ _ (by simp) (by simp) (by simp)
      · split
        · exact hend _ _ (by simp) (by simp) (by simp)
        · refine ⟨by simp, by simpa using h.lockIrq, ?_⟩
          simpa [ht] using hb
    · rw [microStep_op ht hp] at hm
      obtain ⟨u, h1, h2⟩ := andThen_eq_next.mp hm
      cases h2
      have hfree : op = .acquireI → s.ilock = .free := by
        rintro rfl
        unfold cmdReady at hready
        rw [ht] at hready
        simpa using hready
      obtain ⟨hk, hun⟩ := microOp_kept (O := op.storesAt s.params) (w := true) hu ⟨fun o ho => ho, fun _ => rfl⟩ hallow
        hfree h1
      refine ⟨hk.params, hun.lockIrq, ?_⟩
      show Machine.bracketed (u.ilock == .cmd) rest = true
      have e : (u.ilock == .cmd) = op.holds (s.ilock == .cmd) := by
        have := hun.lockCmd
        cases h1 : op.holds (s.ilock == .cmd) <;> rw [h1] at this <;> simp_all
      rw [e]
      exact hrest

/-- Every single step keeps it. -/
theorem atomicStep_sound {m : Move} {a b : AtomicState} (h : Sound a) (hs : atomicStep m a = .next b) : Sound b := by
  obtain ⟨s, boot⟩ := a
  cases m with
  | boot =>
    unfold atomicStep at hs
    cases boot with
    | nil => cases hs; exact h
    | cons b rest =>
      obtain ⟨t, h1, h2⟩ := andThen_eq_next.mp hs
      cases h2
      exact h.bootOp h1
  | agent u =>
    by_cases hq : s.seq = .idle
    · cases u with
      | cmd =>
        rw [atomicStep_idle hq] at hs
        obtain ⟨t, h1, h2⟩ := andThen_eq_next.mp hs
        cases h2
        have idle : ∀ {t : State}, t.params = s.params → t.seq = s.seq → t.isOpen = s.isOpen → t.attached = s.attached →
            (s.attached = false → t.blk = s.blk) → t.ilock = s.ilock → t.irqPhase = s.irqPhase → Sound ⟨t, boot⟩ :=
          fun e1 e2 e3 e4 e5 e6 e7 => h.of_idle (by rw [e1]; exact h.valid) hq e2 (fun hb => e3.trans (h.booting hb).2)
            (fun ha => .inl ⟨e4.symm.trans ha, e5 (e4.symm.trans ha)⟩) e6 e7
        rcases takeCommand_next h1 with ⟨hw, rfl⟩ | ⟨hm, hd, code, port, -, rfl⟩ | ⟨-, port, rfl⟩ |
          ⟨hm, i, port, prog, hp, rfl⟩
        · refine idle rfl hq.symm rfl rfl (fun ha => ?_) rfl rfl
          rw [(awaits_iff.mp hw).1] at ha
          cases ha
        · refine idle rfl rfl rfl rfl (fun ha => ?_) rfl rfl
          rw [(mayAccept_iff.mp hm).1] at ha
          cases ha
        · exact idle rfl rfl rfl rfl (fun _ => rfl) rfl rfl
        · obtain ⟨ha, hopen, -, -⟩ := mayAccept_iff.mp hm
          have hf : InFlight ((startCommand i { s with port := port }).withTodo prog) :=
            InFlight.start (s := { s with port := port }) ha h.valid hp
          refine ⟨h.valid, fun hb => ?_, fun hd => ?_, h.lockIrq, fun hi => absurd hi hf.busy, fun _ => hf, fun _ => ?_⟩
          · have := (h.booting hb).2
            rw [show s.isOpen = true from hopen] at this
            cases this
          · rw [show s.attached = false from hd] at ha
            cases ha
          · have hc : (s.ilock == .cmd) = false := by simpa using h.rests hq
            show Machine.bracketed (s.ilock == .cmd) prog = true
            rw [hc]
            exact planOf_bracketed (s := { s with port := port }) hp
      | irq =>
        obtain ⟨t, h1, h2⟩ := andThen_eq_next.mp hs
        cases h2
        exact h.irqStep hq h1
      | dev =>
        cases hs
        rcases devComplete_shape s with he | he <;> rw [he]
        · exact h
        · exact h.of_idle h.valid hq rfl (fun hb => (h.booting hb).2) (fun ha => .inl ⟨ha, rfl⟩) rfl rfl
      | host e =>
        unfold atomicStep agentMove at hs
        simp only at hs
        split at hs
        · rename_i hb
          subst hb
          exact h.hostMove hq hs
        · cases hs; exact h
    · have hb : boot = [] := by
        by_contra hb
        exact hq (h.booting hb).1
      subst hb
      by_cases hu : u = .cmd
      · subst hu
        rw [atomicStep_busy hq] at hs
        obtain ⟨t, h1, h2⟩ := andThen_eq_next.mp hs
        cases h2
        split at h1
        · rename_i hready
          exact h.microStep hq hready h1
        · cases h1; exact h
      · rw [atomicStep_other (h.inFlight hq).attached hu] at hs
        obtain ⟨t, h1, h2⟩ := andThen_eq_next.mp hs
        cases h2
        exact h.others hq (agentTurn_others (h.inFlight hq).attached hq h1)

/-- Every run of single steps keeps it. -/
theorem atomicRun_sound {ms : List Move} {a b : AtomicState} (h : Sound a) (hr : atomicRun ms a = .next b) : Sound b := by
  induction ms generalizing a with
  | nil => cases hr; exact h
  | cons m ms ih =>
    obtain ⟨c, h1, h2⟩ := andThen_eq_next.mp hr
    exact ih (atomicStep_sound h h1) h2

/-- An event of HOST between commands that leaves no attach under way is the event of `step`. -/
theorem hostMove_done {e : HostEvent} {s t : State} (hq : s.seq = .idle) (h : hostMove e s = .next ⟨t, []⟩) :
    hostStep e s = .next t ∧ t.seq = .idle := by
  cases e with
  | attach p al =>
    unfold hostMove at h
    simp only at h
    split at h
    · rename_i ha
      cases h
      exact ⟨by simp [hostStep, ha], hq⟩
    · rename_i ha
      obtain ⟨⟨u, bs⟩, h1, h2⟩ := andThen_eq_next.mp h
      cases h2
      refine ⟨by simp only [hostStep, ha, attachStep, h1, andThen_next]; rfl, ?_⟩
      rcases attachStart_next h1 with ⟨-, rfl⟩ | ⟨-, hb, -⟩
      · exact hq
      · cases hb
  | detach =>
    obtain ⟨u, h1, h2⟩ := andThen_eq_next.mp h
    cases h2
    refine ⟨h1, ?_⟩
    simp only [hostStep] at h1
    split at h1
    · unfold detachStep at h1
      split at h1 <;> cases h1
      exact hq
    · cases h1; exact hq
  | openSession =>
    simp only [hostMove, hostStep, andThen_next, Host.Outcome.next.injEq, AtomicState.mk.injEq, and_true] at h
    subst h
    refine ⟨rfl, ?_⟩
    unfold openStep
    split
    · split <;> exact hq
    · exact hq
  | closeSession =>
    simp only [hostMove, hostStep, andThen_next, Host.Outcome.next.injEq, AtomicState.mk.injEq, and_true] at h
    subst h
    refine ⟨rfl, ?_⟩
    split <;> exact hq
  | submit ws => cases h; exact ⟨rfl, hq⟩
  | refuseResult => cases h; exact ⟨rfl, hq⟩

/-- While HOST's attach is under way turns of the agents do not end it. -/
theorem boot_stays {l : List Turn} {a b : AtomicState} (hb : a.boot ≠ []) (h : atomicRun (l.map .agent) a = .next b) :
    b.boot ≠ [] := by
  induction l generalizing a with
  | nil => cases h; exact hb
  | cons u l ih =>
    obtain ⟨c, h1, h2⟩ := andThen_eq_next.mp h
    refine ih ?_ h2
    unfold atomicStep agentMove at h1
    cases u with
    | cmd => obtain ⟨t, -, h3⟩ := andThen_eq_next.mp h1; cases h3; exact hb
    | irq => obtain ⟨t, -, h3⟩ := andThen_eq_next.mp h1; cases h3; exact hb
    | dev => cases h1; exact hb
    | host e => simp only [if_neg hb] at h1; cases h1; exact hb

/-- A turn of an agent other than CMD, between commands, in `step`. -/
theorem step_other {u : Turn} {l : List Turn} {s : State} (hq : s.seq = .idle) (hu : u ≠ .cmd) :
    step (s.scheduled (u :: l)) = rescheduled l (agentTurn u s) := by
  cases u with
  | cmd => exact absurd rfl hu
  | irq => rw [step_irq (s := s.scheduled (.irq :: l)) hq rfl]; exact irqStep_outside s l false
  | dev => rw [step_dev (s := s.scheduled (.dev :: l)) hq rfl]; exact congrArg _ (devComplete_outside s l false)
  | host e => rw [step_host (s := s.scheduled (.host e :: l)) hq rfl]; exact hostStep_outside e s l false

/-- CMD's turn, between commands, in `step`: its single step, and then the rest of the command. -/
theorem step_cmd_begin {l : List Turn} {s : State} (hq : s.seq = .idle) :
    step (s.scheduled (.cmd :: l)) = andThen (takeCommand beginCommand s) fun t => goOn (t.scheduled l) := by
  rw [step_cmd (s := s.scheduled (.cmd :: l)) hq rfl]
  show cmdTurn (s.scheduled l) = _
  rw [cmdTurn_eq_begin (by exact hq), takeCommand_scheduled]
  cases takeCommand beginCommand s <;> rfl

/-! The port. -/

/-- A turn of another agent takes no word from the port: HOST alone adds some (R231). -/
theorem agentTurn_port {u : Turn} {s t : State} (ha : s.attached = true) (h : agentTurn u s = .next t) :
    s.port <+: t.port := by
  cases u with
  | cmd => cases h; exact List.prefix_refl _
  | irq =>
    rcases irqStep_cases h with rfl | ⟨-, -, -, rfl⟩ | ⟨_, _, _, _, -, -, rfl⟩ | ⟨-, -, rfl⟩ | ⟨-, -, -, rfl⟩ <;>
      exact List.prefix_refl _
  | dev => cases h; rcases devComplete_shape s with he | he <;> rw [he]
  | host e =>
    cases e with
    | attach p b => simp [agentTurn, hostStep, ha] at h; subst h; exact List.prefix_refl _
    | openSession =>
      simp only [agentTurn, hostStep, ha, if_true, openStep] at h
      split at h <;> cases h <;> exact List.prefix_refl _
    | closeSession => simp only [agentTurn, hostStep, ha, if_true] at h; cases h; exact List.prefix_refl _
    | detach =>
      simp only [agentTurn, hostStep, ha, if_true, detachStep] at h
      split at h <;> cases h; exact List.prefix_refl _
    | submit ws => cases h; exact List.prefix_append _ _
    | refuseResult => cases h; exact List.prefix_refl _

/-! A command turned away. -/

/-- A step that is another agent's turn, with the schedule it leaves. -/
theorem step_turn {u : Turn} {l : List Turn} {s t : State} (hq : s.seq = .idle) (hu : u ≠ .cmd)
    (hs : s.sched = u :: l) (h : agentTurn u { s with sched := l } = .next t) : step s = .next t := by
  cases u with
  | cmd => exact absurd rfl hu
  | irq => exact (step_irq hq hs).trans h
  | dev => exact (step_dev hq hs).trans h
  | host e => exact (step_host hq hs).trans h

/-- A command that was turned away is answered after the turns before CMD's, none of them a DETACH. -/
theorem runSteps_awaits {l k : List Turn} {s : State} (hw : s.awaits = true) (hl : s.lockRests) (hs : s.sched = l ++ k)
    (hk : cmdIsNext k = true) (ho : ∀ u ∈ l, u ≠ .cmd ∧ u.detaches = false) :
    ∃ u, OthersOnly s u ∧ s.port <+: u.port ∧ runSteps (l.length + 1) s = .next (sendResult s.code [] { u with sched := k.tail })
    := by
  obtain ⟨ha, hq, hb⟩ := awaits_iff.mp hw
  induction l generalizing s with
  | nil =>
    refine ⟨s, .refl s, List.prefix_refl _, ?_⟩
    have hs' : s.sched = k := hs
    subst hs'
    show andThen (step s) (runSteps 0) = _
    rw [step_cmdIsNext hq (cmdEnabled_awaits hw) hk]
    unfold cmdTurn
    rw [takeCommand_awaits (s := { s with sched := s.sched.tail }) hw]
    rfl
  | cons u l ih =>
    obtain ⟨hu, hd⟩ := ho u (by simp)
    obtain ⟨t, ht⟩ := agentTurn_next (s := { s with sched := l ++ k }) ha hd
    have hot := agentTurn_calm (s := { s with sched := l ++ k }) ha hd ht
    have hw' : t.awaits = true :=
      awaits_iff.mpr ⟨hot.view.attached.trans ha, hot.view.seq.trans hq, hot.view.blk.trans hb⟩
    obtain ⟨v, h1, h2, h3⟩ := ih hw' ⟨hot.lockIrq hl.1, fun hc => hl.2 (hot.lockCmd.mp hc)⟩ (agentTurn_sched ht)
      (fun u hu => ho u (by simp [hu])) (awaits_iff.mp hw').1 (awaits_iff.mp hw').2.1 (awaits_iff.mp hw').2.2
    refine ⟨v, ((OthersOnly.refl s).withSched (l ++ k)).trans (hot.trans h1),
      (agentTurn_port (s := { s with sched := l ++ k }) ha ht).trans h2, ?_⟩
    have hc : t.code = s.code := hot.view.code
    rw [← hc, ← h3]
    show andThen (step s) (runSteps (l.length + 1)) = _
    rw [step_turn hq hu hs ht]
    rfl

/-- What the result of a command turned away leaves, after turns of other agents. -/
theorem turnedAway_of_others {h : Word} {c : Code} {s u : State} {l : List Turn} (ha : s.attached = true)
    (hl : s.lockRests) (hc : c ≠ .ok) (ho : OthersOnly (startAway h c s) u) (hp : s.port <+: u.port) :
    TurnedAway h c s (sendResult c [] { u with sched := l }) := by
  obtain ⟨hout, hh⟩ := sendResult_answer (code := c) (words := []) (s := { u with sched := l }) (fun h => absurd h hc)
    (fun _ => rfl) (by simp)
  refine ⟨ho.view.params, ho.view.lineReg, ho.view.bufAlloc, ho.view.cfg, ho.view.regs, ho.view.draws,
    (sendResult_away_freeIx hc).trans ho.view.freeIx, rfl, rfl, rfl, rfl, rfl, rfl, rfl, rfl,
    ho.view.attached.trans ha, ⟨ho.lockIrq hl.1, fun hcl => hl.2 (ho.lockCmd.mp hcl)⟩, hp, ?_, ?_⟩
  · rw [hout]
    show u.portOut ++ _ = _
    rw [ho.view.portOut]; rfl
  · rw [hh]
    show cmdTrace (u.hist ++ _) = _
    rw [cmdTrace_append, ho.view.trace]
    show cmdTrace (s.hist ++ [.accept h]) ++ _ = _
    rw [cmdTrace_append, List.append_assoc]
    rfl

/-! An attach by its single steps, with completions of DEV between them. -/

/-- `n` completions in a row (R228). -/
def State.completed (n : Nat) (s : State) : State :=
  { s with intPend := s.intPend || decide (0 < n), hist := s.hist ++ List.replicate n .complete }

@[simp] theorem completed_attached (n : Nat) (s : State) : (s.completed n).attached = s.attached := rfl
@[simp] theorem completed_params (n : Nat) (s : State) : (s.completed n).params = s.params := rfl

/-- What one HOST step of an attach leaves (R240, R242). -/
def bootState (b : BootOp) (s : State) : State :=
  match b with
  | .writeMode =>
    { s with cfg := 0, regs := Memory.storeWord s.regs (s.params.off .modeConfig) 0 }.log
      (.write .host (s.params.off .modeConfig) 0)
  | .writeDisable => { s with intEn := false }.log (.write .host (s.params.off .intCtrl) s.params.intDisable)
  | .writeClear => { s with intPend := false }.log (.write .host (s.params.off .intCtrl) s.params.intClear)
  | .initialise =>
    { s with icount := 0, blk := .free, ilock := .free, seq := .idle, todo := [], vals := [], emitted := [],
             code := .ok, spins := 0, irqPhase := .idle, isOpen := false }
  | .registerLine => { s with lineReg := true }
  | .publish => s.log (.attach .ok)

@[simp] theorem bootState_attached (b : BootOp) (s : State) : (bootState b s).attached = s.attached := by cases b <;> rfl
@[simp] theorem bootState_params (b : BootOp) (s : State) : (bootState b s).params = s.params := by cases b <;> rfl

/-- A HOST step of an attach does not stop. -/
theorem bootOp_next {b : BootOp} {p : Params} {s : State} (ha : s.attached = true) (hp : s.params = p)
    (hv : p.valid = true) : bootOp b s = .next (bootState b s) := by
  subst hp
  obtain ⟨d1, d2, d3⟩ := valid_ints hv
  cases b <;> simp [bootOp, bootState, regWrite, intCtrlWrite, State.log, ha, d1.symm, d2.symm, d3.symm, Reg.kind]

/-- Turns of DEV while attached. -/
theorem atomicRun_completions (n : Nat) {s : State} (b : List BootOp) (ha : s.attached = true) :
    atomicRun (List.replicate n (.agent .dev)) ⟨s, b⟩ = .next ⟨s.completed n, b⟩ := by
  induction n generalizing s with
  | zero => simp [atomicRun, State.completed]
  | succ n ih =>
    have hd : devComplete s = { s with intPend := true }.log .complete := by unfold devComplete; rw [if_pos ha]
    rw [List.replicate_succ]
    show atomicRun _ ⟨devComplete s, b⟩ = _
    rw [hd, ih (by exact ha)]
    simp [List.replicate_succ, State.completed, State.log]

/-- A step of an attach, turns of DEV, and then more. -/
theorem atomicRun_bootThen (n : Nat) {b : BootOp} {bs : List BootOp} {l : List Move} {p : Params} {s : State}
    (ha : s.attached = true) (hp : s.params = p) (hv : p.valid = true) :
    atomicRun (.boot :: (List.replicate n (.agent .dev) ++ l)) ⟨s, b :: bs⟩
      = atomicRun l ⟨(bootState b s).completed n, bs⟩ := by
  show andThen (andThen (bootOp b s) _) _ = _
  rw [bootOp_next ha hp hv]
  show atomicRun _ ⟨bootState b s, bs⟩ = _
  rw [atomicRun_append, atomicRun_completions n bs (by simpa using ha)]
  rfl

end Sys2Proof.Machine
end

