-- ==== Sys2Proof/Laws/Blocks.lean ====
section
/-! SUPPORT. Whole blocks of a micro-program alone, each as one update: register writes in a row, arming and disarming
the interrupt, device reads in a row, and the entries of a bus batch. -/

namespace Sys2Proof.Machine

/-! Writes in a row. -/

/-- CMD's writes of storage registers, in turn. -/
def State.stowAll (s : State) (l : List (Reg × Word)) : State :=
  { s with regs := Memory.storeRegs s.regs s.params l, hist := s.hist ++ cmdWrites s.params l }

theorem storeRegs_cons (m : Memory) (p : Params) (x : Reg × Word) (l : List (Reg × Word)) :
    Memory.storeRegs m p (x :: l) = Memory.storeRegs (Memory.storeWord m (p.off x.1) x.2) p l := rfl

theorem storeRegs_append (m : Memory) (p : Params) (l k : List (Reg × Word)) :
    Memory.storeRegs m p (l ++ k) = Memory.storeRegs (Memory.storeRegs m p l) p k := by
  simp [Memory.storeRegs, Memory.storeAll, List.foldl_append]

theorem cmdWrites_append (p : Params) (l k : List (Reg × Word)) :
    cmdWrites p (l ++ k) = cmdWrites p l ++ cmdWrites p k := List.map_append

/-- CMD's writes are CMD's events. -/
theorem cmdTrace_cmdWrites (p : Params) (l : List (Reg × Word)) : cmdTrace (cmdWrites p l) = cmdWrites p l := by
  unfold cmdTrace
  rw [List.filter_eq_self]
  intro e he
  obtain ⟨x, -, rfl⟩ := List.mem_map.mp he
  rfl

/-- Storage writes in a row, then the rest of the program. -/
theorem runAlone_writes {l : List (Reg × Word)} {rest : List Micro} {s : State} (ha : s.attached = true)
    (hk : ∀ x ∈ l, x.1.kind = .storage) :
    runAlone (l.map (fun x => .write x.1 x.2) ++ rest) s = runAlone rest (s.stowAll l) := by
  induction l generalizing s with
  | nil => simp [State.stowAll, Memory.storeRegs, Memory.storeAll, cmdWrites]
  | cons x l ih =>
    rw [List.map_cons, List.cons_append, runAlone_write (by exact ha) (hk x (by simp)),
      ih (s := s.stow x.1 x.2) ha fun y hy => hk y (by simp [hy])]
    unfold State.stowAll State.stow
    simp [storeRegs_cons, cmdWrites]

/-! The interrupt. -/

/-- `ArmIrq` alone (R150). -/
theorem runAlone_arm {s : State} (ha : s.attached = true) (hv : s.params.valid = true) :
    runAlone (armIrq s.params) s =
      .next { s with ilock := .free, intEn := true, intPend := false,
                     hist := s.hist ++ [.write .cmd (s.params.off .intCtrl) s.params.intClear,
                       .write .cmd (s.params.off .intCtrl) s.params.intEnable] } := by
  obtain ⟨-, d2, d3⟩ := valid_ints hv
  unfold armIrq
  let h1 := s.hist ++ [.write .cmd (s.params.off .intCtrl) s.params.intClear]
  let h2 := h1 ++ [.write .cmd (s.params.off .intCtrl) s.params.intEnable]
  rw [runAlone_cons (t := { s with ilock := .cmd }) (by simp) rfl,
    runAlone_cons (t := { s with ilock := .cmd, intPend := false, hist := h1 }) (by simp) ?_,
    runAlone_cons (t := { s with ilock := .cmd, intPend := false, intEn := true, hist := h2 }) (by simp) ?_]
  · simp [runAlone, opAlone, h1, h2]
  · rw [microOp_write, regWrite, if_pos (by exact ha)]
    exact if_pos rfl
  · rw [microOp_write, regWrite, if_pos (by exact ha)]
    exact (if_neg (Ne.symm d2)).trans ((if_neg (Ne.symm d3)).trans (if_pos rfl))

/-- `DisarmIrq` alone (R150). -/
theorem runAlone_disarm {s : State} (ha : s.attached = true) (hv : s.params.valid = true) :
    runAlone (disarmIrq s.params) s =
      .next { s with ilock := .free, intEn := false,
                     hist := s.hist ++ [.write .cmd (s.params.off .intCtrl) s.params.intDisable] } := by
  obtain ⟨d1, -, -⟩ := valid_ints hv
  unfold disarmIrq
  let h1 := s.hist ++ [.write .cmd (s.params.off .intCtrl) s.params.intDisable]
  rw [runAlone_cons (t := { s with ilock := .cmd }) (by simp) rfl,
    runAlone_cons (t := { s with ilock := .cmd, intEn := false, hist := h1 }) (by simp) ?_]
  · simp [runAlone, opAlone, h1]
  · rw [microOp_write, regWrite, if_pos (by exact ha)]
    exact (if_neg (Ne.symm d1)).trans (if_pos rfl)

/-! Device reads in a row. -/

/-- A read of a device-driven register is a draw. -/
theorem fetched_device {s : State} {r : Reg} (mask : Word) (hk : r.kind = .deviceDriven) :
    ∃ d f, s.fetched r mask =
        { s with draws := d, freeIx := f, vals := s.vals ++ [s.drawn &&& mask],
                 hist := s.hist ++ [.read .cmd (s.params.off r) s.drawn] } ∧
      ∀ w ws, s.draws = w :: ws → s.drawn = w ∧ d = ws := by
  obtain ⟨d, f, hd, hw⟩ := afterDraw_shape s
  have h1 : s.fixedRead r = none := by unfold State.fixedRead; rw [hk]
  have h2 : s.readValue r = s.drawn := by unfold State.readValue; rw [h1]; rfl
  have h3 : s.afterRead r = s.afterDraw := by unfold State.afterRead; rw [h1]; rfl
  refine ⟨d, f, ?_, hw⟩
  unfold State.fetched
  rw [h2, h3, hd]
  rfl

/-- Device reads in a row, each emitted under its mask, then the rest of the program (R174, R175). -/
theorem runAlone_reads {l : List (Reg × Word)} {rest : List Micro} {s : State} (ha : s.attached = true)
    (hk : ∀ x ∈ l, x.1.kind = .deviceDriven) :
    ∃ vs d f, vs.length = l.length ∧
      runAlone (readAndEmit s.vals.length l ++ rest) s = runAlone rest
        { s with draws := d, freeIx := f, vals := s.vals ++ List.zipWith (fun v x => v &&& x.2) vs l,
                 emitted := s.emitted ++ List.zipWith (fun v x => v &&& x.2) vs l,
                 hist := s.hist ++ List.zipWith (fun v x => Event.read .cmd (s.params.off x.1) v) vs l } ∧
      ∀ ws r, s.draws = ws ++ r → ws.length = vs.length → vs = ws ∧ d = r := by
  induction l generalizing s with
  | nil =>
    refine ⟨[], s.draws, s.freeIx, rfl, by simp [readAndEmit], fun ws r h hl => ?_⟩
    have hw : ws = [] := List.length_eq_zero_iff.mp hl
    subst hw
    exact ⟨rfl, h⟩
  | cons x l ih =>
    obtain ⟨d, f, hx, hw⟩ := fetched_device (s := s) x.2 (hk x (by simp))
    obtain ⟨vs, d', f', hl, hr, hws⟩ := ih
      (s := { s with draws := d, freeIx := f, vals := s.vals ++ [s.drawn &&& x.2],
                     emitted := s.emitted ++ [s.drawn &&& x.2],
                     hist := s.hist ++ [.read .cmd (s.params.off x.1) s.drawn] }) ha fun y hy => hk y (by simp [hy])
    refine ⟨s.drawn :: vs, d', f', by simp [hl], ?_, ?_⟩
    · rw [readAndEmit, List.cons_append, List.cons_append, runAlone_read (by exact ha), hx, runAlone_emit]
      simp only [List.length_append, List.length_cons, List.length_nil] at hr
      simp only [List.getD_append_right _ _ _ _ (Nat.le_refl _), Nat.sub_self, List.getD_cons_zero]
      rw [hr]
      simp
    · intro ws r hd hlen
      cases ws with
      | nil => simp at hlen
      | cons w ws =>
        obtain ⟨h3, h4⟩ := hw w (ws ++ r) hd
        obtain ⟨h5, h6⟩ := hws ws r h4 (by simpa using hlen)
        exact ⟨by rw [h3, h5], h6⟩

/-! Bus cycles and the entries of a batch. -/


/-- The operands of an entry lie in their ranges (R123). -/
def EntryInRange (p : Params) (e : Entry) : Prop :=
  e.dev.toNat < 2 ^ p.devW ∧ e.addr.toNat < 2 ^ p.addrW ∧ e.data.toNat < 2 ^ p.dataW

/-- The parts of a valid configuration's widths. -/
theorem valid_widths {p : Params} (h : p.valid = true) :
    p.dirBit < 32 ∧ (p.laneMode = .single → p.addrW ≤ p.dirBit) ∧ (p.laneMode = .composite → p.addrW + p.dataW ≤ p.dirBit) := by
  simp only [Params.valid, Params.widthsValid, Bool.and_eq_true, decide_eq_true_eq] at h
  obtain ⟨⟨⟨⟨⟨⟨⟨⟨⟨⟨⟨⟨⟨⟨⟨-, hw⟩, -⟩, -⟩, -⟩, -⟩, -⟩, -⟩, -⟩, -⟩, -⟩, -⟩, -⟩, -⟩, -⟩, -⟩ := h
  obtain ⟨⟨-, h1⟩, h2⟩ := hw
  refine ⟨h1, fun hm => ?_, fun hm => ?_⟩
  · rw [if_neg (by rw [hm]; decide)] at h2; simpa using h2
  · rw [if_pos hm] at h2; simpa using h2

theorem lowBits_of_lt {n : Nat} {v : Word} (h : v.toNat < 2 ^ n) : lowBits n v = v := by
  unfold lowBits; rw [Nat.mod_eq_of_lt h]; simp

/-- The direction bit alone. -/
theorem dirWord_bit (p : Params) (dir : Dir) (k : Nat) (hd : p.dirBit < 32) :
    (dirWord p dir).getLsbD k = (decide (k = p.dirBit) && decide (dir = .read)) := by
  cases dir
  · simp [dirWord]
  · simp only [dirWord, BitVec.getLsbD_shiftLeft]
    by_cases hk : k = p.dirBit
    · subst hk; simp [hd]
    · simp [hk]; omega

theorem bit_of_lt {v : Word} {n k : Nat} (h : v.toNat < 2 ^ n) (hk : n ≤ k) : v.getLsbD k = false := by
  rw [BitVec.getLsbD]
  exact Nat.testBit_lt_two_pow (Nat.lt_of_lt_of_le h (Nat.pow_le_pow_right (by decide) hk))

theorem lowBits_bit (n : Nat) (v : Word) (k : Nat) : (lowBits n v).getLsbD k = (decide (k < n) && v.getLsbD k) := by
  unfold lowBits
  rw [BitVec.getLsbD_ofNat, Nat.testBit_mod_two_pow]
  by_cases hk : k < 32
  · simp [hk, BitVec.getLsbD]
  · simp [hk, BitVec.getLsbD_of_ge v k (by omega)]

/-- The address word of a good address (R124). -/
theorem addressWord_read {p : Params} {dir : Dir} {a : Word} (hd : p.dirBit < 32) (hw : p.addrW ≤ p.dirBit)
    (ha : a.toNat < 2 ^ p.addrW) : lowBits p.addrW (addressWord p dir a) = a ∧ dirOf p (addressWord p dir a) = dir := by
  constructor
  · apply BitVec.eq_of_getLsbD_eq
    intro k hk
    rw [lowBits_bit, addressWord, BitVec.getLsbD_or, dirWord_bit p dir k hd]
    by_cases h : k < p.addrW
    · simp [h, show k ≠ p.dirBit by omega]
    · simp [h, bit_of_lt ha (by omega : p.addrW ≤ k)]
  · unfold dirOf addressWord
    rw [BitVec.getLsbD_or, dirWord_bit p dir _ hd, bit_of_lt ha hw]
    cases dir <;> simp

/-- The composite word of good operands (R125). -/
theorem laneWord_read {p : Params} {dir : Dir} {e : Entry} (hd : p.dirBit < 32) (hw : p.addrW + p.dataW ≤ p.dirBit)
    (ha : e.addr.toNat < 2 ^ p.addrW) (he : e.data.toNat < 2 ^ p.dataW) :
    lowBits p.addrW (laneWord p dir e >>> p.dataW) = e.addr ∧ lowBits p.dataW (laneWord p dir e) = e.data ∧
      dirOf p (laneWord p dir e) = dir := by
  refine ⟨?_, ?_, ?_⟩
  · apply BitVec.eq_of_getLsbD_eq
    intro k hk
    rw [lowBits_bit, laneWord, BitVec.getLsbD_ushiftRight, BitVec.getLsbD_or, BitVec.getLsbD_or, dirWord_bit p dir _ hd,
      BitVec.getLsbD_shiftLeft, bit_of_lt he (by omega : p.dataW ≤ p.dataW + k)]
    by_cases h : k < p.addrW
    · simp [h, show p.dataW + k ≠ p.dirBit by omega, show p.dataW + k < 32 by omega]
    · simp [h, bit_of_lt ha (by omega : p.addrW ≤ k)]
  · apply BitVec.eq_of_getLsbD_eq
    intro k hk
    rw [lowBits_bit, laneWord, BitVec.getLsbD_or, BitVec.getLsbD_or, dirWord_bit p dir _ hd, BitVec.getLsbD_shiftLeft]
    by_cases h : k < p.dataW
    · simp [h, show k ≠ p.dirBit by omega]
    · simp [h, bit_of_lt he (by omega : p.dataW ≤ k)]
  · unfold dirOf laneWord
    rw [BitVec.getLsbD_or, BitVec.getLsbD_or, dirWord_bit p dir _ hd, BitVec.getLsbD_shiftLeft,
      bit_of_lt he (by omega : p.dataW ≤ p.dirBit), bit_of_lt ha (by omega : p.addrW ≤ p.dirBit - p.dataW)]
    cases dir <;> simp

/-- A cycle of SPI_DATA with the device and the address last written (R47). -/
theorem startSingle_held {s : State} {d a : Word} (v : Word) (hd : s.stored .spiDevice = some d)
    (ha : s.stored .spiAddress = some a) :
    startSingle v s = s.log (.busCycle (lowBits s.params.devW d) (lowBits s.params.addrW a) (lowBits s.params.dataW v)
      (dirOf s.params a)) := by
  have h1 : s.afterHeld .spiDevice = s := by unfold State.afterHeld; rw [hd]; rfl
  have h2 : s.afterHeld .spiAddress = s := by unfold State.afterHeld; rw [ha]; rfl
  have h3 : s.held .spiDevice = d := by unfold State.held; rw [hd]; rfl
  have h4 : s.held .spiAddress = a := by unfold State.held; rw [ha]; rfl
  simp only [startSingle, h1, h2, h3, h4]

/-- One cycle alone (R124, R125). -/
theorem runAlone_cycle {p : Params} {dir : Dir} {e : Entry} {rest : List Micro} {s : State} (ha : s.attached = true)
    (hp : s.params = p) (hv : p.valid = true) (he : EntryInRange p e) :
    runAlone (cycleWrites p dir e ++ rest) s = runAlone rest
      { s with regs := Memory.storeRegs s.regs p (busStores p dir [e]), hist := s.hist ++ cycleEvents p dir e } := by
  subst hp
  obtain ⟨h1, h2, h3⟩ := he
  obtain ⟨w1, w2, w3⟩ := valid_widths hv
  unfold cycleWrites cycleEvents busStores
  cases hm : s.params.laneMode with
  | single =>
    obtain ⟨a1, a2⟩ := addressWord_read (dir := dir) w1 (w2 hm) h2
    have hap := valid_apart hv (a := .spiDevice) (b := .spiAddress) (by simp [Params.registers, baseRegs])
      (by simp [Params.registers, baseRegs]) (by simp) ⟨by simp, by simp⟩
    simp only [List.cons_append, List.nil_append]
    rw [runAlone_write (by exact ha) rfl, runAlone_write (by exact ha) rfl]
    generalize hu : (s.stow .spiDevice e.dev).stow .spiAddress (addressWord s.params dir e.addr) = u
    have hp : u.params = s.params := by rw [← hu]; rfl
    have hua : u.attached = true := by rw [← hu]; exact ha
    have hx : (u.log (.write .cmd (u.params.off .spiData) e.data)).stored .spiDevice = some e.dev := by
      show Memory.loadWord u.regs (u.params.off .spiDevice) = _
      rw [hp, ← hu, stow_regs, loadWord_storeWord_outside _ (by simpa using hap)]
      exact loadWord_storeWord _ _ _
    have hy : (u.log (.write .cmd (u.params.off .spiData) e.data)).stored .spiAddress
        = some (addressWord s.params dir e.addr) := by
      show Memory.loadWord u.regs (u.params.off .spiAddress) = _
      rw [hp, ← hu, stow_regs]
      exact loadWord_storeWord _ _ _
    have hw : microOp (.write .spiData e.data) u =
        .next { u with hist := u.hist ++ [.write .cmd (u.params.off .spiData) e.data, .busCycle e.dev e.addr e.data dir] } := by
      rw [microOp_write, regWrite, if_pos hua]
      simp only [Reg.kind, startCycle]
      rw [startSingle_held _ hx hy]
      simp only [log_params, hp, a1, a2, lowBits_of_lt h1, lowBits_of_lt h3]
      simp [State.log, hp]
    rw [runAlone_cons (by simp) hw]
    subst hu
    unfold State.stow
    simp [Memory.storeRegs, Memory.storeAll]
  | composite =>
    obtain ⟨a1, a2, a3⟩ := laneWord_read (dir := dir) w1 (w3 hm) h2 h3
    simp only [List.cons_append, List.nil_append]
    rw [runAlone_cons (by simp) (t := { s with
      hist := s.hist ++ [.write .cmd (s.params.off (.spiLane e.dev.toNat)) (laneWord s.params dir e),
        .busCycle e.dev e.addr e.data dir] }) ?_]
    · rfl
    · rw [microOp_write, regWrite, if_pos (by exact ha)]
      simp only [Reg.kind, startCycle, startLane, State.log]
      rw [a1, a2, a3]
      simp

/-- The words `vs` are the first of the draws `ds`, and `d` is left of them, where there are as many. -/
def Spends (vs ds d : List Word) : Prop := ∀ ws r, ds = ws ++ r → ws.length = vs.length → vs = ws ∧ d = r

theorem Spends.append {xs ys ds d e : List Word} (h1 : Spends xs ds d) (h2 : Spends ys d e) : Spends (xs ++ ys) ds e := by
  intro ws r hd hl
  rw [List.length_append] at hl
  have hs : ds = ws.take xs.length ++ (ws.drop xs.length ++ r) := by
    rw [← List.append_assoc, List.take_append_drop, hd]
  obtain ⟨h3, h4⟩ := h1 _ _ hs (by rw [List.length_take]; omega)
  obtain ⟨h5, h6⟩ := h2 _ _ h4 (by rw [List.length_drop]; omega)
  exact ⟨(congrArg₂ (· ++ ·) h3 h5).trans (List.take_append_drop _ _), h6⟩

/-- A poll of the bus alone, by its reads `vs` and whether it was ready (`r`). -/
theorem runAlone_poll {place : Where} {n : Nat} {rest : List Micro} {s : State} (ha : s.attached = true)
    (hs : s.spins = 0) :
    ∃ vs d f r, runAlone (.poll place .busIdle n true :: rest) s =
        (if r = true ∨ s.params.timeoutPolicy = .proceed then
          runAlone rest { s with draws := d, freeIx := f,
                                 hist := s.hist ++ (statusReads s.params vs ++ if r then [] else [.bwe place]) }
        else
          .next { s with draws := d, freeIx := f, code := .etimeout,
                         hist := s.hist ++ (statusReads s.params vs ++ if r then [] else [.bwe place]) }) ∧
      (if r then ∃ init last, vs = init ++ [last] ∧ pollReady s.params .busIdle last = true ∧ vs.length ≤ n ∧
          ∀ v ∈ init, pollReady s.params .busIdle v = false
        else vs.length = n ∧ ∀ v ∈ vs, pollReady s.params .busIdle v = false) ∧
      ∀ ws k, s.draws = ws ++ k → ws.length = vs.length → vs = ws ∧ d = k := by
  obtain ⟨⟨t, r⟩, ht⟩ := spinAlone_next (place := place) (pred := .busIdle) (n := n - s.spins) ha
  obtain ⟨vs, d, f, hu, h1, h2⟩ := spinAlone_spec ht
  rw [hs, Nat.sub_zero] at h1
  refine ⟨vs, d, f, r, ?_, h1, h2⟩
  have hp : t.params = s.params := by rw [hu]
  rw [runAlone]
  simp only [opAlone, ht, andThen_next]
  by_cases hc : r = true ∨ s.params.timeoutPolicy = .proceed
  · have he : afterSpin true (t, r) = (t, true) := if_pos (by simpa [hp] using hc)
    rw [if_pos hc, he, hu]
    simp only [if_true, List.append_assoc, ← hs]
  · have he : afterSpin true (t, r) = ({ t with code := .etimeout }, false) := if_neg (by simpa [hp] using hc)
    rw [if_neg hc, he, hu]
    simp only [Bool.false_eq_true, if_false, List.append_assoc, ← hs]

/-- A poll of the bus alone (R120, R121): its STATUS words, what it records, and whether the command goes on. -/
theorem runAlone_busPoll {place : Where} {rest : List Micro} {s : State} (ha : s.attached = true) (hs : s.spins = 0) :
    ∃ vs d f, PollWords s.params vs ∧ Spends vs s.draws d ∧
      runAlone (.poll place .busIdle s.params.spinBus true :: rest) s =
        (if pollFails s.params vs then
          .next { s with draws := d, freeIx := f, code := .etimeout, hist := s.hist ++ pollEvents s.params place vs }
        else runAlone rest { s with draws := d, freeIx := f, hist := s.hist ++ pollEvents s.params place vs }) := by
  obtain ⟨vs, d, f, r, hr, hv, hw⟩ :=
    runAlone_poll (place := place) (n := s.params.spinBus) (rest := rest) ha hs
  have hidle : ∀ v, pollReady s.params .busIdle v = true ↔ v &&& s.params.spiBusy = 0 := fun v => by
    simp [pollReady, flagSet, fieldOf]
  have hbusy : ∀ v, pollReady s.params .busIdle v = false ↔ v &&& s.params.spiBusy ≠ 0 := fun v => by
    rw [← Bool.not_eq_true, hidle]
  have he : pollExceeded s.params vs = !r ∧ PollWords s.params vs := by
    cases r with
    | true =>
      obtain ⟨init, last, rfl, h1, h2, h3⟩ := hv
      have hx : pollExceeded s.params (init ++ [last]) = false := by
        rw [pollExceeded, List.all_append]
        simp [(hidle last).mp h1]
      exact ⟨hx, h2, by simpa using fun v hm => (hbusy v).mp (h3 v hm), fun h => by rw [hx] at h; cases h⟩
    | false =>
      obtain ⟨h1, h2⟩ := hv
      have hb : ∀ v ∈ vs, v &&& s.params.spiBusy ≠ 0 := fun v hm => (hbusy v).mp (h2 v hm)
      exact ⟨by simpa [pollExceeded] using hb, Nat.le_of_eq h1, fun v hm => hb v (List.dropLast_subset vs hm), fun _ => h1⟩
  refine ⟨vs, d, f, he.2, hw, ?_⟩
  have hp : pollEvents s.params place vs = statusReads s.params vs ++ if r = true then [] else [.bwe place] := by
    unfold pollEvents; rw [he.1]; cases r <;> rfl
  rw [hr, hp]
  unfold pollFails
  rw [he.1]
  cases r <;> cases s.params.timeoutPolicy <;> rfl

/-- A poll of the bus alone whose first STATUS word is idle: one read (R120). -/
theorem runAlone_idlePoll {place : Where} {rest : List Micro} {s : State} {z : Word} {ds : List Word}
    (ha : s.attached = true) (hs : s.spins = 0) (hn : 1 ≤ s.params.spinBus) (hz : z &&& s.params.spiBusy = 0)
    (hd : s.draws = z :: ds) :
    runAlone (.poll place .busIdle s.params.spinBus true :: rest) s = runAlone rest
      { s with draws := ds, hist := s.hist ++ [.read .cmd (s.params.off .status) z] } := by
  obtain ⟨n, hn⟩ : ∃ n, s.params.spinBus = n + 1 := ⟨_, (Nat.sub_add_cancel hn).symm⟩
  have hv : s.readValue .status = z := by simp [State.readValue, State.fixedRead, Reg.kind, State.drawn, hd]
  have hu : s.afterRead .status = { s with draws := ds } := by
    simp [State.afterRead, State.fixedRead, Reg.kind, State.afterDraw, hd]
  have hp : pollReady s.params .busIdle z = true := by simp [pollReady, flagSet, fieldOf, hz]
  rw [runAlone]
  simp only [opAlone, hn, hs, Nat.sub_zero, spinAlone, regRead, if_pos ha, hv, hu, andThen_next, State.log, hp, if_true,
    afterSpin, Bool.true_or]

/-- What the entries of a batch alone did: `n` cycles, the transactions `txns`, the values read `vs`. -/
structure BatchRun (p : Params) (dir : Dir) (n : Nat) (es : List Entry) (txns : List Event) (vs : List Word) : Prop where
  mine : cmdTrace txns = txns
  cycles : txns.filter Event.isCycle = busCycles dir (es.take n)
  values : vs = (txns.filterMap (Event.readAt (p.off .spiResult))).map (· &&& p.readbackMask)

theorem BatchRun.append {p : Params} {dir : Dir} {n m : Nat} {es fs : List Entry} {t u : List Event} {vs ws : List Word}
    (h1 : BatchRun p dir n es t vs) (h2 : BatchRun p dir m fs u ws) (hn : n = es.length) :
    BatchRun p dir (n + m) (es ++ fs) (t ++ u) (vs ++ ws) where
  mine := by rw [cmdTrace_append, h1.mine, h2.mine]
  cycles := by
    rw [List.filter_append, h1.cycles, h2.cycles, hn]
    simp [busCycles, List.take_append]
  values := by rw [List.filterMap_append, List.map_append, ← h1.values, ← h2.values]

theorem cmdTrace_statusReads (p : Params) (vs : List Word) : cmdTrace (statusReads p vs) = statusReads p vs := by
  unfold cmdTrace
  rw [List.filter_eq_self]
  intro e he
  obtain ⟨x, -, rfl⟩ := List.mem_map.mp he
  rfl

/-- A poll starts no cycle and reads no result. -/
theorem BatchRun.poll {p : Params} (hv : p.valid = true) (dir : Dir) (vs : List Word) (place : Where) :
    BatchRun p dir 0 [] (pollEvents p place vs) [] := by
  have hne : p.off .status ≠ p.off .spiResult := by
    rcases off_ne_of_distinct (valid_map hv).2.2.1 (a := .status) (b := .spiResult)
      (by simp [Params.registers, baseRegs]) (by simp [Params.registers, baseRegs]) (by simp) with h | ⟨h, -⟩ | ⟨h, -⟩
    · exact h
    · cases h
    · cases h
  have h1 : (statusReads p vs).filter Event.isCycle = [] := by
    rw [List.filter_eq_nil_iff]
    intro e he
    obtain ⟨x, -, rfl⟩ := List.mem_map.mp he
    simp [Event.isCycle]
  have h2 : (statusReads p vs).filterMap (Event.readAt (p.off .spiResult)) = [] := by
    rw [List.filterMap_eq_nil_iff]
    intro e he
    obtain ⟨x, -, rfl⟩ := List.mem_map.mp he
    simp [Event.readAt, hne]
  unfold pollEvents
  constructor
  · rw [cmdTrace_append, cmdTrace_statusReads]
    cases pollExceeded p vs <;> rfl
  · rw [List.filter_append, h1]
    cases pollExceeded p vs <;> rfl
  · rw [List.filterMap_append, h2]
    cases pollExceeded p vs <;> rfl

theorem BatchRun.cycle (p : Params) (dir : Dir) (e : Entry) : BatchRun p dir 1 [e] (cycleEvents p dir e) [] := by
  unfold cycleEvents
  cases p.laneMode <;> constructor <;> rfl

/-- The read-back of an entry starts no cycle. -/
theorem BatchRun.back (p : Params) (dir : Dir) (v : Word) :
    BatchRun p dir 0 [] ((backWords dir v).map (Event.read .cmd (p.off .spiResult)))
      ((backWords dir v).map (· &&& p.readbackMask)) := by
  cases dir <;> constructor <;> simp [backWords, cmdTrace, Event.byCmd, Event.isCycle, busCycles, Event.readAt]

/-- Under FAIL a poll that lets the command go on records no BWE. -/
theorem no_bwe_poll {p : Params} {vs : List Word} {place : Where} (hf : p.timeoutPolicy = .fail)
    (hp : pollFails p vs = false) : ∀ e ∈ pollEvents p place vs, e.isBwe = false := by
  have hx : pollExceeded p vs = false := by simpa [pollFails, hf] using hp
  intro e he
  unfold pollEvents at he
  rw [hx] at he
  simp only [Bool.false_eq_true, if_false, List.append_nil] at he
  obtain ⟨x, -, rfl⟩ := List.mem_map.mp he
  rfl

theorem no_bwe_cycle {p : Params} {dir : Dir} {x : Entry} : ∀ e ∈ cycleEvents p dir x, e.isBwe = false := by
  unfold cycleEvents
  cases p.laneMode <;> simp [Event.isBwe]

/-- A poll that fails does so under FAIL, and BWE is its last event. -/
theorem pollFails_last {p : Params} {vs : List Word} (place : Where) (h : pollFails p vs = true) :
    p.timeoutPolicy = .fail ∧ ∀ l, (l ++ pollEvents p place vs).getLast? = some (.bwe place) := by
  simp only [pollFails, Bool.and_eq_true, beq_iff_eq] at h
  refine ⟨h.2, fun l => ?_⟩
  unfold pollEvents
  rw [h.1, ← List.append_assoc]
  simp

/-- The state after part of a batch. -/
def State.batched (s : State) (dir : Dir) (es : List Entry) (txns : List Event) (vs d : List Word) (f : Nat) : State :=
  { s with regs := Memory.storeRegs s.regs s.params (busStores s.params dir es), hist := s.hist ++ txns,
           vals := s.vals ++ vs, draws := d, freeIx := f }

theorem batched_nil {s : State} {dir : Dir} {txns : List Event} {d : List Word} {f : Nat} :
    s.batched dir [] txns [] d f = { s with draws := d, freeIx := f, hist := s.hist ++ txns } := by
  unfold State.batched busStores
  cases s.params.laneMode <;> simp [Memory.storeRegs, Memory.storeAll]

/-- The read-back of one entry alone (R126). -/
theorem runAlone_back {dir : Dir} {rest : List Micro} {s : State} (ha : s.attached = true) :
    ∃ v d f, Spends (backWords dir v) s.draws d ∧
      runAlone (readBack s.params dir ++ rest) s = runAlone rest
        { s with draws := d, freeIx := f, vals := s.vals ++ (backWords dir v).map (· &&& s.params.readbackMask),
                 hist := s.hist ++ (backWords dir v).map (Event.read .cmd (s.params.off .spiResult)) } := by
  cases dir with
  | write =>
    refine ⟨0, s.draws, s.freeIx, fun ws r h hl => ?_, by simp [readBack, backWords]⟩
    have hw : ws = [] := List.length_eq_zero_iff.mp hl
    subst hw
    exact ⟨rfl, h⟩
  | read =>
    obtain ⟨d, f, hx, hw⟩ := fetched_device (s := s) (r := .spiResult) s.params.readbackMask rfl
    refine ⟨s.drawn, d, f, fun ws r h hl => ?_, ?_⟩
    · obtain ⟨w, rfl⟩ := List.length_eq_one_iff.mp hl
      obtain ⟨h1, h2⟩ := hw w r h
      exact ⟨congrArg (fun v => [v]) h1, h2⟩
    · simp only [readBack, List.cons_append, List.nil_append]
      rw [runAlone_read ha, hx]
      rfl

/-- One entry of a batch alone (R127), and the steps of the batch it takes. -/
theorem runAlone_entry {dir : Dir} {k : Nat} {e : Entry} {rest : List Micro} {s : State} (ha : s.attached = true)
    (hv : s.params.valid = true) (hs : s.spins = 0) (he : EntryInRange s.params e) :
    ∃ txns vs zs n d f, BatchRun s.params dir n [e] txns vs ∧ Spends zs s.draws d ∧
      ((n = 1 ∧ vs.length = (if dir = .read then 1 else 0) ∧
          (s.params.timeoutPolicy = .fail → ∀ x ∈ txns, x.isBwe = false) ∧
          (∀ es events words, BatchSteps s.params dir (k + 1) es events words →
            BatchSteps s.params dir k (e :: es) (txns ++ events) (zs ++ words)) ∧
          runAlone (entryProgram s.params dir k e ++ rest) s = runAlone rest (s.batched dir [e] txns vs d f)) ∨
        (s.params.timeoutPolicy = .fail ∧ vs = [] ∧ (∀ es, BatchSteps s.params dir k (e :: es) txns zs) ∧
          runAlone (entryProgram s.params dir k e ++ rest) s
            = .next { s.batched dir ([e].take n) txns vs d f with code := .etimeout } ∧
          ∃ place, txns.getLast? = some (.bwe place) ∧ ((place = .pre k ∧ n = 0) ∨ (place = .post k ∧ n = 1)))) := by
  unfold entryProgram
  rw [List.cons_append, List.append_assoc, List.cons_append]
  obtain ⟨xs, d1, f1, px, sx, hr1⟩ := runAlone_busPoll (place := .pre k) (s := s)
    (rest := cycleWrites s.params dir e ++ .poll (.post k) .busIdle s.params.spinBus true :: (readBack s.params dir ++ rest))
    ha hs
  have b1 := BatchRun.poll hv dir xs (.pre k)
  cases fx : pollFails s.params xs with
  | true =>
    rw [fx, if_pos rfl] at hr1
    obtain ⟨hf, hlast⟩ := pollFails_last (.pre k) fx
    refine ⟨_, [], xs, 0, d1, f1, ⟨b1.mine, b1.cycles, b1.values⟩, sx,
      .inr ⟨hf, rfl, fun es => .preFails k e es xs px fx, ?_, .pre k, hlast [], .inl ⟨rfl, rfl⟩⟩⟩
    rw [hr1, List.take_zero, batched_nil]
  | false =>
    rw [fx] at hr1
    simp only [Bool.false_eq_true, if_false] at hr1
    rw [runAlone_cycle (by exact ha) (by rfl) hv he] at hr1
    obtain ⟨ys, d2, f2, py, sy, hr2⟩ := runAlone_busPoll (place := .post k) (rest := readBack s.params dir ++ rest)
      (s := { s with draws := d1, freeIx := f1, regs := Memory.storeRegs s.regs s.params (busStores s.params dir [e]),
                     hist := s.hist ++ pollEvents s.params (.pre k) xs ++ cycleEvents s.params dir e }) ha hs
    rw [hr2] at hr1
    have b12 := (b1.append (BatchRun.cycle s.params dir e) rfl).append (BatchRun.poll hv dir ys (.post k)) rfl
    have s12 := sx.append sy
    cases fy : pollFails s.params ys with
    | true =>
      rw [fy, if_pos rfl] at hr1
      obtain ⟨hf, hlast⟩ := pollFails_last (.post k) fy
      refine ⟨_, [], xs ++ ys, 1, d2, f2, b12, s12,
        .inr ⟨hf, rfl, fun es => .postFails k e es xs ys px fx py fy, ?_, .post k, hlast _, .inr ⟨rfl, rfl⟩⟩⟩
      rw [hr1]
      simp [State.batched]
    | false =>
      rw [fy] at hr1
      simp only [Bool.false_eq_true, if_false] at hr1
      obtain ⟨v, d3, f3, sv, hr3⟩ := runAlone_back (dir := dir) (rest := rest)
        (s := { s with draws := d2, freeIx := f2, regs := Memory.storeRegs s.regs s.params (busStores s.params dir [e]),
                       hist := s.hist ++ pollEvents s.params (.pre k) xs ++ cycleEvents s.params dir e
                         ++ pollEvents s.params (.post k) ys }) ha
      refine ⟨_, _, _, 1, d3, f3, b12.append (BatchRun.back s.params dir v) rfl, s12.append sv,
        .inl ⟨rfl, ?_, fun hf x hx => ?_, fun es events words h => .entry k e es xs ys v events words px fx py fy h, ?_⟩⟩
      · cases dir <;> simp [backWords]
      · rcases List.mem_append.mp hx with hx | hx
        · rcases List.mem_append.mp hx with hx | hx
          · rcases List.mem_append.mp hx with hx | hx
            · exact no_bwe_poll hf fx x hx
            · exact no_bwe_cycle x hx
          · exact no_bwe_poll hf fy x hx
        · obtain ⟨y, -, rfl⟩ := List.mem_map.mp hx
          rfl
      · rw [hr1, hr3]
        simp [State.batched]

theorem busStores_append (p : Params) (dir : Dir) (es fs : List Entry) :
    busStores p dir (es ++ fs) = busStores p dir es ++ busStores p dir fs := by
  unfold busStores
  cases p.laneMode <;> simp

/-- The entries of a batch alone, from entry `k` (R127): all of them, or under FAIL the first `n` cycles up to the poll
that reached its ceiling. -/
theorem runAlone_entries {dir : Dir} {k : Nat} {es : List Entry} {rest : List Micro} {s : State}
    (ha : s.attached = true) (hv : s.params.valid = true) (hs : s.spins = 0) (he : ∀ e ∈ es, EntryInRange s.params e) :
    ∃ txns vs zs n d f, BatchRun s.params dir n es txns vs ∧ BatchSteps s.params dir k es txns zs ∧ Spends zs s.draws d ∧
      ((n = es.length ∧ vs.length = (if dir = .read then es.length else 0) ∧
          (s.params.timeoutPolicy = .fail → ∀ x ∈ txns, x.isBwe = false) ∧
          runAlone (entriesProgram s.params dir k es ++ rest) s = runAlone rest (s.batched dir es txns vs d f)) ∨
        (s.params.timeoutPolicy = .fail ∧
          runAlone (entriesProgram s.params dir k es ++ rest) s
            = .next { s.batched dir (es.take n) txns vs d f with code := .etimeout } ∧
          ∃ place, txns.getLast? = some (.bwe place) ∧
            ((place = .pre (k + n) ∧ n < es.length) ∨ ∃ m, n = m + 1 ∧ place = .post (k + m) ∧ n ≤ es.length))) := by
  induction es generalizing k s with
  | nil =>
    refine ⟨[], [], [], 0, s.draws, s.freeIx, ⟨rfl, rfl, rfl⟩, .done k, fun ws r h hl => ?_,
      .inl ⟨rfl, by simp, by simp, ?_⟩⟩
    · have hw : ws = [] := List.length_eq_zero_iff.mp hl
      subst hw
      exact ⟨rfl, h⟩
    · simp [entriesProgram, batched_nil]
  | cons e es ih =>
    obtain ⟨t1, v1, z1, n1, d1, f1, b1, s1, h1⟩ := runAlone_entry (dir := dir) (k := k)
      (rest := entriesProgram s.params dir (k + 1) es ++ rest) ha hv hs (he e (by simp))
    rw [entriesProgram, List.append_assoc]
    rcases h1 with ⟨rfl, hl, hb, hstep, hr⟩ | ⟨hp, rfl, hstep, hr, place, hlast, hpl⟩
    · rw [hr]
      obtain ⟨t2, v2, z2, n2, d2, f2, b2, g2, s2, h2⟩ := ih (k := k + 1) (s := s.batched dir [e] t1 v1 d1 f1) ha hv hs
        fun x hx => he x (by simp [hx])
      refine ⟨t1 ++ t2, v1 ++ v2, z1 ++ z2, 1 + n2, d2, f2, b1.append b2 rfl, hstep _ _ _ g2, s1.append s2, ?_⟩
      have hreg : ∀ l : List Entry, Memory.storeRegs (Memory.storeRegs s.regs s.params (busStores s.params dir [e])) s.params
          (busStores s.params dir l) = Memory.storeRegs s.regs s.params (busStores s.params dir (e :: l)) := fun l => by
        rw [← storeRegs_append, ← busStores_append]
        rfl
      rcases h2 with ⟨h3, h4, h5, h6⟩ | ⟨h3, h4, place, h5, h6⟩
      · refine .inl ⟨by simp [h3]; omega, ?_, ?_, ?_⟩
        · rw [List.length_append, hl, h4]
          cases dir <;> simp
          omega
        · intro hf x hx
          rcases List.mem_append.mp hx with hx | hx
          · exact hb hf x hx
          · exact h5 hf x hx
        · refine h6.trans (congrArg _ ?_)
          unfold State.batched
          simp only [hreg, List.append_assoc]
      · refine .inr ⟨h3, ?_, place, ?_, ?_⟩
        · refine h4.trans (congrArg _ ?_)
          unfold State.batched
          simp only [hreg, List.append_assoc, Nat.add_comm 1 n2, List.take_succ_cons]
        · rw [List.getLast?_append, h5]; rfl
        · rcases h6 with ⟨rfl, h7⟩ | ⟨m, rfl, rfl, h7⟩
          · exact .inl ⟨by rw [Nat.add_assoc], by simp; omega⟩
          · exact .inr ⟨m + 1, by omega, by rw [Nat.add_assoc, Nat.add_comm 1 m], by simp; omega⟩
    · refine ⟨t1, [], z1, n1, d1, f1, ?_, hstep es, s1, .inr ⟨hp, ?_, place, hlast, ?_⟩⟩
      · refine ⟨b1.mine, ?_, b1.values⟩
        rw [b1.cycles]
        rcases hpl with ⟨-, rfl⟩ | ⟨-, rfl⟩ <;> rfl
      · rw [hr]
        rcases hpl with ⟨-, rfl⟩ | ⟨-, rfl⟩ <;> rfl
      · rcases hpl with ⟨rfl, rfl⟩ | ⟨rfl, rfl⟩
        · exact .inl ⟨rfl, by simp⟩
        · exact .inr ⟨0, rfl, rfl, by simp⟩

/-- Emits of the values read, from the `i`-th on. -/
theorem runAlone_emits {n i : Nat} {s : State} (h : i + n = s.vals.length) :
    runAlone ((List.range' i n).map .emit) s = .next { s with emitted := s.emitted ++ s.vals.drop i } := by
  induction n generalizing i s with
  | zero =>
    have : s.vals.drop i = [] := List.drop_eq_nil_of_le (by omega)
    simp [runAlone, this]
  | succ n ih =>
    rw [List.range'_succ, List.map_cons, runAlone_emit, ih (by simp; omega)]
    have : s.vals.drop i = s.vals.getD i 0 :: s.vals.drop (i + 1) := by
      rw [List.drop_eq_getElem_cons (by omega), List.getD_eq_getElem _ _ (by omega)]
    simp [this]

/-! Commands with their blocks. -/

/-- The trace of a command whose program alone recorded the events `txns` of CMD. -/
theorem trace_of_hist {i : Instr} {s c : State} {txns : List Event} (hc : c.hist = (startCommand i s).hist ++ txns)
    (ht : cmdTrace txns = txns) : cmdTrace c.hist = cmdTrace s.hist ++ .accept i.header :: txns := by
  have h : (startCommand i s).hist = s.hist ++ [.accept i.header] := rfl
  rw [hc, h, cmdTrace_append, cmdTrace_append, ht, List.append_assoc]
  rfl

/-- What the other agents own through the start of a command. -/
theorem OthersKept.of_start {i : Instr} {s c t : State} (h1 : OthersKept (startCommand i s) c) (h2 : OthersKept c t) :
    OthersKept s t :=
  ⟨h2.isOpen.trans h1.isOpen, h2.port.trans h1.port, h2.icount.trans h1.icount, h2.ilock.trans h1.ilock,
    h2.irqPhase.trans h1.irqPhase, h2.intEn.trans h1.intEn, h2.intPend.trans h1.intPend⟩

/-- The entries of a batch that passes validation (R122, R123). -/
theorem validBatch_used {p : Params} {nw nr : Word} {es : List Entry} (h : ValidBatch p nw nr es) :
    batchInvalid p nw nr es = false ∧ (usedEntries nw nr es).length = nw.toNat + nr.toNat ∧
      usedEntries nw nr es = es.take (nw.toNat + nr.toNat) ∧ nw.toNat + nr.toNat ≤ 16 ∧
      ∀ e ∈ usedEntries nw nr es, EntryInRange p e := by
  obtain ⟨-, hl, h0, h1, h2, h3⟩ := h
  have hc : batchCount nw nr = nw.toNat + nr.toNat := by
    unfold batchCount
    by_cases hn : nw = 0
    · subst hn; simp
    · rcases h0 with h0 | rfl
      · exact absurd h0 hn
      · rw [if_pos hn]; rfl
  have hu : usedEntries nw nr es = es.take (nw.toNat + nr.toNat) := by unfold usedEntries; rw [hc]
  have hle : nw.toNat + nr.toNat ≤ 16 := by rcases h0 with rfl | rfl <;> simp <;> assumption
  refine ⟨?_, by rw [hu, List.length_take, hl]; omega, hu, hle, by rw [hu]; exact h3⟩
  unfold batchInvalid
  simp only [Bool.or_eq_false_iff, decide_eq_false_iff_not, hc, hu]
  refine ⟨⟨?_, by simp [batchMax]; omega⟩, ?_⟩
  · unfold batchMixed; rcases h0 with rfl | rfl <;> simp
  · rw [List.any_eq_false]
    intro e he
    obtain ⟨g1, g2, g3⟩ := h3 e he
    simp [entryBad]
    omega

end Sys2Proof.Machine
end

