-- ==== Sys2Proof/Laws/Fair.lean ====
section
/-! SUPPORT. What bounds the waits of a command in a run of single steps (spec/20_memory.md R76, spec/60_exceptions.md
R209): `step_under_way` says what a single step can do to a command under way, `waits_on_handler` that CMD waits
only for the handler, and `awaits_stays` that a command turned away waits only for CMD's next step. -/

namespace Sys2Proof.Machine

/-- What never rises from some point on is constant from some point on. -/
theorem eventually_const (f : Nat → Nat) (N : Nat) (h : ∀ m, N ≤ m → f (m + 1) ≤ f m) :
    ∃ M, N ≤ M ∧ ∀ m, M ≤ m → f m = f M := by
  induction hn : f N using Nat.strongRecOn generalizing N with
  | _ n ih =>
    subst hn
    by_cases hc : ∀ m, N ≤ m → f m = f N
    · exact ⟨N, Nat.le_refl _, hc⟩
    · simp only [not_forall] at hc
      obtain ⟨m, hm, hne⟩ := hc
      have hle : ∀ k, f (N + k) ≤ f N := by
        intro k
        induction k with
        | zero => exact Nat.le_refl _
        | succ k ihk => exact Nat.le_trans (h (N + k) (by omega)) ihk
      have := hle (m - N)
      rw [show N + (m - N) = m by omega] at this
      obtain ⟨M, hM, hc⟩ := ih (f m) (by omega) m (fun k hk => h k (by omega)) rfl
      exact ⟨M, by omega, hc⟩

/-- How many steps IRQ still has, where no other agent writes INT_CTRL: the handler under way, and one more run of it
if it can start (R214, R217). -/
def irqLeft (s : State) : Nat :=
  s.irqPhase.left + if s.intEn = true ∧ (s.irqPhase = .idle ∨ s.irqPhase = .disabled) then 10 else 0

/-- The command that disables is not the one that enables (log 3). -/
theorem valid_ne {p : Params} (h : p.valid = true) : p.intDisable ≠ p.intEnable :=
  fun e => (valid_ints h).1 e.symm

/-- Every step of IRQ brings it nearer to where it has none (R76). -/
theorem irqStep_irqLeft {s t : State} (hv : s.params.valid = true) (he : irqEnabled s = true) (h : irqStep s = .next t) :
    irqLeft t < irqLeft s := by
  have ha : s.attached = true := by
    unfold irqEnabled at he; rw [Bool.and_eq_true] at he; exact he.1
  unfold irqStep at h
  rw [if_pos he] at h
  unfold irqLeft
  cases hp : s.irqPhase with
  | idle =>
    rw [hp] at h
    cases h
    have : s.intEn = true := by
      unfold irqEnabled at he
      rw [hp] at he
      simp [State.line] at he
      exact he.2.1.2.1
    simp [enterHandler, IrqPhase.left, this]
  | entered =>
    rw [hp] at h
    obtain ⟨u, hu, hn⟩ := andThen_eq_next.mp h
    cases hn
    simp [IrqPhase.left]
  | cleared => rw [hp] at h; cases h; simp [IrqPhase.left]
  | counted =>
    rw [hp] at h
    obtain ⟨u, hu, hn⟩ := andThen_eq_next.mp h
    cases hn
    unfold regWrite at hu
    rw [if_pos ha] at hu
    have : u.intEn = false := by
      have e : intCtrlWrite s.params.intDisable (s.log (.write .irq (s.params.off .intCtrl) s.params.intDisable)) =
          .next { s.log (.write .irq (s.params.off .intCtrl) s.params.intDisable) with intEn := false } :=
        (if_neg (valid_ne hv)).trans (if_pos rfl)
      rw [show intCtrlWrite s.params.intDisable (s.log (.write .irq (s.params.off .intCtrl) s.params.intDisable)) = .next u
        from hu] at e
      cases e; rfl
    simp [IrqPhase.left, this]
  | disabled => rw [hp] at h; cases h; simp only [leaveHandler, State.log]; simp [IrqPhase.left]

/-- In a command under way a turn that is no enabled step of IRQ leaves ILOCK, the handler and the enable. -/
theorem agentTurn_keeps {u : Turn} {s t : State} (ha : s.attached = true) (hq : s.seq ≠ .idle)
    (hn : u = .irq → irqEnabled s = false) (h : agentTurn u s = .next t) :
    t.ilock = s.ilock ∧ t.irqPhase = s.irqPhase ∧ t.intEn = s.intEn := by
  cases u with
  | cmd => cases h; exact ⟨rfl, rfl, rfl⟩
  | irq =>
    have h' : irqStep s = .next t := h
    unfold irqStep at h'
    rw [hn rfl] at h'
    cases h'; exact ⟨rfl, rfl, rfl⟩
  | dev =>
    cases h
    rcases devComplete_shape s with he | he <;> rw [he] <;> exact ⟨rfl, rfl, rfl⟩
  | host e =>
    have h' : hostStep e s = .next t := h
    cases e with
    | attach p b => simp [hostStep, ha] at h'; subst h'; exact ⟨rfl, rfl, rfl⟩
    | openSession =>
      simp only [hostStep, ha, if_true, openStep] at h'
      split at h' <;> cases h' <;> exact ⟨rfl, rfl, rfl⟩
    | closeSession => simp only [hostStep, ha, if_true] at h'; cases h'; exact ⟨rfl, rfl, rfl⟩
    | detach => simp [hostStep, ha, detachStep, hq] at h'
    | submit ws => cases h'; exact ⟨rfl, rfl, rfl⟩
    | refuseResult => cases h'; exact ⟨rfl, rfl, rfl⟩

/-- Everything a single step can do to a command under way: CMD comes nearer to the result, IRQ comes nearer to where
it has no step, or nothing that either waits on changes. -/
theorem step_under_way {m : Move} {s : State} {boot : List BootOp} {b : AtomicState} (h : Sound ⟨s, boot⟩)
    (hq : s.seq ≠ .idle) (hs : atomicStep m ⟨s, boot⟩ = .next b) (hb : b.machine.seq ≠ .idle) :
    (m = .agent .cmd ∧ cmdReady s = true ∧ b.machine.stepsLeft < s.stepsLeft) ∨
    (m = .agent .irq ∧ irqEnabled s = true ∧ b.machine.stepsLeft = s.stepsLeft ∧ irqLeft b.machine < irqLeft s) ∨
    (¬ (m = .agent .cmd ∧ cmdReady s = true) ∧ ¬ (m = .agent .irq ∧ irqEnabled s = true) ∧ b.machine.stepsLeft = s.stepsLeft ∧
      b.machine.ilock = s.ilock ∧ b.machine.irqPhase = s.irqPhase ∧ b.machine.intEn = s.intEn) := by
  have hbt : boot = [] := by
    by_contra hne; exact hq (h.booting hne).1
  subst hbt
  cases m with
  | boot => cases hs; exact .inr (.inr ⟨by simp, by simp, rfl, rfl, rfl, rfl⟩)
  | agent u =>
    by_cases hu : u = .cmd
    · subst hu
      rw [atomicStep_busy hq] at hs
      obtain ⟨t, h1, h2⟩ := andThen_eq_next.mp hs
      cases h2
      by_cases hready : cmdReady s = true
      · rw [if_pos hready] at h1
        rcases microStep_next (h.inFlight hq) h1 with ⟨-, hi⟩ | ⟨-, hlt⟩
        · exact absurd hi hb
        · exact .inl ⟨rfl, hready, hlt⟩
      · rw [if_neg hready] at h1
        cases h1
        exact .inr (.inr ⟨fun h => hready h.2, by simp, rfl, rfl, rfl, rfl⟩)
    · rw [atomicStep_other (h.inFlight hq).attached hu] at hs
      obtain ⟨t, h1, h2⟩ := andThen_eq_next.mp hs
      cases h2
      have ho := agentTurn_others (h.inFlight hq).attached hq h1
      by_cases hi : u = .irq ∧ irqEnabled s = true
      · obtain ⟨rfl, he⟩ := hi
        exact .inr (.inl ⟨rfl, he, ho.stepsLeft, irqStep_irqLeft h.valid he h1⟩)
      · have hn : u = .irq → irqEnabled s = false := fun h => by
          by_contra hne; exact hi ⟨h, by simpa using hne⟩
        obtain ⟨e1, e2, e3⟩ := agentTurn_keeps (h.inFlight hq).attached hq hn h1
        exact .inr (.inr ⟨fun h => hu (by simpa using h.1), fun h => hi ⟨by simpa using h.1, h.2⟩, ho.stepsLeft, e1, e2, e3⟩)

/-- CMD waits only while the handler is under way. -/
theorem waits_on_handler {s : State} {boot : List BootOp} (h : Sound ⟨s, boot⟩) (hq : s.seq ≠ .idle)
    (hw : cmdReady s = false) : s.ilock = .irq ∧ s.irqPhase ≠ .idle := by
  have hb := h.bracketed hq
  have hl := h.lockIrq
  simp only at hb hl
  suffices s.ilock = .irq from ⟨this, hl.mp this⟩
  unfold cmdReady at hw
  split at hw
  · rename_i ht
    rw [ht] at hb
    cases hk : s.ilock <;> simp_all [bracketed, Micro.allowed]
  · rename_i ht
    rw [ht] at hb
    cases hk : s.ilock <;> simp_all [bracketed, Micro.allowed]
  · cases hw

/-- A handler under way always has a step (R214). -/
theorem irqEnabled_of {s : State} (ha : s.attached = true) (hl : s.ilock = .irq) (hp : s.irqPhase ≠ .idle) :
    irqEnabled s = true := by
  unfold irqEnabled
  cases hq : s.irqPhase <;> simp_all

/-- While a command turned away awaits its result, a single step that leaves it waiting is none of CMD's: CMD's next one
answers (R104). -/
theorem awaits_stays {m : Move} {a b : AtomicState} (hs : Sound a) (hq : a.machine.seq = .idle)
    (hb : a.machine.blk = .held) (h : atomicStep m a = .next b) (hb' : b.machine.blk = .held) :
    b.machine.seq = .idle ∧ m ≠ .agent .cmd := by
  obtain ⟨s, boot⟩ := a
  have ha : s.attached = true := by
    by_contra ha
    have := (hs.detached (by simpa using ha)).2.2
    rw [hb] at this; cases this
  cases m with
  | boot =>
    unfold atomicStep at h
    cases boot with
    | nil => cases h; exact ⟨hq, by simp⟩
    | cons b rest =>
      obtain ⟨t, h1, h2⟩ := andThen_eq_next.mp h
      cases h2
      refine ⟨?_, by simp⟩
      cases b with
      | writeMode => exact (regWrite_host (r := .modeConfig) (v := 0) (s := {s with cfg := 0}) h1).2.1.trans hq
      | writeDisable => exact (regWrite_host (r := .intCtrl) (v := s.params.intDisable) (s := s) h1).2.1.trans hq
      | writeClear => exact (regWrite_host (r := .intCtrl) (v := s.params.intClear) (s := s) h1).2.1.trans hq
      | initialise => cases h1; rfl
      | registerLine => cases h1; exact hq
      | publish => cases h1; exact hq
  | agent u =>
    cases u with
    | cmd =>
      rw [atomicStep_idle hq, takeCommand_awaits (awaits_iff.mpr ⟨ha, hq, hb⟩)] at h
      cases h; cases hb'
    | irq =>
      obtain ⟨t, h1, h2⟩ := andThen_eq_next.mp h
      cases h2
      exact ⟨(irqStep_others h1).view.seq.trans hq, by simp⟩
    | dev => cases h; exact ⟨(devComplete_others s).view.seq.trans hq, by simp⟩
    | host e =>
      refine ⟨?_, by simp⟩
      unfold atomicStep agentMove at h
      simp only at h
      split at h
      · cases e with
        | attach p al => simp only [hostMove, ha, if_true] at h; cases h; exact hq
        | detach =>
          obtain ⟨u, h1, h2⟩ := andThen_eq_next.mp h
          cases h2
          simp only [hostStep, ha, if_true, detachStep] at h1
          split at h1 <;> cases h1
          exact hq
        | openSession =>
          unfold hostMove at h
          simp only at h
          obtain ⟨u, h1, h2⟩ := andThen_eq_next.mp h
          cases h2; exact (hostStep_others (e := .openSession) ha (.inl (by simp)) h1).view.seq.trans hq
        | closeSession =>
          unfold hostMove at h
          simp only at h
          obtain ⟨u, h1, h2⟩ := andThen_eq_next.mp h
          cases h2; exact (hostStep_others (e := .closeSession) ha (.inl (by simp)) h1).view.seq.trans hq
        | submit ws => cases h; exact hq
        | refuseResult => cases h; exact hq
      · cases h; exact hq

end Sys2Proof.Machine
end

