-- ==== Sys2Proof/Laws/Locked.lean ====
section
/-! SUPPORT. What CMD does under ILOCK: while it holds the lock IRQ records nothing, and every handler run that began
before has ended (spec/60_exceptions.md R215). -/

namespace Sys2Proof.Machine

/-- IRQ has no step while CMD holds ILOCK and no handler is under way (R213). -/
theorem irqStep_locked {s : State} (hl : s.ilock = .cmd) (hp : s.irqPhase = .idle) : irqStep s = .next s := by
  unfold irqStep irqEnabled
  rw [hp, hl]
  simp

/-- `t` is later than `s`, and IRQ recorded nothing in between. -/
def Silent (s t : State) : Prop := ∃ l, t.hist = s.hist ++ l ∧ ∀ e ∈ l, e.byIrq = false

theorem Silent.of_hist {s t : State} (h : t.hist = s.hist) : Silent s t := ⟨[], by simp [h], by simp⟩

theorem Silent.of_event {s t : State} (e : Event) (he : e.byIrq = false) (h : t.hist = s.hist ++ [e]) : Silent s t :=
  ⟨[e], h, by simpa using he⟩

theorem Silent.trans {s t u : State} (h1 : Silent s t) (h2 : Silent t u) : Silent s u := by
  obtain ⟨l, h1, hl⟩ := h1
  obtain ⟨m, h2, hm⟩ := h2
  exact ⟨l ++ m, by rw [h2, h1, List.append_assoc], fun e he => (List.mem_append.mp he).elim (hl e) (hm e)⟩

/-- A turn of another agent while CMD holds ILOCK. -/
theorem agentTurn_silent {u : Turn} {s t : State} (ha : s.attached = true) (hs : s.seq ≠ .idle) (hl : s.ilock = .cmd)
    (hp : s.irqPhase = .idle) (h : agentTurn u s = .next t) : Silent s t := by
  cases u with
  | cmd => cases h; exact .of_hist rfl
  | irq => rw [agentTurn, irqStep_locked hl hp] at h; cases h; exact .of_hist rfl
  | dev =>
    cases h
    unfold devComplete
    rw [if_pos ha]
    exact .of_event .complete rfl rfl
  | host e =>
    cases e with
    | attach p b => simp [agentTurn, hostStep, ha] at h; subst h; exact .of_hist rfl
    | openSession =>
      simp only [agentTurn, hostStep, ha, if_true, openStep] at h
      split at h <;> cases h
      · exact .of_event (.opened false) rfl rfl
      · exact .of_event (.opened true) rfl rfl
    | closeSession =>
      simp only [agentTurn, hostStep, ha, if_true] at h
      cases h
      exact .of_event .closed rfl rfl
    | detach => simp [agentTurn, hostStep, ha, detachStep, hs] at h
    | submit ws => cases h; exact .of_hist rfl
    | refuseResult => cases h; exact .of_hist rfl

theorem irqDrain_locked {n : Nat} {s : State} (hl : s.ilock = .cmd) (hp : s.irqPhase = .idle) :
    irqDrain n s = .next s := by
  induction n with
  | zero => rfl
  | succ n ih =>
    unfold irqDrain
    split
    · rfl
    · rw [irqStep_locked hl hp]; exact ih

/-- Everything that happens before CMD's next step while it holds ILOCK. -/
theorem interleave_silent {l : List Turn} {s t : State} (ha : s.attached = true) (hs : s.seq ≠ .idle)
    (hl : s.ilock = .cmd) (hp : s.irqPhase = .idle) (h : interleave l s = .next t) : Silent s t := by
  induction l generalizing s with
  | nil =>
    unfold interleave at h
    obtain ⟨u, hu, hn⟩ := andThen_eq_next.mp h
    rw [irqDrain_locked (s := { s with sched := [] }) hl hp] at hu
    cases hu
    split at hn
    · cases hn; exact .of_hist rfl
    · cases hn
  | cons u l ih =>
    have other : andThen (agentTurn u s) (interleave l) = .next t → Silent s t := by
      intro h
      obtain ⟨v, hv, hn⟩ := andThen_eq_next.mp h
      have ho := agentTurn_others ha hs hv
      exact (agentTurn_silent ha hs hl hp hv).trans
        (ih (ho.view.attached.trans ha) (by rw [ho.view.seq]; exact hs) (ho.lockCmd.mpr hl) (ho.underLock hl hp).1 hn)
    cases u with
    | cmd =>
      unfold interleave at h
      split at h
      · cases h; exact .of_hist rfl
      · exact ih ha hs hl hp h
    | irq => exact other h
    | dev => exact other h
    | host e => exact other h

theorem Under.idle {s : State} (h : Under true s) : s.ilock = .cmd ∧ s.irqPhase = .idle := by
  have hl := h.lockCmd.mpr rfl
  refine ⟨hl, ?_⟩
  by_contra hp
  have := h.lockIrq.mpr hp
  rw [hl] at this
  cases this

/-! A micro-program taken apart, whatever the schedule is. -/

/-- What a run up to a point of its micro-program leaves: later, in the same session, the counter still the count of
handler runs. -/
structure Reached (b : Bool) (s u : State) : Prop where
  under : Under b u
  params : u.params = s.params
  hist : s.hist <+: u.hist
  runs : ∀ base, s.params.icountW ≤ 32 → CountsRuns base s → CountsRuns base u

theorem Reached.refl {b : Bool} {s : State} (h : Under b s) : Reached b s s := ⟨h, rfl, List.prefix_refl _, fun _ _ h => h⟩

theorem Reached.trans {b c : Bool} {s t u : State} (h1 : Reached b s t) (h2 : Reached c t u) : Reached c s u :=
  ⟨h2.under, h2.params.trans h1.params, h1.hist.trans h2.hist,
    fun base hw hc => h2.runs base (by rw [h1.params]; exact hw) (h1.runs base hw hc)⟩

/-- One micro-operation that is no poll, and then the rest. -/
theorem runOps_cons {b : Bool} {op : Micro} {rest : List Micro} {s t : State} (h : Under b s)
    (hn : ¬ ∃ place pred n g, op = .poll place pred n g) (ha : op.allowed b = true)
    (hr : runOps (op :: rest) s = .next t) :
    ∃ v w u, toCmd (s.withTodo (op :: rest)) = .next v ∧ microOp op v = .next w ∧ u = w.advance ∧
      Reached (op.holds b) s u ∧ runOps rest u = .next t := by
  obtain ⟨⟨u, go⟩, h1, h2⟩ := andThen_eq_next.mp hr
  have h' : Under b (s.withTodo (op :: rest)) := ⟨h.attached, h.busy, h.lockIrq, h.lockCmd⟩
  obtain ⟨hk, hu⟩ := runOp_kept (O := op.storesAt s.params) (w := true) h' rfl ⟨fun o ho => ho, fun _ => rfl⟩ ha h1
  have hk' := (withTodo_kept (O := op.storesAt s.params) (w := true) s (op :: rest)).trans hk
  rw [runOp_atomic hn] at h1
  obtain ⟨v, hv, h1⟩ := andThen_eq_next.mp h1
  obtain ⟨w, hw, h1⟩ := andThen_eq_next.mp h1
  cases h1
  exact ⟨v, w, _, hv, hw, rfl, ⟨hu, hk'.params, hk'.hist, hk'.runs⟩, h2⟩

theorem Micro.no_lock {op : Micro} (h : op.locks = false) : op.allowed false = true ∧ op.holds false = false := by
  cases op <;> first | exact ⟨rfl, rfl⟩ | cases h

/-- Micro-operations before the first lock operation. -/
theorem runOps_prefix {pre rest : List Micro} {s t : State} (h : Under false s)
    (hp : ∀ op ∈ pre, op.locks = false ∧ ¬ ∃ place pred n g, op = .poll place pred n g)
    (hr : runOps (pre ++ rest) s = .next t) : ∃ u, Reached false s u ∧ runOps rest u = .next t := by
  induction pre generalizing s with
  | nil => exact ⟨s, .refl h, hr⟩
  | cons op pre ih =>
    obtain ⟨hl, hn⟩ := hp op (by simp)
    obtain ⟨ha, hh⟩ := Micro.no_lock hl
    obtain ⟨-, -, u, -, -, -, hu, h2⟩ := runOps_cons h hn ha hr
    rw [hh] at hu
    obtain ⟨v, hv, h3⟩ := ih hu.under (fun o ho => hp o (by simp [ho])) h2
    exact ⟨v, hu.trans hv, h3⟩

/-- Writes of INT_CTRL while CMD holds ILOCK. -/
theorem runOps_intWrites {l : List Word} {rest : List Micro} {s t : State} (h : Under true s)
    (hr : runOps (l.map (.write .intCtrl) ++ rest) s = .next t) :
    ∃ u mid, Reached true s u ∧ runOps rest u = .next t ∧ u.hist = s.hist ++ mid ∧ (∀ e ∈ mid, e.byIrq = false) ∧
      cmdTrace mid = cmdWrites s.params (l.map fun v => (.intCtrl, v)) := by
  induction l generalizing s with
  | nil => exact ⟨s, [], .refl h, hr, by simp, by simp, rfl⟩
  | cons v l ih =>
    obtain ⟨x, y, u, hx, hy, rfl, hu, h2⟩ := runOps_cons h (by rintro ⟨_, _, _, _, h⟩; cases h) rfl hr
    obtain ⟨hl, hp⟩ := h.idle
    obtain ⟨ho, -⟩ := toCmd_others (s := s.withTodo (.write .intCtrl v :: _)) h.attached h.busy hx
    obtain ⟨m1, hm1, hs1⟩ := interleave_silent (s := s.withTodo (.write .intCtrl v :: _)) h.attached h.busy hl hp hx
    obtain ⟨en, pend, rfl⟩ := regWrite_intCtrl (show regWrite .cmd .intCtrl v x = .next y from hy)
    obtain ⟨z, m2, hz, h3, hm2, hs2, ht2⟩ := ih hu.under h2
    refine ⟨z, m1 ++ .write .cmd (s.params.off .intCtrl) v :: m2, hu.trans hz, h3, ?_, ?_, ?_⟩
    · rw [hm2]
      show (x.hist ++ [.write .cmd (x.params.off .intCtrl) v]) ++ m2 = _
      rw [hm1, ho.view.params]
      simp
    · intro e he
      rcases List.mem_append.mp he with he | he
      · exact hs1 e he
      · rcases List.mem_cons.mp he with rfl | he
        · rfl
        · exact hs2 e he
    · have ht := ho.view.trace
      rw [hm1, cmdTrace_append] at ht
      rw [cmdTrace_append, show cmdTrace m1 = [] from List.append_right_eq_self.mp ht]
      show cmdTrace ([.write .cmd (s.params.off .intCtrl) v] ++ m2) = _
      rw [cmdTrace_append, ht2, hu.params]
      rfl

/-- An arm or disarm sequence at the end of a micro-program (R150): every handler run that began before its writes has
ended before them, and IRQ records nothing from the first to the last of them. -/
theorem runOps_locked {pre : List Micro} {l : List Word} {base : Nat} {s t : State} (h : Under false s)
    (hp : ∀ op ∈ pre, op.locks = false ∧ ¬ ∃ place pred n g, op = .poll place pred n g) (hw : s.params.icountW ≤ 32)
    (hc : CountsRuns base s)
    (hr : runOps (pre ++ .acquireI :: (l.map (.write .intCtrl) ++ [.releaseI])) s = .next t) :
    ∃ before mid after, t.hist = s.hist ++ before ++ mid ++ after ∧
      cmdTrace mid = cmdWrites s.params (l.map fun v => (.intCtrl, v)) ∧ (∀ e ∈ mid, e.byIrq = false) ∧
      handlerEntries (s.hist ++ before) = handlerRuns (s.hist ++ before) ∧ CountsRuns base t := by
  obtain ⟨u, hu, hr⟩ := runOps_prefix h hp hr
  obtain ⟨-, -, v, -, -, -, hv, hr⟩ := runOps_cons hu.under (by rintro ⟨_, _, _, _, h⟩; cases h) rfl hr
  obtain ⟨w, mid, hw', hr, hm, hs, ht⟩ := runOps_intWrites hv.under hr
  have huv := hu.trans hv
  have huw := huv.trans hw'
  obtain ⟨hk, -⟩ := runOps_kept (b := true) (w := true) (O := []) hw'.under
    (by intro op ho; rw [List.mem_singleton.mp ho]; exact ⟨by simp [Micro.storesAt], fun _ => rfl⟩) rfl hr
  obtain ⟨before, hb⟩ := huv.hist
  obtain ⟨after, haf⟩ := hk.hist
  have hcv := huv.runs base hw hc
  refine ⟨before, mid, after, by rw [← haf, hm, ← hb], by rw [ht, huv.params], hs, ?_,
    hk.runs base (by rw [huw.params]; exact hw) (huw.runs base hw hc)⟩
  rw [hb, hcv.entries, hv.under.idle.2]
  rfl

end Sys2Proof.Machine
end

