-- ==== Sys2Proof/Laws/PerInstr.lean ====
section
/-! SUPPORT. For every constructor of `Instr`: its header word decodes to its command in a variant that has every
command, and its frame is its header and the operand words that command asks for (spec/30_encoding.md R84, R95). -/

namespace Sys2Proof.Laws.HeaderRoundTrip

/-- The header decodes to the command, and a well-formed frame has the length the header gives. -/
def Statement (i : Instr) : Prop :=
  decodeHeader true true i.header = .ok i.op ∧
    (i.wellFormed = true → (encode i).length = frameLength true true i.header)

/-- Every command's header decodes to it. -/
theorem header_ok (op : Op) : decodeHeader true true op.header = .ok op := by
  cases op with
  | configure i p => cases i <;> cases p <;> decide
  | _ => decide

/-- From the number of operand words. -/
theorem of_length {i : Instr} (h : i.wellFormed = true → i.operands.length = i.op.operandCount) : Statement i := by
  refine ⟨header_ok i.op, fun hw => ?_⟩
  have h1 : decodeHeader true true i.header = .ok i.op := header_ok i.op
  unfold frameLength
  rw [h1]
  simp only [encode, List.length_cons, h hw]
  omega

/-- Three words for each slot. -/
theorem flatMap_entries (es : List Entry) : (es.flatMap fun e => [e.dev, e.addr, e.data]).length = 3 * es.length := by
  induction es with
  | nil => rfl
  | cons e es ih => simp only [List.flatMap_cons, List.length_append, List.length_cons, List.length_nil, ih]; omega

theorem resetFull : Statement .resetFull := of_length fun _ => rfl

theorem resetClear : Statement .resetClear := of_length fun _ => rfl

theorem configure (irq : Bool) (peak : Option (Word × Word)) (cfgbits offset count delay : Word) :
    Statement (.configure irq peak cfgbits offset count delay) := of_length fun _ => by cases peak <;> rfl

theorem runScan (cfgbits offset count : Word) : Statement (.runScan cfgbits offset count) := of_length fun _ => rfl

theorem dmaSelfTest (size : Word) : Statement (.dmaSelfTest size) := of_length fun _ => rfl

theorem triggerPps (value : Word) : Statement (.triggerPps value) := of_length fun _ => rfl

theorem seqBus (nw nr : Word) (entries : List Entry) : Statement (.seqBus nw nr entries) := of_length fun h => by
  have hl : entries.length = 16 := by simpa [Instr.wellFormed] using h
  simp only [Instr.operands, List.length_cons, flatMap_entries, hl]
  rfl

theorem readStatus : Statement .readStatus := of_length fun _ => rfl

theorem debugRd (roff data : Word) : Statement (.debugRd roff data) := of_length fun _ => rfl

theorem debugWr (roff data : Word) : Statement (.debugWr roff data) := of_length fun _ => rfl

theorem readMaxMin : Statement .readMaxMin := of_length fun _ => rfl

theorem tapRead (devid : Word) : Statement (.tapRead devid) := of_length fun _ => rfl

theorem tapWrite (devid : Word) (taps : List Word) : Statement (.tapWrite devid taps) := of_length fun h => by
  have hl : taps.length = 10 := by simpa [Instr.wellFormed] using h
  simp only [Instr.operands, List.length_cons, hl]
  rfl

theorem readWindow (len : Word) : Statement (.readWindow len) := of_length fun _ => rfl

theorem completionCount : Statement .completionCount := of_length fun _ => rfl

end Sys2Proof.Laws.HeaderRoundTrip
end

