-- ==== Sys2Proof/Tests/Slice0.lean ====
section
/-! SUPPORT. Small tests of decoding and of one step, with the expected results of spec/95_test_vectors.md, and for
every obligation with hypotheses a witness that they can be met. -/

namespace Sys2Proof.Tests

open Machine

/-! WellFormed: each check refuses an ill-formed term. -/

def slot : Entry := ⟨1, 2, 3⟩

theorem test_wf_seqBus_short : (Instr.seqBus 1 0 (List.replicate 15 slot)).wellFormed = false := by decide
theorem test_wf_seqBus_long : (Instr.seqBus 1 0 (List.replicate 17 slot)).wellFormed = false := by decide
theorem test_wf_seqBus_whole : (Instr.seqBus 1 0 (List.replicate 16 slot)).wellFormed = true := by decide
theorem test_wf_tapWrite_short : (Instr.tapWrite 0 (List.replicate 9 0)).wellFormed = false := by decide
theorem test_wf_tapWrite_long : (Instr.tapWrite 0 (List.replicate 11 0)).wellFormed = false := by decide
theorem test_wf_tapWrite_whole : (Instr.tapWrite 0 (List.replicate 10 0)).wellFormed = true := by decide

/-! Decoding: one frame for each constructor, written out from spec/30_encoding.md R84 and R85. -/

theorem test_decode_resetFull : decode true true [0x00000101] = .ok (.resetFull, []) := by decide
theorem test_decode_resetClear : decode true true [0x00000001] = .ok (.resetClear, []) := by decide
theorem test_decode_configure :
    decode true true [0x00000302, 1, 2, 3, 4, 5, 6] = .ok (.configure true (some (5, 6)) 1 2 3 4, []) := by decide
theorem test_decode_configure_plain :
    decode true true [0x00000002, 1, 2, 3, 4] = .ok (.configure false none 1 2 3 4, []) := by decide
theorem test_decode_runScan : decode true true [0x00000003, 1, 2, 3] = .ok (.runScan 1 2 3, []) := by decide
theorem test_decode_dmaSelfTest : decode true true [0x00000004, 64] = .ok (.dmaSelfTest 64, []) := by decide
theorem test_decode_triggerPps : decode true true [0x00000005, 2] = .ok (.triggerPps 2, []) := by decide
theorem test_decode_seqBus :
    decode true true ([0x00000006, 2, 0, 1, 0x10, 0xAB, 2, 0x20, 0xCD] ++ List.replicate 42 0)
      = .ok (.seqBus 2 0 ([⟨1, 0x10, 0xAB⟩, ⟨2, 0x20, 0xCD⟩] ++ List.replicate 14 ⟨0, 0, 0⟩), []) := by decide
theorem test_decode_readStatus : decode true true [0x00000007] = .ok (.readStatus, []) := by decide
theorem test_decode_debugRd : decode true true [0x00000008, 0x14, 9] = .ok (.debugRd 0x14 9, []) := by decide
theorem test_decode_debugWr : decode true true [0x00000108, 0x14, 9] = .ok (.debugWr 0x14 9, []) := by decide
theorem test_decode_readMaxMin : decode true true [0x00000009] = .ok (.readMaxMin, []) := by decide
theorem test_decode_tapRead : decode true true [0x0000000A, 7] = .ok (.tapRead 7, []) := by decide
theorem test_decode_tapWrite :
    decode true true [0x0000000B, 7, 0, 1, 2, 3, 4, 5, 6, 7, 8, 9]
      = .ok (.tapWrite 7 [0, 1, 2, 3, 4, 5, 6, 7, 8, 9], []) := by decide
theorem test_decode_readWindow : decode true true [0x0000000C, 8] = .ok (.readWindow 8, []) := by decide
theorem test_decode_completionCount : decode true true [0x0000000D] = .ok (.completionCount, []) := by decide

/-- Illegal headers (R83, R92, R93). -/
theorem test_decode_illegal :
    decode true true [0] = .error .badOpcode ∧ decode true true [0x0E] = .error .badOpcode ∧
    decode true true [0x401] = .error .reservedBits ∧ decode true true [0x203, 0, 0, 0] = .error .badFlag1 ∧
    decode true true [0x107] = .error .badFlag0 ∧ decode false true [0x09] = .error .variantAbsent ∧
    decode true false [0x0A, 0] = .error .variantAbsent ∧ decode true true [0x05] = .error .shortFrame :=
  ⟨rfl, rfl, rfl, rfl, rfl, rfl, rfl, rfl⟩

/-- The table's reading: a word's bits above those given are 0. -/
theorem test_table_word :
    decodeTableWord 64 (0x00000002_00000005) = some (.triggerPps 2) ∧ decodeTableWord 32 0x0E = none := by decide

/-! One step, from the start of a program (spec/95_test_vectors.md section 3) with the frame at the port. -/

/-- Attached and open, `CFG` and MODE_CONFIG as given, draws and a frame supplied. -/
def start (cfg : Word) (draws : List Word) (frame : List Word) : State :=
  { State.reset with
    isOpen := true
    cfg := cfg
    regs := Memory.storeWord [] 0x14 cfg
    hist := []
    draws := draws
    port := frame.map some }

/-- The register transactions of a history: offset, value, and whether it is a write. -/
def moves : List Event → List (Nat × Nat × Bool)
  | [] => []
  | .read _ o v :: l => (o, v.toNat, false) :: moves l
  | .write _ o v :: l => (o, v.toNat, true) :: moves l
  | _ :: l => moves l

/-- A next state that answered `out`, holds `cfg`, and made the transactions `tx`. -/
def answered (r : Res State) (out : List Nat) (cfg : Nat) (tx : List (Nat × Nat × Bool)) : Bool :=
  match r with
  | .next t => t.portOut.map BitVec.toNat == out && t.cfg.toNat == cfg && moves t.hist == tx
  | .fault _ => false
  | .refused _ => false

/-- Vector CD24. -/
theorem test_resetFull : answered (step (start 0x3A5 [] [0x101])) [0] 0x40 [(0x14, 0x40, true)] = true := by decide

/-- Vector CD27. -/
theorem test_resetClear : answered (step (start 0x341 [] [0x001])) [0] 0x301 [(0x14, 0x301, true)] = true := by decide

/-- Vector CD1. -/
theorem test_configure_armed :
    answered (step (start 0 [] [0x102, 0x81, 0x100, 16, 2])) [0] 0x81
      [(0, 0x10000100, true), (8, 0x40, true), (0xC, 0x10, true), (0x10, 2, true), (0x1C, 0xFFFF, true),
       (0x20, 0xFFFF, true), (0x14, 0x81, true), (0x18, 3, true), (0x18, 1, true)] = true := by decide

/-- Vector CD4: one byte over; the second step is the answer. -/
theorem test_configure_capacity :
    answered (runSteps 2 (start 0 [] [0x002, 0, 0xFFFFFD, 1, 0])) [1] 0 [] = true := by decide

/-- Vector CD9. -/
theorem test_runScan :
    answered (step (start 0x80 [] [0x003, 0xFF, 0x40, 8])) [0] 0x8F
      [(4, 0x10000040, true), (8, 0x20, true), (0x14, 0x8F, true)] = true := by decide

/-- Vector CD12. -/
theorem test_dmaSelfTest :
    answered (step (start 1 [0, 4] [0x004, 64])) [0] 1
      [(4, 0x10000000, true), (0, 0x10000000, true), (8, 0x40, true), (0x14, 0x81, true), (0x34, 0, false),
       (0x34, 4, false), (0x14, 1, true)] = true := by decide

/-- Vector CD16. -/
theorem test_dmaSelfTest_capacity : answered (runSteps 2 (start 0 [] [0x004, 0x01000001])) [1] 0 [] = true := by decide

/-- Vector CD18. -/
theorem test_triggerPps : answered (step (start 0x101 [] [0x005, 2])) [0] 0x201 [(0x14, 0x201, true)] = true := by decide

/-- Vector SB9. -/
theorem test_seqBus_read :
    answered (step (start 0 [0, 0, 0xA5C3] ([0x006, 0, 1, 2, 5, 0] ++ List.replicate 45 0))) [0x10000, 0xC3] 0
      [(0x34, 0, false), (0x28, 2, true), (0x2C, 0x80000005, true), (0x24, 0, true), (0x34, 0, false),
       (0x30, 0xA5C3, false)] = true := by decide

/-- Vector SB16: COMPOSITE mode. -/
theorem test_seqBus_composite :
    answered (step { start 0 [0, 0] ([0x006, 1, 0, 3, 0x12, 0x34] ++ List.replicate 45 0) with
      params := { Params.ref with laneMode := .composite } }) [0] 0
      [(0x34, 0, false), (0xCC, 0x1234, true), (0x34, 0, false)] = true := by decide

/-- Vector SS1. -/
theorem test_readStatus :
    answered (step (start 0 [0x102] [0x007])) [0x10000, 0x102] 0 [(0x34, 0x102, false)] = true := by decide

/-- Vector SS2. -/
theorem test_debugRd_store :
    answered (step (start 0x301 [] [0x008, 0x14, 0])) [0x10000, 0x301] 0x301 [(0x14, 0x301, false)] = true := by decide

/-- Vector SS5. -/
theorem test_debugRd_unassigned :
    answered (step (start 0 [0xDEADBEEF] [0x008, 0x3C, 0])) [0x10000, 0xDEADBEEF] 0 [(0x3C, 0xDEADBEEF, false)] = true := by
  decide

/-- Vector SS6: the cache stays. -/
theorem test_debugWr :
    answered (step (start 0x301 [] [0x108, 0x14, 5])) [0] 0x301 [(0x14, 5, true)] = true := by decide

/-- Vectors SS8 and SS10. -/
theorem test_debugWr_refused :
    step (start 0 [] [0x108, 0x34, 1]) = .refused (.writeToReadOnly 0x34) ∧
    step (start 0 [] [0x108, 0x18, 7]) = .refused (.badIntCtrlValue 7) := ⟨rfl, rfl⟩

/-- Vector SS19. -/
theorem test_readMaxMin :
    answered (step (start 0 ([0x00012345, 0xFF000010] ++ List.replicate 10 0) [0x009]))
      ([0xC0000, 0x2345, 0x10] ++ List.replicate 10 0) 0
      ((0x40, 0x00012345, false) :: (0x44, 0xFF000010, false)
        :: (List.range 10).map fun i => (0x48 + 4 * i, 0, false)) = true := by decide

/-- Vector SS22. -/
theorem test_tapRead :
    answered (step (start 0 [0xF, 0] [0x00A, 7])) ([0xA0000, 0xF] ++ List.replicate 9 0) 0
      [(0xB8, 0xF, false), (0xBC, 0, false)] = true := by decide

/-- Vector SS23. -/
theorem test_tapWrite :
    answered (step (start 0 [] ([0x00B, 0] ++ List.replicate 10 15))) [0] 0
      [(0x80, 0xFFFFFFFF, true), (0x84, 0xFF, true), (0x38, 1, true), (0x38, 0, true)] = true := by decide

/-- Vector SS24. -/
theorem test_tapWrite_range :
    answered (runSteps 2 (start 0 [] ([0x00B, 0, 16] ++ List.replicate 9 0))) [1] 0 [] = true := by decide

/-- Vector SS13. -/
theorem test_readWindow :
    answered (step (start 0 [0x11, 0x22] [0x00C, 8])) [0x20000, 0x11, 0x22] 0
      [(0x1000, 0x11, false), (0x1004, 0x22, false)] = true := by decide

/-- Vector SS16. -/
theorem test_readWindow_unaligned : step (start 0 [] [0x00C, 6]) = .refused (.unalignedWindowLength 6) := rfl

/-- Vector SS27. -/
theorem test_completionCount :
    answered (step { start 0 [] [0x00D] with icount := 3 }) [0x10000, 3] 0 [] = true := by decide

/-- Vector IQ9, in one step of CMD: the handler is past its increment when COMPLETION_COUNT asks for ILOCK, and CMD
waits for its release. -/
theorem test_completionCount_waits :
    answered (step { start 0 [] [0x00D] with
      icount := 6, intEn := true, ilock := .irq, irqPhase := .counted, sched := [.cmd, .cmd, .irq, .cmd, .irq] })
      [0x10000, 6] 0 [(0x18, 2, true)] = true := by decide

/-- Vector IQ8: the counter wraps. -/
theorem test_handler_wraps :
    (match irqStep { State.reset with icount := 0xFFFFFFFF, irqPhase := .cleared, ilock := .irq } with
      | .next t => decide (t.icount = 0 ∧ t.irqPhase = .counted)
      | _ => false) = true := by decide

/-- Vector LC4. -/
theorem test_open_twice :
    (match hostStep .openSession { State.reset with isOpen := true, hist := [] } with
      | .next t => decide (t.isOpen = true ∧ t.hist = [.opened false])
      | _ => false) = true := by decide

/-- Vector LC7. -/
theorem test_detach_in_flight :
    hostStep .detach { State.reset with ilock := .irq, irqPhase := .counted } = .fault .detachInFlight := rfl

/-- Vector LC3: a closed session takes no command. -/
theorem test_closed_waits :
    step { start 0 [] [0x101] with isOpen := false } = .next { start 0 [] [0x101] with isOpen := false } := rfl

/-! Witnesses: for every obligation with hypotheses, data that meets all of them, at the boundaries of its clauses. -/

/-- R104, R108: the acceptance of an illegal header and its result are two steps; a completion falls between them. -/
theorem test_turned_away_events :
    (match runSteps 3 { start 0 [] [0] with sched := [.cmd, .dev, .cmd] } with
      | .next t => t.hist.drop (start 0 [] [0]).hist.length
      | _ => []) = [.accept 0, .complete, .result .eillegal 0] := by decide

/-- R25, R107, R108: between the two BLOCK is held, `seq` idle, and nothing is answered yet. -/
theorem test_turned_away_block :
    (match atomicStep (.agent .cmd) ⟨start 0 [] [5, 3], []⟩ with
      | .next b => decide (b.machine.blk = .held ∧ b.machine.seq = .idle ∧ b.machine.portOut = [])
      | _ => false) = true := by decide

/-- R25, R245: there `seq` is idle, so a DETACH is admitted; the result does not come. -/
theorem test_turned_away_detach :
    (match runSteps 2 { start 0 [] [0] with sched := [.cmd, .host .detach] } with
      | .next t => decide (t.attached = false ∧ t.blk = .free ∧ t.portOut = [] ∧ t.hist = [.accept 0, .detached])
      | _ => false) = true := by decide

/-- The start of a program. -/
def ready : State := start 0 [] []

/-- No DETACH is scheduled, and ILOCK rests. -/
theorem canRun_of {s : State} (ha : s.attached = true) (hc : s.calm = true) (hl : s.ilock = .free)
    (hp : s.irqPhase = .idle) : CanRun s :=
  ⟨ha, hc, by rw [hl, hp]; decide, by rw [hl]; decide⟩

theorem ready_canRun : CanRun ready := canRun_of rfl rfl rfl rfl

/-- Every turn but DETACH and a refusal of results. -/
def busy : List Turn := [.dev, .irq, .host .openSession, .cmd, .irq, .host .closeSession, .irq, .dev, .irq, .irq, .cmd]

theorem busy_canRun : CanRun { ready with sched := busy, intEn := true } := canRun_of rfl rfl rfl rfl

/-- CanRun holds too with the handler under way. -/
theorem handler_canRun : CanRun { ready with ilock := .irq, irqPhase := .counted } :=
  ⟨rfl, rfl, by decide, by decide⟩

theorem ref_valid : Params.ref.valid = true := by decide

def entries : List Entry := [⟨7, 0xFF, 0xFF⟩, ⟨0, 0, 0⟩] ++ List.replicate 14 ⟨0xFFFFFFFF, 0xFFFFFFFF, 0xFFFFFFFF⟩

theorem witness_DecodeOfEncode :
    (Instr.seqBus 2 0 entries).wellFormed = true ∧ (Instr.seqBus 2 0 entries).op.present false false = true ∧
    (Instr.tapWrite 7 (List.replicate 10 15)).wellFormed = true ∧
    (Instr.tapWrite 7 (List.replicate 10 15)).op.present false true = true := by decide

theorem witness_EncodeOfDecode :
    decodeFrame false false [some 0x05, some 2, none] = .command (.triggerPps 2) [none] := by decide

theorem witness_FrameLengths :
    decodeFrame false false [some 0x09, none] = .illegal .variantAbsent 0x09 [none] ∧
    decodeFrame true true [some 0x202, some 1, some 2, some 3, some 4, some 5, some 6]
      = .command (.configure false (some (5, 6)) 1 2 3 4) [] := by decide

theorem witness_StepRunsDecodedCommand :
    mayAccept (start 0 [] [0x05, 2]) = true ∧ (start 0 [] [0x05, 2]).fetch = .command (.triggerPps 2) [] ∧
    (start 0 [] [0x05, 2]).sched = [] ∧
    State.sched { start 0 [] [0x05, 2] with sched := [.cmd, .dev] } = .cmd :: [.dev] := by decide

theorem witness_IllegalHeaderAnswered :
    mayAccept (start 0 [] [0x401, 7]) = true ∧ (start 0 [] [0x401, 7]).sched = [] ∧
    State.sched { start 0 [] [0x401, 7] with sched := [.cmd, .dev] } = .cmd :: [.dev] ∧
    (start 0 [] [0x401, 7]).port = some 0x401 :: [some 7] ∧
    decodeHeader (start 0 [] [0x401, 7]).params.hasMaxMin (start 0 [] [0x401, 7]).params.hasTapCal 0x401
      = .error .reservedBits ∧
    (cmdIsNext [] = true ∧ cmdIsNext [.cmd] = true ∧ cmdIsNext [.cmd, .cmd, .irq] = true) ∧
    (State.sched { start 0 [] [0x401, 7] with sched := [.irq, .dev, .cmd] } = [.irq, .dev] ++ [.cmd] ∧
      (start 0 [] [0x401, 7]).lockRests) :=
  ⟨rfl, rfl, rfl, rfl, rfl, ⟨rfl, rfl, rfl⟩, rfl, by unfold State.lockRests; decide⟩

/-- The first operand and the last. -/
theorem witness_UndeliveredOperandAnswered :
    mayAccept ready = true ∧ ready.sched = [] ∧ State.sched { ready with sched := [.cmd, .irq] } = .cmd :: [.irq] ∧
    decodeHeader true true 0x03 = .ok .runScan ∧
    ([] : List Word).length < Op.runScan.operandCount ∧ ([1, 2] : List Word).length < Op.runScan.operandCount ∧
    State.port { ready with port := [some 0x03, some 1, some 2, none, some 7] }
      = some 0x03 :: (([1, 2] : List Word).map some ++ none :: [some 7]) ∧
    (cmdIsNext [] = true ∧ cmdIsNext [.cmd, .irq] = true) ∧
    (State.sched { ready with sched := [.dev, .irq, .cmd] } = [.dev, .irq] ++ [.cmd] ∧ ready.lockRests) :=
  ⟨rfl, rfl, rfl, rfl, by decide, by decide, rfl, ⟨rfl, rfl⟩, rfl, ready_canRun.lock⟩

/-- A refusal pending, and a command turned away with one; and a run that answers with a word, and one that answers with
none, for the last clause. -/
theorem witness_RefusedResult :
    CanRun { ready with refuseOut := true } ∧ State.sched { ready with refuseOut := true } = [] ∧
    State.ilock { ready with refuseOut := true } = .free ∧ State.refuseOut { ready with refuseOut := true } = true ∧
    (∃ t, exec .completionCount { ready with refuseOut := true } = .next t ∧ t.blk = .free) ∧
    (∃ t, exec (.triggerPps 3) ready = .next t ∧ t.blk = .held) ∧
    (∃ t, exec .completionCount ready = .next t ∧ t.hist = [.accept 0x0D] ++ [.result .ok 1]) ∧
    ∃ t h, exec .resetFull ready = .next t ∧ t.hist = h ++ [.result .ok 0] :=
  ⟨canRun_of rfl rfl rfl rfl, rfl, rfl, rfl, ⟨_, rfl, rfl⟩, ⟨_, rfl, rfl⟩, ⟨_, rfl, rfl⟩, _,
    [.accept 0x101, .write .cmd 0x14 0x40], rfl, rfl⟩

/-- The handler enabled, for the turns that IRQ takes unscheduled. -/
def signaled : State := { ready with intEn := true, intPend := true }

theorem witness_TurnsOfTheAgents :
    (ready.seq = .idle ∧ ready.blk = .free ∧ signaled.blk = .free) ∧
    (State.sched { ready with sched := [.cmd], isOpen := false } = [.cmd]
      ∧ State.isOpen { ready with sched := [.cmd], isOpen := false } = false) ∧
    State.sched { ready with sched := [.irq] } = [.irq] ∧ State.sched { ready with sched := [.dev] } = [.dev] ∧
    State.sched { ready with sched := [.host .detach] } = [.host .detach] ∧
    (State.sched { ready with attached := false } = [] ∧ State.attached { ready with attached := false } = false) ∧
    State.sched { ready with sched := [.host (.submit [some 7, none])] } = [.host (.submit [some 7, none])] ∧
    State.sched { ready with sched := [.host .refuseResult] } = [.host .refuseResult] ∧
    Params.valid { Params.ref with spinBus := 0 } = false ∧
    (ready.fetch = .nothing ∧ State.fetch { ready with port := [some 0x05] } = .incomplete 0x05) ∧
    (ready.sched = [] ∧ ready.attached = true ∧ irqEnabled ready = false) ∧
    (signaled.sched = [] ∧ irqEnabled signaled = true ∧ signaled.fetch = .nothing ∧
      State.isOpen { signaled with isOpen := false } = false ∧ irqEnabled { signaled with isOpen := false } = true) ∧
    (State.isOpen { ready with isOpen := false } = false ∧ irqEnabled { ready with isOpen := false } = false) ∧
    (mayAccept { ready with port := [none, some 7] } = true
      ∧ State.port { ready with port := [none, some 7] } = none :: [some 7]) := by
  decide

/-- Each cause at its boundary: one byte over the capacity, the first value out of range, the first bad slot. -/
theorem witness_CommandsTurnedAway :
    ready.params.bufLen < (0x00FFFFFD : Word).toNat + (1 : Word).toNat * ready.params.sampleWidth ∧
    ready.params.bufLen < (0x01000001 : Word).toNat ∧ ((0 : Word) ≠ 1 ∧ (0 : Word) ≠ 2) ∧ ((3 : Word) ≠ 1 ∧ (3 : Word) ≠ 2) ∧
    ((1 : Word) ≠ 0 ∧ (17 : Word) ≠ 0) ∧ 16 < (17 : Word).toNat ∧
    (15 < (16 : Word).toNat ∧ (List.replicate 15 slot ++ [⟨8, 0, 0⟩])[15]? = some ⟨8, 0, 0⟩ ∧
      2 ^ ready.params.devW ≤ (8 : Word).toNat) ∧
    ready.params.readMax < (0x1001 : Word).toNat ∧
    Params.hasMaxMin { Params.ref with hasMaxMin := false } = false ∧
    Params.hasTapCal { Params.ref with hasTapCal := false } = false ∧
    (ready.params.hasTapCal = true ∧ ready.params.tapDevMax ≤ (8 : Word).toNat) ∧
    (9 < ready.params.ntaps ∧ (List.replicate 9 0 ++ [16] : List Word)[9]? = some 16 ∧ 16 ≤ (16 : Word).toNat) ∧
    (Code.einval ≠ .ok ∧ ready.attached = true ∧ ready.seq = .idle ∧ cmdIsNext ready.sched = true) ∧
    (State.sched { ready with sched := busy } = [.dev, .irq, .host .openSession] ++ busy.drop 3 ∧
      cmdIsNext (busy.drop 3) = true ∧
      ∀ u ∈ ([.dev, .irq, .host .openSession] : List Turn), u ≠ .cmd ∧ u.detaches = false) := by
  refine ⟨?_, ?_, ?_, ?_, ?_, ?_, ?_, ?_, ?_, ?_, ?_, ?_, ?_, ?_⟩ <;> decide

theorem witness_OperandsThatStop :
    (2 : Word).toNat % 4 ≠ 0 ∧ ready.params.regSpace ≤ (0x2000 : Word).toNat ∧
    ((0x34 : Word).toNat % 4 = 0 ∧ (0x34 : Word).toNat < ready.params.regSpace
      ∧ (ready.params.regAt (0x34 : Word).toNat).kind = .deviceDriven) ∧
    ((0x1FFC : Word).toNat < ready.params.regSpace ∧ (ready.params.regAt (0x1FFC : Word).toNat).kind = .deviceDriven) ∧
    (ready.params.regAt (0x3C : Word).toNat).kind = .unassigned ∧
    (ready.params.regAt (0x18 : Word).toNat = .intCtrl ∧ (7 : Word) ≠ ready.params.intEnable
      ∧ (7 : Word) ≠ ready.params.intDisable ∧ (7 : Word) ≠ ready.params.intClear) ∧
    ((0xFFE : Word).toNat ≤ ready.params.readMax ∧ (0xFFE : Word).toNat % 4 ≠ 0) ∧ ready.params.valid = true ∧
    ((0x34 : Word).toNat = ready.params.off .status ∧ (0x30 : Word).toNat = ready.params.off .spiResult ∧
      ready.params.off .spiResult ≠ ready.params.off .spiData ∧ (0x40 : Word).toNat = ready.params.off (.maxMin 0) ∧
      (0x6C : Word).toNat = ready.params.off (.maxMin 11)) ∧
    (ready.params.regOff.fifoWin = (0x1000 : Word).toNat ∧
      (0x1FFC : Word).toNat < ready.params.regOff.fifoWin + ready.params.fifoWinLen) ∧
    (∀ r ∈ ready.params.registers, (0xFFC : Word).toNat ≠ ready.params.off r) := by decide

theorem witness_RegisterMap : Params.ref.valid = true ∧ Reg.spiResult ∈ Params.ref.registers ∧
    Reg.tap1 7 ∈ Params.ref.registers ∧ Params.valid { Params.ref with
      regOff := { RegTable.ref with spiResult := 0x24 } } = true := by decide

theorem witness_StorageRegisters :
    ready.attached = true ∧ Reg.dmaSize.kind = .storage ∧ ready.stored .dmaSize = none ∧
    Memory.wf ready.regs = true ∧ ready.params.storageReadBack = true := by decide

theorem witness_InterruptControl : ready.attached = true ∧ ready.params.valid = true ∧
    ((0 : Word) ≠ ready.params.intEnable ∧ (0 : Word) ≠ ready.params.intDisable ∧ (0 : Word) ≠ ready.params.intClear) := by
  decide

theorem witness_RegisterBlockRevoked : State.attached { ready with attached := false } = false := rfl

theorem witness_PeakClamp :
    (0xFFFF : Word).toNat ≤ Params.ref.peakSent.toNat ∧ Params.ref.peakSent.toNat < (0x10000 : Word).toNat := by decide

/-- The last sample of the buffer, and the end of it. -/
theorem witness_TransferSizeAndAddress :
    Params.ref.bufBase + Params.ref.bufLen ≤ 2 ^ 32 ∧ Params.ref.bufLen < 2 ^ 32 ∧ 0 < Params.ref.sampleWidth ∧
    (0x00FFFFFC : Word).toNat + (1 : Word).toNat * Params.ref.sampleWidth ≤ Params.ref.bufLen ∧
    (0x01000000 : Word).toNat + (0 : Word).toNat * Params.ref.sampleWidth ≤ Params.ref.bufLen ∧
    Params.ref.bufBase + (0x01000000 : Word).toNat < 2 ^ 32 ∧
    (Params.valid { Params.ref with bufBase := 0xFF000000 } = true ∧
      2 ^ 32 ≤ Params.bufBase { Params.ref with bufBase := 0xFF000000 } + (0x01000000 : Word).toNat) := by decide

theorem witness_TapPacking : Params.ref.ntaps ≤ 10 ∧
    (∀ i, i < Params.ref.ntaps → ((List.replicate 10 (15 : Word)).getD i 0).toNat < 16) ∧
    Params.ntaps { Params.ref with ntaps := 8 } ≤ 8 := by decide

theorem witness_ResetFullResult : CanRun ready ∧ ready.sched = [] ∧ ready.ilock = .free := ⟨ready_canRun, rfl, rfl⟩
theorem witness_ResetClearResult : CanRun { ready with sched := busy, intEn := true } := busy_canRun

/-- The end of the buffer, and a count of zero at it; nothing scheduled, and the handler between its CLEAR and its
DISABLE. -/
theorem witness_ConfigureResult : CanRun ready ∧ ready.params.valid = true ∧
    (0x00FFFFFC : Word).toNat + (1 : Word).toNat * ready.params.sampleWidth ≤ ready.params.bufLen ∧
    (0x01000000 : Word).toNat + (0 : Word).toNat * ready.params.sampleWidth ≤ ready.params.bufLen ∧
    ready.sched = [] ∧ ready.ilock = .free ∧ CountsRuns 0 ready ∧
    (CanRun { ready with ilock := .irq, irqPhase := .counted, icount := 1, hist := [.handlerEntry] } ∧
      CountsRuns 0 { ready with ilock := .irq, irqPhase := .counted, icount := 1, hist := [.handlerEntry] }) :=
  ⟨ready_canRun, ref_valid, by decide, by decide, rfl, rfl, ⟨by decide, rfl⟩,
    ⟨rfl, rfl, by unfold State.lockRests; decide⟩, by decide, rfl⟩

theorem witness_RunScanResult : CanRun ready ∧
    (0 : Word).toNat + (0x400000 : Word).toNat * ready.params.sampleWidth ≤ ready.params.bufLen ∧
    ready.params.rsMask &&& (ready.params.resetFlag ||| ready.params.dmaTrigger) = 0 :=
  ⟨ready_canRun, by decide, by decide⟩

theorem witness_DmaSelfTestResult : CanRun ready ∧ (0x01000000 : Word).toNat ≤ ready.params.bufLen ∧
    (0 : Word).toNat ≤ ready.params.bufLen := ⟨ready_canRun, by decide, by decide⟩

theorem witness_TriggerPpsResult : CanRun ready ∧ ((1 : Word) = 1 ∨ (1 : Word) = 2) ∧ ((2 : Word) = 1 ∨ (2 : Word) = 2) ∧
    ready.params.ppsMask = ready.params.ppsGen ||| ready.params.ppsTrig ∧ ready.params.ppsGen &&& ready.params.ppsTrig = 0 :=
  ⟨ready_canRun, .inl rfl, .inr rfl, rfl, rfl⟩

/-- REF with the FAIL policy and a ceiling of two reads. -/
def failing : Params := { Params.ref with timeoutPolicy := .fail, spinBus := 2 }

/-- An empty batch, a write batch and a full read batch; and the words of a poll that turns idle after busy reads, of
one that goes on at its ceiling under PROCEED, and of one that gives up there under FAIL. -/
theorem witness_SeqBusResult : CanRun ready ∧ ready.takesResult = true ∧ ValidBatch ready.params 0 0 entries ∧
    ValidBatch ready.params 2 0 entries ∧ ValidBatch ready.params 0 16 (List.replicate 16 ⟨7, 0xFF, 0xFF⟩) ∧
    (PollWords failing [1, 0] ∧ pollExceeded failing [1, 0] = false) ∧
    (PollWords { failing with timeoutPolicy := .proceed } [1, 1] ∧
      pollEvents { failing with timeoutPolicy := .proceed } (.pre 0) [1, 1]
        = [.read .cmd 0x34 1, .read .cmd 0x34 1, .bwe (.pre 0)] ∧
      pollFails { failing with timeoutPolicy := .proceed } [1, 1] = false) ∧
    (PollWords failing [1, 1] ∧ pollFails failing [1, 1] = true) :=
  ⟨ready_canRun, rfl, ⟨ref_valid, by decide⟩, ⟨ref_valid, by decide⟩, ⟨ref_valid, by decide⟩,
    ⟨⟨by decide, by simp; decide, by decide⟩, rfl⟩, ⟨⟨by decide, by simp; decide, by decide⟩, rfl, rfl⟩,
    ⟨by decide, by simp; decide, by decide⟩, rfl⟩

/-- STATUS words of which no two are the same, and a spare draw. -/
theorem witness_SeqBusIdleTransactions :
    CanRun { ready with draws := [0, 2, 5, 4, 6, 7, 9] } ∧ ready.takesResult = true ∧ ValidBatch ready.params 0 2 entries ∧
    ([(0, 2, 5), (4, 6, 7)] : List (Word × Word × Word)).length = (0 : Word).toNat + (2 : Word).toNat ∧
    (((0 : Word) &&& ready.params.spiBusy = 0 ∧ (2 : Word) &&& ready.params.spiBusy = 0) ∧
      (4 : Word) &&& ready.params.spiBusy = 0 ∧ (6 : Word) &&& ready.params.spiBusy = 0) ∧
    State.draws { ready with draws := [0, 2, 5, 4, 6, 7, 9] }
      = (([(0, 2, 5), (4, 6, 7)] : List (Word × Word × Word)).flatMap fun w =>
          if (if (0 : Word) ≠ 0 then Dir.write else Dir.read) = .read then [w.1, w.2.1, w.2.2] else [w.1, w.2.1]) ++ [9] :=
  ⟨canRun_of rfl rfl rfl rfl, rfl, ⟨ref_valid, by decide⟩, by decide, by decide, by decide⟩

/-- Busy words that differ. -/
theorem witness_SeqBusFirstPollTimeout :
    CanRun { ready with params := failing, draws := [1, 3, 9] } ∧ ValidBatch failing 1 0 entries ∧ (1 : Word) ≠ 0 ∧
    failing.timeoutPolicy = .fail ∧ ([1, 3] : List Word).length = failing.spinBus ∧
    ((1 : Word) &&& failing.spiBusy ≠ 0 ∧ (3 : Word) &&& failing.spiBusy ≠ 0) ∧
    State.draws { ready with params := failing, draws := [1, 3, 9] } = [1, 3] ++ [9] :=
  ⟨canRun_of rfl rfl rfl rfl, ⟨by decide, by decide⟩, by decide, rfl, rfl, by decide, rfl⟩

theorem witness_ReadStatusResult : CanRun ready ∧ ready.takesResult = true ∧
    State.takesResult { ready with sched := busy } = true := ⟨ready_canRun, rfl, rfl⟩

/-- A storage register written, one not written, the last word of the window, an unassigned offset. -/
theorem witness_DebugRdResult : CanRun ready ∧ ready.takesResult = true ∧
    ((0x14 : Word).toNat % 4 = 0 ∧ (0x14 : Word).toNat < ready.params.regSpace ∧
      ready.params.regAt (0x14 : Word).toNat ≠ .intCtrl ∧ (ready.params.regAt (0x14 : Word).toNat).kind = .storage ∧
      ready.params.storageReadBack = true ∧ ready.stored (ready.params.regAt (0x14 : Word).toNat) = some 0) ∧
    (ready.params.regAt (0x00 : Word).toNat ≠ .intCtrl ∧ ready.stored (ready.params.regAt (0x00 : Word).toNat) = none) ∧
    ((0x1FFC : Word).toNat < ready.params.regSpace ∧ (ready.params.regAt (0x1FFC : Word).toNat).kind ≠ .storage) ∧
    (ready.params.regAt (0x3C : Word).toNat).kind ≠ .storage :=
  ⟨ready_canRun, rfl, by decide, by decide, by decide, by decide⟩

/-- Nothing scheduled, a busy schedule, and the handler between its CLEAR and its DISABLE. -/
theorem witness_DebugInterruptControl : CanRun ready ∧ ready.takesResult = true ∧ ready.sched = [] ∧
    ready.params.valid = true ∧ (0x18 : Word).toNat = ready.params.off .intCtrl ∧
    (CanRun { ready with sched := busy, intEn := true } ∧ State.takesResult { ready with sched := busy } = true) ∧
    (CanRun { ready with ilock := .irq, irqPhase := .counted } ∧
      State.sched { ready with ilock := .irq, irqPhase := .counted } = []) ∧
    (1 : Word) = ready.params.intEnable ∧ (2 : Word) = ready.params.intDisable ∧ (3 : Word) = ready.params.intClear :=
  ⟨ready_canRun, rfl, rfl, ref_valid, rfl, ⟨busy_canRun, rfl⟩, ⟨handler_canRun, rfl⟩, rfl, rfl, rfl⟩

theorem witness_DebugWrStores : CanRun ready ∧
    ((0x00 : Word).toNat % 4 = 0 ∧ (0x00 : Word).toNat < ready.params.regSpace ∧
      (ready.params.regAt (0x00 : Word).toNat).kind = .storage) ∧
    ((0xBC : Word).toNat % 4 = 0 ∧ (ready.params.regAt (0xBC : Word).toNat).kind = .storage) ∧
    ((0x38 : Word).toNat % 4 = 0 ∧ ready.params.regAt (0x38 : Word).toNat = .tapLoad) :=
  ⟨ready_canRun, by decide, by decide, by decide⟩

/-- A device and an address written, for SPI_DATA, and neither written; and a lane of COMPOSITE mode. -/
theorem witness_DebugWrStartsCycle :
    (CanRun ready ∧ ready.stored .spiDevice = none ∧ ready.stored .spiAddress = none) ∧
    CanRun { ready with regs := Memory.storeWord (Memory.storeWord ready.regs 0x28 7) 0x2C 0x800000FF } ∧
    ((0x24 : Word).toNat % 4 = 0 ∧ (0x24 : Word).toNat < ready.params.regSpace ∧
      ready.params.regAt (0x24 : Word).toNat = .spiData) ∧
    State.stored { ready with regs := Memory.storeWord (Memory.storeWord ready.regs 0x28 7) 0x2C 0x800000FF } .spiDevice
      = some 7 ∧
    State.stored { ready with regs := Memory.storeWord (Memory.storeWord ready.regs 0x28 7) 0x2C 0x800000FF } .spiAddress
      = some 0x800000FF ∧
    CanRun { ready with params := { Params.ref with laneMode := .composite } } ∧
    Params.regAt { Params.ref with laneMode := .composite } (0xDC : Word).toNat = .spiLane 7 :=
  ⟨⟨ready_canRun, by decide, by decide⟩, canRun_of rfl rfl rfl rfl, by decide, by decide, by decide,
    canRun_of rfl rfl rfl rfl, by decide⟩

/-- No word, one chunk and the maximum. -/
theorem witness_ReadWindowResult : CanRun ready ∧ ready.takesResult = true ∧ ready.params.valid = true ∧
    ((0 : Word).toNat ≤ ready.params.readMax ∧ (0 : Word).toNat % 4 = 0) ∧
    ((0x404 : Word).toNat ≤ ready.params.readMax ∧ (0x404 : Word).toNat % 4 = 0) ∧
    ((0x1000 : Word).toNat ≤ ready.params.readMax ∧ (0x1000 : Word).toNat % 4 = 0 ∧ (0x1000 : Word).toNat / 4 < 2 ^ 16) :=
  ⟨ready_canRun, rfl, ref_valid, by decide, by decide, by decide⟩

theorem witness_ReadMaxMinResult : CanRun ready ∧ ready.takesResult = true ∧ ready.params.hasMaxMin = true :=
  ⟨ready_canRun, rfl, rfl⟩

/-- The tap registers unwritten, one of the two written, and both; with and without read-back. -/
theorem witness_TapReadResult : CanRun ready ∧ ready.takesResult = true ∧ ready.params.valid = true ∧
    ready.params.hasTapCal = true ∧ (7 : Word).toNat < ready.params.tapDevMax ∧ ready.params.storageReadBack = true ∧
    (ready.stored (.tap0 (7 : Word).toNat) = none ∧ ready.stored (.tap1 (7 : Word).toNat) = none) ∧
    (State.stored { ready with regs := Memory.storeWord [] 0xB8 5 } (.tap0 (7 : Word).toNat) = some 5 ∧
      State.stored { ready with regs := Memory.storeWord [] 0xB8 5 } (.tap1 (7 : Word).toNat) = none) ∧
    (State.stored { ready with regs := Memory.storeWord [] 0xBC 6 } (.tap0 (7 : Word).toNat) = none ∧
      State.stored { ready with regs := Memory.storeWord [] 0xBC 6 } (.tap1 (7 : Word).toNat) = some 6) ∧
    (State.stored { ready with regs := Memory.storeWord (Memory.storeWord [] 0xB8 5) 0xBC 6 } (.tap0 (7 : Word).toNat)
        = some 5 ∧
      State.stored { ready with regs := Memory.storeWord (Memory.storeWord [] 0xB8 5) 0xBC 6 } (.tap1 (7 : Word).toNat)
        = some 6) ∧
    Params.storageReadBack { Params.ref with storageReadBack := false } = false :=
  ⟨ready_canRun, rfl, ref_valid, rfl, by decide, rfl, by decide, by decide, by decide, by decide, rfl⟩

theorem witness_TapWriteResult : CanRun ready ∧ ready.params.hasTapCal = true ∧ (7 : Word).toNat < ready.params.tapDevMax ∧
    ∀ i, i < ready.params.ntaps → ((List.replicate 10 (15 : Word)).getD i 0).toNat < 16 :=
  ⟨ready_canRun, rfl, by decide, by decide⟩

/-- The later state is the one TAP_WRITE leaves. -/
theorem witness_TapRoundTrip : CanRun ready ∧ ready.params.valid = true ∧ ready.params.hasTapCal = true ∧
    ready.params.storageReadBack = true ∧ (0 : Word).toNat < ready.params.tapDevMax ∧
    (List.replicate 10 (15 : Word)).length = 10 ∧
    (∀ i, i < ready.params.ntaps → ((List.replicate 10 (15 : Word)).getD i 0).toNat < 16) ∧
    ∃ t, exec (.tapWrite 0 (List.replicate 10 15)) ready = .next t ∧ CanRun t ∧ t.takesResult = true :=
  ⟨ready_canRun, ref_valid, rfl, rfl, by decide, by decide, by decide, _, rfl, canRun_of rfl rfl rfl rfl, rfl⟩

theorem witness_CompletionCountResult : CanRun ready ∧ ready.takesResult = true ∧ ready.sched = [] ∧ ready.ilock = .free :=
  ⟨ready_canRun, rfl, rfl, rfl⟩

/-- A handler run under way, past its increment, when the command starts. -/
theorem witness_CompletionCountConsistent :
    CanRun { ready with ilock := .irq, irqPhase := .counted, icount := 6, hist := [.handlerEntry] } ∧
    ready.takesResult = true ∧ ready.params.icountW ≤ 32 ∧
    CountsRuns 5 { ready with ilock := .irq, irqPhase := .counted, icount := 6, hist := [.handlerEntry] } :=
  ⟨⟨rfl, rfl, by decide, by decide⟩, rfl, by decide, by decide, by decide⟩

/-- A command that runs, and one turned away. -/
theorem witness_CommandFrame : ready.attached = true ∧ ready.seq = .idle ∧ ready.lockRests ∧
    (∃ t, exec (.triggerPps 2) ready = .next t) ∧ (∃ t, exec (.triggerPps 3) ready = .next t ∧ t.blk = .held) ∧
    Instr.storedOffsets ready.params (.triggerPps 2) = [0x14] ∧ Instr.writesCfg .completionCount = false :=
  ⟨rfl, rfl, ready_canRun.lock, ⟨_, rfl⟩, ⟨_, rfl, rfl⟩, rfl, rfl⟩

theorem witness_CommandsLeaveInterrupts : CanRun ready ∧ ready.sched = [] ∧ ready.ilock = .free ∧
    Instr.writesIntCtrl ready.params (.debugWr 0x14 1) = false ∧ ∃ t, exec (.debugWr 0x14 1) ready = .next t :=
  ⟨ready_canRun, rfl, rfl, by decide, _, rfl⟩

theorem witness_HandlerEnabled : (ready.irqPhase = .idle ∧ ready.attached = true) ∧
    State.ilock { ready with ilock := .cmd } = .cmd ∧ ready.intEn = false ∧
    State.intPend { ready with intEn := true } = false := by decide

theorem witness_HandlerRun :
    State.attached { ready with intEn := true, intPend := true } = true ∧ ready.lineReg = true ∧
    ready.params.intClear ≠ ready.params.intEnable ∧ ready.params.intClear ≠ ready.params.intDisable ∧
    ready.params.intDisable ≠ ready.params.intEnable ∧ ready.irqPhase = .idle ∧ ready.ilock = .free ∧
    State.intEn { ready with intEn := true, intPend := true } = true ∧
    State.intPend { ready with intEn := true, intPend := true } = true := by decide

/-- The line registered, and not yet. -/
theorem witness_CompletionLatches : ready.attached = true ∧ State.attached { ready with lineReg := false } = true := by
  decide

theorem witness_InterruptStates : ready.attached = true ∧ ready.params.valid = true ∧
    ready.irqState = .disabled ∧ State.irqState { ready with intEn := true } = .armed ∧
    State.irqState { ready with intEn := true, intPend := true } = .signaled := by decide

theorem witness_AttachInitialises : State.attached { ready with attached := false } = false ∧ Params.ref.valid = true ∧
    (Reg.tap1 7 ∈ Params.ref.registers ∧ (Reg.tap1 7).kind = .storage ∧ Reg.tap1 7 ≠ .modeConfig) := by decide

theorem witness_AttachFails : State.attached { ready with attached := false } = false ∧ Params.ref.valid = true := by decide

theorem witness_OpenAndClose : State.reset.attached = true ∧ State.reset.isOpen = false ∧ ready.isOpen = true := by decide

/-- Nothing at the port, a command turned away, a command that runs, and the handler under way. -/
theorem witness_Detach : (ready.attached = true ∧ ready.seq = .idle ∧ ready.irqPhase = .idle) ∧
    ((awaiting 0x05 .einval ready).attached = true ∧ (awaiting 0x05 .einval ready).seq = .idle) ∧
    State.seq { ready with seq := .run .readStatus 0 } ≠ .idle ∧
    State.irqPhase { ready with irqPhase := .counted } ≠ .idle := by decide

theorem ready_inv : ready.Inv where
  params := ref_valid
  memory := by decide
  lock := ready_canRun.lock
  seq := rfl
  todo := rfl
  vals := rfl
  emitted := rfl
  spins := rfl
  blk := by decide
  revoked := fun _ => rfl
  line := rfl
  buffer := rfl
  handler := fun h => absurd rfl h
  count := by decide

/-- The invariant does not look at the port. -/
theorem ready_inv_port (l : List (Option Word)) : State.Inv { ready with port := l } :=
  ⟨ready_inv.params, ready_inv.memory, ready_inv.lock, rfl, rfl, rfl, rfl, rfl, ready_inv.blk, ready_inv.revoked, rfl, rfl,
    ready_inv.handler, ready_inv.count⟩

/-- It holds while a command turned away awaits its result. -/
theorem awaiting_inv (l : List Turn) : State.Inv { awaiting 0x05 .einval ready with sched := l } :=
  ⟨ready_inv.params, ready_inv.memory, ready_inv.lock, rfl, rfl, rfl, rfl, rfl, by simp [awaiting],
    fun h => absurd h (by simp [awaiting]; decide), rfl, rfl, ready_inv.handler, ready_inv.count⟩

/-- Detached, with an earlier session's end in its history. -/
def gone (l : List Turn) : State :=
  { ready with attached := false, lineReg := false, bufAlloc := false, hist := [.detached], sched := l }

theorem gone_inv (l : List Turn) : (gone l).Inv :=
  ⟨ready_inv.params, ready_inv.memory, ready_inv.lock, rfl, rfl, rfl, rfl, rfl, ready_inv.blk, fun _ => rfl, rfl, rfl,
    fun h => absurd rfl h, ready_inv.count⟩

/-- A command that runs; the result of one turned away; and a DETACH in its place. -/
theorem witness_InvariantKept :
    (State.Inv { ready with port := [some 0x101] } ∧ ∃ t, step { ready with port := [some 0x101] } = .next t) ∧
    (State.Inv { awaiting 0x05 .einval ready with sched := [.cmd] } ∧
      ∃ t, step { awaiting 0x05 .einval ready with sched := [.cmd] } = .next t ∧ t.blk = .free) ∧
    (State.Inv { awaiting 0x05 .einval ready with sched := [.host .detach] } ∧
      ∃ t, step { awaiting 0x05 .einval ready with sched := [.host .detach] } = .next t ∧ t.attached = false) :=
  ⟨⟨ready_inv_port _, _, rfl⟩, ⟨awaiting_inv _, _, rfl, rfl⟩, awaiting_inv _, _, rfl, rfl⟩

theorem witness_EveryCommandCompletes : CanRun ready ∧ ready.seq = .idle ∧ Instr.runnable ready.params (.debugRd 0x1FFC 0) = true ∧
    Instr.runnable ready.params (.debugWr 0x18 3) = true ∧ Instr.runnable ready.params (.readWindow 0x1000) = true ∧
    Instr.runnable ready.params (.readWindow 0x1001) = true := ⟨ready_canRun, rfl, by decide⟩

theorem witness_ScheduleIndependence :
    Instr.seesIrq ready.params .resetFull = false ∧ CanRun { ready with sched := [] } ∧
    CanRun { ready with sched := busy } ∧ State.takesResult { ready with sched := [] } = true ∧
    State.takesResult { ready with sched := busy } = true ∧
    (∃ t, exec .resetFull { ready with sched := [] } = .next t) ∧
    ∃ t, exec .resetFull { ready with sched := busy } = .next t :=
  ⟨rfl, canRun_of rfl rfl rfl rfl, canRun_of rfl rfl rfl rfl, rfl, rfl, ⟨_, rfl⟩, _, rfl⟩

theorem witness_HistoryAndParameters :
    (State.Inv { ready with port := [some 0x101] } ∧ ready.attached = true ∧
      ∃ t, step { ready with port := [some 0x101] } = .next t) ∧
    (∃ t, State.Inv (gone [.host (.attach Params.ref false)]) ∧
      step (gone [.host (.attach Params.ref false)]) = .next t ∧ t.attached = false) ∧
    ∃ t, State.Inv (gone [.host (.attach Params.ref true)]) ∧
      step (gone [.host (.attach Params.ref true)]) = .next t ∧ t.attached = true :=
  ⟨⟨ready_inv_port _, rfl, _, rfl⟩, ⟨_, gone_inv _, rfl, rfl⟩, _, gone_inv _, rfl, rfl⟩

theorem witness_CacheMirrorsRegister :
    State.Inv { ready with port := [some 0x101] } ∧
    State.stored { ready with port := [some 0x101] } .modeConfig = some ready.cfg ∧
    (∀ roff data rest, State.fetch { ready with port := [some 0x101] } = .command (.debugWr roff data) rest →
      ready.params.regAt roff.toNat ≠ .modeConfig) ∧
    ∃ t, step { ready with port := [some 0x101] } = .next t := by
  refine ⟨ready_inv_port _, by decide, fun roff data rest h => ?_, _, rfl⟩
  have hf : State.fetch { ready with port := [some 0x101] } = .command .resetFull [] := rfl
  rw [hf] at h
  cases h

theorem witness_HandlerRunsCounted :
    State.Inv { ready with port := [some 0x101] } ∧ ready.attached = true ∧
    CountsRuns 0 { ready with port := [some 0x101] } ∧ ∃ t, step { ready with port := [some 0x101] } = .next t :=
  ⟨ready_inv_port _, rfl, ⟨by decide, by decide⟩, _, rfl⟩

/-- RESET.FULL by single steps of CMD, one after another: at the port, accepted, written, answered. -/
def resetRun : Nat → AtomicState
  | 0 => ⟨{ ready with port := [some 0x101] }, []⟩
  | n + 1 =>
    match atomicStep (.agent .cmd) (resetRun n) with
    | .next b => b
    | _ => resetRun n

/-- Once RESET.FULL is answered, CMD has no step. -/
theorem resetRun_rests (n : Nat) : resetRun (n + 3) = resetRun 3 := by
  induction n with
  | zero => rfl
  | succ n ih =>
    show (match atomicStep (.agent .cmd) (resetRun (n + 3)) with
      | .next b => b
      | _ => resetRun (n + 3)) = _
    rw [ih]
    rfl

theorem resetRun_runs : InfiniteRun (fun _ => .agent .cmd) resetRun
  | 0 => rfl
  | 1 => rfl
  | 2 => rfl
  | n + 3 => by
    have h := resetRun_rests (n + 1)
    rw [resetRun_rests n, h]
    rfl

/-- A single step and a step; a run of single steps with a completion in the middle of the command, from its
acceptance to its end; a command under way, and one turned away (an illegal header), its result, and a DETACH in its
place; and an infinite run that is fair
towards CMD and towards IRQ. -/
theorem witness_SingleSteps :
    atomicStep (.agent .cmd) (resetRun 0) = .next (resetRun 1) ∧
    (State.Inv { ready with port := [some 0x101] } ∧ ∃ t, step { ready with port := [some 0x101] } = .next t) ∧
    (∃ t : State, t.seq = .idle ∧
      atomicRun ([Turn.cmd, .dev, .cmd, .cmd].map .agent) ⟨{ { ready with port := [some 0x101] } with sched := [] }, []⟩
        = .next ⟨{ t with sched := [] }, []⟩) ∧
    ((resetRun 1).machine.attached = true ∧ (resetRun 1).machine.blk = .held) ∧
    (∃ b, atomicStep (.agent .cmd) ⟨{ ready with port := [some 0] }, []⟩ = .next b ∧ b.machine.attached = true ∧
      b.machine.blk = .held ∧ b.machine.LocksHeld ∧
      (∃ c, atomicStep (.agent .cmd) b = .next c ∧ c.machine.blk = .free) ∧
      ∃ c, atomicStep (.agent (.host .detach)) b = .next c ∧ c.machine.blk = .free) ∧
    ((resetRun 0).machine.Inv ∧ (resetRun 0).boot = [] ∧ InfiniteRun (fun _ => .agent .cmd) resetRun ∧
      FairTo .cmd cmdHasStep (fun _ => .agent .cmd) resetRun ∧ FairTo .irq irqEnabled (fun _ => .agent .cmd) resetRun) ∧
    ((resetRun 1).machine.LocksHeld ∧ (resetRun 1).machine.blk = .held ∧
      atomicStep (.agent .cmd) (resetRun 1) = .next (resetRun 2)) ∧
    (State.Inv { ready with port := [some 0x0D] } ∧
      ∃ b, atomicRun [.agent .cmd, .agent .cmd] ⟨{ ready with port := [some 0x0D] }, []⟩ = .next b ∧
        b.machine.ilock = .cmd) :=
  ⟨rfl, ⟨ready_inv_port _, _, rfl⟩,
    ⟨{ (resetRun 3).machine with
        intPend := true
        hist := [.accept 0x101, .complete, .write .cmd 0x14 0x40, .result .ok 0] }, rfl, rfl⟩,
    by decide, ⟨_, rfl, rfl, rfl, ⟨by decide, by decide⟩, ⟨_, rfl, rfl⟩, _, rfl, rfl⟩,
    ⟨ready_inv_port _, rfl, resetRun_runs,
      fun n => ⟨n, Nat.le_refl n, .inr rfl⟩, fun n => ⟨n + 3, by omega, .inl (by rw [resetRun_rests]; rfl)⟩⟩,
    ⟨⟨by decide, by decide⟩, rfl, rfl⟩, ready_inv_port _, _, rfl, rfl⟩

end Sys2Proof.Tests
end

section
/-! What one single step does to the history, to BLOCK and to the two locks (spec/00_scope.md R17): `SingleStep` says once
what each can be, `atomicStep_singleStep` that every single step is one of these. -/

namespace Sys2Proof.Machine

/-- The two events a command stands between: its acceptance and its result (R104). -/
def Event.framing : Event → Bool
  | .accept _ => true
  | .result _ _ => true
  | _ => false

/-- `t` is `s` with the events `l` recorded: one step's, none of them an acceptance or a result, BLOCK left alone. -/
structure Records (s t : State) (l : List Event) : Prop where
  hist : t.hist = s.hist ++ l
  one : l.countP Event.takesStep ≤ 1
  inner : ∀ e ∈ l, e.framing = false
  blk : t.blk = s.blk

theorem Records.nothing {s t : State} (hh : t.hist = s.hist) (hb : t.blk = s.blk) : Records s t [] :=
  ⟨hh.trans (List.append_nil _).symm, by simp, by simp, hb⟩

theorem Records.event {s t : State} (e : Event) (he : e.framing = false) (hh : t.hist = s.hist ++ [e])
    (hb : t.blk = s.blk) : Records s t [e] :=
  ⟨hh, List.countP_le_length, by simpa using he, hb⟩

/-- Later updates of neither the history nor BLOCK. -/
theorem Records.of_same {s t u : State} {l : List Event} (h : Records s t l) (hh : u.hist = t.hist)
    (hb : u.blk = t.blk) : Records s u l :=
  ⟨hh.trans h.hist, h.one, h.inner, hb.trans h.blk⟩

/-- A register read is one event (R103). -/
theorem regRead_records {a : Agent} {r : Reg} {v : Word} {s t : State} (h : regRead a r s = .next (v, t)) :
    Records s t [.read a (s.params.off r) v] := by
  obtain ⟨-, rfl, rfl⟩ := regRead_cases h
  exact .event _ rfl (by simp) (by simp)

/-- A step that neither begins nor answers a command, nor ends its session: whether one is under way or turned away
stays, and ILOCK stays with its holder. -/
structure Minor (s t : State) (l : List Event) : Prop extends Records s t l where
  pending : (t.seq ≠ .idle ∨ t.code ≠ .ok) ↔ (s.seq ≠ .idle ∨ s.code ≠ .ok)
  lockIrq : (s.ilock = .irq ↔ s.irqPhase ≠ .idle) → (t.ilock = .irq ↔ t.irqPhase ≠ .idle)

/-- Turns of other agents than CMD. -/
theorem Minor.of_others {s t : State} {l : List Event} (h : Records s t l) (ho : OthersOnly s t) : Minor s t l :=
  ⟨h, by rw [ho.view.seq, ho.view.code], ho.lockIrq⟩

/-- A step within the command under way. -/
theorem Minor.of_busy {s t : State} {l : List Event} (h : Records s t l) (hs : s.seq ≠ .idle) (ht : t.seq ≠ .idle)
    (hl : (s.ilock = .irq ↔ s.irqPhase ≠ .idle) → (t.ilock = .irq ↔ t.irqPhase ≠ .idle)) : Minor s t l :=
  ⟨h, iff_of_true (.inl ht) (.inl hs), hl⟩

/-- A step that leaves `seq`, the code and ILOCK as they are. -/
theorem Minor.of_same {s t : State} {l : List Event} (h : Records s t l) (hs : t.seq = s.seq) (hc : t.code = s.code)
    (hl : t.ilock = s.ilock) (hp : t.irqPhase = s.irqPhase) : Minor s t l :=
  ⟨h, by rw [hs, hc], by rw [hl, hp]; exact id⟩

theorem Minor.refl (s : State) : Minor s s [] := .of_same (.nothing rfl rfl) rfl rfl rfl rfl

/-- A register write is one event, with the start of a bus cycle where it starts one (R102), also one that sets the cache
of MODE_CONFIG in the same step (R141). -/
theorem regWrite_minor {a : Agent} {r : Reg} {v c : Word} {s t : State}
    (h : regWrite a r v { s with cfg := c } = .next t) : ∃ l, Minor s t l := by
  obtain ⟨-, ⟨-, rfl⟩ | ⟨-, rfl⟩ | ⟨-, _, _, -, rfl⟩ | ⟨-, rfl⟩⟩ := regWrite_cases h
  · exact ⟨_, .of_same (.event (.write a (s.params.off r) v) rfl rfl rfl) rfl rfl rfl rfl⟩
  · obtain ⟨dev, addr, data, dir, hh⟩ := startCycle_hist r v
      (State.log { s with cfg := c } (.write a (s.params.off r) v))
    refine ⟨[.write a (s.params.off r) v, .busCycle dev addr data dir], .of_same ⟨?_, ?_, ?_, ?_⟩ ?_ ?_ ?_ ?_⟩
    · exact hh.trans (by simp)
    · exact Nat.le_refl _
    · simp [Event.framing]
    all_goals simp
  · exact ⟨_, .of_same (.event (.write a (s.params.off r) v) rfl rfl rfl) rfl rfl rfl rfl⟩
  · exact ⟨_, .of_same (.event (.write a (s.params.off r) v) rfl rfl rfl) rfl rfl rfl rfl⟩

/-- A micro-operation that CMD may take (R75, R101). -/
theorem microOp_minor {op : Micro} {rest : List Micro} {s t : State} (ht : s.todo = op :: rest)
    (hready : cmdReady s = true) (h : microOp op s = .next t) : ∃ l, Minor s t l := by
  unfold cmdReady at hready
  rw [ht] at hready
  cases op with
  | write r v => exact regWrite_minor (r := r) (v := v) (c := s.cfg) h
  | overwriteCfg v => exact regWrite_minor (r := .modeConfig) (v := v) (c := v) h
  | mergeCfg m mask => exact regWrite_minor (r := .modeConfig) (v := merge s.cfg m mask) (c := merge s.cfg m mask) h
  | read r mask =>
    obtain ⟨⟨v, u⟩, h1, h2⟩ := andThen_eq_next.mp h
    cases h2
    have hr := regRead_records h1
    obtain ⟨-, -, rfl⟩ := regRead_cases h1
    exact ⟨_, .of_same (hr.of_same rfl rfl) (by simp) (by simp) (by simp) (by simp)⟩
  | acquireI =>
    have hfree : s.ilock = .free := by simpa using hready
    cases h
    exact ⟨_, .nothing rfl rfl, .rfl, by simp [hfree]⟩
  | releaseI =>
    have hheld : s.ilock = .cmd := by simpa using hready
    cases h
    exact ⟨_, .nothing rfl rfl, .rfl, by simp [hheld]⟩
  | delay tag => cases h; exact ⟨_, .of_same (.event (.delay tag) rfl rfl rfl) rfl rfl rfl rfl⟩
  | _ => cases h; exact ⟨_, .of_same (.nothing rfl rfl) rfl rfl rfl rfl⟩

/-- `t` is `s` after one single step, `boot` being HOST's attach under way: everything such a step can do to the history,
to BLOCK and to ILOCK. -/
inductive SingleStep (boot : List BootOp) (s : State) : State → Prop
  | minor {t : State} (l : List Event) (h : Minor s t l) : SingleStep boot s t
  /-- A command is accepted and turned away. -/
  | turnsAway (header : Word) (code : Code) (port : List (Option Word)) (free : s.blk = .free) (fails : code ≠ .ok) :
      SingleStep boot s (startAway header code { s with port := port })
  /-- A command is accepted and begins. -/
  | begins (i : Instr) (prog : List Micro) (port : List (Option Word)) (free : s.blk = .free) :
      SingleStep boot s ((startCommand i { s with port := port }).withTodo prog)
  /-- A command under way, or one turned away, is answered. -/
  | answers (code : Code) (words : List Word) (pending : s.seq ≠ .idle ∨ s.blk = .held) :
      SingleStep boot s (sendResult code words s)
  /-- The session ends (R245). -/
  | detaches (idle : s.seq = .idle) :
      SingleStep boot s
        ({ s with attached := false, lineReg := false, bufAlloc := false, blk := .free, code := .ok }.log .detached)
  /-- An attach begins. -/
  | attaches (p : Params) (detached : s.attached = false) : SingleStep boot s (attachBegin p s)
  /-- The core's own fields are set by an attach under way (R242). -/
  | initialises (booting : boot ≠ []) : SingleStep boot s (bootState .initialise s)

/-- An agent without an enabled step changes nothing (log 6). -/
theorem SingleStep.refl {boot : List BootOp} (s : State) : SingleStep boot s s := .minor [] (.refl s)

/-- CMD's single step between commands. -/
theorem takeCommand_singleStep {boot : List BootOp} {s t : State} (h : takeCommand beginCommand s = .next t) :
    SingleStep boot s t := by
  rcases takeCommand_next h with ⟨hw, rfl⟩ | ⟨hm, header, code, port, hc, rfl⟩ | ⟨-, port, rfl⟩ |
    ⟨hm, i, port, prog, -, rfl⟩
  · exact .answers _ _ (.inr (awaits_iff.mp hw).2.2)
  · exact .turnsAway header code port (mayAccept_iff.mp hm).2.2.2 hc
  · exact .minor [] (.of_same (.nothing rfl rfl) rfl rfl rfl rfl)
  · exact .begins i prog port (mayAccept_iff.mp hm).2.2.2

/-- The end of a poll records nothing and keeps the sequencer and ILOCK. -/
theorem endPoll_fields (g : Bool) (rest : List Micro) (x : State × Bool) :
    (endPoll g rest x).hist = x.1.hist ∧ (endPoll g rest x).blk = x.1.blk ∧ (endPoll g rest x).seq = x.1.seq ∧
      (endPoll g rest x).ilock = x.1.ilock ∧ (endPoll g rest x).irqPhase = x.1.irqPhase := by
  unfold endPoll afterSpin; split <;> exact ⟨rfl, rfl, rfl, rfl, rfl⟩

/-- One read of a poll, with BWE beside it where the poll reaches its ceiling (R121; log 23). -/
theorem pollStep_minor {place : Where} {pred : Pred} {n : Nat} {g : Bool} {rest : List Micro} {s t : State}
    (hq : s.seq ≠ .idle) (h : pollStep place pred n g rest s = .next t) : ∃ l, Minor s t l := by
  obtain ⟨⟨v, u⟩, h1, h2⟩ := andThen_eq_next.mp h
  cases h2
  have hr := regRead_records h1
  obtain ⟨-, -, hu⟩ := regRead_cases h1
  have hseq : u.advance.seq ≠ .idle := fun hi => hq (by simpa [hu] using (advance_seq_idle u).mp hi)
  have hilock : u.ilock = s.ilock := by simp [hu]
  have hphase : u.irqPhase = s.irqPhase := by simp [hu]
  have ends : ∀ {x : State} {r : Bool} {l : List Event}, Records s x l → x.seq = u.advance.seq → x.ilock = u.ilock →
      x.irqPhase = u.irqPhase → Minor s (endPoll g rest (x, r)) l := fun {x r l} hx h3 h4 h5 => by
    obtain ⟨e1, e2, e3, e4, e5⟩ := endPoll_fields g rest (x, r)
    exact .of_busy (hx.of_same e1 e2) hq (by rw [e3, h3]; exact hseq)
      (by rw [e4, e5, h4, h5, hilock, hphase]; exact id)
  unfold afterStatus
  split
  · exact ⟨_, ends (hr.of_same rfl rfl) rfl rfl rfl⟩
  · split
    · refine ⟨[.read .cmd (s.params.off .status) v, .bwe place], ends ⟨?_, ?_, ?_, hr.blk⟩ rfl rfl rfl⟩
      · simp [hr.hist]
      · exact Nat.le_refl _
      · simp [Event.framing]
    · exact ⟨_, .of_busy (hr.of_same rfl rfl) hq hseq (by
        show _ → (u.ilock = .irq ↔ u.irqPhase ≠ .idle)
        rw [hilock, hphase]; exact id)⟩

/-- CMD's single step in a command under way. -/
theorem microStep_singleStep {boot : List BootOp} {s t : State} (hq : s.seq ≠ .idle) (hready : cmdReady s = true)
    (h : microStep s = .next t) : SingleStep boot s t := by
  cases ht : s.todo with
  | nil => rw [microStep_nil ht] at h; cases h; exact .answers _ _ (.inl hq)
  | cons op rest =>
    by_cases hp : ∃ place pred n g, op = .poll place pred n g
    · obtain ⟨place, pred, n, g, rfl⟩ := hp
      rw [microStep_poll ht] at h
      obtain ⟨l, hl⟩ := pollStep_minor hq h
      exact .minor l hl
    · rw [microStep_op ht hp] at h
      obtain ⟨u, h1, h2⟩ := andThen_eq_next.mp h
      cases h2
      obtain ⟨l, hl⟩ := microOp_minor ht hready h1
      exact .minor l (.of_busy (hl.toRecords.of_same rfl rfl) hq
        (fun hi => hq ((microOp_seq h1).1 ▸ (advance_seq_idle u).mp hi)) hl.lockIrq)

/-- A step of IRQ is at most one event (R214). -/
theorem irqStep_minor {s t : State} (h : irqStep s = .next t) : ∃ l, Minor s t l := by
  have others := irqStep_others h
  rcases irqStep_cases h with rfl | ⟨-, -, -, rfl⟩ | ⟨_, _, v, _, -, -, rfl⟩ | ⟨-, -, rfl⟩ | ⟨-, -, -, rfl⟩
  · exact ⟨_, .of_others (.nothing rfl rfl) others⟩
  · exact ⟨_, .of_others (.event .handlerEntry rfl rfl rfl) others⟩
  · exact ⟨_, .of_others (.event (.write .irq (s.params.off .intCtrl) v) rfl rfl rfl) others⟩
  · exact ⟨_, .of_others (.nothing rfl rfl) others⟩
  · exact ⟨_, .of_others (.event .handlerExit rfl rfl rfl) others⟩

/-- A step of DEV is at most one event (R228). -/
theorem devComplete_minor (s : State) : ∃ l, Minor s (devComplete s) l := by
  rcases devComplete_shape s with he | he <;> rw [he]
  · exact ⟨_, .refl s⟩
  · exact ⟨_, .of_same (.event .complete rfl rfl rfl) rfl rfl rfl rfl⟩

/-- An event of HOST that neither attaches nor detaches. -/
theorem hostStep_minor {e : HostEvent} {s t : State} (ha : ∀ p al, e ≠ .attach p al) (hd : e ≠ .detach)
    (h : hostStep e s = .next t) : ∃ l, Minor s t l := by
  cases e with
  | attach p al => exact absurd rfl (ha p al)
  | detach => exact absurd rfl hd
  | openSession =>
    cases h
    unfold openStep
    split
    · split
      · exact ⟨_, .of_same (.event (.opened false) rfl rfl rfl) rfl rfl rfl rfl⟩
      · exact ⟨_, .of_same (.event (.opened true) rfl rfl rfl) rfl rfl rfl rfl⟩
    · exact ⟨_, .refl s⟩
  | closeSession =>
    cases h
    split
    · exact ⟨_, .of_same (.event .closed rfl rfl rfl) rfl rfl rfl rfl⟩
    · exact ⟨_, .refl s⟩
  | submit words => cases h; exact ⟨_, .of_same (.nothing rfl rfl) rfl rfl rfl rfl⟩
  | refuseResult => cases h; exact ⟨_, .of_same (.nothing rfl rfl) rfl rfl rfl rfl⟩

/-- An event of HOST, an attach only its beginning. -/
theorem hostMove_singleStep {boot : List BootOp} {e : HostEvent} {s : State} {b : AtomicState}
    (h : hostMove e s = .next b) : SingleStep boot s b.machine := by
  have minor : ∀ {e : HostEvent}, (∀ p al, e ≠ .attach p al) → e ≠ .detach →
      (andThen (hostStep e s) fun t => .next ⟨t, []⟩) = Host.Outcome.next b → SingleStep boot s b.machine :=
    fun ha hd h => by
      obtain ⟨t, h1, h2⟩ := andThen_eq_next.mp h
      cases h2
      obtain ⟨l, hl⟩ := hostStep_minor ha hd h1
      exact .minor l hl
  cases e with
  | attach p al =>
    simp only [hostMove] at h
    split at h
    · cases h; exact .refl s
    · rename_i ha
      obtain ⟨⟨t, bs⟩, h1, h2⟩ := andThen_eq_next.mp h
      cases h2
      rcases attachStart_next h1 with ⟨-, rfl⟩ | ⟨-, -, rfl⟩
      · exact .minor _ (.of_same (.event (.attach .enomem) rfl rfl rfl) rfl rfl rfl rfl)
      · exact .attaches p (by simpa using ha)
  | detach =>
    obtain ⟨t, h1, h2⟩ := andThen_eq_next.mp h
    cases h2
    simp only [hostStep, detachStep] at h1
    split at h1
    · split at h1
      · rename_i hi; cases h1; exact .detaches hi.1
      · cases h1
    · cases h1; exact .refl s
  | openSession => exact minor (e := .openSession) (by simp) (by simp) h
  | closeSession => exact minor (e := .closeSession) (by simp) (by simp) h
  | submit words => exact minor (e := .submit words) (by simp) (by simp) h
  | refuseResult => exact minor (e := .refuseResult) (by simp) (by simp) h

/-- A HOST step of an attach under way. -/
theorem bootOp_singleStep {b : BootOp} {rest : List BootOp} {s t : State} (h : bootOp b s = .next t) :
    SingleStep (b :: rest) s t := by
  have write : ∀ {r : Reg} {v c : Word}, regWrite .host r v { s with cfg := c } = .next t →
      SingleStep (b :: rest) s t := fun hw => by
    obtain ⟨l, hl⟩ := regWrite_minor hw
    exact .minor l hl
  cases b with
  | writeMode => exact write (r := .modeConfig) (v := 0) (c := 0) h
  | writeDisable => exact write (r := .intCtrl) (v := s.params.intDisable) (c := s.cfg) h
  | writeClear => exact write (r := .intCtrl) (v := s.params.intClear) (c := s.cfg) h
  | initialise => cases h; exact .initialises (by simp)
  | registerLine => cases h; exact .minor _ (.of_same (.nothing rfl rfl) rfl rfl rfl rfl)
  | publish => cases h; exact .minor _ (.of_same (.event (.attach .ok) rfl rfl rfl) rfl rfl rfl rfl)

/-- Every single step is one of these. -/
theorem atomicStep_singleStep {m : Move} {a b : AtomicState} (h : atomicStep m a = .next b) :
    SingleStep a.boot a.machine b.machine := by
  obtain ⟨s, boot⟩ := a
  cases m with
  | boot =>
    cases boot with
    | nil => cases h; exact .refl s
    | cons o rest =>
      obtain ⟨t, h1, h2⟩ := andThen_eq_next.mp h
      cases h2
      exact bootOp_singleStep h1
  | agent u =>
    cases u with
    | cmd =>
      by_cases hq : s.seq = .idle
      · rw [atomicStep_idle hq] at h
        obtain ⟨t, h1, h2⟩ := andThen_eq_next.mp h
        cases h2
        exact takeCommand_singleStep h1
      · rw [atomicStep_busy hq] at h
        obtain ⟨t, h1, h2⟩ := andThen_eq_next.mp h
        cases h2
        split at h1
        · exact microStep_singleStep hq (by assumption) h1
        · cases h1; exact .refl s
    | irq =>
      obtain ⟨t, h1, h2⟩ := andThen_eq_next.mp h
      cases h2
      obtain ⟨l, hl⟩ := irqStep_minor h1
      exact .minor l hl
    | dev =>
      cases h
      obtain ⟨l, hl⟩ := devComplete_minor s
      exact .minor l hl
    | host e =>
      simp only [atomicStep, agentMove] at h
      split at h
      · exact hostMove_singleStep h
      · cases h; exact .refl s

/-- Every single step keeps BLOCK with its command and ILOCK with its holder. -/
theorem SingleStep.locksHeld {boot : List BootOp} {s t : State} (h : SingleStep boot s t) (hl : s.LocksHeld) :
    t.LocksHeld := by
  cases h with
  | minor l h => exact ⟨by rw [h.blk, h.pending]; exact hl.block, h.lockIrq hl.ilock⟩
  | turnsAway header code port free fails => exact ⟨iff_of_true rfl (.inr fails), hl.ilock⟩
  | begins i prog port free => exact ⟨iff_of_true rfl (.inl (by simp)), hl.ilock⟩
  | answers code words pending => exact ⟨by simp, hl.ilock⟩
  | detaches idle => exact ⟨by simp [idle], hl.ilock⟩
  | attaches p detached => exact ⟨hl.block, hl.ilock⟩
  | initialises booting => exact ⟨by simp [bootState], by simp [bootState]⟩

/-- What a single step records: one event that is a step of its own at most; BLOCK is taken exactly where it is an
acceptance, and freed where it is a result, outside an attach nowhere else but at a DETACH. -/
theorem SingleStep.records {boot : List BootOp} {s t : State} (h : SingleStep boot s t) :
    ∃ l, (t.hist = s.hist ++ l ∨ (s.attached = false ∧ t.attached = true ∧ t.hist = l)) ∧
      l.countP Event.takesStep ≤ 1 ∧
      ((∃ header, Event.accept header ∈ l) ↔ s.blk = .free ∧ t.blk = .held) ∧
      (s.LocksHeld → (∃ code n, Event.result code n ∈ l) → s.blk = .held ∧ t.blk = .free) ∧
      (boot = [] → s.blk = .held → t.blk = .free → (∃ code n, Event.result code n ∈ l) ∨ Event.detached ∈ l) := by
  cases h with
  | minor l h =>
    refine ⟨l, .inl h.hist, h.one, iff_of_false ?_ ?_, ?_, ?_⟩
    · rintro ⟨header, hm⟩; cases h.inner _ hm
    · rintro ⟨hs, ht⟩; rw [h.blk, hs] at ht; cases ht
    · rintro - ⟨code, n, hm⟩; cases h.inner _ hm
    · intro _ hs ht; rw [h.blk, hs] at ht; cases ht
  | turnsAway header code port free fails =>
    exact ⟨[.accept header], .inl rfl, List.countP_le_length, by simp [free], by simp, by simp [free]⟩
  | begins i prog port free =>
    exact ⟨[.accept i.header], .inl rfl, List.countP_le_length, by simp [free], by simp, by simp [free]⟩
  | answers code words pending =>
    exact ⟨[.result _ _], .inl rfl, List.countP_le_length, by simp,
      fun hl _ => ⟨pending.elim (fun hq => hl.block.mpr (.inl hq)) id, rfl⟩,
      fun _ _ _ => .inl ⟨_, _, List.mem_singleton_self _⟩⟩
  | detaches idle => exact ⟨[.detached], .inl rfl, List.countP_le_length, by simp, by simp, by simp⟩
  | attaches p detached =>
    refine ⟨[], .inr ⟨detached, rfl, rfl⟩, by simp, iff_of_false (by simp) ?_, by simp, ?_⟩
    · rintro ⟨hs, ht⟩; rw [show s.blk = .held from ht] at hs; cases hs
    · intro _ hs ht; rw [show s.blk = .free from ht] at hs; cases hs
  | initialises booting =>
    exact ⟨[], .inl (by simp [bootState]), by simp, by simp [bootState], by simp, fun hb => absurd hb booting⟩

/-- The invariant gives both locks between commands. -/
theorem State.Inv.locksHeld {s : State} (h : s.Inv) : s.LocksHeld :=
  ⟨by rw [h.blk]; simp [h.seq], h.lock.1⟩

end Sys2Proof.Machine
end

section
/-! The two machines against each other (spec/60_exceptions.md R222): a step is a run of single steps (`step_atomic`), and a
run of the agents' turns by single steps between two moments with `seq` idle is a run of steps (`atomicRun_runSteps`). -/

namespace Sys2Proof.Machine

/-! A step is a run of single steps. -/

/-- CMD's turn of `step`, a whole command where it begins one. -/
theorem cmdTurn_atomic {s t : State} (h : Sound ⟨s, []⟩) (hq : s.seq = .idle) (ht : cmdTurn s = .next t) :
    ∃ ms, atomicRun ms ⟨s.scheduled [], []⟩ = .next ⟨t.scheduled [], []⟩ := by
  rw [cmdTurn_eq_begin hq] at ht
  obtain ⟨u, hu, ht⟩ := andThen_eq_next.mp ht
  have hstep : atomicStep (.agent .cmd) ⟨s.scheduled [], []⟩ = .next ⟨u.scheduled [], []⟩ := by
    rw [atomicStep_idle (by exact hq), takeCommand_scheduled, hu]; rfl
  by_cases hi : u.seq = .idle
  · rw [goOn_idle hi] at ht
    cases ht
    exact ⟨[.agent .cmd], atomicRun_cons hstep rfl⟩
  · have hsu : Sound ⟨u, []⟩ :=
      atomicStep_sound (m := .agent .cmd) h (by rw [atomicStep_idle hq, hu]; rfl)
    rw [goOn_busy hi] at ht
    obtain ⟨ms, hms⟩ := runOps_atomic (hsu.inFlight hi) ht
    exact ⟨.agent .cmd :: ms, atomicRun_cons hstep hms⟩

theorem irqStep_atomic {s t : State} (h : irqStep s = .next t) :
    ∃ ms, atomicRun ms ⟨s.scheduled [], []⟩ = .next ⟨t.scheduled [], []⟩ := by
  refine ⟨[.agent .irq], atomicRun_cons ?_ rfl⟩
  show andThen (irqStep (s.scheduled [])) _ = _
  rw [irqStep_outside, h]; rfl

theorem devComplete_atomic (s : State) :
    ∃ ms, atomicRun ms ⟨s.scheduled [], []⟩ = .next ⟨(devComplete s).scheduled [], []⟩ := by
  refine ⟨[.agent .dev], atomicRun_cons ?_ rfl⟩
  show Host.Outcome.next (⟨devComplete (s.scheduled []), []⟩ : AtomicState) = _
  rw [devComplete_outside]

theorem Sound.scheduled {s : State} (h : Sound ⟨s, []⟩) (l : List Turn) : Sound ⟨s.scheduled l, []⟩ :=
  ⟨h.valid, fun hb => absurd rfl hb, h.detached, h.lockIrq, h.rests,
    fun hq => (h.inFlight hq).scheduled l, h.bracketed⟩

/-- A step, from a state with the invariant, is a run of single steps. -/
theorem step_atomic {s t : State} (h : s.Inv) (hs : step s = .next t) :
    ∃ ms, atomicRun ms ⟨s.scheduled [], []⟩ = .next ⟨t.scheduled [], []⟩ := by
  have sound := Sound.of_inv h
  rcases step_turns h.seq hs with rfl | hc | hi | ⟨l, hc | hi | rfl | ⟨e, he⟩⟩
  · exact ⟨[], rfl⟩
  · exact cmdTurn_atomic sound h.seq hc
  · exact irqStep_atomic hi
  · exact cmdTurn_atomic (s := s.scheduled l) (sound.scheduled l) h.seq hc
  · exact irqStep_atomic (s := s.scheduled l) hi
  · exact devComplete_atomic (s.scheduled l)
  · refine hostStep_atomic (s := s.scheduled []) (e := e) ?_
    show hostStep e ((s.scheduled l).scheduled []) = _
    rw [hostStep_outside, show hostStep e (s.scheduled l) = .next t from he]; rfl

/-! A run of single steps is a run of steps. -/

theorem runSteps_succ {n : Nat} {s t u : State} (h1 : step s = .next t) (h2 : runSteps n t = .next u) :
    runSteps (n + 1) s = .next u := by
  unfold runSteps; rw [h1]; exact h2

/-- Between commands a single step of an agent other than CMD that leaves no attach under way is that agent's turn of
`step`. -/
theorem agentTurn_of_atomicStep {u : Turn} {s t : State} (hu : u ≠ .cmd) (hq : s.seq = .idle)
    (h : atomicStep (.agent u) ⟨s, []⟩ = .next ⟨t, []⟩) : agentTurn u s = .next t ∧ t.seq = .idle := by
  cases u with
  | cmd => exact absurd rfl hu
  | irq =>
    obtain ⟨v, hv, he⟩ := andThen_eq_next.mp h
    cases he
    exact ⟨hv, (irqStep_others hv).view.seq.trans hq⟩
  | dev => cases h; exact ⟨rfl, (devComplete_others s).view.seq.trans hq⟩
  | host e => exact hostMove_done (e := e) hq h

/-- Turns of the agents by single steps that start and end with `seq` idle and no attach under way: `step` does the same
under the schedule of these turns, the turns within a command being part of the step that takes it. -/
theorem atomicRun_runSteps {l : List Turn} {s t : State} (h : Sound ⟨s, []⟩) (hq : s.seq = .idle) (ht : t.seq = .idle)
    (hr : atomicRun (l.map .agent) ⟨s, []⟩ = .next ⟨t, []⟩) :
    ∃ n, runSteps n (s.scheduled l) = .next (t.scheduled []) := by
  induction hn : l.length using Nat.strongRecOn generalizing l s with
  | _ n ih =>
    subst hn
    cases l with
    | nil => cases hr; exact ⟨0, rfl⟩
    | cons u l =>
      obtain ⟨⟨w, boot⟩, hstep, hrest⟩ := andThen_eq_next.mp hr
      have hb : boot = [] := by
        by_contra hb; exact boot_stays hb hrest rfl
      subst hb
      have hw := atomicStep_sound h hstep
      by_cases hu : u = .cmd
      · subst hu
        have htake := hstep
        rw [atomicStep_idle hq] at htake
        obtain ⟨x, hx, he⟩ := andThen_eq_next.mp htake
        cases he
        have hgo : step (s.scheduled (.cmd :: l)) = goOn (w.scheduled l) := by rw [step_cmd_begin hq, hx]; rfl
        by_cases hi : w.seq = .idle
        · rw [goOn_idle (by exact hi)] at hgo
          obtain ⟨n, hn⟩ := ih l.length (by simp) hw hi hrest rfl
          exact ⟨n + 1, runSteps_succ hgo hn⟩
        · obtain ⟨v, l1, l2, rfl, -, hv, hvi, hops, hrest⟩ := atomicRun_finishes (hw.inFlight hi) hrest ht
          rw [goOn_busy (by exact hi)] at hgo
          obtain ⟨n, hn⟩ := ih l2.length (by simp) (atomicRun_sound hw hv) hvi hrest rfl
          exact ⟨n + 1, runSteps_succ (hgo.trans hops) hn⟩
      · obtain ⟨hturn, hi⟩ := agentTurn_of_atomicStep hu hq hstep
        obtain ⟨n, hn⟩ := ih l.length (by simp) hw hi hrest rfl
        exact ⟨n + 1, runSteps_succ (by rw [step_other hq hu, hturn]; rfl) hn⟩

end Sys2Proof.Machine
end

section
/-! Infinite runs (spec/60_exceptions.md R209): DEV alone hangs a command, and no run fair towards CMD and IRQ does. -/

namespace Sys2Proof.Machine

/-! DEV alone. -/

theorem devComplete_completed {s : State} (ha : s.attached = true) (n : Nat) :
    devComplete (s.completed n) = s.completed (n + 1) := by
  unfold devComplete
  rw [if_pos (by exact ha)]
  simp [State.completed, State.log, List.replicate_succ']

/-- DEV completing for ever. -/
def completions (s : State) (n : Nat) : AtomicState := ⟨s.completed n, []⟩

theorem completions_zero (s : State) : completions s 0 = ⟨s, []⟩ := by simp [completions, State.completed]

theorem completions_infiniteRun {s : State} (ha : s.attached = true) :
    InfiniteRun (fun _ => .agent .dev) (completions s) := fun n => by
  show Host.Outcome.next (⟨devComplete (s.completed n), []⟩ : AtomicState) = _
  rw [devComplete_completed ha]; rfl

theorem completions_hangs {s : State} (hb : s.blk = .held) : Hangs (completions s) := ⟨0, fun _ _ => hb⟩

/-! Fair runs. -/

section
variable {moves : Nat → Move} {run : Nat → AtomicState}

theorem InfiniteRun.sound (hr : InfiniteRun moves run) (h : Sound (run 0)) (n : Nat) : Sound (run n) := by
  induction n with
  | zero => exact h
  | succ n ih => exact atomicStep_sound ih (hr n)

/-- BLOCK is held in a session alone (R27). -/
theorem Sound.attached_of_held {a : AtomicState} (h : Sound a) (hb : a.machine.blk = .held) :
    a.machine.attached = true := by
  by_contra ha
  obtain ⟨-, -, hfree⟩ := h.detached (by simpa using ha)
  rw [hb] at hfree; cases hfree

/-- While BLOCK stays held a command turned away goes on waiting, so CMD, which would answer it, takes no turn. -/
theorem awaits_forever (hr : InfiniteRun moves run) (hs : ∀ n, Sound (run n)) {N : Nat}
    (hb : ∀ m, N ≤ m → (run m).machine.blk = .held) (hq : (run N).machine.seq = .idle) :
    ∀ m, N ≤ m → (run m).machine.seq = .idle ∧ moves m ≠ .agent .cmd := by
  have idle : ∀ m, N ≤ m → (run m).machine.seq = .idle := fun m hm => by
    induction m, hm using Nat.le_induction with
    | base => exact hq
    | succ m hm ih => exact (awaits_stays (hs m) ih (hb m hm) (hr m) (hb (m + 1) (by omega))).1
  exact fun m hm => ⟨idle m hm, (awaits_stays (hs m) (idle m hm) (hb m hm) (hr m) (hb (m + 1) (by omega))).2⟩

/-- A fair CMD answers the command it turned away. -/
theorem fair_answers (hr : InfiniteRun moves run) (hs : ∀ n, Sound (run n)) (hc : FairTo .cmd cmdHasStep moves run)
    {N : Nat} (hb : ∀ m, N ≤ m → (run m).machine.blk = .held) : (run N).machine.seq ≠ .idle := by
  intro hq
  obtain ⟨m, hm, hf⟩ := hc N
  obtain ⟨hi, hmove⟩ := awaits_forever hr hs hb hq m hm
  have ha := (hs m).attached_of_held (hb m hm)
  have hstep : cmdHasStep (run m).machine = true := by
    unfold cmdHasStep
    rw [hi]
    exact cmdEnabled_awaits (awaits_iff.mpr ⟨ha, hi, hb m hm⟩)
  rcases hf with hf | hf
  · rw [hstep] at hf; cases hf
  · exact hmove hf

/-- In a command that never ends, from some point on neither CMD nor IRQ takes a step, and ILOCK and the handler stay as
they are: CMD's steps bring the command nearer to its end, and once CMD takes none, IRQ's bring IRQ nearer to where it has
none (R76). -/
theorem under_way_settles (hr : InfiniteRun moves run) (hs : ∀ n, Sound (run n)) {N : Nat}
    (hq : ∀ m, N ≤ m → (run m).machine.seq ≠ .idle) :
    ∃ M, N ≤ M ∧ ∀ m, M ≤ m →
      ¬ (moves m = .agent .cmd ∧ cmdReady (run m).machine = true) ∧
      ¬ (moves m = .agent .irq ∧ irqEnabled (run m).machine = true) ∧
      (run (m + 1)).machine.ilock = (run m).machine.ilock ∧
      (run (m + 1)).machine.irqPhase = (run m).machine.irqPhase := by
  have moved := fun m (hm : N ≤ m) => step_under_way (hs m) (hq m hm) (hr m) (hq (m + 1) (by omega))
  obtain ⟨M1, hM1, hconst1⟩ := eventually_const (fun m => (run m).machine.stepsLeft) N fun m hm => by
    rcases moved m hm with ⟨-, -, h⟩ | ⟨-, -, h, -⟩ | ⟨-, -, h, -⟩ <;> omega
  -- from here on CMD takes no step
  have still := fun m (hm : M1 ≤ m) => (moved m (by omega)).resolve_left fun h => by
    have h1 := hconst1 m hm
    have h2 := hconst1 (m + 1) (by omega)
    omega
  obtain ⟨M2, hM2, hconst2⟩ := eventually_const (fun m => irqLeft (run m).machine) M1 fun m hm => by
    rcases still m hm with ⟨-, -, -, h⟩ | ⟨-, -, -, -, hp, he⟩
    · exact Nat.le_of_lt h
    · unfold irqLeft; rw [hp, he]
  -- and from here on IRQ takes none
  refine ⟨M2, by omega, fun m hm => ?_⟩
  rcases still m (by omega) with ⟨-, -, -, h⟩ | ⟨hcmd, hirq, -, hl, hp, -⟩
  · have h1 := hconst2 m hm
    have h2 := hconst2 (m + 1) (by omega)
    omega
  · exact ⟨hcmd, hirq, hl, hp⟩

/-- A run that is fair towards CMD and IRQ does not hang (R76, R209): a CMD without a step waits for a handler under way,
which has one. -/
theorem fair_not_hangs (hr : InfiniteRun moves run) (hs : ∀ n, Sound (run n))
    (hc : FairTo .cmd cmdHasStep moves run) (hi : FairTo .irq irqEnabled moves run) : ¬ Hangs run := by
  rintro ⟨N, hb⟩
  have busy : ∀ m, N ≤ m → (run m).machine.seq ≠ .idle := fun m hm =>
    fair_answers hr hs hc fun k hk => hb k (by omega)
  obtain ⟨M, hM, settled⟩ := under_way_settles hr hs busy
  obtain ⟨m, hm, hf⟩ := hc M
  have hready : cmdReady (run m).machine = cmdHasStep (run m).machine := by
    unfold cmdHasStep
    split
    · exact absurd (by assumption) (busy m (by omega))
    · rfl
  have hwait : cmdReady (run m).machine = false := by
    rcases hf with hf | hf
    · exact hready.trans hf
    · by_contra hne
      exact (settled m hm).1 ⟨hf, by simpa using hne⟩
  have handler : ∀ k, m ≤ k → (run k).machine.ilock = .irq ∧ (run k).machine.irqPhase ≠ .idle := fun k hk => by
    induction k, hk using Nat.le_induction with
    | base => exact waits_on_handler (hs m) (busy m (by omega)) hwait
    | succ k hk ih =>
      obtain ⟨-, -, hl, hp⟩ := settled k (by omega)
      rw [hl, hp]; exact ih
  obtain ⟨k, hk, hf⟩ := hi m
  obtain ⟨hl, hp⟩ := handler k hk
  have he := irqEnabled_of ((hs k).inFlight (busy k (by omega))).attached hl hp
  rcases hf with hf | hf
  · rw [he] at hf; cases hf
  · exact (settled k (by omega)).2.1 ⟨hf, he⟩

end

end Sys2Proof.Machine
end

section
/-! The statement on the two machines, from the lemmas above. -/

namespace Sys2Proof.Machine

theorem atomicRun_locksHeld {ms : List Move} {a b : AtomicState} (h : a.machine.LocksHeld)
    (hr : atomicRun ms a = .next b) : b.machine.LocksHeld := by
  induction ms generalizing a with
  | nil => cases hr; exact h
  | cons m ms ih =>
    obtain ⟨c, h1, h2⟩ := andThen_eq_next.mp hr
    exact ih ((atomicStep_singleStep h1).locksHeld h) h2

/-- CMD holds ILOCK only in the middle of a command, where BLOCK is held (R76). -/
theorem blk_held_of_ilock_cmd {a : AtomicState} (hs : Sound a) (hl : a.machine.LocksHeld)
    (hc : a.machine.ilock = .cmd) : a.machine.blk = .held :=
  hl.block.mpr (.inl fun hq => hs.rests hq hc)

/-- Settles O60, clause by clause from the lemmas above. -/
theorem singleSteps : Obligations.SingleSteps := by
  unfold Obligations.SingleSteps
  refine ⟨fun m a b h => ?_, fun s t h hs => step_atomic h hs, fun s t l h ht hr => ?_, fun s ha hb => ?_,
    fun moves run h hboot hr hc hi => ?_, fun s h => h.locksHeld,
    fun m a b hl h => (atomicStep_singleStep h).locksHeld hl, fun s ms b h hr => ?_, fun m a b hl h => ?_⟩
  · obtain ⟨l, hist, one, -⟩ := (atomicStep_singleStep h).records
    exact ⟨l, hist, one⟩
  · exact atomicRun_runSteps (s := s.scheduled []) (t := t.scheduled [])
      ((Sound.of_inv h).scheduled []) h.seq ht hr
  · exact ⟨completions s, completions_zero s, completions_infiniteRun ha, completions_hangs hb, fun _ => rfl⟩
  · have h0 : Sound ⟨(run 0).machine, (run 0).boot⟩ := hboot ▸ Sound.of_inv h
    exact fair_not_hangs hr (hr.sound h0) hc hi
  · exact blk_held_of_ilock_cmd (atomicRun_sound (Sound.of_inv h) hr) (atomicRun_locksHeld h.locksHeld hr)
  · obtain ⟨l, hist, -, accepts, answers, frees⟩ := (atomicStep_singleStep h).records
    exact ⟨l, hist, accepts, answers hl, frees⟩

end Sys2Proof.Machine
end

section
/-! The register block (spec/10_state.md R33 to R44): the map, the storage registers, and INT_CTRL with the interrupt states
derived from its two bits. -/

namespace Sys2Proof.Machine

/-! The map. -/

/-- The reference configuration is one of this hardware (R6, R7). -/
theorem ref_valid : Params.ref.valid = true := by decide

/-- Of two registers of the list that share an offset the earlier one is SPI_DATA and the later one SPI_RESULT (R49). -/
theorem offsetsDistinct_pairwise {p : Params} {l : List Reg} (h : p.offsetsDistinct l = true) :
    l.Pairwise fun a b => p.off a = p.off b → a = .spiData ∧ b = .spiResult := by
  induction l with
  | nil => exact .nil
  | cons r rs ih =>
    simp only [Params.offsetsDistinct, Bool.and_eq_true, List.all_eq_true] at h
    refine .cons (fun b hb he => ?_) (ih h.2)
    simpa [Params.mayShare, he] using h.1 b hb

/-- The register found at an offset of the map: none before it in the list has that offset. -/
theorem regAt_first {p : Params} {r : Reg} (hr : r ∈ p.registers) :
    ∃ before after, p.registers = before ++ p.regAt (p.off r) :: after ∧ ∀ a ∈ before, p.off a ≠ p.off r := by
  cases hf : p.registers.find? (fun x => p.off x == p.off r) with
  | none => exact absurd (List.find?_eq_none.mp hf r hr) (by simp)
  | some x =>
    have hx : p.regAt (p.off r) = x := by unfold Params.regAt; rw [hf]
    obtain ⟨-, before, after, he, hb⟩ := List.find?_eq_some_iff_append.mp hf
    exact ⟨before, after, hx ▸ he, fun a ha => by simpa using hb a ha⟩

/-- An offset of the map names its register, or SPI_DATA where SPI_RESULT shares it (R49; log 13). -/
theorem regAt_off {p : Params} (h : p.valid = true) {r : Reg} (hr : r ∈ p.registers) :
    p.regAt (p.off r) = r ∨ (r = .spiResult ∧ p.regAt (p.off r) = .spiData) := by
  obtain ⟨-, -, hd, -⟩ := valid_map h
  obtain ⟨before, after, he, hb⟩ := regAt_first hr
  have hpair := (List.pairwise_append.mp (he ▸ offsetsDistinct_pairwise hd)).2.1
  have hmem : r ∈ before ++ p.regAt (p.off r) :: after := he ▸ hr
  rcases List.mem_append.mp hmem with hm | hm
  · exact absurd rfl (hb r hm)
  · rcases List.mem_cons.mp hm with hm | hm
    · exact .inl hm.symm
    · obtain ⟨h1, h2⟩ := (List.pairwise_cons.mp hpair).1 r hm (off_regAt p (p.off r))
      exact .inr ⟨h2, h1⟩

/-- Settles O13: an offset names the first register of the list that has it. -/
theorem registerMap : Obligations.RegisterMap := by
  unfold Obligations.RegisterMap
  refine ⟨ref_valid, fun p => ⟨off_regAt p, fun h r hr => ?_⟩⟩
  have hg := (valid_map h).2.1 r hr
  simp only [Params.goodOffset, Bool.and_eq_true, beq_iff_eq, decide_eq_true_eq] at hg
  refine ⟨hg.1, hg.2, (regAt_off h hr).imp_right fun ⟨hs, hd⟩ => ⟨hs, ?_, hd⟩⟩
  have ho := off_regAt p (p.off r)
  rw [hd] at ho
  rw [← hs, ho]

/-! Storage registers. -/

/-- A write of a storage register, by any agent (R34, R102). -/
theorem regWrite_storage {a : Agent} {r : Reg} {v : Word} {s : State} (ha : s.attached = true) (hk : r.kind = .storage) :
    regWrite a r v s = .next { s with
      regs := Memory.storeWord s.regs (s.params.off r) v, hist := s.hist ++ [.write a (s.params.off r) v] } := by
  unfold regWrite
  rw [if_pos ha, hk]
  rfl

/-- What a read of a storage register returns without a draw (R34, R103). -/
theorem fixedRead_storage {r : Reg} {s : State} (hk : r.kind = .storage) :
    s.fixedRead r = if s.params.storageReadBack then s.stored r else none := by
  unfold State.fixedRead
  rw [hk]

/-- A read whose value is fixed spends no draw and is recorded (R103). -/
theorem regRead_fixed {a : Agent} {r : Reg} {v : Word} {s : State} (ha : s.attached = true) (hf : s.fixedRead r = some v) :
    regRead a r s = .next (v, s.log (.read a (s.params.off r) v)) := by
  unfold regRead State.readValue State.afterRead
  rw [if_pos ha, hf]
  rfl

/-- A read whose value is not fixed is a draw (R103). -/
theorem readValue_draw {r : Reg} {s : State} (hf : s.fixedRead r = none) : s.readValue r = s.drawn := by
  unfold State.readValue
  rw [hf]
  rfl

/-- Byte `j` of a word stored (R61). -/
theorem byteAt_storeWord (m : Memory) (o : Nat) (v : Word) {j : Nat} (hj : j < 4) :
    Memory.byteAt (Memory.storeWord m o v) (o + j) = some (byteOf v j) := by
  unfold Memory.storeWord
  interval_cases j <;> simp [byteAt_setByte]

/-- Settles O14, from the laws of the register space. -/
theorem storageRegisters : Obligations.StorageRegisters := by
  unfold Obligations.StorageRegisters
  intro a b r v s ha hk
  refine ⟨fun h => readValue_draw ?_, _, regWrite_storage ha hk, loadWord_storeWord _ _ _,
    fun j hj => byteAt_storeWord _ _ _ hj, fun x hx => byteAt_storeWord_outside _ hx, storeWord_wf _ _, fun hb => ?_⟩
  · rw [fixedRead_storage hk]
    rcases h with h | h <;> simp [h]
  · refine ⟨_, regRead_fixed ha ?_, rfl, rfl⟩
    rw [fixedRead_storage hk, if_pos hb]
    exact loadWord_storeWord _ _ _

/-! INT_CTRL. -/

/-- A write of INT_CTRL while attached is recorded, and is its command (R41). -/
theorem regWrite_intCtrl_eq (a : Agent) (v : Word) {s : State} (ha : s.attached = true) :
    regWrite a .intCtrl v s = intCtrlWrite v (s.log (.write a (s.params.off .intCtrl) v)) := by
  unfold regWrite
  rw [if_pos ha]
  rfl

theorem regWrite_intEnable (a : Agent) {s : State} (ha : s.attached = true) :
    regWrite a .intCtrl s.params.intEnable s =
      .next { s with intEn := true, hist := s.hist ++ [.write a (s.params.off .intCtrl) s.params.intEnable] } := by
  rw [regWrite_intCtrl_eq a _ ha]
  exact if_pos rfl

theorem regWrite_intDisable (a : Agent) {s : State} (ha : s.attached = true) (hv : s.params.valid = true) :
    regWrite a .intCtrl s.params.intDisable s =
      .next { s with intEn := false, hist := s.hist ++ [.write a (s.params.off .intCtrl) s.params.intDisable] } := by
  obtain ⟨hed, -, -⟩ := valid_ints hv
  rw [regWrite_intCtrl_eq a _ ha]
  exact (if_neg (Ne.symm hed)).trans (if_pos rfl)

theorem regWrite_intClear (a : Agent) {s : State} (ha : s.attached = true) (hv : s.params.valid = true) :
    regWrite a .intCtrl s.params.intClear s =
      .next { s with intPend := false, hist := s.hist ++ [.write a (s.params.off .intCtrl) s.params.intClear] } := by
  obtain ⟨-, hec, hdc⟩ := valid_ints hv
  rw [regWrite_intCtrl_eq a _ ha]
  exact (if_neg (Ne.symm hec)).trans ((if_neg (Ne.symm hdc)).trans (if_pos rfl))

theorem regWrite_intCtrl_refused (a : Agent) {v : Word} {s : State} (ha : s.attached = true) (he : v ≠ s.params.intEnable)
    (hd : v ≠ s.params.intDisable) (hc : v ≠ s.params.intClear) :
    regWrite a .intCtrl v s = .refused (.badIntCtrlValue v) := by
  rw [regWrite_intCtrl_eq a _ ha]
  exact (if_neg he).trans ((if_neg hd).trans (if_neg hc))

/-- A read of INT_CTRL is fixed by the two bits (R42). -/
theorem fixedRead_intCtrl (s : State) : s.fixedRead .intCtrl = some s.intCtrlWord := rfl

/-- The word of INT_CTRL as a number (R42). -/
theorem intCtrlWord_toNat (s : State) : s.intCtrlWord.toNat = 2 * s.intPend.toNat + s.intEn.toNat := by
  unfold State.intCtrlWord
  cases s.intPend <;> cases s.intEn <;> rfl

/-- Settles O15: the three values of a valid configuration differ, so each write is its own command. -/
theorem interruptControl : Obligations.InterruptControl := by
  unfold Obligations.InterruptControl
  intro a s ha hv
  exact ⟨regWrite_intEnable a ha, regWrite_intDisable a ha hv, regWrite_intClear a ha hv,
    fun v he hd hc => regWrite_intCtrl_refused a ha he hd hc,
    s.intCtrlWord, _, regRead_fixed ha (fixedRead_intCtrl s), intCtrlWord_toNat s, rfl⟩

/-! The interrupt states (R44). -/

theorem irqState_disabled_iff {s : State} : s.irqState = .disabled ↔ s.intEn = false := by
  unfold State.irqState; cases s.intEn <;> cases s.intPend <;> decide

theorem irqState_armed_iff {s : State} : s.irqState = .armed ↔ s.intEn = true ∧ s.intPend = false := by
  unfold State.irqState; cases s.intEn <;> cases s.intPend <;> decide

theorem irqState_signaled_iff {s : State} : s.irqState = .signaled ↔ s.intEn = true ∧ s.intPend = true := by
  unfold State.irqState; cases s.intEn <;> cases s.intPend <;> decide

/-- A completion while attached latches pending, and leaves the enable (R228). -/
theorem devComplete_attached {s : State} (ha : s.attached = true) :
    devComplete s = { s with intPend := true, hist := s.hist ++ [.complete] } := if_pos ha

/-- Settles O47: each transition is an update of one of the two bits that the state is a function of. -/
theorem interruptStates : Obligations.InterruptStates := by
  unfold Obligations.InterruptStates
  intro s ha hv
  simp only [devComplete_attached ha, irqState_disabled_iff, irqState_armed_iff, irqState_signaled_iff]
  refine ⟨fun h => ⟨h, trivial⟩, fun h => ⟨h.1, trivial⟩, fun h => ⟨h.1, trivial⟩, ?_,
    _, regWrite_intDisable .cmd ha hv, rfl, rfl⟩
  exact ⟨_, _, regWrite_intClear .cmd ha hv, regWrite_intEnable .cmd (by exact ha), fun h => ⟨h.1, rfl⟩, ⟨rfl, rfl⟩,
    congrArg State.intPend (devComplete_attached (by exact ha))⟩

end Sys2Proof.Machine
end

section
/-! What a step between commands can do, said once (`step_turned`): the invariant (spec/10_state.md R22 to R29) and the
history of a session (R30) follow from it case by case. -/

namespace Sys2Proof.Machine

/-- `t` is `s` after one turn between commands, the schedule aside. -/
inductive Turned (s : State) : State → Prop
  /-- A turn of IRQ, DEV or HOST that leaves all that CMD owns. -/
  | others {t : State} (attached : s.attached = true) (h : OthersOnly s t) : Turned s t
  /-- Words at the port, a refusal of HOST's, or an attach that finds no buffer: nothing of the session changes. -/
  | outside (port : List (Option Word)) (refuse : Bool) (events : List Event) :
      Turned s { s with port := port, refuseOut := refuse, hist := s.hist ++ events }
  /-- A command turned away is answered. -/
  | answers (awaits : s.awaits = true) : Turned s (sendResult s.code [] s)
  /-- A frame that spells no command, or is not delivered, is accepted and turned away. -/
  | turnsAway (header : Word) (code : Code) (port : List (Option Word)) (accepts : mayAccept s = true)
      (fails : code ≠ .ok) : Turned s (startAway header code { s with port := port })
  /-- The command at the port runs. -/
  | runs {t : State} (i : Instr) (port : List (Option Word)) (accepts : mayAccept s = true)
      (h : exec i { s with port := port } = .next t) : Turned s t
  /-- The session ends (R245). -/
  | detaches (resting : s.irqPhase = .idle) :
      Turned s ({ s with attached := false, lineReg := false, bufAlloc := false, blk := .free, code := .ok }.log .detached)
  /-- A session begins (R240 to R242). -/
  | attaches (p : Params) (en pend : Bool) (valid : p.valid = true) (detached : s.attached = false) :
      Turned s (attachEnd { attachBegin p s with
        cfg := 0
        intEn := en, intPend := pend
        regs := Memory.storeWord [] (p.off .modeConfig) 0
        hist := [.write .host (p.off .modeConfig) 0] ++ [.write .host (p.off .intCtrl) p.intDisable] ++
          [.write .host (p.off .intCtrl) p.intClear] })

/-- A turn that changes nothing. -/
theorem Turned.refl (s : State) : Turned s s := by
  simpa using Turned.outside (s := s) s.port s.refuseOut []

theorem cmdTurn_turned {s t : State} (h : cmdTurn s = .next t) : Turned s t := by
  rcases takeCommand_cases h with ⟨hw, rfl⟩ | ⟨hm, header, code, port, hc, rfl⟩ | ⟨-, port, rfl⟩ | ⟨hm, i, port, -, hx⟩
  · exact .answers hw
  · exact .turnsAway header code port hm hc
  · simpa using Turned.outside (s := s) port s.refuseOut []
  · exact .runs i port hm hx

theorem irqStep_turned {s t : State} (h : irqStep s = .next t) : Turned s t := by
  cases ha : s.attached with
  | true => exact .others ha (irqStep_others h)
  | false => rw [irqStep_detached ha] at h; cases h; exact .refl s

theorem devComplete_turned (s : State) : Turned s (devComplete s) := by
  cases ha : s.attached with
  | true => exact .others ha (devComplete_others s)
  | false => rw [show devComplete s = s from if_neg (by simp [ha])]; exact .refl s

/-- HOST's events while detached: an attach alone begins a session. -/
theorem hostStep_detached_turned {e : HostEvent} {s t : State} (ha : s.attached = false) (h : hostStep e s = .next t) :
    Turned s t := by
  cases e with
  | attach p al =>
    rw [show hostStep (.attach p al) s = attachStep p al s from if_neg (by simp [ha])] at h
    obtain ⟨hv, ⟨-, rfl⟩ | ⟨-, en, pend, rfl⟩⟩ := attachStep_next h
    · exact .outside s.port s.refuseOut [.attach .enomem]
    · exact .attaches p en pend hv ha
  | submit words => cases h; simpa using Turned.outside (s := s) (s.port ++ words) s.refuseOut []
  | refuseResult => cases h; simpa using Turned.outside (s := s) s.port true []
  | _ => simp only [hostStep, ha] at h; cases h; exact .refl s

theorem hostStep_turned {e : HostEvent} {s t : State} (h : hostStep e s = .next t) : Turned s t := by
  cases ha : s.attached with
  | false => exact hostStep_detached_turned ha h
  | true =>
    by_cases he : e = .detach
    · subst he
      simp only [hostStep, ha, if_true, detachStep] at h
      split at h
      · rename_i hi; cases h; exact .detaches hi.2
      · cases h
    · exact .others ha (hostStep_others ha (.inl he) h)

/-- A step between commands is one such turn, under the schedule it leaves to come. -/
theorem step_turned {s t : State} (hq : s.seq = .idle) (h : step s = .next t) :
    ∃ l, Turned { s with sched := l } t := by
  rcases step_turns hq h with rfl | hc | hi | ⟨l, hc | hi | rfl | ⟨e, he⟩⟩
  · exact ⟨t.sched, .refl t⟩
  · exact ⟨s.sched, cmdTurn_turned hc⟩
  · exact ⟨s.sched, irqStep_turned hi⟩
  · exact ⟨l, cmdTurn_turned hc⟩
  · exact ⟨l, irqStep_turned hi⟩
  · exact ⟨l, devComplete_turned _⟩
  · exact ⟨l, hostStep_turned he⟩

/-! The invariant. -/

/-- The schedule is no part of the invariant. -/
theorem State.Inv.withSched {s : State} (h : s.Inv) (l : List Turn) : State.Inv { s with sched := l } :=
  ⟨h.params, h.memory, h.lock, h.seq, h.todo, h.vals, h.emitted, h.spins, h.blk, h.revoked, h.line, h.buffer, h.handler,
    h.count⟩

/-- Turns of the other agents keep the invariant. -/
theorem State.Inv.others {s t : State} (h : s.Inv) (ha : s.attached = true) (ho : OthersOnly s t) : t.Inv where
  params := by rw [ho.view.params]; exact h.params
  memory := by rw [ho.view.regs]; exact h.memory
  lock := ⟨ho.lockIrq h.lock.1, fun hc => h.lock.2 (ho.lockCmd.mp hc)⟩
  seq := ho.view.seq.trans h.seq
  todo := ho.view.todo.trans h.todo
  vals := ho.view.vals.trans h.vals
  emitted := ho.view.emitted.trans h.emitted
  spins := ho.view.spins.trans h.spins
  blk := by rw [ho.view.blk, ho.view.code]; exact h.blk
  revoked := fun hd => ho.view.blk.trans (h.revoked (ho.view.attached.symm.trans hd))
  line := by rw [ho.view.lineReg, ho.view.attached]; exact h.line
  buffer := by rw [ho.view.bufAlloc, ho.view.attached]; exact h.buffer
  handler := fun _ => ho.view.attached.trans ha
  count := by rw [ho.view.params]; exact ho.count h.count

/-- A command that ran to its result leaves the invariant. -/
theorem State.Inv.between {s t : State} {O : List Nat} {w : Bool} (h : s.Inv) (ha : s.attached = true) (hk : Kept O w s t)
    (hl : t.lockRests) (hb : Between t) : t.Inv where
  params := by rw [hk.params]; exact h.params
  memory := hk.memory h.memory
  lock := hl
  seq := hb.seq
  todo := hb.todo
  vals := hb.vals
  emitted := hb.emitted
  spins := hb.spins
  blk := by simp [hb.blk, hb.code]
  revoked := fun _ => hb.blk
  line := by rw [hk.lineReg, hk.attached]; exact h.line
  buffer := by rw [hk.bufAlloc, hk.attached]; exact h.buffer
  handler := fun _ => hk.attached.trans ha
  count := by rw [hk.params]; exact hk.count h.count

/-- A command turned away leaves the invariant: BLOCK is held, and its code pending. -/
theorem State.Inv.away {s : State} {header : Word} {code : Code} (h : s.Inv) (ha : s.attached = true) (hc : code ≠ .ok) :
    (startAway header code s).Inv :=
  ⟨h.params, h.memory, h.lock, h.seq, h.todo, h.vals, h.emitted, h.spins, iff_of_true rfl hc,
    fun hd => absurd (ha.symm.trans hd) (by simp), h.line, h.buffer, h.handler, h.count⟩

/-- What stands at the port, HOST's refusal and the history are no part of the invariant. -/
theorem State.Inv.outside {s : State} (h : s.Inv) (port : List (Option Word)) (refuse : Bool) (hist : List Event) :
    State.Inv { s with port := port, refuseOut := refuse, hist := hist } :=
  ⟨h.params, h.memory, h.lock, h.seq, h.todo, h.vals, h.emitted, h.spins, h.blk, h.revoked, h.line, h.buffer, h.handler,
    h.count⟩

/-- The invariant at the beginning of a session. -/
theorem inv_attachEnd {s : State} (hv : s.params.valid = true) (hm : Memory.wf s.regs = true) (ha : s.attached = true)
    (hb : s.bufAlloc = true) : (attachEnd s).Inv :=
  ⟨hv, hm, by simp [State.lockRests, attachEnd], rfl, rfl, rfl, rfl, rfl, by simp [attachEnd], fun _ => rfl, ha.symm,
    hb.trans ha.symm, fun hp => absurd rfl hp, Nat.two_pow_pos _⟩

theorem Turned.inv {s t : State} (h : s.Inv) (ht : Turned s t) : t.Inv := by
  cases ht with
  | others ha ho => exact h.others ha ho
  | outside port refuse events => exact h.outside port refuse _
  | answers hw =>
    exact h.between (O := []) (w := false) (awaits_iff.mp hw).1 (sendResult_kept _ _ s) h.lock (sendResult_between _ _ s)
  | turnsAway header code port hm hc =>
    exact (h.outside port s.refuseOut s.hist).away (mayAccept_iff.mp hm).1 hc
  | runs i port hm hx =>
    have ha := (mayAccept_iff.mp hm).1
    have hp : State.Inv { s with port := port } := h.outside port s.refuseOut s.hist
    obtain ⟨hk, hl, hb | ⟨code, hc, rfl⟩⟩ := exec_kept (s := { s with port := port }) ha h.lock hx
    · exact hp.between ha hk hl hb
    · exact hp.away ha hc
  | detaches hp =>
    exact ⟨h.params, h.memory, h.lock, h.seq, h.todo, h.vals, h.emitted, h.spins, by simp, fun _ => rfl, rfl, rfl,
      fun hn => absurd hp hn, h.count⟩
  | attaches p en pend hv hd => exact inv_attachEnd hv (storeWord_wf _ _ rfl) rfl rfl

/-- Settles O54: every turn keeps the invariant, and a step is one turn. -/
theorem invariantKept : Obligations.InvariantKept := by
  unfold Obligations.InvariantKept
  intro s t h hs
  obtain ⟨l, ht⟩ := step_turned h.seq hs
  exact ht.inv (h.withSched l)

/-- Reset is the state an attach with REF leaves, from a session destroyed (R243). -/
theorem reset_eq_attachEnd : State.reset =
    attachEnd { State.reset with
      hist := [.write .host 0x14 0, .write .host 0x18 2, .write .host 0x18 3] } := rfl

/-- Settles O53, reset being the end of an attach. -/
theorem invariantAtReset : Obligations.InvariantAtReset := by
  unfold Obligations.InvariantAtReset
  rw [reset_eq_attachEnd]
  exact inv_attachEnd ref_valid (by decide) rfl rfl

/-- The HOST steps of an attach, one after another, do not stop. -/
theorem runBoot_next {p : Params} (hv : p.valid = true) (bs : List BootOp) {s : State} (ha : s.attached = true)
    (hp : s.params = p) : runBoot bs s = .next (bs.foldl (fun t b => bootState b t) s) := by
  induction bs generalizing s with
  | nil => rfl
  | cons b bs ih =>
    rw [show runBoot (b :: bs) s = andThen (bootOp b s) (runBoot bs) from rfl, bootOp_next ha hp hv]
    exact ih ((bootState_attached b s).trans ha) ((bootState_params b s).trans hp)

/-- An attach with a valid configuration and a buffer (R240 to R242). -/
theorem hostStep_attach {p : Params} {s : State} (hv : p.valid = true) (ha : s.attached = false) :
    hostStep (.attach p true) s = .next (attachProgram.foldl (fun t b => bootState b t) (attachBegin p s)) := by
  rw [show hostStep (.attach p true) s = attachStep p true s from if_neg (by simp [ha]), ← runBoot_next hv _ rfl rfl]
  unfold attachStep attachStart
  rw [hv]
  rfl

/-- Settles O50: the HOST steps of an attach set every field that an earlier session may have left otherwise. -/
theorem resetIsAttach : Obligations.ResetIsAttach := by
  unfold Obligations.ResetIsAttach
  intro p cfg icount en pend opened regs hist
  rw [hostStep_attach ref_valid rfl]
  rfl

/-! The history and the parameters. -/

/-- A turn appends to the history and keeps the parameters, unless it begins a session: then the history is the attach's
own events. -/
theorem Turned.appends_or_attaches {s t : State} (hl : s.lockRests) (ht : Turned s t) :
    (s.hist <+: t.hist ∧ t.params = s.params ∧ (t.attached = true → s.attached = true)) ∨
      (s.attached = false ∧ t.attached = true ∧
        t.hist = [.write .host (t.params.off .modeConfig) 0, .write .host (t.params.off .intCtrl) t.params.intDisable,
          .write .host (t.params.off .intCtrl) t.params.intClear, .attach .ok]) := by
  cases ht with
  | others ha ho => exact .inl ⟨ho.hist, ho.view.params, fun _ => ha⟩
  | outside port refuse events => exact .inl ⟨List.prefix_append _ _, rfl, id⟩
  | answers hw => exact .inl ⟨List.prefix_append _ _, rfl, id⟩
  | turnsAway header code port hm hc => exact .inl ⟨List.prefix_append _ _, rfl, id⟩
  | runs i port hm hx =>
    have ha := (mayAccept_iff.mp hm).1
    obtain ⟨hk, -⟩ := exec_kept (s := { s with port := port }) ha hl hx
    exact .inl ⟨hk.hist, hk.params, fun _ => ha⟩
  | detaches hp => exact .inl ⟨List.prefix_append _ _, rfl, fun hd => by cases hd⟩
  | attaches p en pend hv hd => exact .inr ⟨hd, rfl, rfl⟩

/-- Settles O57, a step being one turn. -/
theorem historyAndParameters : Obligations.HistoryAndParameters := by
  unfold Obligations.HistoryAndParameters
  intro s t h hs
  obtain ⟨l, ht⟩ := step_turned h.seq hs
  rcases ht.appends_or_attaches (h.withSched l).lock with ⟨hh, hp, ha⟩ | ⟨hd, ha, hh⟩
  · exact ⟨fun _ => ⟨hh, hp⟩, fun _ _ => hh, fun hd ht => absurd ((ha ht).symm.trans hd) (by simp)⟩
  · exact ⟨fun hs => absurd (hs.symm.trans hd) (by simp), fun _ ht => absurd (ha.symm.trans ht) (by simp), fun _ _ => hh⟩

end Sys2Proof.Machine
end

section
/-! Whose turn it is between commands (spec/60_exceptions.md R209, R222), from what a step is by its turn
(Sys2Proof/Laws/Step.lean). -/

namespace Sys2Proof.Machine

/-- CMD's turn where the session is closed and no result is to send (R26). -/
theorem cmdTurn_closed {s : State} (ho : s.isOpen = false) (hb : s.blk = .free) : cmdTurn s = .next s :=
  takeCommand_none (awaits_of_free hb) (by simp [mayAccept, ho])

/-- CMD's turn where no whole command stands at the port and no result is to send (log 9). -/
theorem cmdTurn_idle {s : State} {h : Word} (hf : s.fetch = .nothing ∨ s.fetch = .incomplete h) (hb : s.blk = .free) :
    cmdTurn s = .next s := by
  cases hm : mayAccept s with
  | false => exact takeCommand_none (awaits_of_free hb) hm
  | true =>
    rw [cmdTurn, takeCommand_of_fetch hm]
    rcases hf with hf | hf <;> rw [hf]

/-- CMD's turn where the header slot at the port was not delivered (log 10). -/
theorem cmdTurn_noHeader {s : State} {rest : List (Option Word)} (hm : mayAccept s = true) (hp : s.port = none :: rest) :
    cmdTurn s = .next { s with port := rest } := by
  have hf : s.fetch = .noHeader rest := by unfold State.fetch; rw [hp]; rfl
  rw [cmdTurn, takeCommand_of_fetch hm, hf]

theorem cmdEnabled_closed {s : State} (ho : s.isOpen = false) (hb : s.blk = .free) : cmdEnabled s = false := by
  simp [cmdEnabled, awaits_of_free hb, mayAccept, ho]

theorem cmdEnabled_idle {s : State} {h : Word} (hf : s.fetch = .nothing ∨ s.fetch = .incomplete h) (hb : s.blk = .free) :
    cmdEnabled s = false := by
  rcases hf with hf | hf <;> simp [cmdEnabled, awaits_of_free hb, hf, takesTurn]

/-- With no turn left and no step of CMD, IRQ steps if it can (log 5). -/
theorem step_default_irq {s : State} (hq : s.seq = .idle) (hs : s.sched = []) (hc : cmdEnabled s = false)
    (hi : irqEnabled s = true) : step s = irqStep s := by
  rw [step_default hq hs, defaultTurn, hc, hi]
  rfl

/-- Else an attached core waits (log 18). -/
theorem step_default_wait {s : State} (hq : s.seq = .idle) (hs : s.sched = []) (hc : cmdEnabled s = false)
    (hi : irqEnabled s = false) (ha : s.attached = true) : step s = .next s := by
  rw [step_default hq hs, defaultTurn, hc, hi, ha]
  rfl

/-- And a detached one is stuck (R209). -/
theorem step_default_stuck {s : State} (hq : s.seq = .idle) (hs : s.sched = []) (ha : s.attached = false) :
    step s = .fault .stuck := by
  rw [step_default hq hs]
  simp [defaultTurn, cmdEnabled, State.awaits, mayAccept, irqEnabled, ha]

/-- An attach with a configuration that is none of this hardware (R7; log 19). -/
theorem hostStep_attach_refused {p : Params} {al : Bool} {s : State} (ha : s.attached = false) (hv : p.valid = false) :
    hostStep (.attach p al) s = .refused .badConfiguration := by
  simp [hostStep, ha, attachStep, attachStart, hv]

/-- Settles O10, each clause from the turn that the schedule, or with none left the order of the agents, gives. -/
theorem turnsOfTheAgents : Obligations.TurnsOfTheAgents := by
  unfold Obligations.TurnsOfTheAgents
  intro s l hq
  refine ⟨fun hs ho hb => ?_, step_irq hq, step_dev hq, fun e => step_host hq, step_default_stuck hq,
    fun words hs => step_host hq hs, fun hs => step_host hq hs, fun p al hs ha hv => ?_, fun h hf hb hs => ?_,
    fun h hf hb hs ha hi => step_default_wait hq hs (cmdEnabled_idle hf hb) hi ha,
    fun hs ho hb hi => step_default_irq hq hs (cmdEnabled_closed ho hb) hi,
    fun h hf hb hs hi => step_default_irq hq hs (cmdEnabled_idle hf hb) hi,
    fun hs ho hb hi ha => step_default_wait hq hs (cmdEnabled_closed ho hb) hi ha,
    fun rest hm hp => ⟨fun hs => ?_, fun hs => ?_⟩⟩
  · rw [step_cmd hq hs]; exact cmdTurn_closed ho hb
  · rw [step_host hq hs]; exact hostStep_attach_refused ha hv
  · rw [step_cmd hq hs]; exact cmdTurn_idle (h := h) hf hb
  · have hf : s.fetch = .noHeader rest := by unfold State.fetch; rw [hp]; rfl
    rw [step_default hq hs, defaultTurn_cmd (cmdEnabled_take hm (by rw [hf]; rfl))]
    exact cmdTurn_noHeader hm hp
  · rw [step_cmd hq hs]; exact cmdTurn_noHeader hm hp

end Sys2Proof.Machine
end

section
/-! Commands and the other agents: what a command leaves of what the others own with nothing else scheduled (R20), and that
under every calm schedule it does and answers the same (R72, R215). -/

namespace Sys2Proof.Machine

/-- The end of a command leaves what the other agents own. -/
theorem OthersKept.sendResult {s t : State} (h : OthersKept s t) (code : Code) (words : List Word) :
    OthersKept s (sendResult code words t) :=
  ⟨h.isOpen, h.port, h.icount, h.ilock, h.irqPhase, h.intEn, h.intPend⟩

/-- So does turning it away. -/
theorem startAway_othersKept (header : Word) (code : Code) (s : State) : OthersKept s (startAway header code s) :=
  ⟨rfl, rfl, rfl, rfl, rfl, rfl, rfl⟩

/-- Settles O43: a program without a write of INT_CTRL leaves, alone, all that the other agents own. -/
theorem commandsLeaveInterrupts : Obligations.CommandsLeaveInterrupts := by
  unfold Obligations.CommandsLeaveInterrupts
  intro i s t h hs hl hw hx
  rcases exec_cases i s with he | he | ⟨prog, he, hp⟩ | ⟨-, ⟨f, he⟩ | ⟨r, he⟩⟩ <;> rw [he] at hx
  · cases hx; exact startAway_othersKept _ _ s
  · cases hx; exact startAway_othersKept _ _ s
  · obtain ⟨c, hc⟩ := runAlone_next (s := startCommand i s) h.attached hp.sound
    obtain ⟨hq, -, hfree⟩ := runCommand_quiet hs hl hp.bracketed hc
    rw [hq] at hx
    cases hx
    have hk := runAlone_others hc (hp.arms hw) (hfree.trans hl.symm)
    exact OthersKept.of_start hk (OthersKept.sendResult ⟨rfl, rfl, rfl, rfl, rfl, rfl, rfl⟩ _ _)
  · cases hx
  · cases hx

/-! Schedules. -/

/-- A command that starts follows its start under any other schedule. -/
theorem Follows.start_withSched {k : Bool} {s : State} {l : List Turn} (i : Instr) (h : CanRun { s with sched := l })
    (hk : k = true → State.takesResult { s with sched := l } = true) :
    Follows k false (startCommand i s) (startCommand i { s with sched := l }) :=
  { Follows.start i h hk with }

theorem State.takesResult_refuseOut {s : State} (h : s.takesResult = true) : s.refuseOut = false := by
  simp only [State.takesResult, Bool.and_eq_true, Bool.not_eq_true'] at h
  exact h.1

/-- The result that HOST takes whole (R89, R106). -/
theorem sendResult_taken {code : Code} {words : List Word} {s : State} (hr : s.refuseOut = false) :
    sendResult code words s = deliver code (if code = .ok then words else []) s := by
  have hc : resultCode code words s = code := resultCode_eq fun _ _ => hr
  rw [sendResult, resultWords, hc]

/-- Two runs that follow one run alone send the same result. -/
theorem Follows.deliver {k b : Bool} {c u v : State} (hu : Follows k b c u) (hv : Follows k b c v) (code : Code)
    (words : List Word) : SameCmdView (deliver code words u) (deliver code words v) where
  params := hv.params.trans hu.params.symm
  attached := hv.attached.trans hu.attached.symm
  lineReg := hv.lineReg.trans hu.lineReg.symm
  bufAlloc := hv.bufAlloc.trans hu.bufAlloc.symm
  cfg := hv.cfg.trans hu.cfg.symm
  blk := rfl
  seq := rfl
  todo := rfl
  vals := rfl
  emitted := rfl
  code := rfl
  spins := rfl
  regs := hv.regs.trans hu.regs.symm
  portOut := by simp only [Machine.deliver, log_portOut, countField, hu.portOut, hv.portOut, hu.freeIx, hv.freeIx]
  draws := hv.draws.trans hu.draws.symm
  freeIx := by simp only [Machine.deliver, log_freeIx, hu.freeIx, hv.freeIx]
  trace := by simp only [Machine.deliver, log_hist, cmdTrace_append, hu.trace, hv.trace]

/-- Where HOST takes the words, the two commands end alike. -/
theorem Follows.sameResult {b : Bool} {c u v : State} (hu : Follows true b c u) (hv : Follows true b c v) :
    SameCmdView (sendResult u.code u.emitted u) (sendResult v.code v.emitted v) := by
  rw [sendResult_taken (State.takesResult_refuseOut (hu.takes rfl)),
    sendResult_taken (State.takesResult_refuseOut (hv.takes rfl)), hu.code, hv.code, hu.emitted, hv.emitted]
  exact hu.deliver hv _ _

/-- A program that reads only what CMD and the stored registers give it does the same under both schedules: each run
follows the program alone. -/
theorem runCommand_sameView {i : Instr} {prog : List Micro} {s t1 t2 : State} {l1 l2 : List Turn}
    (hp : ProgramOf i s.params prog) (hi : i.seesIrq s.params = false)
    (c1 : CanRun { s with sched := l1 }) (c2 : CanRun { s with sched := l2 })
    (k1 : State.takesResult { s with sched := l1 } = true) (k2 : State.takesResult { s with sched := l2 } = true)
    (h1 : runCommand i prog { s with sched := l1 } = .next t1) (h2 : runCommand i prog { s with sched := l2 } = .next t2) :
    SameCmdView t1 t2 := by
  obtain ⟨c, hc⟩ := runAlone_next (s := startCommand i s) c1.attached hp.sound
  obtain ⟨u, hu, fu⟩ := (Follows.start_withSched i c1 fun _ => k1).runOps (hp.view hi) hp.bracketed hc
  obtain ⟨v, hv, fv⟩ := (Follows.start_withSched i c2 fun _ => k2).runOps (hp.view hi) hp.bracketed hc
  cases hu.symm.trans h1
  cases hv.symm.trans h2
  exact fu.sameResult fv

/-- Settles O56: a command turned away is so under both schedules, and one that runs runs the same program. -/
theorem scheduleIndependence : Obligations.ScheduleIndependence := by
  unfold Obligations.ScheduleIndependence
  intro i s t1 t2 l1 l2 hi c1 c2 k1 k2 h1 h2
  rcases exec_uniform i s.params with he | he | ⟨prog, he, hp⟩ | ⟨-, ⟨f, he⟩ | ⟨r, he⟩⟩ <;>
    rw [he { s with sched := l1 } rfl] at h1 <;> rw [he { s with sched := l2 } rfl] at h2
  · cases h1; cases h2; constructor <;> rfl
  · cases h1; cases h2; constructor <;> rfl
  · exact runCommand_sameView hp hi c1 c2 k1 k2 h1 h2
  · cases h1
  · cases h1

end Sys2Proof.Machine
end

section
/-! DEBUG.RD and DEBUG.WR where they reach the interrupt logic or start a bus cycle (spec/43_session.md R171 to R173). -/

namespace Sys2Proof.Machine

/-- DEBUG.WR of a register it may write runs the one write of it (R172). -/
theorem exec_debugWr {roff data : Word} {r : Reg} {s : State} (hg : s.params.goodOffset roff.toNat = true)
    (hr : s.params.regAt roff.toNat = r) (hd : debugWriteRefusal s.params r data = none) :
    exec (.debugWr roff data) s = runCommand (.debugWr roff data) [.write r data] s := by
  subst hr
  exact runPlan_of ((if_pos hg).trans (by rw [hd])) rfl

/-- DEBUG.RD runs the one read of the register at its offset (R171). -/
theorem exec_debugRd {roff data : Word} {r : Reg} {s : State} (hg : s.params.goodOffset roff.toNat = true)
    (hr : s.params.regAt roff.toNat = r) :
    exec (.debugRd roff data) s = runCommand (.debugRd roff data) [.read r wholeWord, .emit 0] s := by
  subst hr
  exact runPlan_of (if_pos hg) rfl

/-! Bus cycles without a poll. -/

/-- A write of a cycle-start register, by any agent (R34, R102). -/
theorem regWrite_cycleStart {a : Agent} {r : Reg} {v : Word} {s : State} (ha : s.attached = true)
    (hk : r.kind = .cycleStart) :
    regWrite a r v s = .next (startCycle r v (s.log (.write a (s.params.off r) v))) := by
  unfold regWrite
  rw [if_pos ha, hk]

/-- What stands in a bus register that was written (R47). -/
theorem held_of_stored {s : State} {r : Reg} {x : Word} (h : s.stored r = some x) : s.held r = x := by
  unfold State.held; rw [h]; rfl

theorem afterHeld_stored (s : State) (r q : Reg) : (s.afterHeld r).stored q = s.stored q := by
  unfold State.stored; rw [afterHeld_regs, afterHeld_params]

/-- The event of a cycle of SPI_DATA, `d` and `a` being the device and the address that the device holds (R47). -/
def singleCycle (p : Params) (d a v : Word) : Event :=
  .busCycle (lowBits p.devW d) (lowBits p.addrW a) (lowBits p.dataW v) (dirOf p a)

/-- A cycle of SPI_DATA takes the device and the address last written, where there are such (R47; log 12). -/
theorem startSingle_hist (v : Word) (s : State) :
    ∃ d a, (∀ x, s.stored .spiDevice = some x → d = x) ∧ (∀ y, s.stored .spiAddress = some y → a = y) ∧
      (startSingle v s).hist = s.hist ++ [singleCycle s.params d a v] := by
  refine ⟨s.held .spiDevice, (s.afterHeld .spiDevice).held .spiAddress, fun x hx => held_of_stored hx,
    fun y hy => held_of_stored ((afterHeld_stored _ _ _).trans hy), ?_⟩
  simp [startSingle, singleCycle]

/-- Where a DEBUG.WR has recorded its write, alone. -/
def State.debugWrote (s : State) (roff data : Word) : State :=
  (startCommand (.debugWr roff data) s).log (.write .cmd roff.toNat data)

/-- DEBUG.WR of a cycle-start register under any calm schedule: its write, and the cycle `e` that it starts (R173). -/
theorem debugWr_cycle {roff data : Word} {r : Reg} {e : Event} {s : State} (h : CanRun s)
    (hg : s.params.goodOffset roff.toNat = true) (hr : s.params.regAt roff.toNat = r) (hk : r.kind = .cycleStart)
    (he : e.byCmd = true)
    (hc : (startCycle r data (s.debugWrote roff data)).hist = (s.debugWrote roff data).hist ++ [e]) :
    ∃ t, exec (.debugWr roff data) s = .next t ∧
      Answers (.debugWr roff data) [.write .cmd roff.toNat data, e] .ok [] s t ∧
      t.draws = s.draws ∧ t.regs = s.regs ∧ t.cfg = s.cfg ∧ (s.sched = [] → s.ilock = .free → OthersKept s t) := by
  have ho : s.params.off r = roff.toNat := hr ▸ off_regAt s.params roff.toNat
  have hrun : runAlone [.write r data] (startCommand (.debugWr roff data) s) =
      .next (startCycle r data (s.debugWrote roff data)) := by
    unfold State.debugWrote
    rw [← ho]
    exact runAlone_cons (by rintro ⟨_, _, _, _, hp⟩; cases hp)
      (regWrite_cycleStart (s := startCommand (.debugWr roff data) s) h.attached hk)
  have htrace : cmdTrace (startCycle r data (s.debugWrote roff data)).hist =
      cmdTrace s.hist ++ .accept (Instr.header (.debugWr roff data)) :: [.write .cmd roff.toNat data, e] :=
    trace_of_hist (hc.trans (by simp [State.debugWrote])) (List.filter_eq_self.mpr (by simpa using ⟨rfl, he⟩))
  obtain ⟨t, ht, hans, hregs, hcfg, hdraws, -, hoth⟩ := command_result (words := []) (code := .ok) h rfl rfl hrun htrace
    (startCycle_code _ _ _) (fun _ => startCycle_emitted _ _ _) (fun _ => rfl) (by simp) (by simp)
  refine ⟨t, (exec_debugWr hg hr (by simp [debugWriteRefusal, hk])).trans ht, hans, hdraws.trans (startCycle_draws _ _ _),
    hregs.trans (startCycle_regs _ _ _), hcfg.trans (startCycle_cfg _ _ _), fun hs hl => ?_⟩
  exact OthersKept.of_start (runAlone_others hrun (by simp [Micro.arms, hk]) (startCycle_ilock _ _ _)) (hoth hs hl)

/-- DEBUG.WR of SPI_DATA (R47, R173). -/
theorem debugWr_spiData {roff data : Word} {s : State} (h : CanRun s) (hg : s.params.goodOffset roff.toNat = true)
    (hr : s.params.regAt roff.toNat = .spiData) :
    ∃ t d a, (∀ x, s.stored .spiDevice = some x → d = x) ∧ (∀ y, s.stored .spiAddress = some y → a = y) ∧
      exec (.debugWr roff data) s = .next t ∧
      Answers (.debugWr roff data) [.write .cmd roff.toNat data, singleCycle s.params d a data] .ok [] s t ∧
      t.draws = s.draws ∧ t.regs = s.regs ∧ t.cfg = s.cfg ∧ (s.sched = [] → s.ilock = .free → OthersKept s t) := by
  obtain ⟨d, a, hd, ha, hc⟩ := startSingle_hist data (s.debugWrote roff data)
  obtain ⟨t, ht⟩ := debugWr_cycle h hg hr rfl rfl hc
  exact ⟨t, d, a, hd, ha, ht⟩

/-- The composite word's fields, as a DEBUG.WR of SPI_LANE gives them (R48). -/
theorem lowBits_shift (n k : Nat) (v : Word) : lowBits n (v >>> k) = BitVec.ofNat 32 (v.toNat / 2 ^ k % 2 ^ n) := by
  rw [lowBits, BitVec.toNat_ushiftRight, Nat.shiftRight_eq_div_pow]

/-- Settles O34: the write of the register the offset names, by which of the two kinds of cycle it starts. -/
theorem debugWrStartsCycle : Obligations.DebugWrStartsCycle := by
  unfold Obligations.DebugWrStartsCycle
  intro roff data s h h4 hlt
  have hg : s.params.goodOffset roff.toNat = true := by simp [Params.goodOffset, h4, hlt]
  refine ⟨fun d a hr hd ha => ?_, fun hr => debugWr_spiData h hg hr, fun k hr => ?_⟩
  · obtain ⟨t, d', a', hd', ha', hx, hans, -, hkept⟩ := debugWr_spiData (data := data) h hg hr
    rw [hd' d hd, ha' a ha] at hans
    exact ⟨t, hx, hans, hkept⟩
  · obtain ⟨t, hx, hans, -, hkept⟩ := debugWr_cycle (data := data) h hg hr rfl rfl rfl
    rw [show (s.debugWrote roff data).params = s.params from rfl, lowBits_shift] at hans
    exact ⟨t, hx, hans, hkept⟩

end Sys2Proof.Machine
end

section
/-! DEBUG.RD and DEBUG.WR of INT_CTRL (spec/10_state.md R41, R42, spec/43_session.md R171 to R173): one transaction at
whatever position the handler is. -/

namespace Sys2Proof.Machine

/-- A command that follows its program alone, HOST taking its words, answers with what the program alone emitted. -/
theorem Follows.answers {i : Instr} {s c v : State} {txns : List Event} {words : List Word} (h : Follows true false c v)
    (hs : SameSession (startCommand i s) c) (hh : c.hist = (startCommand i s).hist ++ txns) (ht : cmdTrace txns = txns)
    (hc : c.code = .ok) (he : c.emitted = words) (hn : words.length < 2 ^ 16) :
    Answers i txns .ok words s (sendResult v.code v.emitted v) := by
  have hr := State.takesResult_refuseOut (h.takes rfl)
  rw [h.code.trans hc, h.emitted.trans he]
  obtain ⟨hp, hv⟩ := sendResult_answer (s := v) (code := .ok) (fun _ _ => hr) (fun hne => absurd rfl hne) hn
  refine ⟨h.params.trans hs.params, h.lineReg.trans hs.lineReg, h.bufAlloc.trans hs.bufAlloc, rfl, rfl, rfl, rfl, rfl,
    rfl, rfl, ⟨h.isAttached, h.calm, h.lockIrq, fun hcmd => ?_⟩, ?_, ?_⟩
  · cases h.lockCmd.mp hcmd
  · rw [hp, h.portOut, hs.portOut]; rfl
  · rw [hv, cmdTrace_append, h.trace, trace_of_hist hh ht]
    simp [cmdTrace, Event.byCmd]

/-! Nothing scheduled, the handler at any position. -/

/-- Only a lock operation waits (R75). -/
theorem cmdReady_of_no_lock {s : State} {op : Micro} {rest : List Micro} (ht : s.todo = op :: rest)
    (hl : op.locks = false) : cmdReady s = true := by
  unfold cmdReady
  rw [ht]
  cases op with
  | acquireI => cases hl
  | releaseI => cases hl
  | _ => rfl

/-- A program without lock operations and polls, nothing scheduled: it runs as it does alone, whoever holds ILOCK. -/
theorem runOps_unscheduled {prog : List Micro} {c c' : State} {i : Instr} {k : Nat} {td : List Micro} (hs : c.sched = [])
    (hl : ∀ op ∈ prog, op.locks = false ∧ ¬ ∃ place pred n g, op = .poll place pred n g)
    (hc : runAlone prog c = .next c') :
    runOps prog (c.at (.run i k) td) = .next (sendResult c'.code c'.emitted c') := by
  induction prog generalizing c k td with
  | nil => cases hc; exact finish_quiet hs i k td
  | cons op rest ih =>
    obtain ⟨hlock, hpoll⟩ := hl op (by simp)
    obtain ⟨⟨c1, go⟩, h1, h2⟩ := andThen_eq_next.mp hc
    rw [opAlone_atomic hpoll] at h1
    obtain ⟨c2, h3, h4⟩ := andThen_eq_next.mp h1
    cases h4
    have hready := cmdReady_of_no_lock (s := c.at (.run i k) (op :: rest)) rfl hlock
    have hop : runOp op (c.at (.run i k) (op :: rest)) = .next (c1.at (.run i (k + 1)) (op :: rest), true) := by
      rw [runOp_atomic hpoll, toCmd_quiet (by exact hs) hready, andThen_next, microOp_at, h3]
      rfl
    unfold runOps
    rw [show (c.at (.run i k) td).withTodo (op :: rest) = c.at (.run i k) (op :: rest) from rfl, hop]
    exact ih ((microOp_sched h3).trans hs) (fun o ho => hl o (by simp [ho])) h2

theorem runCommand_unscheduled {i : Instr} {prog : List Micro} {s c : State} (hs : s.sched = [])
    (hl : ∀ op ∈ prog, op.locks = false ∧ ¬ ∃ place pred n g, op = .poll place pred n g)
    (hc : runAlone prog (startCommand i s) = .next c) :
    runCommand i prog s = .next (sendResult c.code c.emitted c) :=
  runOps_unscheduled (c := startCommand i s) (i := i) (k := 0) (td := s.todo) hs hl hc

/-! The read. -/

/-- CMD's read of INT_CTRL that returned `w`, as an update. -/
def State.gotInt (s : State) (w mask : Word) : State :=
  { s.log (.read .cmd (s.params.off .intCtrl) w) with vals := s.vals ++ [w &&& mask] }

theorem microOp_readInt {s : State} (mask : Word) (ha : s.attached = true) :
    microOp (.read .intCtrl mask) s = .next (s.gotInt s.intCtrlWord mask) := by
  rw [microOp_read, regRead_fixed ha (fixedRead_intCtrl s)]
  rfl

theorem gotInt_same (s : State) (w mask : Word) : SameSession s (s.gotInt w mask) :=
  ⟨rfl, rfl, rfl, rfl, rfl, rfl, rfl, rfl, rfl, rfl, rfl⟩

/-- The same word read follows. -/
theorem Follows.gotInt {k b : Bool} {c u : State} (h : Follows k b c u) (w mask : Word) :
    Follows k b (c.gotInt w mask) (u.gotInt w mask) := by
  have hl := h.log (.read .cmd (c.params.off .intCtrl) w)
  unfold State.gotInt
  rw [h.params, h.vals]
  exact { hl with vals := rfl }

/-- A program that begins with a read of INT_CTRL: the word is the one of the moment of the read, and after it the program
follows itself alone with that word. -/
theorem Follows.runOps_readInt {k : Bool} {mask : Word} {rest : List Micro} {c u : State} (h : Follows k false c u)
    (hr : rest.all Micro.viewOnly = true) (hb : bracketed false rest = true) :
    ∃ m, Machine.toCmd (u.withTodo (.read .intCtrl mask :: rest)) = .next m ∧
      ∀ c', runAlone rest (c.gotInt m.intCtrlWord mask) = .next c' →
        ∃ v, Machine.runOps (.read .intCtrl mask :: rest) u = .next (sendResult v.code v.emitted v) ∧
          Follows k false c' v := by
  obtain ⟨m, hm, fm, -⟩ := (h.withTodo (.read .intCtrl mask :: rest)).toCmd rfl rfl
  refine ⟨m, hm, fun c' hc => ?_⟩
  obtain ⟨v, hv, fv⟩ := (fm.gotInt m.intCtrlWord mask).advance.runOps hr hb hc
  refine ⟨v, ?_, fv⟩
  unfold Machine.runOps
  rw [runOp_atomic (by rintro ⟨_, _, _, _, hp⟩; cases hp), hm, andThen_next, microOp_readInt mask fm.isAttached]
  exact hv

/-- The word of INT_CTRL has two bits. -/
theorem intCtrlWord_lt (s : State) : s.intCtrlWord.toNat < 4 := by
  rw [intCtrlWord_toNat]; cases s.intPend <;> cases s.intEn <;> decide

theorem and_wholeWord (w : Word) : w &&& wholeWord = w := BitVec.and_allOnes

/-- What the program of DEBUG.RD alone leaves where it read `w`. -/
def State.debugRead (s : State) (i : Instr) (w : Word) : State :=
  { (startCommand i s).gotInt w wholeWord with emitted := [w] }

theorem debugRead_cfg (s : State) (i : Instr) (w : Word) : (s.debugRead i w).cfg = s.cfg := by
  simp [State.debugRead, State.gotInt]
theorem debugRead_code (s : State) (i : Instr) (w : Word) : (s.debugRead i w).code = .ok := rfl
theorem debugRead_emitted (s : State) (i : Instr) (w : Word) : (s.debugRead i w).emitted = [w] := rfl
theorem debugRead_regs (s : State) (i : Instr) (w : Word) : (s.debugRead i w).regs = s.regs := by
  simp [State.debugRead, State.gotInt]
theorem debugRead_draws (s : State) (i : Instr) (w : Word) : (s.debugRead i w).draws = s.draws := by
  simp [State.debugRead, State.gotInt]
theorem debugRead_hist (s : State) (i : Instr) (w : Word) :
    (s.debugRead i w).hist = (startCommand i s).hist ++ [.read .cmd (s.params.off .intCtrl) w] := rfl

theorem runAlone_debugRead (i : Instr) (s : State) (w : Word) :
    runAlone [.emit 0] ((startCommand i s).gotInt w wholeWord) = .next (s.debugRead i w) := by
  rw [runAlone_emit, runAlone_nil]
  simp [State.debugRead, State.gotInt, and_wholeWord]

/-- A program that reads INT_CTRL and emits the word, under any calm schedule, the handler at any position. -/
theorem readInt_result {i : Instr} {s : State} (h : CanRun s) (hk : s.takesResult = true) :
    ∃ t w, runCommand i [.read .intCtrl wholeWord, .emit 0] s = .next t ∧
      Answers i [.read .cmd (s.params.off .intCtrl) w] .ok [w] s t ∧ w.toNat < 4 ∧ t.draws = s.draws ∧ t.regs = s.regs ∧
      t.cfg = s.cfg ∧ (s.sched = [] → w = s.intCtrlWord ∧ OthersKept s t) := by
  obtain ⟨m, hm, hrun⟩ := (Follows.start i h fun _ => hk).runOps_readInt (mask := wholeWord) (rest := [.emit 0]) rfl rfl
  obtain ⟨v, hv, fv⟩ := hrun _ (runAlone_debugRead i s m.intCtrlWord)
  have hx : runCommand i [.read .intCtrl wholeWord, .emit 0] s = .next (sendResult v.code v.emitted v) := hv
  have hsame := (gotInt_same (startCommand i s) m.intCtrlWord wholeWord).trans
    (runAlone_same (runAlone_debugRead i s m.intCtrlWord))
  have hans := fv.answers hsame (debugRead_hist s i _) rfl (debugRead_code s i _) (debugRead_emitted s i _) (by simp)
  refine ⟨_, m.intCtrlWord, hx, hans, intCtrlWord_lt m, fv.draws.trans (debugRead_draws s i _),
    fv.regs.trans (debugRead_regs s i _), fv.cfg.trans (debugRead_cfg s i _), fun hs => ?_⟩
  have hw : m.intCtrlWord = s.intCtrlWord := by
    rw [toCmd_quiet (by exact hs) rfl] at hm
    cases hm; rfl
  have hc : runAlone [.read .intCtrl wholeWord, .emit 0] (startCommand i s) = .next (s.debugRead i s.intCtrlWord) := by
    rw [runAlone_cons (by rintro ⟨_, _, _, _, hp⟩; cases hp) (microOp_readInt _ (by exact h.attached))]
    exact runAlone_debugRead i s s.intCtrlWord
  have hq := runCommand_unscheduled hs (by simp [Micro.locks]) hc
  rw [hx] at hq
  have hkept := runAlone_others hc (by simp [Micro.arms]) rfl
  rw [Host.Outcome.next.inj hq]
  exact ⟨hw, .of_start hkept (.sendResult ⟨rfl, rfl, rfl, rfl, rfl, rfl, rfl⟩ _ _)⟩

/-! The write. -/

/-- What a command of INT_CTRL does to the interrupt bits (R41). -/
def State.commanded (s : State) (a : Agent) (v : Word) : State :=
  { s with
    intEn := if v = s.params.intEnable then true else if v = s.params.intDisable then false else s.intEn
    intPend := if v = s.params.intClear then false else s.intPend
    hist := s.hist ++ [.write a (s.params.off .intCtrl) v] }

theorem regWrite_commanded {a : Agent} {v : Word} {s : State} (ha : s.attached = true) (hv : s.params.valid = true)
    (h : v = s.params.intEnable ∨ v = s.params.intDisable ∨ v = s.params.intClear) :
    regWrite a .intCtrl v s = .next (s.commanded a v) := by
  obtain ⟨hed, hec, hdc⟩ := valid_ints hv
  rcases h with rfl | rfl | rfl
  · rw [regWrite_intEnable a ha]; simp [State.commanded, hec]
  · rw [regWrite_intDisable a ha hv]; simp [State.commanded, Ne.symm hed, hdc]
  · rw [regWrite_intClear a ha hv]; simp [State.commanded, Ne.symm hec, Ne.symm hdc]

/-- A program of one command of INT_CTRL, under any calm schedule, the handler at any position. -/
theorem writeInt_result {i : Instr} {v : Word} {s : State} (h : CanRun s) (hv : s.params.valid = true)
    (hd : v = s.params.intEnable ∨ v = s.params.intDisable ∨ v = s.params.intClear) :
    ∃ t, runCommand i [.write .intCtrl v] s = .next t ∧
      Answers i [.write .cmd (s.params.off .intCtrl) v] .ok [] s t ∧ t.draws = s.draws ∧ t.regs = s.regs ∧
      t.cfg = s.cfg ∧ (s.sched = [] → OthersKept (s.commanded .cmd v) t) := by
  have hc : runAlone [.write .intCtrl v] (startCommand i s) = .next ((startCommand i s).commanded .cmd v) :=
    runAlone_cons (by rintro ⟨_, _, _, _, hp⟩; cases hp)
      (regWrite_commanded (s := startCommand i s) h.attached hv hd)
  obtain ⟨t, ht, hans, hregs, hcfg, hdraws, -, -⟩ := command_result (words := []) (code := .ok) h rfl rfl hc
    (trace_of_hist rfl rfl) rfl (fun _ => rfl) (fun _ => rfl) (by simp) (by simp)
  refine ⟨t, ht, hans, hdraws, hregs, hcfg, fun hs => ?_⟩
  have hq := runCommand_unscheduled hs (by simp [Micro.locks]) hc
  rw [ht] at hq
  have hkept : OthersKept (s.commanded .cmd v) ((startCommand i s).commanded .cmd v) :=
    ⟨rfl, rfl, rfl, rfl, rfl, rfl, rfl⟩
  rw [Host.Outcome.next.inj hq]
  exact hkept.sendResult _ _

/-- INT_CTRL is a register of every variant. -/
theorem intCtrl_mem (p : Params) : Reg.intCtrl ∈ p.registers := by simp [Params.registers, baseRegs]

/-- The offset of INT_CTRL is good and names it. -/
theorem regAt_intCtrl {p : Params} (h : p.valid = true) :
    p.goodOffset (p.off .intCtrl) = true ∧ p.regAt (p.off .intCtrl) = .intCtrl :=
  ⟨(valid_map h).2.1 _ (intCtrl_mem p), (regAt_off h (intCtrl_mem p)).resolve_right fun he => by cases he.1⟩

/-- Settles O32: the offset names INT_CTRL, and the command is the one read or the one write of it. -/
theorem debugInterruptControl : Obligations.DebugInterruptControl := by
  unfold Obligations.DebugInterruptControl
  intro roff data s h hk hv ho
  obtain ⟨hg, hr⟩ := regAt_intCtrl hv
  rw [← ho] at hg hr
  refine ⟨?_, fun hd => ?_⟩
  · obtain ⟨t, w, ht, hans, hw, hdraws, hregs, hcfg, hq⟩ := readInt_result (i := .debugRd roff data) h hk
    refine ⟨t, w, (exec_debugRd hg hr).trans ht, ho ▸ hans, hw, hdraws, hregs, hcfg, fun hs => ?_⟩
    obtain ⟨hword, hkept⟩ := hq hs
    exact ⟨by rw [hword, ← intCtrlWord_toNat, BitVec.ofNat_toNat, BitVec.setWidth_eq], hkept⟩
  · obtain ⟨t, ht, hans, hdraws, hregs, hcfg, hq⟩ := writeInt_result (i := .debugWr roff data) h hv hd
    have hcommand : isIntCommand s.params data = true := by rcases hd with rfl | rfl | rfl <;> simp [isIntCommand]
    have hplan : debugWriteRefusal s.params .intCtrl data = none := if_pos hcommand
    refine ⟨t, (exec_debugWr hg hr hplan).trans ht, ho ▸ hans, hdraws, hregs, hcfg, fun hs => ?_⟩
    obtain ⟨hopen, hport, hcount, hlock, hphase, hen, hpend⟩ := hq hs
    exact ⟨hen, hpend, hcount, hphase, hlock, hopen, hport⟩

end Sys2Proof.Machine
end

section
/-! Completion of every command (spec/20_memory.md R76, spec/60_exceptions.md R209): one that runs comes to its result, and
one turned away is answered after the turns before CMD's next one. -/

namespace Sys2Proof.Machine

/-- A schedule up to the turn in which CMD is next. -/
theorem sched_upTo_cmd (sched : List Turn) : ∃ l k, sched = l ++ k ∧ cmdIsNext k = true ∧ ∀ u ∈ l, u ≠ .cmd := by
  induction sched with
  | nil => exact ⟨[], [], rfl, rfl, by simp⟩
  | cons u rest ih =>
    by_cases hu : u = .cmd
    · exact ⟨[], u :: rest, rfl, by rw [hu]; rfl, by simp⟩
    · obtain ⟨l, k, rfl, hk, hl⟩ := ih
      exact ⟨u :: l, k, rfl, hk, List.forall_mem_cons.mpr ⟨hu, hl⟩⟩

/-- A command turned away is answered under every calm schedule. -/
theorem startAway_answered {h : Word} {c : Code} {s : State} (hs : CanRun s) (hq : s.seq = .idle) (hc : c ≠ .ok) :
    ∃ n u, runSteps n (startAway h c s) = .next u ∧ TurnedAway h c s u := by
  obtain ⟨l, k, hsched, hk, hl⟩ := sched_upTo_cmd s.sched
  have hcalm : ∀ u ∈ l, u ≠ .cmd ∧ u.detaches = false := fun u hu =>
    ⟨hl u hu, by simpa using List.all_eq_true.mp hs.calm u (by simp [hsched, hu])⟩
  obtain ⟨v, ho, hp, hrun⟩ :=
    runSteps_awaits (s := startAway h c s) (startAway_awaits hs.attached hq) hs.lock hsched hk hcalm
  exact ⟨_, _, hrun, turnedAway_of_others hs.attached hs.lock hc ho hp⟩

/-- Settles O55, by what a command is: the run of its program, which no calm schedule stops, or a code alone, which is
answered. -/
theorem everyCommandCompletes : Obligations.EveryCommandCompletes := by
  unfold Obligations.EveryCommandCompletes
  intro i s hs hq hr
  rcases exec_cases i s with he | he | ⟨prog, he, hp⟩ | ⟨hn, -⟩
  · exact ⟨_, he, .inr (startAway_answered hs hq (by simp))⟩
  · exact ⟨_, he, .inr (startAway_answered hs hq (by simp))⟩
  · obtain ⟨t, ht⟩ := runCommand_next hs hp.bracketed hp.sound
    obtain ⟨-, -, hb⟩ := runCommand_kept hs.attached hs.lock hp.within hp.bracketed ht
    exact ⟨t, he.trans ht, .inl hb.blk⟩
  · rw [hr] at hn; cases hn

end Sys2Proof.Machine
end

section
/-! The encoding (spec/30_encoding.md): which headers decode and to what row of R84, what a decoded frame is made of,
and from both the round trips between frames and commands. -/

namespace Sys2Proof

/-! Rows of R84, by their opcode. -/

/-- `OP` of the row of R84. -/
def Op.opcode : Op → Nat
  | .resetFull | .resetClear => 0x01
  | .configure _ _ => 0x02
  | .runScan => 0x03
  | .dmaSelfTest => 0x04
  | .triggerPps => 0x05
  | .seqBus => 0x06
  | .readStatus => 0x07
  | .debugRd | .debugWr => 0x08
  | .readMaxMin => 0x09
  | .tapRead => 0x0A
  | .tapWrite => 0x0B
  | .readWindow => 0x0C
  | .completionCount => 0x0D

/-- The operand words of R84, from `OP` and `F1` alone. -/
def operandWords (n : Nat) (f1 : Bool) : Nat :=
  match n with
  | 0x02 => if f1 then 6 else 4
  | 0x03 => 3
  | 0x04 => 1
  | 0x05 => 1
  | 0x06 => 50
  | 0x08 => 2
  | 0x0A => 1
  | 0x0B => 11
  | 0x0C => 1
  | _ => 0

/-- The row selected is one of the opcode, and asks for the operand words of opcode and `F1`. -/
theorem selectOp_some {n : Nat} {f0 f1 : Bool} {op : Op} (h : selectOp n f0 f1 = some op) :
    op.opcode = n ∧ op.operandCount = operandWords n f1 := by
  unfold selectOp at h
  split at h <;> cases h
  case h_1 => cases f0 <;> exact ⟨rfl, rfl⟩
  case h_8 => cases f0 <;> exact ⟨rfl, rfl⟩
  all_goals exact ⟨rfl, rfl⟩

/-- The opcodes without a row (R92). -/
theorem selectOp_eq_none_iff {n : Nat} {f0 f1 : Bool} : selectOp n f0 f1 = none ↔ n = 0 ∨ 0x0D < n := by
  unfold selectOp
  split
  case h_14 => simp only [imp_false, true_iff] at *; omega
  all_goals simp

theorem Op.opcode_range (op : Op) : op.opcode ≠ 0 ∧ ¬ 0x0D < op.opcode := by
  cases op <;> simp [Op.opcode]

theorem Op.takesF1_iff (op : Op) : op.takesF1 = true ↔ op.opcode = 0x02 := by
  cases op <;> simp [Op.takesF1, Op.opcode]

theorem Op.takesF0_iff (op : Op) :
    op.takesF0 = true ↔ op.opcode = 0x01 ∨ op.opcode = 0x02 ∨ op.opcode = 0x08 := by
  cases op <;> simp [Op.takesF0, Op.opcode]

/-- What a variant lacks, by opcode (R93). -/
theorem Op.present_iff (mm tc : Bool) (op : Op) :
    op.present mm tc = true ↔
      (op.opcode = 0x09 → mm = true) ∧ (op.opcode = 0x0A ∨ op.opcode = 0x0B → tc = true) := by
  cases op <;> simp [Op.present, Op.opcode]

/-! Headers. -/

/-- The checks that a header passes (R99). -/
theorem decodeHeader_eq_ok_iff {mm tc : Bool} {h : Word} {op : Op} :
    decodeHeader mm tc h = .ok op ↔
      selectOp (headerOp h) (headerF0 h) (headerF1 h) = some op ∧ headerRsv h = 0 ∧
        (headerF1 h = true → op.takesF1 = true) ∧ (headerF0 h = true → op.takesF0 = true) ∧
        op.present mm tc = true := by
  unfold decodeHeader
  cases selectOp (headerOp h) (headerF0 h) (headerF1 h) with
  | none => simp
  | some row =>
    simp only [Option.some.injEq]
    constructor
    · intro hd
      split_ifs at hd
      cases hd
      simp_all
    · rintro ⟨rfl, hr, h1, h0, hp⟩
      rw [if_neg (by simp [hr]), if_neg (by simpa using h1), if_neg (by simpa using h0), if_neg (by simp [hp])]

/-- Which headers spell a command of the variant, in their bits (R81, R83, R92, R93). -/
theorem decodeHeader_ok_iff {mm tc : Bool} {h : Word} :
    (∃ op, decodeHeader mm tc h = .ok op) ↔
      (headerOp h ≠ 0 ∧ ¬ 0x0D < headerOp h) ∧ headerRsv h = 0 ∧ (headerF1 h = true → headerOp h = 0x02) ∧
        (headerF0 h = true → headerOp h = 0x01 ∨ headerOp h = 0x02 ∨ headerOp h = 0x08) ∧
        (headerOp h = 0x09 → mm = true) ∧ (headerOp h = 0x0A ∨ headerOp h = 0x0B → tc = true) := by
  simp only [decodeHeader_eq_ok_iff]
  cases hs : selectOp (headerOp h) (headerF0 h) (headerF1 h) with
  | none =>
    have hn := selectOp_eq_none_iff.mp hs
    simp only [reduceCtorEq, false_and, exists_false, false_iff]
    exact fun hl => hn.elim hl.1.1 hl.1.2
  | some row =>
    rw [← (selectOp_some hs).1]
    simp only [Option.some.injEq, exists_eq_left', Op.takesF1_iff, Op.takesF0_iff, Op.present_iff]
    exact (and_iff_right row.opcode_range).symm

/-- Settles O4: a header is refused exactly when it spells no command, and each disjunct denies one check. -/
theorem illegalHeaders : Obligations.IllegalHeaders := by
  unfold Obligations.IllegalHeaders
  intro mm tc h
  have hrefused : (∃ why, decodeHeader mm tc h = .error why) ↔ ¬ ∃ op, decodeHeader mm tc h = .ok op := by
    cases decodeHeader mm tc h <;> simp
  rw [hrefused, decodeHeader_ok_iff]
  simp only [headerOp, headerRsv, headerF1, headerF0, ne_eq, not_and_or, not_not, not_or, Classical.not_imp,
    Bool.not_eq_true, or_assoc]

/-! Frames. -/

/-- A frame that decodes is a header of the variant and the operand words that its row asks for. -/
theorem decodeFrame_command {mm tc : Bool} {port rest : List (Option Word)} {i : Instr}
    (h : decodeFrame mm tc port = .command i rest) :
    ∃ (hdr : Word) (op : Op) (ws : List Word), decodeHeader mm tc hdr = .ok op ∧ ws.length = op.operandCount ∧
      i = op.assemble ws ∧ port = some hdr :: (ws.map some ++ rest) := by
  match port with
  | [] => cases h
  | none :: _ => cases h
  | some hdr :: tail =>
    simp only [decodeFrame] at h
    split at h
    · cases h
    · next op hd =>
      split at h
      · cases h
      · cases h
      · next ws r hl =>
        cases h
        obtain ⟨hn, ht⟩ := latch_words_inv hl
        exact ⟨hdr, op, ws, hd, hn, rfl, by rw [ht]⟩

/-- Settles O2: the header decodes to the command's row, the latch takes the operand words, and they assemble. -/
theorem decodeOfEncode : Obligations.DecodeOfEncode := by
  unfold Obligations.DecodeOfEncode
  intro mm tc i rest hw hp
  have hl : latch i.op.operandCount (i.operands.map some ++ rest) = .words i.operands rest := by
    rw [← operands_len i hw, latch_words]
  simp only [encode, List.map_cons, List.cons_append, decodeFrame, decodeHeader_header mm tc i hp, hl,
    assemble_operands i hw]

/-- Settles O3: the header is its row's own, and the operand words are those of the command assembled from them. -/
theorem encodeOfDecode : Obligations.EncodeOfDecode := by
  unfold Obligations.EncodeOfDecode
  intro mm tc port rest i h
  obtain ⟨hdr, op, ws, hd, hn, rfl, rfl⟩ := decodeFrame_command h
  obtain ⟨rfl, hp⟩ := header_of_ok hd
  obtain ⟨hw, ho, hws⟩ := assemble_op op ws hn
  refine ⟨hw, by rw [ho]; exact hp, ?_⟩
  simp only [encode, Instr.header, ho, hws, List.map_cons, List.cons_append]

/-- A header that spells no command is taken as one word, whatever stands behind it (R95). -/
theorem decodeFrame_illegal {mm tc : Bool} {h h' : Word} {rest r : List (Option Word)} {why : DecodeError}
    (hf : decodeFrame mm tc (some h :: rest) = .illegal why h' r) : h' = h ∧ r = rest := by
  simp only [decodeFrame] at hf
  split at hf
  · cases hf; exact ⟨rfl, rfl⟩
  · split at hf <;> cases hf

/-- Settles O5: the operand words of a frame are those of its row, which the opcode and `F1` fix. -/
theorem frameLengths : Obligations.FrameLengths := by
  unfold Obligations.FrameLengths
  refine fun mm tc h rest => ⟨fun _ _ _ hf => decodeFrame_illegal hf, fun i r hf => ?_⟩
  obtain ⟨hdr, op, ws, hd, hn, -, hport⟩ := decodeFrame_command hf
  cases hport
  obtain ⟨-, hcount⟩ := selectOp_some (decodeHeader_eq_ok_iff.mp hd).1
  exact ⟨ws, rfl, hn.trans hcount⟩

/-- The round trip on delivered words alone. -/
theorem decode_encode {mm tc : Bool} (i : Instr) (hw : i.wellFormed = true) (hp : i.op.present mm tc = true) :
    decode mm tc (encode i) = .ok (i, []) := by
  have h := decodeOfEncode mm tc i [] hw hp
  rw [List.append_nil] at h
  rw [decode, h]

/-- Settles O1: each of the five frames of a command is its encoding; the sixth header has a reserved bit set. -/
theorem sampleWordsDecode : Obligations.SampleWordsDecode :=
  ⟨decode_encode (.configure true none 0x81 0x100 16 2) rfl rfl,
    decode_encode (.configure false (some (5, 70000)) 1 0 1000 0) rfl rfl,
    decode_encode .resetFull rfl rfl, decode_encode (.debugWr 0x14 0x5) rfl rfl,
    decode_encode .completionCount rfl rfl, rfl⟩

end Sys2Proof
end

section
/-! What the command port takes (spec/40_register_interface.md R104, R108, R114): the step that runs the command there, and
the one that turns a frame away, whose answer is CMD's next step. -/

namespace Sys2Proof.Machine

/-- CMD's turn where a whole command stands at the port (R99, R104). -/
theorem cmdTurn_command {s : State} {i : Instr} {rest : List (Option Word)} (hm : mayAccept s = true)
    (hf : s.fetch = .command i rest) : cmdTurn s = exec i { s with port := rest } := by
  rw [cmdTurn, takeCommand_of_fetch hm, hf]

/-- Settles O6: CMD steps in its turn, and with no turn left where a command stands at the port. -/
theorem stepRunsDecodedCommand : Obligations.StepRunsDecodedCommand := by
  unfold Obligations.StepRunsDecodedCommand
  intro s i rest hm hf
  have hq : s.seq = .idle := (mayAccept_iff.mp hm).2.2.1
  refine ⟨fun hs => ?_, fun l hs => ?_⟩
  · rw [step_default hq hs, defaultTurn_cmd (cmdEnabled_take hm (by rw [hf]; rfl))]
    exact cmdTurn_command hm hf
  · rw [step_cmd hq hs]
    exact cmdTurn_command (s := { s with sched := l }) hm hf

/-- The state in which a command turned away awaits its result is the one its acceptance leaves (R104). -/
theorem awaiting_eq_startAway (header : Word) (code : Code) (s : State) :
    awaiting header code s = startAway header code s := rfl

/-- A command turned away is answered in CMD's next turn, whatever turns of the other agents come before it (R17, R104,
R108). -/
theorem answeredNext {header : Word} {code : Code} {s : State} (ha : s.attached = true) (hq : s.seq = .idle)
    (hc : code ≠ .ok) : AnsweredNext header code s := by
  unfold AnsweredNext
  rw [awaiting_eq_startAway]
  refine ⟨step_answers ha hq hc, fun l k hs hk hl hlock => ?_⟩
  obtain ⟨u, hothers, hport, hrun⟩ :=
    runSteps_awaits (s := startAway header code s) (startAway_awaits ha hq) hlock hs hk hl
  exact ⟨_, hrun, rfl, turnedAway_of_others ha hlock hc hothers hport⟩

/-- A frame that CMD's turn accepts and turns away, whatever the schedule, is turned away in the step in which CMD is
next (R104; log 5). -/
theorem frameTurnedAway {header : Word} {code : Code} {rest : List (Option Word)} {s : State} (hm : mayAccept s = true)
    (hf : takesTurn s.fetch = true) (hc : code ≠ .ok)
    (hturn : ∀ l, cmdTurn { s with sched := l } = .next (startAway header code { s with sched := l, port := rest })) :
    FrameTurnedAway header code rest s := by
  obtain ⟨ha, -, hq, -⟩ := mayAccept_iff.mp hm
  unfold FrameTurnedAway
  rw [awaiting_eq_startAway]
  exact fun hn => ⟨(step_cmdIsNext hq (cmdEnabled_take hm hf) hn).trans (hturn _), answeredNext ha hq hc⟩

/-- What stands at the port behind a legal header where an operand word was not delivered (R114; log 10). -/
theorem fetch_copyFailed {s : State} {h : Word} {op : Op} {ws : List Word} {rest : List (Option Word)}
    (hd : decodeHeader s.params.hasMaxMin s.params.hasTapCal h = .ok op) (hn : ws.length < op.operandCount)
    (hp : s.port = some h :: (ws.map some ++ none :: rest)) : s.fetch = .copyFailed h rest := by
  rw [State.fetch, hp]
  simp only [decodeFrame, hd, latch_failed ws _ rest hn]

/-- Settles O8: the latch meets the undelivered word, and CMD's turn turns the frame away. -/
theorem undeliveredOperandAnswered : Obligations.UndeliveredOperandAnswered := by
  unfold Obligations.UndeliveredOperandAnswered
  intro s h op ws rest hm hd hn hp
  have hf := fetch_copyFailed hd hn hp
  refine frameTurnedAway hm (by rw [hf]; rfl) (by simp) fun l => ?_
  rw [cmdTurn, takeCommand_of_fetch (s := { s with sched := l }) hm, show State.fetch { s with sched := l } = _ from hf]

end Sys2Proof.Machine
end

section
/-! What every command leaves alone (spec/40_register_interface.md R106, R108, R115), and that no register answers while
detached (R109). -/

namespace Sys2Proof.Machine

/-- Settles O42, from what a command has kept (`exec_kept`): one that ran holds BLOCK no more, and one turned away changed
BLOCK, the code and the history alone. -/
theorem commandFrame : Obligations.CommandFrame := by
  unfold Obligations.CommandFrame
  intro i s t ha hq hl hx
  obtain ⟨hkept, hlock, hend⟩ := exec_kept ha hl hx
  refine ⟨hkept.bytes, hkept.cfg, hkept.params, hkept.attached.trans ha, hkept.lineReg, hkept.bufAlloc, ?_, hlock,
    hkept.hist, ?_⟩
  · rcases hend with hb | ⟨code, -, rfl⟩
    · exact hb.seq
    · exact hq
  · rcases hend with hb | ⟨code, hc, rfl⟩
    · exact fun hheld => absurd (hb.blk.symm.trans hheld) (by simp)
    · exact fun _ => ⟨hc, (awaiting_eq_startAway i.header code s).symm⟩

/-- No agent reads a register while detached (R109). -/
theorem regRead_detached {s : State} (a : Agent) (r : Reg) (h : s.attached = false) :
    regRead a r s = .fault .registerBlockRevoked := if_neg (by simp [h])

/-- Nor writes one (R109). -/
theorem regWrite_detached {s : State} (a : Agent) (r : Reg) (v : Word) (h : s.attached = false) :
    regWrite a r v s = .fault .registerBlockRevoked := if_neg (by simp [h])

/-- Settles O16. -/
theorem registerBlockRevoked : Obligations.RegisterBlockRevoked := by
  unfold Obligations.RegisterBlockRevoked
  exact fun a r v s h => ⟨regRead_detached a r h, regWrite_detached a r v h⟩

end Sys2Proof.Machine
end

section
/-! Result words that HOST refuses (spec/40_register_interface.md R114, spec/60_exceptions.md R206; log 24): what the result
is with a refusal pending and without, and that a command up to its result does the same either way
(Sys2Proof/Laws/Blind.lean). -/

namespace Sys2Proof.Machine

/-! The result. -/

/-- A refusal is spent by the result, whatever it is. -/
theorem deliver_refusing (c : Code) (ws : List Word) (s : State) : deliver c ws s.refusing = deliver c ws s := rfl

theorem deliver_hist (c : Code) (ws : List Word) (s : State) :
    (deliver c ws s).hist = s.hist ++ [.result c ws.length] := rfl

/-- A result without words is its header, of count 0. -/
theorem deliver_nil_portOut (c : Code) (s : State) : (deliver c [] s).portOut = s.portOut ++ [resultHeader c 0] := rfl

/-- A result without words has nothing to refuse. -/
theorem sendResult_wordless {code : Code} {words : List Word} (h : code = .ok → words = []) (s : State) :
    sendResult code words s = deliver code [] s := by
  have hc : resultCode code words s = code := resultCode_eq fun hok hne => absurd (h hok) hne
  have hw : resultWords code words s = [] := by
    rw [resultWords, hc]
    split
    · exact h ‹_›
    · rfl
  rw [sendResult, hc, hw]

/-- Words that HOST refuses are not sent: ECOPY alone (R114). -/
theorem sendResult_refused {words : List Word} {s : State} (hw : words ≠ []) (hr : s.refuseOut = true) :
    sendResult .ok words s = deliver .ecopy [] s := by
  have hc : resultCode .ok words s = .ecopy := by simp [resultCode, hr, hw]
  rw [sendResult, resultWords, hc]
  rfl

/-- With a refusal pending no result carries words. -/
theorem sendResult_of_refuseOut {s : State} (code : Code) (words : List Word) (hr : s.refuseOut = true) :
    ∃ c, sendResult code words s = deliver c [] s := by
  by_cases h : code = .ok → words = []
  · exact ⟨code, sendResult_wordless h s⟩
  · obtain ⟨rfl, hw⟩ := Classical.not_imp.mp h
    exact ⟨.ecopy, sendResult_refused hw hr⟩

/-- What a refusal changes of a result: nothing where it carries no words, else ECOPY comes in their place. -/
theorem sendResult_refusing (code : Code) (words : List Word) (s : State) :
    (∃ c, sendResult code words s = deliver c [] s ∧ sendResult code words s.refusing = deliver c [] s) ∨
      (words ≠ [] ∧ sendResult code words s = deliver .ok words s ∧
        sendResult code words s.refusing = deliver .ecopy [] s) := by
  by_cases h : code = .ok → words = []
  · exact .inl ⟨code, sendResult_wordless h s,
      (sendResult_wordless h s.refusing).trans (deliver_refusing code [] s)⟩
  · obtain ⟨rfl, hw⟩ := Classical.not_imp.mp h
    have hrefused : sendResult .ok words s.refusing = deliver .ecopy [] s :=
      (sendResult_refused hw rfl).trans (deliver_refusing .ecopy [] s)
    cases hr : s.refuseOut with
    | true => exact .inl ⟨.ecopy, sendResult_refused hw hr, hrefused⟩
    | false => exact .inr ⟨hw, sendResult_taken hr, hrefused⟩

/-! The command. -/

/-- A command that answers, beside the same command with a refusal pending: both are turned away, or both run to a state
from which each sends its result. -/
theorem exec_refusing {i : Instr} {s t : State} (h : exec i s = .next t) :
    (∃ code, t = startAway i.header code s ∧ exec i s.refusing = .next (startAway i.header code s.refusing)) ∨
      ∃ v, t = sendResult v.code v.emitted v ∧ exec i s.refusing = .next (sendResult v.code v.emitted v.refusing) := by
  rcases exec_uniform i s.params with he | he | ⟨prog, he, -⟩ | ⟨-, ⟨f, he⟩ | ⟨r, he⟩⟩ <;> rw [he s rfl] at h
  · cases h; exact .inl ⟨_, rfl, he s.refusing rfl⟩
  · cases h; exact .inl ⟨_, rfl, he s.refusing rfl⟩
  · obtain ⟨v, ht, hv⟩ := runOps_refused h
    exact .inr ⟨v, ht, (he s.refusing rfl).trans hv⟩
  · cases h
  · cases h

/-- The program of READ_STATUS alone: one read of STATUS, and the word emitted whole (R170). -/
theorem runAlone_readStatus {s : State} (ha : s.attached = true) :
    ∃ c v, runAlone (readAndEmit 0 [(.status, wholeWord)]) (startCommand .readStatus s) = .next c ∧ c.code = .ok ∧
      c.emitted = [v] ∧ c.hist = (startCommand .readStatus s).hist ++ [.read .cmd (s.params.off .status) v] := by
  obtain ⟨vs, d, f, hlen, hrun, -⟩ := runAlone_reads (l := [(.status, wholeWord)]) (rest := [])
    (s := startCommand .readStatus s) ha (by simp [Reg.kind])
  obtain ⟨v, rfl⟩ := List.length_eq_one_iff.mp hlen
  exact ⟨_, v, hrun, rfl, by simp [and_wholeWord], rfl⟩

/-- READ_STATUS with nothing else scheduled and a refusal pending: the read stands, and no word follows (R114). -/
theorem readStatus_refused {s : State} (h : CanRun s) (hs : s.sched = []) (hr : s.refuseOut = true) :
    ∃ t v, exec .readStatus s = .next t ∧ t.portOut = s.portOut ++ [resultHeader .ecopy 0] ∧ t.refuseOut = false ∧
      cmdTrace t.hist =
        cmdTrace s.hist ++ [.accept 0x00000007, .read .cmd (s.params.off .status) v, .result .ecopy 0] := by
  obtain ⟨c, v, hc, hcode, hemit, hhist⟩ := runAlone_readStatus h.attached
  have hsame := runAlone_same hc
  have hx : exec .readStatus s = _ := runCommand_unscheduled hs (by simp [readAndEmit, Micro.locks]) hc
  rw [hcode, sendResult_refused (by simp [hemit]) (hsame.refuseOut.trans hr)] at hx
  refine ⟨_, v, hx, by rw [deliver_nil_portOut, hsame.portOut]; rfl, rfl, ?_⟩
  rw [deliver_hist, cmdTrace_append, trace_of_hist hhist rfl, List.append_assoc]
  rfl

/-- A command that runs to its result with nothing else scheduled and a refusal pending: a header of count 0 alone. -/
theorem exec_refused {i : Instr} {s t : State} (hs : s.sched = []) (ha : s.attached = true) (hl : s.ilock = .free)
    (hr : s.refuseOut = true) (hx : exec i s = .next t) (hb : t.blk = .free) :
    ∃ code, t.portOut = s.portOut ++ [resultHeader code 0] ∧ t.refuseOut = false := by
  rcases exec_cases i s with he | he | ⟨prog, he, hp⟩ | ⟨-, ⟨f, he⟩ | ⟨r, he⟩⟩ <;> rw [he] at hx
  · cases hx; cases hb
  · cases hx; cases hb
  · obtain ⟨c, hc⟩ := runAlone_next (s := startCommand i s) ha hp.sound
    have hsame := runAlone_same hc
    obtain ⟨hq, -⟩ := runCommand_quiet hs hl hp.bracketed hc
    obtain ⟨code, hcode⟩ := sendResult_of_refuseOut c.code c.emitted (hsame.refuseOut.trans hr)
    rw [hq, hcode] at hx
    cases hx
    exact ⟨code, by rw [deliver_nil_portOut, hsame.portOut]; rfl, rfl⟩
  · cases hx
  · cases hx

/-- A result whose words HOST takes beside the same result refused (R114). -/
theorem deliver_ecopy_eq (ws : List Word) (s : State) :
    deliver .ecopy [] s = { deliver .ok ws s with
      portOut := s.portOut ++ [resultHeader .ecopy 0], hist := s.hist ++ [.result .ecopy 0], freeIx := s.freeIx } := rfl

/-- Settles O9: a refusal is read by the result alone, so the run up to it is the same with one pending. -/
theorem refusedResult : Obligations.RefusedResult := by
  unfold Obligations.RefusedResult
  refine ⟨fun s h hs hr => readStatus_refused h hs hr,
    fun i s t h hs hl hr hx hb => exec_refused hs h.attached hl hr hx hb, fun i s t hx hb => ?_, fun i s t hx hb => ?_⟩
  · rcases exec_refusing hx with ⟨code, rfl, hr⟩ | ⟨v, rfl, -⟩
    · exact hr
    · cases hb
  · rcases exec_refusing hx with ⟨code, rfl, -⟩ | ⟨v, ht, hr⟩
    · cases hb
    · rcases sendResult_refusing v.code v.emitted v with ⟨c, h1, h2⟩ | ⟨hw, h1, h2⟩ <;> rw [h1] at ht <;> subst ht <;>
        rw [h2] at hr
      · exact ⟨v.hist, c, 0, rfl, fun _ => hr, fun h0 => absurd h0 (by simp)⟩
      · refine ⟨v.hist, .ok, v.emitted.length, rfl,
          fun h0 => absurd (List.length_eq_zero_iff.mp h0) hw, fun _ => ?_⟩
        refine ⟨_, v.portOut, _, v.emitted, rfl, rfl, rfl, hr, deliver_ecopy_eq v.emitted v, fun hn => ⟨?_, ?_⟩⟩
        · rw [countField, if_pos hn]
        · exact (if_pos hn).symm

end Sys2Proof.Machine
end

section
/-! SEQ_BUS (spec/41_seqbus.md): from the run of a batch alone (Sys2Proof/Laws/Blocks.lean) to the command's answer
under any calm schedule, whatever STATUS says (R120 to R128, R130), with the bus idle at every poll (R131, R132), and
with the bus never idle under FAIL (R121, R127). -/

namespace Sys2Proof.Machine

/-- A batch that passes validation runs the program of the entries it uses (R122, R123, R127). -/
theorem exec_seqBus {nw nr : Word} {es : List Entry} {s : State} (h : ValidBatch s.params nw nr es) :
    exec (.seqBus nw nr es) s = runCommand (.seqBus nw nr es)
      (batchProgram s.params (batchDir nw) (es.take (nw.toNat + nr.toNat))) s := by
  obtain ⟨hvalid, -, hused, -⟩ := validBatch_used h
  rw [← hused]
  exact runPlan_of (if_neg (by simp [hvalid])) rfl

/-- The entries a valid batch uses: as many as its count, at most sixteen, each in range (R122, R123). -/
theorem validBatch_take {p : Params} {nw nr : Word} {es : List Entry} (h : ValidBatch p nw nr es) :
    (es.take (nw.toNat + nr.toNat)).length = nw.toNat + nr.toNat ∧ nw.toNat + nr.toNat ≤ 16 ∧
      ∀ e ∈ es.take (nw.toNat + nr.toNat), EntryInRange p e := by
  obtain ⟨-, hlen, hused, hle, hrange⟩ := validBatch_used h
  rw [hused] at hlen hrange
  exact ⟨hlen, hle, hrange⟩

/-- The answer of a valid batch whose program alone ends at `c`, under any calm schedule. -/
theorem seqBus_answers {nw nr : Word} {es : List Entry} {s c : State} {txns : List Event} {code : Code}
    {words : List Word} (h : CanRun s) (hb : ValidBatch s.params nw nr es)
    (hrun : runAlone (batchProgram s.params (batchDir nw) (es.take (nw.toNat + nr.toNat)))
      (startCommand (.seqBus nw nr es) s) = .next c)
    (hhist : c.hist = (startCommand (.seqBus nw nr es) s).hist ++ txns) (hmine : cmdTrace txns = txns)
    (hcode : c.code = code) (hok : code = .ok → s.takesResult = true ∧ c.emitted = words)
    (hno : code ≠ .ok → words = []) (hlen : words.length ≤ 16) :
    ∃ t, exec (.seqBus nw nr es) s = .next t ∧ Answers (.seqBus nw nr es) txns code words s t ∧ t.regs = c.regs ∧
      t.cfg = c.cfg ∧ t.draws = c.draws ∧ (s.sched = [] → s.ilock = .free → OthersKept s t) := by
  have hprog := programOf_batch (nw := nw) (nr := nr) (entries := es) (p := s.params) (batchDir nw)
    (es.take (nw.toNat + nr.toNat))
  obtain ⟨t, ht, hans, hregs, hcfg, hdraws, -, hkept⟩ := command_result h (hprog.view rfl) hprog.bracketed hrun
    (trace_of_hist hhist hmine) hcode (fun hc => (hok hc).2) hno (by omega) fun hc _ => (hok hc).1
  refine ⟨t, (exec_seqBus hb).trans ht, hans, hregs, hcfg, hdraws, fun hs hl => ?_⟩
  obtain ⟨-, -, hfree⟩ := runCommand_quiet hs hl hprog.bracketed hrun
  exact .of_start (runAlone_others hrun (hprog.arms rfl) (hfree.trans hl.symm)) (hkept hs hl)

/-- The values read, emitted in entry order after the last entry (R127, R128). -/
theorem runAlone_emitReadData {dir : Dir} {n : Nat} {s : State} (hl : s.vals.length = if dir = .read then n else 0) :
    runAlone (emitReadData dir n) s = .next { s with emitted := s.emitted ++ s.vals } := by
  cases dir with
  | read =>
    rw [emitReadData, List.range_eq_range', runAlone_emits (by simpa using hl.symm)]
    rfl
  | write =>
    have hv : s.emitted ++ s.vals = s.emitted := by rw [List.length_eq_zero_iff.mp hl, List.append_nil]
    rw [emitReadData, runAlone_nil, hv]

/-- The words a program alone drew are draws of the command. -/
theorem Spends.drawn {zs d : List Word} {s t : State} (h : Spends zs s.draws d) (hd : t.draws = d) : Drawn zs s t :=
  fun ws rest hs hl => (h ws rest hs hl).imp_right hd.trans

/-- Settles O27: the entries alone run to their end, and what they read is emitted, or under FAIL up to the poll at its
ceiling. -/
theorem seqBusResult : Obligations.SeqBusResult := by
  unfold Obligations.SeqBusResult
  intro nw nr entries s h hk hb p count dir
  obtain ⟨hlen, hle, hrange⟩ := validBatch_take hb
  obtain ⟨txns, vs, zs, n, d, f, hbatch, hsteps, hspent, hend⟩ :=
    runAlone_entries (dir := dir) (k := 0) (es := entries.take count)
      (rest := emitReadData dir (entries.take count).length) (s := startCommand (.seqBus nw nr entries) s) h.attached
      hb.1 rfl hrange
  have hcycles (hn : n ≤ count) : txns.filter Event.isCycle = busCycles dir (entries.take n) := by
    rw [hbatch.cycles, List.take_take, Nat.min_eq_left hn]
  rcases hend with ⟨hn, hvs, hbwe, hrun⟩ | ⟨hfail, hrun, place, hlast, hplace⟩
  · rw [runAlone_emitReadData (by simpa [State.batched] using hvs)] at hrun
    rw [hlen] at hn hvs
    obtain ⟨t, ht, hans, hregs, hcfg, hdraws, hkept⟩ := seqBus_answers (code := .ok) (words := vs) h hb hrun rfl
      hbatch.mine rfl (fun _ => ⟨hk, rfl⟩) (fun hc => absurd rfl hc) (by rw [hvs]; split <;> omega)
    exact ⟨t, txns, .ok, vs, n, ht, hans, hn.le, hcycles hn.le, ⟨zs, hsteps, hspent.drawn hdraws⟩, hn ▸ hregs, hcfg,
      .inl rfl, ⟨nofun, fun ⟨hf, e, he, hx⟩ => by simp [hbwe hf e he] at hx⟩, fun _ => ⟨hn, hvs, hbatch.values⟩, nofun,
      hkept⟩
  · rw [hlen] at hplace
    have hn : n ≤ count := by
      rcases hplace with ⟨-, hn⟩ | ⟨m, -, -, hn⟩
      · exact hn.le
      · exact hn
    obtain ⟨t, ht, hans, hregs, hcfg, hdraws, hkept⟩ := seqBus_answers (code := .etimeout) (words := []) h hb hrun rfl
      hbatch.mine rfl nofun (fun _ => rfl) (by simp)
    refine ⟨t, txns, .etimeout, [], n, ht, hans, hn, hcycles hn, ⟨zs, hsteps, hspent.drawn hdraws⟩, ?_, hcfg, .inr rfl,
      ⟨fun _ => ⟨hfail, _, List.mem_of_getLast? hlast, rfl⟩, fun _ => rfl⟩, nofun,
      fun _ => ⟨rfl, place, hlast, ?_⟩, hkept⟩
    · rw [List.take_take, Nat.min_eq_left hn] at hregs
      exact hregs
    · rcases hplace with ⟨hp, hlt⟩ | ⟨m, hm, hp, -⟩
      · exact .inl ⟨by rw [hp, Nat.zero_add], hlt⟩
      · exact .inr ⟨m, hm, by rw [hp, Nat.zero_add]⟩

/-! The bus idle at each first read. -/

/-- The draws of one entry whose two polls see the bus idle at once: STATUS, STATUS, and of a read batch SPI_RESULT. -/
def idleDraws (dir : Dir) (w : Word × Word × Word) : List Word := w.1 :: w.2.1 :: backWords dir w.2.2

/-- The transactions of one such entry (R131). -/
def idleEvents (p : Params) (dir : Dir) (x : Entry × Word × Word × Word) : List Event :=
  .read .cmd (p.off .status) x.2.1 :: (cycleEvents p dir x.1 ++ .read .cmd (p.off .status) x.2.2.1 ::
    (backWords dir x.2.2.2).map (.read .cmd (p.off .spiResult)))

/-- The values such entries read, masked (R126). -/
def idleValues (p : Params) (dir : Dir) (ws : List (Word × Word × Word)) : List Word :=
  ws.flatMap fun w => (backWords dir w.2.2).map (· &&& p.readbackMask)

/-- Two parts of a batch in a row are one. -/
theorem batched_batched (s : State) (dir : Dir) (es fs : List Entry) (t u : List Event) (vs ws d e : List Word)
    (f g : Nat) :
    (s.batched dir es t vs d f).batched dir fs u ws e g = s.batched dir (es ++ fs) (t ++ u) (vs ++ ws) e g := by
  simp [State.batched, busStores_append, storeRegs_append]

/-- A poll of a valid configuration reads STATUS at least once (R7). -/
theorem valid_spinBus {p : Params} (h : p.valid = true) : 1 ≤ p.spinBus := by
  simp only [Params.valid, Bool.and_eq_true, decide_eq_true_eq] at h
  tauto

/-- A poll of the bus alone whose first STATUS word is idle, in a configuration `p` (R120, R131). -/
theorem runAlone_idlePoll_of {p : Params} {place : Where} {rest : List Micro} {s : State} {z : Word} {ds : List Word}
    (ha : s.attached = true) (hp : s.params = p) (hv : p.valid = true) (hs : s.spins = 0) (hz : z &&& p.spiBusy = 0)
    (hd : s.draws = z :: ds) :
    runAlone (.poll place .busIdle p.spinBus true :: rest) s = runAlone rest
      { s with draws := ds, hist := s.hist ++ [.read .cmd (p.off .status) z] } := by
  subst hp
  exact runAlone_idlePoll ha hs (valid_spinBus hv) hz hd

/-- The read-back of one entry alone, its draw fixed (R126, R131). -/
theorem runAlone_backDrawn {p : Params} {dir : Dir} {rest : List Micro} {s : State} {v : Word} {ds : List Word}
    (ha : s.attached = true) (hp : s.params = p) (hd : s.draws = backWords dir v ++ ds) :
    runAlone (readBack p dir ++ rest) s = runAlone rest
      { s with draws := ds, vals := s.vals ++ (backWords dir v).map (· &&& p.readbackMask),
               hist := s.hist ++ (backWords dir v).map (Event.read .cmd (p.off .spiResult)) } := by
  subst hp
  cases dir with
  | write =>
    obtain rfl : s.draws = ds := hd
    simp [readBack, backWords]
  | read =>
    have hd : s.draws = v :: ds := hd
    have hval : s.readValue .spiResult = v := by simp [State.readValue, State.fixedRead, Reg.kind, State.drawn, hd]
    have hafter : s.afterRead .spiResult = { s with draws := ds } := by
      simp [State.afterRead, State.fixedRead, Reg.kind, State.afterDraw, hd]
    rw [readBack, List.singleton_append, runAlone_read ha, State.fetched, hval, hafter]
    rfl

/-- One entry alone, the bus idle at both polls (R124 to R126, R131). -/
theorem runAlone_idleEntry {dir : Dir} {k : Nat} {e : Entry} {w : Word × Word × Word} {rest : List Micro} {s : State}
    {ds : List Word} (ha : s.attached = true) (hv : s.params.valid = true) (hs : s.spins = 0)
    (he : EntryInRange s.params e) (hw : w.1 &&& s.params.spiBusy = 0 ∧ w.2.1 &&& s.params.spiBusy = 0)
    (hd : s.draws = idleDraws dir w ++ ds) :
    runAlone (entryProgram s.params dir k e ++ rest) s =
      runAlone rest (s.batched dir [e] (idleEvents s.params dir (e, w)) (idleValues s.params dir [w]) ds s.freeIx) := by
  rw [entryProgram, List.cons_append, List.append_assoc, List.cons_append,
    runAlone_idlePoll_of ha rfl hv hs hw.1 hd,
    runAlone_cycle (by exact ha) (by rfl) hv he,
    runAlone_idlePoll_of (z := w.2.1) (ds := backWords dir w.2.2 ++ ds) (by exact ha) (by rfl) hv (by exact hs) hw.2
      (by rfl),
    runAlone_backDrawn (v := w.2.2) (ds := ds) (by exact ha) (by rfl) (by rfl)]
  simp [State.batched, idleEvents, idleValues]

/-- The entries alone, the bus idle at every poll; the draws `ds` are left (R127, R131). -/
theorem runAlone_idleEntries {dir : Dir} {k : Nat} {es : List Entry} {ws : List (Word × Word × Word)}
    {rest : List Micro} {s : State} {ds : List Word} (hl : ws.length = es.length) (ha : s.attached = true)
    (hv : s.params.valid = true) (hs : s.spins = 0) (he : ∀ e ∈ es, EntryInRange s.params e)
    (hw : ∀ w ∈ ws, w.1 &&& s.params.spiBusy = 0 ∧ w.2.1 &&& s.params.spiBusy = 0)
    (hd : s.draws = ws.flatMap (idleDraws dir) ++ ds) :
    runAlone (entriesProgram s.params dir k es ++ rest) s = runAlone rest
      (s.batched dir es ((es.zip ws).flatMap (idleEvents s.params dir)) (idleValues s.params dir ws) ds s.freeIx) := by
  induction es generalizing k ws s with
  | nil =>
    obtain rfl : ws = [] := List.length_eq_zero_iff.mp hl
    obtain rfl : s.draws = ds := hd
    simp [entriesProgram, idleValues, batched_nil]
  | cons e es ih =>
    obtain ⟨w, ws, rfl⟩ := List.exists_cons_of_length_eq_add_one hl
    rw [List.flatMap_cons, List.append_assoc] at hd
    have hrest := ih (k := k + 1) (ws := ws) (s := s.batched dir [e] (idleEvents s.params dir (e, w))
      (idleValues s.params dir [w]) (ws.flatMap (idleDraws dir) ++ ds) s.freeIx) (by simpa using hl) ha hv hs
      (fun x hx => he x (by simp [hx])) (fun x hx => hw x (by simp [hx])) rfl
    rw [entriesProgram, List.append_assoc, runAlone_idleEntry ha hv hs (he e (by simp)) (hw w (by simp)) hd]
    refine hrest.trans ?_
    rw [batched_batched]
    simp [idleValues, State.batched]

/-- The events of such entries are CMD's. -/
theorem cmdTrace_idleEvents (p : Params) (dir : Dir) (l : List (Entry × Word × Word × Word)) :
    cmdTrace (l.flatMap (idleEvents p dir)) = l.flatMap (idleEvents p dir) := by
  refine List.filter_eq_self.mpr fun x hx => ?_
  obtain ⟨y, -, hx⟩ := List.mem_flatMap.mp hx
  have hcycle : ∀ e ∈ cycleEvents p dir y.1, e.byCmd = true :=
    List.filter_eq_self.mp (BatchRun.cycle p dir y.1).mine
  have hback := List.filter_eq_self.mp (BatchRun.back p dir y.2.2.2).mine
  simp only [idleEvents, List.mem_cons, List.mem_append] at hx
  rcases hx with rfl | hx | rfl | hx
  · rfl
  · exact hcycle x hx
  · rfl
  · exact hback x hx

/-- The values read, spelled out by the direction: none of a write batch (R126, R132). -/
theorem idleValues_eq (p : Params) (dir : Dir) (ws : List (Word × Word × Word)) :
    idleValues p dir ws = if dir = .read then ws.map (fun w => w.2.2 &&& p.readbackMask) else [] := by
  induction ws with
  | nil => cases dir <;> rfl
  | cons w ws ih =>
    rw [idleValues, List.flatMap_cons, ← idleValues, ih]
    cases dir <;> simp [backWords]

/-- The draws of one such entry, spelled out by the direction (R132). -/
theorem idleDraws_eq (dir : Dir) (w : Word × Word × Word) :
    idleDraws dir w = if dir = .read then [w.1, w.2.1, w.2.2] else [w.1, w.2.1] := by
  cases dir <;> rfl

/-- The transactions of one such entry, spelled out by the lane mode and the direction (R124, R125, R131). -/
theorem idleEvents_eq (p : Params) (dir : Dir) (x : Entry × Word × Word × Word) :
    idleEvents p dir x = .read .cmd (p.off .status) x.2.1 ::
      ((if p.laneMode = .single then
          [Event.write .cmd (p.off .spiDevice) x.1.dev,
           .write .cmd (p.off .spiAddress) ((if dir = .read then (1 : Word) <<< p.dirBit else 0) ||| x.1.addr),
           .write .cmd (p.off .spiData) x.1.data]
        else [Event.write .cmd (p.off (.spiLane x.1.dev.toNat))
          ((if dir = .read then (1 : Word) <<< p.dirBit else 0) ||| (x.1.addr <<< p.dataW) ||| x.1.data)])
        ++ [.busCycle x.1.dev x.1.addr x.1.data dir] ++ .read .cmd (p.off .status) x.2.2.1 ::
          if dir = .read then [.read .cmd (p.off .spiResult) x.2.2.2] else []) := by
  unfold idleEvents cycleEvents
  cases p.laneMode <;> cases dir <;> rfl

/-- Settles O28: the entries alone with those draws, and the values they read emitted. -/
theorem seqBusIdleTransactions : Obligations.SeqBusIdleTransactions := by
  unfold Obligations.SeqBusIdleTransactions
  intro nw nr entries s ws rest h hk hb hws hidle p dir hd poll word lane cycle
  obtain ⟨hlen, hle, hrange⟩ := validBatch_take hb
  rw [← funext (idleDraws_eq dir)] at hd
  have hrun := runAlone_idleEntries (dir := dir) (k := 0) (es := entries.take (nw.toNat + nr.toNat))
    (rest := emitReadData dir (entries.take (nw.toNat + nr.toNat)).length)
    (s := startCommand (.seqBus nw nr entries) s) (hws.trans hlen.symm) h.attached hb.1 rfl hrange hidle hd
  have hvalues := idleValues_eq p dir ws
  have hvlen : (idleValues p dir ws).length = if dir = .read then nw.toNat + nr.toNat else 0 := by
    rw [hvalues, ← hws]
    split <;> simp
  rw [runAlone_emitReadData (by rw [hlen]; exact hvlen)] at hrun
  have hzip : (entries.take (nw.toNat + nr.toNat)).zip ws = entries.zip ws := by
    have hfit : ws.length ≤ entries.length := by rw [hws, ← hlen]; exact List.length_take_le' _ _
    rw [List.zip_eq_zip_take_min (l₁ := entries), Nat.min_eq_right hfit, ← hws, List.take_length]
  obtain ⟨t, ht, hans, -, -, hdraws, -⟩ := seqBus_answers (code := .ok) (words := idleValues p dir ws)
    (txns := ((entries.take (nw.toNat + nr.toNat)).zip ws).flatMap (idleEvents p dir)) h hb hrun rfl
    (cmdTrace_idleEvents p dir _) rfl (fun _ => ⟨hk, rfl⟩) (fun hc => absurd rfl hc) (by rw [hvlen]; split <;> omega)
  refine ⟨t, ht, ?_, hdraws⟩
  rw [hvalues, hzip, funext (idleEvents_eq p dir)] at hans
  exact hans

/-! The bus never idle. -/

/-- Words drawn where at least as many are fixed are the first of those (R229). -/
theorem Spends.take {vs ds d zs r : List Word} (h : Spends vs ds d) (hd : ds = zs ++ r) (hl : vs.length ≤ zs.length) :
    vs = zs.take vs.length ∧ d = zs.drop vs.length ++ r :=
  h _ _ (by rw [hd, ← List.append_assoc, List.take_append_drop]) (by rw [List.length_take, Nat.min_eq_left hl])

/-- A bus poll for which SPIN_BUS busy words are fixed draws all of them, and reaches its ceiling (R120, R121). -/
theorem PollWords.all_busy {p : Params} {vs ds d zs r : List Word} (h : PollWords p vs) (hs : Spends vs ds d)
    (hd : ds = zs ++ r) (hl : zs.length = p.spinBus) (hz : ∀ z ∈ zs, z &&& p.spiBusy ≠ 0) :
    vs = zs ∧ d = r ∧ pollExceeded p vs = true := by
  obtain ⟨htake, hdrop⟩ := hs.take hd (by rw [hl]; exact h.bounded)
  have hx : pollExceeded p vs = true := by
    rw [pollExceeded, List.all_eq_true]
    intro v hv
    rw [htake] at hv
    simpa using hz v (List.mem_of_mem_take hv)
  rw [h.ceiling hx, ← hl] at htake hdrop
  rw [List.take_length] at htake
  rw [List.drop_length, List.nil_append] at hdrop
  exact ⟨htake, hdrop, hx⟩

/-- A batch with an entry begins with the poll before its cycle (R127). -/
theorem batchProgram_first (p : Params) (dir : Dir) (e : Entry) (es : List Entry) :
    ∃ rest, batchProgram p dir (e :: es) = .poll (.pre 0) .busIdle p.spinBus true :: rest := ⟨_, rfl⟩

/-- Settles O29: the poll before the first entry reads every busy word, and the command gives up there. -/
theorem seqBusFirstPollTimeout : Obligations.SeqBusFirstPollTimeout := by
  unfold Obligations.SeqBusFirstPollTimeout
  intro nw nr entries s zs rest h hb hne hfail hlen hbusy hd
  obtain ⟨hused, -, -⟩ := validBatch_take hb
  obtain ⟨e, es, hes⟩ : ∃ e es, entries.take (nw.toNat + nr.toNat) = e :: es := by
    refine List.exists_cons_of_length_pos ?_
    rw [hused]
    bv_omega
  obtain ⟨tail, hprog⟩ := batchProgram_first s.params (batchDir nw) e es
  obtain ⟨vs, d, f, hpoll, hspent, hrun⟩ := runAlone_busPoll (place := .pre 0) (rest := tail)
    (s := startCommand (.seqBus nw nr entries) s) h.attached rfl
  obtain ⟨rfl, rfl, hx⟩ := PollWords.all_busy (p := s.params) hpoll hspent hd hlen hbusy
  have hf : pollFails s.params vs = true := by simp [pollFails, hx, hfail]
  have hevents : pollEvents s.params (.pre 0) vs = statusReads s.params vs ++ [.bwe (.pre 0)] := by
    rw [pollEvents, if_pos hx]
  rw [startCommand_params, hf, if_pos rfl, hevents] at hrun
  obtain ⟨t, ht, hans, hregs, hcfg, hdraws, -⟩ := seqBus_answers (code := .etimeout) (words := []) h hb
    (by rw [hes, hprog]; exact hrun) rfl
    (by rw [← hevents]; exact (BatchRun.poll hb.1 .read vs (.pre 0)).mine) rfl nofun (fun _ => rfl) (by simp)
  exact ⟨t, ht, hans, hregs, hcfg, hdraws⟩

end Sys2Proof.Machine
end

section
/-! The values that the capture commands compute (spec/42_capture_dma.md R140 to R145): the masked merge, the peak clamp,
the transfer size and the buffer address. -/

namespace Sys2Proof.Machine

/-! The merge. -/

/-- A bit of a merge is the new word's inside the mask, and the old one's outside (R140). -/
theorem getLsbD_merge (s m mask : Word) (k : Nat) :
    (merge s m mask).getLsbD k = if mask.getLsbD k then m.getLsbD k else s.getLsbD k := by
  simp only [merge, BitVec.getLsbD_or, BitVec.getLsbD_and, BitVec.getLsbD_not]
  by_cases hk : k < 32
  · cases mask.getLsbD k <;> simp [hk]
  · simp [BitVec.getLsbD_of_ge _ _ (Nat.le_of_not_lt hk)]

/-- A second merge under the same mask overrides the first (R155). -/
theorem merge_merge (s m1 m2 mask : Word) : merge (merge s m1 mask) m2 mask = merge s m2 mask := by
  refine BitVec.eq_of_getLsbD_eq fun k _ => ?_
  simp only [getLsbD_merge]
  split <;> rfl

/-- Under any word that has no bit of the mask a merge shows what was there before (R140). -/
theorem merge_and_outside {s m mask keep : Word} (h : mask &&& keep = 0) : merge s m mask &&& keep = s &&& keep := by
  refine BitVec.eq_of_getLsbD_eq fun k _ => ?_
  have hbit : (mask.getLsbD k && keep.getLsbD k) = false := by
    simpa using congrArg (·.getLsbD k) h
  rw [BitVec.getLsbD_and, BitVec.getLsbD_and, getLsbD_merge]
  cases hm : mask.getLsbD k with
  | true => rw [show keep.getLsbD k = false by simpa [hm] using hbit]; simp
  | false => simp

/-- Under any word inside the mask it shows what is new. -/
theorem merge_and_inside {s m mask sel : Word} (h : mask &&& sel = sel) : merge s m mask &&& sel = m &&& sel := by
  refine BitVec.eq_of_getLsbD_eq fun k _ => ?_
  have hbit : (mask.getLsbD k && sel.getLsbD k) = sel.getLsbD k := by
    simpa using congrArg (·.getLsbD k) h
  rw [BitVec.getLsbD_and, BitVec.getLsbD_and, getLsbD_merge]
  cases hm : mask.getLsbD k with
  | true => simp
  | false => rw [show sel.getLsbD k = false by simpa [hm] using hbit.symm]; simp

/-- Merging 0 clears the mask (R148). -/
theorem merge_zero (s mask : Word) : merge s 0 mask = s &&& ~~~mask := by
  simp [merge]

/-- Merging the mask itself sets it (R152). -/
theorem merge_self (s mask : Word) : merge s mask mask = s ||| mask := by
  refine BitVec.eq_of_getLsbD_eq fun k _ => ?_
  rw [getLsbD_merge, BitVec.getLsbD_or]
  cases mask.getLsbD k <;> simp

/-- Settles O17, bit by bit. -/
theorem mergeLaws : Obligations.MergeLaws := by
  unfold Obligations.MergeLaws
  exact fun s m m1 m2 mask =>
    ⟨getLsbD_merge s m mask, merge_merge s m1 m2 mask, merge_and_outside (BitVec.and_not_self mask)⟩

/-! The peak clamp. -/

theorem clampPeak_of_le {p : Params} {b : Word} (h : b.toNat ≤ p.peakSent.toNat) : clampPeak p b = b := if_pos h

theorem clampPeak_of_gt {p : Params} {b : Word} (h : p.peakSent.toNat < b.toNat) : clampPeak p b = p.peakSent :=
  if_neg (Nat.not_le_of_gt h)

/-- The clamp never exceeds the sentinel (R155). -/
theorem clampPeak_le (p : Params) (b : Word) : (clampPeak p b).toNat ≤ p.peakSent.toNat := by
  rcases Nat.lt_or_ge p.peakSent.toNat b.toNat with h | h
  · rw [clampPeak_of_gt h]
  · rwa [clampPeak_of_le h]

/-- Settles O18, by whether the bound exceeds the sentinel. -/
theorem peakClamp : Obligations.PeakClamp := by
  unfold Obligations.PeakClamp
  exact fun p b => ⟨clampPeak_of_le, clampPeak_of_gt, clampPeak_of_le (clampPeak_le p b), clampPeak_le p b, rfl⟩

/-! Size and address. -/

theorem transferSize_toNat {p : Params} {count : Word} (h : count.toNat * p.sampleWidth < 2 ^ 32) :
    (transferSize p count).toNat = count.toNat * p.sampleWidth := by
  rw [transferSize, transferBytes, BitVec.toNat_ofNat, Nat.mod_eq_of_lt h]

theorem dmaAddr_toNat (p : Params) (offset : Word) :
    (dmaAddr p offset).toNat = (p.bufBase + offset.toNat) % 2 ^ 32 := BitVec.toNat_ofNat _ _

/-- A transfer whose address wraps begins at the buffer's end, the end of the address space, and is empty: it lies in a
buffer that ends there at the latest (R145). -/
theorem wrapping_transfer {p : Params} {offset count : Word} (hbuf : p.bufBase + p.bufLen ≤ 2 ^ 32)
    (hwidth : 0 < p.sampleWidth) (hfit : offset.toNat + count.toNat * p.sampleWidth ≤ p.bufLen)
    (hwrap : 2 ^ 32 ≤ p.bufBase + offset.toNat) :
    offset.toNat = p.bufLen ∧ count = 0 ∧ p.bufBase + offset.toNat = 2 ^ 32 := by
  have hsize : count.toNat * p.sampleWidth = 0 := by omega
  have hcount : count.toNat = 0 := (Nat.mul_eq_zero.mp hsize).resolve_right (Nat.ne_of_gt hwidth)
  exact ⟨by omega, BitVec.eq_of_toNat_eq hcount, by omega⟩

/-- Settles O19: the size is below BUF_LEN, and an address that wraps is 0. -/
theorem transferSizeAndAddress : Obligations.TransferSizeAndAddress := by
  unfold Obligations.TransferSizeAndAddress
  intro p offset count hbuf hlen hwidth hfit
  have haddr := dmaAddr_toNat p offset
  refine ⟨transferSize_toNat (by omega), haddr, fun hlt => haddr.trans (Nat.mod_eq_of_lt hlt), fun hwrap => ?_⟩
  obtain ⟨hend, hcount, hsum⟩ := wrapping_transfer hbuf hwidth hfit hwrap
  exact ⟨hend, hcount, BitVec.eq_of_toNat_eq (by rw [haddr, hsum]; rfl)⟩

end Sys2Proof.Machine
end

section
/-! The capture and mode commands (spec/42_capture_dma.md R147 to R153) but CONFIGURE: what the micro-program does alone
(Sys2Proof/Laws/Blocks.lean), and from it the command's answer under any calm schedule. -/

namespace Sys2Proof.Machine

/-- The answer without words of a command whose program alone ends at `c`, under any calm schedule; the program writes no
INT_CTRL, so with nothing else scheduled it leaves what the other agents own. -/
theorem program_answers {i : Instr} {prog : List Micro} {s c : State} {txns : List Event} (h : CanRun s)
    (hx : exec i s = runCommand i prog s) (hview : prog.all Micro.viewOnly = true) (hb : bracketed false prog = true)
    (harms : ∀ op ∈ prog, op.arms = false) (hrun : runAlone prog (startCommand i s) = .next c)
    (hhist : c.hist = (startCommand i s).hist ++ txns) (hmine : cmdTrace txns = txns) (hemit : c.emitted = []) :
    ∃ t, exec i s = .next t ∧ Answers i txns c.code [] s t ∧ t.regs = c.regs ∧ t.cfg = c.cfg ∧ t.draws = c.draws ∧
      (s.sched = [] → s.ilock = .free → OthersKept s t) := by
  obtain ⟨t, ht, hans, hregs, hcfg, hdraws, -, hkept⟩ := command_result (words := []) h hview hb hrun
    (trace_of_hist hhist hmine) rfl (fun _ => hemit) (fun _ => rfl) (by simp) (by simp)
  refine ⟨t, hx.trans ht, hans, hregs, hcfg, hdraws, fun hs hl => ?_⟩
  obtain ⟨-, -, hfree⟩ := runCommand_quiet hs hl hb hrun
  exact .of_start (runAlone_others hrun harms (hfree.trans hl.symm)) (hkept hs hl)

/-! Storage writes that end with one of CFG. -/

/-- A micro-operation that writes `v` to CFG where CFG is `cfg` (R140, R141). -/
inductive WritesMode (cfg v : Word) : Micro → Prop
  | overwrite : WritesMode cfg v (.overwriteCfg v)
  | merges {m mask : Word} (hv : v = merge cfg m mask) : WritesMode cfg v (.mergeCfg m mask)

/-- Such an operation alone is one `WriteCfg` (R141). -/
theorem WritesMode.runAlone {op : Micro} {rest : List Micro} {s : State} {v : Word} (h : WritesMode s.cfg v op)
    (ha : s.attached = true) : Machine.runAlone (op :: rest) s = Machine.runAlone rest (s.stowCfg v) := by
  cases h with
  | overwrite => exact runAlone_overwriteCfg ha
  | merges hv => rw [hv]; exact runAlone_mergeCfg ha

/-- Storage writes and then one of CFG, as a micro-program. -/
def modeProgram (l : List (Reg × Word)) (op : Micro) : List Micro := l.map (fun x => .write x.1 x.2) ++ [op]

/-- An operation of such a program. -/
theorem mem_modeProgram {l : List (Reg × Word)} {op o : Micro} (hk : ∀ x ∈ l, x.1.kind = .storage)
    (ho : o ∈ modeProgram l op) : o = op ∨ ∃ r v, r.kind = .storage ∧ o = .write r v := by
  rcases List.mem_append.mp ho with ho | ho
  · obtain ⟨x, hx, rfl⟩ := List.mem_map.mp ho
    exact .inr ⟨x.1, x.2, hk x hx, rfl⟩
  · exact .inl (List.mem_singleton.mp ho)

/-- Words stored in turn and `v` written to CFG and MODE_CONFIG, by CMD. -/
def State.setMode (s : State) (l : List (Reg × Word)) (v : Word) : State :=
  { s.stowAll (l ++ [(.modeConfig, v)]) with cfg := v }

@[simp] theorem setMode_params (s : State) (l : List (Reg × Word)) (v : Word) : (s.setMode l v).params = s.params := rfl
@[simp] theorem setMode_attached (s : State) (l : List (Reg × Word)) (v : Word) :
    (s.setMode l v).attached = s.attached := rfl
@[simp] theorem setMode_spins (s : State) (l : List (Reg × Word)) (v : Word) : (s.setMode l v).spins = s.spins := rfl
@[simp] theorem setMode_draws (s : State) (l : List (Reg × Word)) (v : Word) : (s.setMode l v).draws = s.draws := rfl
@[simp] theorem setMode_emitted (s : State) (l : List (Reg × Word)) (v : Word) :
    (s.setMode l v).emitted = s.emitted := rfl
@[simp] theorem setMode_code (s : State) (l : List (Reg × Word)) (v : Word) : (s.setMode l v).code = s.code := rfl
@[simp] theorem setMode_cfg (s : State) (l : List (Reg × Word)) (v : Word) : (s.setMode l v).cfg = v := rfl
@[simp] theorem setMode_regs (s : State) (l : List (Reg × Word)) (v : Word) :
    (s.setMode l v).regs = Memory.storeRegs s.regs s.params (l ++ [(.modeConfig, v)]) := rfl
@[simp] theorem setMode_hist (s : State) (l : List (Reg × Word)) (v : Word) :
    (s.setMode l v).hist = s.hist ++ cmdWrites s.params (l ++ [(.modeConfig, v)]) := rfl

theorem stowAll_stowCfg (s : State) (l : List (Reg × Word)) (v : Word) : (s.stowAll l).stowCfg v = s.setMode l v := by
  simp [State.setMode, State.stowCfg, State.stow, State.stowAll, storeRegs_append, storeRegs_cons,
    cmdWrites]
  rfl

/-- Storage writes and one of CFG alone, then the rest of the program. -/
theorem runAlone_modeProgram {l : List (Reg × Word)} {op : Micro} {rest : List Micro} {s : State} {v : Word}
    (ha : s.attached = true) (hk : ∀ x ∈ l, x.1.kind = .storage) (hop : WritesMode s.cfg v op) :
    runAlone (modeProgram l op ++ rest) s = runAlone rest (s.setMode l v) := by
  rw [modeProgram, List.append_assoc, runAlone_writes ha hk, List.singleton_append,
    WritesMode.runAlone (s := s.stowAll l) hop ha, stowAll_stowCfg]

/-- The answer of a command that stores words and then writes CFG (R147, R148, R151, R153). -/
theorem modeCommand_answers {i : Instr} {l : List (Reg × Word)} {op : Micro} {v : Word} {s : State} (h : CanRun s)
    (hx : exec i s = runCommand i (modeProgram l op) s) (hk : ∀ x ∈ l, x.1.kind = .storage)
    (hop : WritesMode s.cfg v op) :
    ∃ t, exec i s = .next t ∧ Answers i (cmdWrites s.params (l ++ [(.modeConfig, v)])) .ok [] s t ∧ t.cfg = v ∧
      t.regs = Memory.storeRegs s.regs s.params (l ++ [(.modeConfig, v)]) ∧
      (s.sched = [] → s.ilock = .free → OthersKept s t) := by
  have hplain : op.viewOnly = true ∧ op.locks = false ∧ op.arms = false := by cases hop <;> exact ⟨rfl, rfl, rfl⟩
  have hrun : runAlone (modeProgram l op) (startCommand i s) = .next ((startCommand i s).setMode l v) := by
    have := runAlone_modeProgram (rest := []) (s := startCommand i s) h.attached hk hop
    rwa [List.append_nil] at this
  obtain ⟨t, ht, hans, hregs, hcfg, -, hkept⟩ := program_answers h hx
    (List.all_eq_true.mpr fun o ho => by
      rcases mem_modeProgram hk ho with rfl | ⟨r, w, -, rfl⟩
      · exact hplain.1
      · rfl)
    (bracketed_of_no_locks fun o ho => by
      rcases mem_modeProgram hk ho with rfl | ⟨r, w, -, rfl⟩
      · exact hplain.2.1
      · rfl)
    (fun o ho => by
      rcases mem_modeProgram hk ho with rfl | ⟨r, w, hr, rfl⟩
      · exact hplain.2.2
      · simp [Micro.arms, hr])
    hrun rfl (cmdTrace_cmdWrites _ _) rfl
  exact ⟨t, ht, hans, hcfg, hregs, hkept⟩

/-- Settles O21: no register before the one write of CFG. -/
theorem resetFullResult : Obligations.ResetFullResult := by
  unfold Obligations.ResetFullResult
  exact fun s h => modeCommand_answers (l := []) h rfl (by simp) .overwrite

/-- Settles O22: merging 0 clears the flag. -/
theorem resetClearResult : Obligations.ResetClearResult := by
  unfold Obligations.ResetClearResult
  exact fun s h => modeCommand_answers (l := []) h rfl (by simp) (.merges (merge_zero _ _).symm)

/-- A transfer that fits the buffer passes the capacity check (R143). -/
theorem overCapacity_of_fits {p : Params} {offset count : Word}
    (h : offset.toNat + count.toNat * p.sampleWidth ≤ p.bufLen) : overCapacity p offset count = false := by
  simpa [overCapacity, transferBytes] using h

/-- Settles O24: the address and the size, and a merge under RS_MASK. -/
theorem runScanResult : Obligations.RunScanResult := by
  unfold Obligations.RunScanResult
  intro cfgbits offset count s h hfit p mode w
  have hx : exec (.runScan cfgbits offset count) s = runCommand (.runScan cfgbits offset count)
      (modeProgram [(.dmaRdAddr, dmaAddr p offset), (.dmaSize, transferSize p count)] (.mergeCfg cfgbits p.rsMask)) s :=
    runPlan_of (if_neg (by simp [overCapacity_of_fits hfit])) rfl
  obtain ⟨t, ht, hans, hcfg, hregs, hkept⟩ := modeCommand_answers (v := mode) h hx (by simp [Reg.kind]) (.merges rfl)
  exact ⟨t, ht, hans, hcfg, hregs, fun hmask => by rw [hcfg]; exact merge_and_outside hmask, hkept⟩

/-- The two values of TRIGGER_PPS run its merge (R153). -/
theorem exec_triggerPps {value : Word} (s : State) (hv : value = 1 ∨ value = 2) :
    exec (.triggerPps value) s =
      runCommand (.triggerPps value) (modeProgram [] (.mergeCfg (ppsFlag s.params value) s.params.ppsMask)) s :=
  runPlan_of (if_pos (by simpa [ppsValid] using hv)) rfl

/-- A flag is inside a mask that has it. -/
theorem or_and_left_self (a b : Word) : (a ||| b) &&& a = a := by
  ext k hk
  simp only [BitVec.getElem_and, BitVec.getElem_or]
  cases a[k] <;> simp

/-- Settles O26: a merge under PPS_MASK, of which each flag shows its own part. -/
theorem triggerPpsResult : Obligations.TriggerPpsResult := by
  unfold Obligations.TriggerPpsResult
  intro value s h hv p mode w
  obtain ⟨t, ht, hans, hcfg, hregs, hkept⟩ :=
    modeCommand_answers (l := []) (v := mode) h (exec_triggerPps s hv) (by simp) (.merges rfl)
  refine ⟨t, ht, hans, hcfg, hregs, fun hmask hdisj => ?_, hkept⟩
  have hgen : p.ppsMask &&& p.ppsGen = p.ppsGen := by rw [hmask]; exact or_and_left_self _ _
  have htrig : p.ppsMask &&& p.ppsTrig = p.ppsTrig := by rw [hmask, BitVec.or_comm]; exact or_and_left_self _ _
  have hmode : t.cfg = merge s.cfg (ppsFlag p value) p.ppsMask := hcfg
  rw [hmode, merge_and_inside hgen, merge_and_inside htrig, ← hmask, merge_and_outside (BitVec.and_not_self _)]
  rcases hv with rfl | rfl
  · simp [ppsFlag, hdisj]
  · simp [ppsFlag, BitVec.and_comm p.ppsTrig, hdisj]

end Sys2Proof.Machine
end

section
/-! DMA_SELF_TEST (spec/42_capture_dma.md R152): its poll alone, which the command survives under both policies, and the
answer under any calm schedule. -/

namespace Sys2Proof.Machine

/-- `vs` are STATUS words that the self-test's poll may read, and `seen` says whether DMA_DONE was in one of them (R120,
R152): it is in no word but perhaps the last, and where it is in none the ceiling was reached. -/
structure DoneWords (p : Params) (vs : List Word) (seen : Bool) : Prop where
  found : (vs.any fun v => v &&& p.dmaDone != 0) = seen
  bounded : vs.length ≤ p.spinDma
  waiting : ∀ v ∈ vs.dropLast, v &&& p.dmaDone = 0
  ceiling : seen = false → vs.length = p.spinDma

/-- What a poll of the DMA-done bit waits for (R152). -/
theorem pollReady_dmaDone (p : Params) (v : Word) : pollReady p .dmaDone v = (v &&& p.dmaDone != 0) := rfl

/-- The code after a poll that only sets it (R121, R152). -/
def codeAfterPoll (p : Params) (seen : Bool) (code : Code) : Code :=
  if seen = true ∨ p.timeoutPolicy = .proceed then code else .etimeout

/-- A poll that never gives up only sets the code at its ceiling (R121, R152). -/
theorem afterSpin_goesOn (t : State) (seen : Bool) :
    afterSpin false (t, seen) = ({ t with code := codeAfterPoll t.params seen t.code }, true) := by
  unfold afterSpin codeAfterPoll
  by_cases hc : seen = true ∨ t.params.timeoutPolicy = .proceed
  · rw [if_pos (by simpa using hc), if_pos hc]
  · rw [if_neg (by simpa using hc), if_neg hc]
    rfl

/-- The state after such a poll: the words read, BWE where DMA_DONE was not seen, and the code (R121, R152). -/
def State.polled (s : State) (vs : List Word) (seen : Bool) (d : List Word) (f : Nat) : State :=
  { s with draws := d, freeIx := f, code := codeAfterPoll s.params seen s.code,
           hist := s.hist ++ (statusReads s.params vs ++ if seen then [] else [.bwe .selfTest]) }

@[simp] theorem polled_params (s : State) (vs : List Word) (seen : Bool) (d : List Word) (f : Nat) :
    (s.polled vs seen d f).params = s.params := rfl
@[simp] theorem polled_cfg (s : State) (vs : List Word) (seen : Bool) (d : List Word) (f : Nat) :
    (s.polled vs seen d f).cfg = s.cfg := rfl
@[simp] theorem polled_regs (s : State) (vs : List Word) (seen : Bool) (d : List Word) (f : Nat) :
    (s.polled vs seen d f).regs = s.regs := rfl
@[simp] theorem polled_draws (s : State) (vs : List Word) (seen : Bool) (d : List Word) (f : Nat) :
    (s.polled vs seen d f).draws = d := rfl
@[simp] theorem polled_emitted (s : State) (vs : List Word) (seen : Bool) (d : List Word) (f : Nat) :
    (s.polled vs seen d f).emitted = s.emitted := rfl
@[simp] theorem polled_code (s : State) (vs : List Word) (seen : Bool) (d : List Word) (f : Nat) :
    (s.polled vs seen d f).code = codeAfterPoll s.params seen s.code := rfl
@[simp] theorem polled_hist (s : State) (vs : List Word) (seen : Bool) (d : List Word) (f : Nat) :
    (s.polled vs seen d f).hist =
      s.hist ++ (statusReads s.params vs ++ if seen then [] else [.bwe .selfTest]) := rfl

/-- The poll of the self-test alone, then the rest of the program (R120, R121, R152). -/
theorem runAlone_donePoll {rest : List Micro} {s : State} (ha : s.attached = true) (hs : s.spins = 0) :
    ∃ vs d f seen, DoneWords s.params vs seen ∧ Spends vs s.draws d ∧
      runAlone (.poll .selfTest .dmaDone s.params.spinDma false :: rest) s = runAlone rest (s.polled vs seen d f) := by
  obtain ⟨⟨t, seen⟩, ht⟩ :=
    spinAlone_next (place := .selfTest) (pred := .dmaDone) (n := s.params.spinDma - s.spins) ha
  obtain ⟨vs, d, f, hu, hwords, hspent⟩ := spinAlone_spec ht
  rw [hs, Nat.sub_zero] at hwords
  refine ⟨vs, d, f, seen, ?_, hspent, ?_⟩
  · cases seen with
    | true =>
      obtain ⟨init, last, rfl, hlast, hle, hinit⟩ := hwords
      simp only [pollReady_dmaDone] at hlast hinit
      exact ⟨by simpa using .inr (by simpa using hlast), hle, by simpa using hinit, by simp⟩
    | false =>
      obtain ⟨hlen, hwait⟩ := hwords
      simp only [pollReady_dmaDone] at hwait
      exact ⟨by simpa using hwait, hlen.le, fun v hv => by simpa using hwait v (List.dropLast_subset vs hv), fun _ => hlen⟩
  · rw [runAlone]
    simp only [opAlone, ht, andThen_next, afterSpin_goesOn, if_true]
    rw [hu, State.polled, ← hs, List.append_assoc]

/-- What DMA_SELF_TEST stores before its poll (R152). -/
def selfTestWrites (p : Params) (size : Word) : List (Reg × Word) :=
  [(.dmaRdAddr, dmaAddr p 0), (.dmaWrAddr, dmaAddr p 0), (.dmaSize, size)]

/-- The micro-program of DMA_SELF_TEST: the pulse of the trigger around the poll (R152). -/
def selfTestProgram (p : Params) (size : Word) : List Micro :=
  modeProgram (selfTestWrites p size) (.mergeCfg p.dmaTrigger p.dmaTrigger) ++
    .poll .selfTest .dmaDone p.spinDma false :: modeProgram [] (.mergeCfg 0 p.dmaTrigger)

theorem exec_dmaSelfTest {size : Word} {s : State} (h : size.toNat ≤ s.params.bufLen) :
    exec (.dmaSelfTest size) s = runCommand (.dmaSelfTest size) (selfTestProgram s.params size) s :=
  runPlan_of (if_neg (Nat.not_lt.mpr h)) rfl

/-- Setting the trigger and clearing it again clears it, and keeps every other bit of CFG (R152). -/
theorem merge_pulse (cfg mask : Word) : merge (cfg ||| mask) 0 mask = cfg &&& ~~~mask := by
  rw [← merge_self, merge_merge, merge_zero]

/-- Where the program alone ends: the trigger set before the poll, and cleared after it (R152). -/
def State.selfTested (s : State) (size : Word) (vs : List Word) (seen : Bool) (d : List Word) (f : Nat) : State :=
  ((s.setMode (selfTestWrites s.params size) (s.cfg ||| s.params.dmaTrigger)).polled vs seen d f).setMode []
    (s.cfg &&& ~~~s.params.dmaTrigger)

theorem runAlone_selfTest {size : Word} {s : State} (ha : s.attached = true) (hs : s.spins = 0) :
    ∃ vs d f seen, DoneWords s.params vs seen ∧ Spends vs s.draws d ∧
      runAlone (selfTestProgram s.params size) s = .next (s.selfTested size vs seen d f) := by
  generalize hset : s.setMode (selfTestWrites s.params size) (s.cfg ||| s.params.dmaTrigger) = u
  have hp : u.params = s.params := by rw [← hset, setMode_params]
  have hd : u.draws = s.draws := by rw [← hset, setMode_draws]
  have hcfg : u.cfg = s.cfg ||| s.params.dmaTrigger := by rw [← hset, setMode_cfg]
  have hau : u.attached = true := by rw [← hset, setMode_attached, ha]
  obtain ⟨vs, d, f, seen, hwords, hspent, hpoll⟩ :=
    runAlone_donePoll (rest := modeProgram [] (.mergeCfg 0 s.params.dmaTrigger)) hau
      (by rw [← hset, setMode_spins, hs])
  rw [hp] at hwords hpoll
  rw [hd] at hspent
  refine ⟨vs, d, f, seen, hwords, hspent, ?_⟩
  have hclear := runAlone_modeProgram (l := []) (rest := []) (s := u.polled vs seen d f)
    (op := .mergeCfg 0 s.params.dmaTrigger) (v := s.cfg &&& ~~~s.params.dmaTrigger) hau (by simp)
    (.merges (by rw [polled_cfg, hcfg, merge_pulse]))
  rw [List.append_nil] at hclear
  rw [selfTestProgram, runAlone_modeProgram ha (by simp [selfTestWrites, Reg.kind]) (.merges (merge_self _ _).symm), hset,
    hpoll, hclear, State.selfTested, hset, runAlone_nil]

/-- What the program alone recorded. -/
theorem selfTested_hist (s : State) (size : Word) (vs : List Word) (seen : Bool) (d : List Word) (f : Nat) :
    (s.selfTested size vs seen d f).hist = s.hist ++
      (cmdWrites s.params (selfTestWrites s.params size ++ [(.modeConfig, s.cfg ||| s.params.dmaTrigger)]) ++
        statusReads s.params vs ++ (if seen then [] else [.bwe .selfTest]) ++
        cmdWrites s.params [(.modeConfig, s.cfg &&& ~~~s.params.dmaTrigger)]) := by
  simp only [State.selfTested, setMode_hist, polled_hist, setMode_params, polled_params, List.append_assoc,
    List.nil_append]

theorem selfTested_regs (s : State) (size : Word) (vs : List Word) (seen : Bool) (d : List Word) (f : Nat) :
    (s.selfTested size vs seen d f).regs = Memory.storeRegs s.regs s.params
      (selfTestWrites s.params size ++ [(.modeConfig, s.cfg ||| s.params.dmaTrigger)] ++
        [(.modeConfig, s.cfg &&& ~~~s.params.dmaTrigger)]) := by
  rw [storeRegs_append, State.selfTested, setMode_regs, polled_regs, polled_params, setMode_regs, setMode_params,
    List.nil_append]

theorem selfTested_cfg (s : State) (size : Word) (vs : List Word) (seen : Bool) (d : List Word) (f : Nat) :
    (s.selfTested size vs seen d f).cfg = s.cfg &&& ~~~s.params.dmaTrigger := by rw [State.selfTested, setMode_cfg]

theorem selfTested_code (s : State) (size : Word) (vs : List Word) (seen : Bool) (d : List Word) (f : Nat) :
    (s.selfTested size vs seen d f).code = codeAfterPoll s.params seen s.code := by
  rw [State.selfTested, setMode_code, polled_code, setMode_params, setMode_code]

theorem selfTested_draws (s : State) (size : Word) (vs : List Word) (seen : Bool) (d : List Word) (f : Nat) :
    (s.selfTested size vs seen d f).draws = d := by rw [State.selfTested, setMode_draws, polled_draws]

theorem selfTested_emitted (s : State) (size : Word) (vs : List Word) (seen : Bool) (d : List Word) (f : Nat) :
    (s.selfTested size vs seen d f).emitted = s.emitted := by
  rw [State.selfTested, setMode_emitted, polled_emitted, setMode_emitted]

/-- The events of the pulse are CMD's. -/
theorem cmdTrace_selfTest (p : Params) (w last : List (Reg × Word)) (vs : List Word) (seen : Bool) :
    cmdTrace (cmdWrites p w ++ statusReads p vs ++ (if seen then [] else [.bwe .selfTest]) ++ cmdWrites p last) =
      cmdWrites p w ++ statusReads p vs ++ (if seen then [] else [.bwe .selfTest]) ++ cmdWrites p last := by
  have hreads : cmdTrace (statusReads p vs) = statusReads p vs :=
    List.filter_eq_self.mpr (by simp [statusReads, Event.byCmd])
  rw [cmdTrace_append, cmdTrace_append, cmdTrace_append, cmdTrace_cmdWrites, cmdTrace_cmdWrites, hreads]
  cases seen <;> rfl

/-- Settles O25: the pulse alone, with the code that the poll leaves. -/
theorem dmaSelfTestResult : Obligations.DmaSelfTestResult := by
  unfold Obligations.DmaSelfTestResult
  intro size s h hfit p w last
  obtain ⟨vs, d, f, seen, hwords, hspent, hrun⟩ :=
    runAlone_selfTest (size := size) (s := startCommand (.dmaSelfTest size) s) h.attached rfl
  obtain ⟨t, ht, hans, hregs, hcfg, hdraws, hkept⟩ := program_answers h (exec_dmaSelfTest hfit) rfl rfl
    (by simp [selfTestProgram, selfTestWrites, modeProgram, Micro.arms, Reg.kind]) hrun (selfTested_hist _ _ _ _ _ _)
    (cmdTrace_selfTest _ _ _ _ _) (selfTested_emitted _ _ _ _ _ _)
  rw [selfTested_code] at hans
  rw [selfTested_regs] at hregs
  rw [selfTested_cfg] at hcfg
  rw [selfTested_draws] at hdraws
  refine ⟨t, vs, ht, ?_⟩
  have hfound : (vs.any fun v => v &&& p.dmaDone != 0) = seen := hwords.found
  simp only [hfound]
  exact ⟨hwords.bounded, hwords.waiting, hwords.ceiling, hans, hspent.drawn hdraws, hcfg, hregs, hkept⟩

end Sys2Proof.Machine
end

section
/-! CONFIGURE (spec/42_capture_dma.md R149, R150): its program alone, its answer under any calm schedule, and its INT_CTRL
writes under ILOCK (spec/60_exceptions.md R215). -/

namespace Sys2Proof.Machine

/-- What CONFIGURE stores before the mode (R149). -/
def captureWrites (p : Params) (peak : Option (Word × Word)) (offset count delay : Word) : List (Reg × Word) :=
  [(.dmaWrAddr, dmaAddr p offset), (.dmaSize, transferSize p count), (.captureCount, count), (.delayCount, delay),
   (.peakStart, peakBound p (peak.map Prod.fst)), (.peakEnd, peakBound p (peak.map Prod.snd))]

theorem captureWrites_storage {p : Params} {peak : Option (Word × Word)} {offset count delay : Word} :
    ∀ x ∈ captureWrites p peak offset count delay, x.1.kind = .storage := by simp [captureWrites, Reg.kind]

/-- The setup of CONFIGURE is these writes and the merge of the mode (R149). -/
theorem captureSetup_eq (p : Params) (peak : Option (Word × Word)) (cfgbits offset count delay : Word) :
    captureSetup p peak cfgbits offset count delay =
      modeProgram (captureWrites p peak offset count delay) (.mergeCfg cfgbits p.confMask) := rfl

/-- The commands that ArmIrq or DisarmIrq writes to INT_CTRL (R150). -/
def interruptCommands (p : Params) (irq : Bool) : List Word := if irq then [p.intClear, p.intEnable] else [p.intDisable]

/-- ArmIrq or DisarmIrq: those commands between taking ILOCK and giving it back (R150). -/
theorem interruptProgram_eq (p : Params) (irq : Bool) :
    (if irq then armIrq p else disarmIrq p) =
      .acquireI :: ((interruptCommands p irq).map (.write .intCtrl) ++ [.releaseI]) := by
  cases irq <;> rfl

/-- Where ArmIrq or DisarmIrq ends alone (R150). -/
def State.interruptSet (s : State) (irq : Bool) : State :=
  { s with ilock := .free, intEn := irq, intPend := if irq then false else s.intPend,
           hist := s.hist ++ cmdWrites s.params ((interruptCommands s.params irq).map fun v => (.intCtrl, v)) }

theorem runAlone_interrupt {s : State} (irq : Bool) (ha : s.attached = true) (hv : s.params.valid = true) :
    runAlone (if irq then armIrq s.params else disarmIrq s.params) s = .next (s.interruptSet irq) := by
  cases irq with
  | true => exact runAlone_arm ha hv
  | false => exact runAlone_disarm ha hv

/-- Where the program of CONFIGURE ends alone (R149). -/
def State.configured (s : State) (irq : Bool) (l : List (Reg × Word)) (mode : Word) : State :=
  (s.setMode l mode).interruptSet irq

theorem configured_hist (s : State) (irq : Bool) (l : List (Reg × Word)) (mode : Word) :
    (s.configured irq l mode).hist = s.hist ++ cmdWrites s.params (l ++ [(.modeConfig, mode)] ++
      (interruptCommands s.params irq).map fun v => (.intCtrl, v)) := by
  simp only [State.configured, State.interruptSet, setMode_hist, setMode_params, cmdWrites_append, List.append_assoc]

theorem configured_regs (s : State) (irq : Bool) (l : List (Reg × Word)) (mode : Word) :
    (s.configured irq l mode).regs = Memory.storeRegs s.regs s.params (l ++ [(.modeConfig, mode)]) := rfl

@[simp] theorem configured_intEn (s : State) (irq : Bool) (l : List (Reg × Word)) (mode : Word) :
    (s.configured irq l mode).intEn = irq := rfl
@[simp] theorem configured_intPend (s : State) (irq : Bool) (l : List (Reg × Word)) (mode : Word) :
    (s.configured irq l mode).intPend = if irq then false else s.intPend := rfl
@[simp] theorem configured_ilock (s : State) (irq : Bool) (l : List (Reg × Word)) (mode : Word) :
    (s.configured irq l mode).ilock = .free := rfl
@[simp] theorem configured_irqPhase (s : State) (irq : Bool) (l : List (Reg × Word)) (mode : Word) :
    (s.configured irq l mode).irqPhase = s.irqPhase := rfl
@[simp] theorem configured_icount (s : State) (irq : Bool) (l : List (Reg × Word)) (mode : Word) :
    (s.configured irq l mode).icount = s.icount := rfl
@[simp] theorem configured_isOpen (s : State) (irq : Bool) (l : List (Reg × Word)) (mode : Word) :
    (s.configured irq l mode).isOpen = s.isOpen := rfl
@[simp] theorem configured_port (s : State) (irq : Bool) (l : List (Reg × Word)) (mode : Word) :
    (s.configured irq l mode).port = s.port := rfl

/-- The program of CONFIGURE alone (R149). -/
theorem runAlone_configure {irq : Bool} {peak : Option (Word × Word)} {cfgbits offset count delay : Word} {s : State}
    (ha : s.attached = true) (hv : s.params.valid = true) :
    runAlone (captureSetup s.params peak cfgbits offset count delay
        ++ if irq then armIrq s.params else disarmIrq s.params) s =
      .next (s.configured irq (captureWrites s.params peak offset count delay) (merge s.cfg cfgbits s.params.confMask)) := by
  rw [captureSetup_eq, runAlone_modeProgram ha captureWrites_storage (.merges rfl), State.configured]
  generalize hu : s.setMode _ _ = u
  have hp : u.params = s.params := by rw [← hu, setMode_params]
  rw [← hp]
  exact runAlone_interrupt irq (by rw [← hu, setMode_attached, ha]) (by rw [hp, hv])

/-- In capacity CONFIGURE runs its program (R143, R149). -/
theorem exec_configure {irq : Bool} {peak : Option (Word × Word)} {cfgbits offset count delay : Word} {s : State}
    (hfit : offset.toNat + count.toNat * s.params.sampleWidth ≤ s.params.bufLen) :
    exec (.configure irq peak cfgbits offset count delay) s =
      runCommand (.configure irq peak cfgbits offset count delay)
        (captureSetup s.params peak cfgbits offset count delay
          ++ if irq then armIrq s.params else disarmIrq s.params) s :=
  runPlan_of (if_neg (by simp [overCapacity_of_fits hfit])) rfl

/-- The counter of a valid configuration fits its register (R7, R22). -/
theorem valid_icountW {p : Params} (h : p.valid = true) : p.icountW ≤ 32 := by
  simp only [Params.valid, Bool.and_eq_true, decide_eq_true_eq] at h
  tauto

/-- A command that ends with ArmIrq or DisarmIrq, whatever the schedule: every handler run that began before its writes
of INT_CTRL has ended before them, and IRQ records nothing from the first to the last of them (R150, R215). -/
theorem runCommand_locked {i : Instr} {pre : List Micro} {l : List Word} {base : Nat} {s t : State} (h : CanRun s)
    (hv : s.params.valid = true) (hp : ∀ op ∈ pre, op.locks = false ∧ ¬ ∃ place pred n g, op = .poll place pred n g)
    (hc : CountsRuns base s)
    (hr : runCommand i (pre ++ .acquireI :: (l.map (.write .intCtrl) ++ [.releaseI])) s = .next t) :
    ∃ before mid after, t.hist = s.hist ++ before ++ mid ++ after ∧
      cmdTrace mid = cmdWrites s.params (l.map fun v => (.intCtrl, v)) ∧ (∀ e ∈ mid, e.byIrq = false) ∧
      handlerEntries (s.hist ++ before) = handlerRuns (s.hist ++ before) ∧ CountsRuns base t := by
  have hstart : (startCommand i s).hist = s.hist ++ [.accept i.header] := rfl
  obtain ⟨before, mid, after, hh, hm, hq, he, hct⟩ := runOps_locked (s := startCommand i s)
    ⟨h.attached, by simp, h.lock.1, by simpa using h.lock.2⟩ hp (valid_icountW hv)
    ((startCommand_kept (O := []) (w := false) i s).runs base (valid_icountW hv) hc) hr
  rw [hstart, List.append_assoc s.hist] at hh he
  exact ⟨_, mid, after, hh, hm, hq, he, hct⟩

/-- The setup of CONFIGURE takes no lock and polls nothing. -/
theorem captureSetup_plain {p : Params} {peak : Option (Word × Word)} {cfgbits offset count delay : Word} :
    ∀ op ∈ captureSetup p peak cfgbits offset count delay,
      op.locks = false ∧ ¬ ∃ place pred n g, op = .poll place pred n g := by
  intro op ho
  rw [captureSetup_eq] at ho
  rcases mem_modeProgram captureWrites_storage ho with rfl | ⟨r, v, -, rfl⟩
  · exact ⟨rfl, by rintro ⟨_, _, _, _, h⟩; cases h⟩
  · exact ⟨rfl, by rintro ⟨_, _, _, _, h⟩; cases h⟩

/-- Settles O23: the program alone under any calm schedule, and its last part under ILOCK. -/
theorem configureResult : Obligations.ConfigureResult := by
  unfold Obligations.ConfigureResult
  intro irq peak cfgbits offset count delay s h hv hfit p bound mode w ints
  have hw : captureWrites p peak offset count delay ++ [(.modeConfig, mode)] = w := by cases peak <;> rfl
  have hints : ((interruptCommands p irq).map fun v => (Reg.intCtrl, v)) = ints := by cases irq <;> rfl
  have hprog := programOf_configure (irq := irq) (peak := peak) (cfgbits := cfgbits) (offset := offset) (count := count)
    (delay := delay) (p := p)
  have hrun := runAlone_configure (irq := irq) (peak := peak) (cfgbits := cfgbits) (offset := offset) (count := count)
    (delay := delay) (s := startCommand (.configure irq peak cfgbits offset count delay) s) h.attached hv
  obtain ⟨t, ht, hans, hregs, hcfg, -, -, hkept⟩ := command_result (words := []) (code := .ok)
    (txns := cmdWrites p (w ++ ints)) h (hprog.view rfl) hprog.bracketed hrun
    (trace_of_hist (by rw [configured_hist, ← hw, ← hints]; rfl) (cmdTrace_cmdWrites _ _)) rfl (fun _ => rfl)
    (fun _ => rfl) (by simp) (by simp)
  refine ⟨t, (exec_configure hfit).trans ht, hans, hcfg, hregs.trans (by rw [configured_regs, ← hw]; rfl),
    fun hs hl => ?_, fun base hc => ?_⟩
  · obtain ⟨hopen, hport, hcount, hlock, hphase, hen, hpend⟩ := hkept hs hl
    simp [hen, hpend, hcount, hphase, hlock, hopen, hport]
  · rw [interruptProgram_eq] at ht
    rw [← hints]
    exact runCommand_locked h hv captureSetup_plain hc ht

end Sys2Proof.Machine
end

section
/-! CFG and MODE_CONFIG (spec/10_state.md R21, spec/42_capture_dma.md R141, R155): every `WriteCfg` makes them equal, and no
other step writes either of them, but for a DEBUG.WR of MODE_CONFIG and an attach, which sets both. -/

namespace Sys2Proof.Machine

/-- MODE_CONFIG holds what CFG holds (R141, R155). -/
def State.Mirrored (s : State) : Prop := s.stored .modeConfig = some s.cfg

/-- CFG, the stored words and the offsets are all it depends on. -/
theorem State.Mirrored.of_eq {s t : State} (h : s.Mirrored) (hp : t.params = s.params) (hr : t.regs = s.regs)
    (hc : t.cfg = s.cfg) : t.Mirrored := by
  unfold State.Mirrored State.stored at h ⊢
  rw [hp, hr, hc, h]

theorem OthersOnly.mirrored {s t : State} (ho : OthersOnly s t) (h : s.Mirrored) : t.Mirrored :=
  h.of_eq ho.view.params ho.view.regs ho.view.cfg

/-- The word at `o` lies apart from MODE_CONFIG. -/
def ApartFromMode (p : Params) (o : Nat) : Prop := p.off .modeConfig + 4 ≤ o ∨ o + 4 ≤ p.off .modeConfig

/-- A word is its four bytes (R58, R61). -/
theorem loadWord_of_bytes {m n : Memory} {o : Nat} (h : ∀ j, j < 4 → Memory.byteAt m (o + j) = Memory.byteAt n (o + j)) :
    Memory.loadWord m o = Memory.loadWord n o := by
  have h0 : Memory.byteAt m o = Memory.byteAt n o := h 0 (by decide)
  unfold Memory.loadWord
  rw [h0, h 1 (by decide), h 2 (by decide), h 3 (by decide)]

/-- What stores only apart from MODE_CONFIG, and leaves CFG, keeps the two equal. -/
theorem Kept.mirrored {O : List Nat} {s t : State} (hk : Kept O false s t) (hO : ∀ o ∈ O, ApartFromMode s.params o)
    (h : s.Mirrored) : t.Mirrored := by
  have hload : Memory.loadWord t.regs (s.params.off .modeConfig) = Memory.loadWord s.regs (s.params.off .modeConfig) :=
    loadWord_of_bytes fun j hj => hk.bytes _ fun o ho => by rcases hO o ho with h | h <;> omega
  unfold State.Mirrored State.stored at h ⊢
  rw [hk.params, hk.cfg rfl, hload, h]

/-! Micro-programs. -/

/-- A micro-operation that writes CFG together with MODE_CONFIG, or stores only apart from it. -/
def Micro.sparesMode (p : Params) (op : Micro) : Prop := op.setsCfg = true ∨ ∀ o ∈ op.storesAt p, ApartFromMode p o

/-- `WriteCfg` makes the two equal (R141). -/
theorem microOp_setsCfg_mirrored {op : Micro} {s t : State} (hs : op.setsCfg = true) (h : microOp op s = .next t) :
    t.Mirrored := by
  have hwrite : ∀ v, regWrite .cmd .modeConfig v { s with cfg := v } = .next t → t.Mirrored := by
    intro v hv
    obtain ⟨ha, -⟩ := regWrite_cases hv
    rw [regWrite_storage ha rfl] at hv
    cases hv
    exact loadWord_storeWord _ _ _
  cases op with
  | overwriteCfg v => exact hwrite v h
  | mergeCfg m mask => exact hwrite _ h
  | _ => cases hs

theorem runOp_mirrored {b go : Bool} {op : Micro} {rest : List Micro} {s t : State} (hu : Under b s)
    (htodo : s.todo = op :: rest) (ha : op.allowed b = true) (hspares : op.sparesMode s.params) (h : s.Mirrored)
    (hr : runOp op s = .next (t, go)) : t.Mirrored := by
  cases hs : op.setsCfg with
  | false =>
    obtain ⟨hk, -⟩ := runOp_kept (O := op.storesAt s.params) (w := false) hu htodo
      ⟨fun o ho => ho, fun hc => by rw [hs] at hc; cases hc⟩ ha hr
    exact hk.mirrored (hspares.resolve_left (by simp [hs])) h
  | true =>
    have hn : ¬ ∃ place pred n g, op = .poll place pred n g := by rintro ⟨_, _, _, _, rfl⟩; cases hs
    rw [runOp_atomic hn] at hr
    obtain ⟨u, -, hr⟩ := andThen_eq_next.mp hr
    obtain ⟨v, hv, hr⟩ := andThen_eq_next.mp hr
    cases hr
    exact (microOp_setsCfg_mirrored hs hv).of_eq rfl rfl rfl

theorem finish_mirrored {b : Bool} {s t : State} (hu : Under b s) (h : s.Mirrored) (hf : finish s = .next t) :
    t.Mirrored := by
  obtain ⟨u, hc, he⟩ := andThen_eq_next.mp hf
  cases he
  obtain ⟨ho, -⟩ := toCmd_others (s := s.withTodo []) hu.attached hu.busy hc
  exact (ho.mirrored (h.of_eq rfl rfl rfl)).of_eq rfl rfl rfl

/-- Whatever the schedule, a micro-program that stores only apart from MODE_CONFIG, but for `WriteCfg`, keeps the two
equal. -/
theorem runOps_mirrored {b : Bool} {prog : List Micro} {s t : State} (hu : Under b s) (hb : bracketed b prog = true)
    (hspares : ∀ op ∈ prog, op.sparesMode s.params) (h : s.Mirrored) (hr : runOps prog s = .next t) : t.Mirrored := by
  induction prog generalizing b s with
  | nil => exact finish_mirrored hu h hr
  | cons op rest ih =>
    obtain ⟨ha, hb', -⟩ := bracketed_cons hb
    obtain ⟨⟨u, go⟩, hop, hrest⟩ := andThen_eq_next.mp hr
    have hu' : Under b (s.withTodo (op :: rest)) := ⟨hu.attached, hu.busy, hu.lockIrq, hu.lockCmd⟩
    have hm : u.Mirrored := runOp_mirrored hu' rfl ha (hspares op (by simp)) (h.of_eq rfl rfl rfl) hop
    obtain ⟨hk, hnext⟩ := runOp_kept (O := op.storesAt s.params) (w := true) hu' rfl ⟨fun o ho => ho, fun _ => rfl⟩ ha hop
    cases go with
    | true => exact ih hnext hb' (fun o ho => by rw [hk.params]; exact hspares o (by simp [ho])) hm hrest
    | false => exact finish_mirrored hnext hm hrest

/-! Commands. -/

/-- A register of the map that stores words, other than MODE_CONFIG, lies apart from it (R7). -/
theorem apart_of_register {p : Params} {r : Reg} (hv : p.valid = true) (hr : r ∈ p.registers)
    (hk : r.kind = .storage) (hne : r ≠ .modeConfig) : ApartFromMode p (p.off r) :=
  valid_apart hv (by simp [Params.registers, baseRegs]) hr (Ne.symm hne) ⟨by simp, by rintro rfl; cases hk⟩

/-- A write of such a register spares MODE_CONFIG; so does a write of a register that stores no words. -/
theorem write_sparesMode {p : Params} {r : Reg} {v : Word} (hv : p.valid = true)
    (hr : r.kind = .storage → r ∈ p.registers ∧ r ≠ .modeConfig) : (Micro.write r v).sparesMode p := by
  refine .inr fun o ho => ?_
  simp only [Micro.storesAt] at ho
  split at ho
  · rename_i hk
    rw [List.mem_singleton.mp ho]
    exact apart_of_register hv (hr hk).1 hk (hr hk).2
  · cases ho

/-- A storage register that an offset names is one of the map (R33, R54). -/
theorem regAt_mem_registers {p : Params} {o : Nat} (hk : (p.regAt o).kind = .storage) : p.regAt o ∈ p.registers := by
  unfold Params.regAt at hk ⊢
  cases hf : p.registers.find? (fun r => p.off r == o) with
  | some r => exact List.mem_of_find?_eq_some hf
  | none =>
    rw [hf] at hk
    simp only at hk
    split at hk <;> cases hk

/-- Is the micro-operation no write at all: a read, an emit, a lock operation, a delay or a poll? -/
def Micro.writeFree : Micro → Bool
  | .write _ _ => false
  | .overwriteCfg _ => false
  | .mergeCfg _ _ => false
  | _ => true

theorem Micro.writeFree.sparesMode {op : Micro} {p : Params} (h : op.writeFree = true) : op.sparesMode p := by
  cases op with
  | write r v => cases h
  | overwriteCfg v => cases h
  | mergeCfg m mask => cases h
  | _ => exact .inr nofun

theorem readAndEmit_writeFree {op : Micro} {l : List (Reg × Word)} {i : Nat} (h : op ∈ readAndEmit i l) :
    op.writeFree = true := by
  rcases mem_readAndEmit h with ⟨x, -, rfl⟩ | ⟨j, rfl⟩ <;> rfl

/-- A write of a register that every variant has, other than MODE_CONFIG. -/
theorem write_sparesMode_base {p : Params} {r : Reg} {v : Word} (hv : p.valid = true) (hr : r ∈ baseRegs)
    (hne : r ≠ .modeConfig) : (Micro.write r v).sparesMode p :=
  write_sparesMode hv fun _ => ⟨by simp [Params.registers, hr], hne⟩

/-- Storage writes and one of CFG. -/
theorem modeProgram_sparesMode {p : Params} {l : List (Reg × Word)} {op : Micro} (hv : p.valid = true)
    (hl : ∀ x ∈ l, x.1 ∈ baseRegs ∧ x.1 ≠ .modeConfig) (hop : op.setsCfg = true) :
    ∀ o ∈ modeProgram l op, o.sparesMode p := by
  intro o ho
  rcases List.mem_append.mp ho with ho | ho
  · obtain ⟨x, hx, rfl⟩ := List.mem_map.mp ho
    exact write_sparesMode_base hv (hl x hx).1 (hl x hx).2
  · rw [List.mem_singleton.mp ho]
    exact .inl hop

/-- The program of CONFIGURE: its setup, and the writes of INT_CTRL, which stores no word. -/
theorem configure_sparesMode {p : Params} {irq : Bool} {peak : Option (Word × Word)}
    {cfgbits offset count delay : Word} (hv : p.valid = true) :
    ∀ op ∈ captureSetup p peak cfgbits offset count delay ++ (if irq then armIrq p else disarmIrq p), op.sparesMode p := by
  intro op ho
  rw [interruptProgram_eq, captureSetup_eq] at ho
  simp only [List.mem_append, List.mem_cons, List.mem_map, List.not_mem_nil, or_false] at ho
  rcases ho with ho | rfl | ⟨v, -, rfl⟩ | rfl
  · exact modeProgram_sparesMode hv (by simp [captureWrites, baseRegs]) rfl op ho
  · exact Micro.writeFree.sparesMode rfl
  · exact write_sparesMode_base hv (by simp [baseRegs]) (by simp)
  · exact Micro.writeFree.sparesMode rfl

theorem selfTest_sparesMode {p : Params} {size : Word} (hv : p.valid = true) :
    ∀ op ∈ selfTestProgram p size, op.sparesMode p := by
  intro op ho
  simp only [selfTestProgram, List.mem_append, List.mem_cons] at ho
  rcases ho with ho | rfl | ho
  · exact modeProgram_sparesMode hv (by simp [selfTestWrites, baseRegs]) rfl op ho
  · exact Micro.writeFree.sparesMode rfl
  · exact modeProgram_sparesMode hv (by simp) rfl op ho

theorem batch_sparesMode {p : Params} {dir : Dir} {used : List Entry} (hv : p.valid = true) :
    ∀ op ∈ batchProgram p dir used, op.sparesMode p := by
  intro op ho
  rcases mem_batchProgram ho with ⟨_, rfl⟩ | ⟨-, _, rfl | rfl | rfl⟩ | ⟨-, _, _, rfl⟩ | rfl | ⟨_, rfl⟩
  · exact Micro.writeFree.sparesMode rfl
  · exact write_sparesMode_base hv (by simp [baseRegs]) (by simp)
  · exact write_sparesMode_base hv (by simp [baseRegs]) (by simp)
  · exact write_sparesMode_base hv (by simp [baseRegs]) (by simp)
  · exact write_sparesMode hv nofun
  · exact Micro.writeFree.sparesMode rfl
  · exact Micro.writeFree.sparesMode rfl

/-- The program of TAP_WRITE for a device that the variant has (R178). -/
theorem tapWrite_sparesMode {p : Params} {d : Nat} {v0 v1 v : Word} (hv : p.valid = true) (htap : p.hasTapCal = true)
    (hd : d < p.tapDevMax) :
    ∀ op ∈ [Micro.write (.tap0 d) v0, .write (.tap1 d) v1, .delay .settleBefore, .write .tapLoad v, .write .tapLoad 0,
      .delay .settleAfter], op.sparesMode p := by
  have hload : ∀ w, (Micro.write .tapLoad w).sparesMode p := fun w =>
    write_sparesMode_base hv (by simp [baseRegs]) (by simp)
  simp only [List.forall_mem_cons, List.not_mem_nil, false_implies, implies_true, and_true]
  exact ⟨write_sparesMode hv fun _ => ⟨by simp [Params.registers, htap, hd], by simp⟩,
    write_sparesMode hv fun _ => ⟨by simp [Params.registers, htap, hd], by simp⟩, Micro.writeFree.sparesMode rfl,
    hload v, hload 0, Micro.writeFree.sparesMode rfl⟩

/-- Every command but a DEBUG.WR of MODE_CONFIG stores only apart from MODE_CONFIG, but for `WriteCfg`. -/
theorem planOf_sparesMode {i : Instr} {p : Params} {prog : List Micro} (hv : p.valid = true)
    (hi : ∀ roff data, i = .debugWr roff data → p.regAt roff.toNat ≠ .modeConfig) (h : planOf i p = .run prog) :
    ∀ op ∈ prog, op.sparesMode p := by
  have hreads : ∀ l, ∀ op ∈ readAndEmit 0 l, op.sparesMode p := fun l op ho =>
    Micro.writeFree.sparesMode (readAndEmit_writeFree ho)
  cases i with
  | resetFull => cases h; exact modeProgram_sparesMode (l := []) hv (by simp) rfl
  | resetClear => cases h; exact modeProgram_sparesMode (l := []) hv (by simp) rfl
  | configure irq peak cfgbits offset count delay =>
    simp only [planOf, planConfigure] at h
    split at h
    · cases h
    · cases h; exact configure_sparesMode hv
  | runScan cfgbits offset count =>
    simp only [planOf, planRunScan] at h
    split at h <;> cases h
    exact modeProgram_sparesMode (l := [(.dmaRdAddr, _), (.dmaSize, _)]) hv (by simp [baseRegs]) rfl
  | dmaSelfTest size =>
    simp only [planOf, planDmaSelfTest] at h
    split at h <;> cases h
    exact selfTest_sparesMode hv
  | triggerPps value =>
    simp only [planOf, planTriggerPps] at h
    split at h <;> cases h
    exact modeProgram_sparesMode (l := []) hv (by simp) rfl
  | seqBus nw nr entries =>
    simp only [planOf, planSeqBus] at h
    split at h <;> cases h
    exact batch_sparesMode hv
  | readStatus => cases h; exact hreads _
  | debugRd roff data =>
    simp only [planOf, planDebugRd] at h
    split at h <;> cases h
    exact hreads _
  | debugWr roff data =>
    simp only [planOf, planDebugWr] at h
    split at h
    · split at h <;> cases h
      simpa using write_sparesMode hv fun hk => ⟨regAt_mem_registers hk, hi roff data rfl⟩
    · cases h
  | readMaxMin =>
    simp only [planOf, planReadMaxMin] at h
    split at h <;> cases h
    exact hreads _
  | tapRead devid =>
    simp only [planOf, planTapRead] at h
    split at h
    · split at h <;> cases h
      intro op ho
      simp only [List.mem_cons, List.mem_map] at ho
      rcases ho with rfl | rfl | ⟨j, -, rfl⟩ <;> exact Micro.writeFree.sparesMode rfl
    · cases h
  | tapWrite devid taps =>
    simp only [planOf, planTapWrite] at h
    split at h
    · rename_i htap
      split at h
      · cases h
      · rename_i hbad
        cases h
        simp only [Bool.or_eq_true, badDevice, decide_eq_true_eq, not_or, Nat.not_le] at hbad
        exact tapWrite_sparesMode hv htap hbad.1
    · cases h
  | readWindow len =>
    simp only [planOf, planReadWindow] at h
    split at h
    · cases h
    · split at h <;> cases h
      exact hreads _
  | completionCount =>
    cases h
    intro op ho
    simp only [List.mem_cons, List.not_mem_nil, or_false] at ho
    rcases ho with rfl | rfl | rfl <;> exact Micro.writeFree.sparesMode rfl

/-- A command that answers, whatever the schedule. -/
theorem exec_mirrored {i : Instr} {s t : State} (hv : s.params.valid = true) (ha : s.attached = true)
    (hl : s.lockRests) (hi : ∀ roff data, i = .debugWr roff data → s.params.regAt roff.toNat ≠ .modeConfig)
    (h : s.Mirrored) (hx : exec i s = .next t) : t.Mirrored := by
  rw [exec_eq_runPlan] at hx
  cases hp : planOf i s.params with
  | run prog =>
    rw [hp] at hx
    exact runOps_mirrored (s := startCommand i s) ⟨ha, by simp, hl.1, by simpa using hl.2⟩ (planOf_bracketed hp)
      (planOf_sparesMode hv hi hp) (h.of_eq rfl rfl rfl) hx
  | turnAway code => rw [hp] at hx; cases hx; exact h.of_eq rfl rfl rfl
  | fault why => rw [hp] at hx; cases hx
  | refuse why => rw [hp] at hx; cases hx

/-! Steps. -/

/-- CMD's turn: a command at the port, or what writes no register. -/
theorem cmdTurn_mirrored {s t : State} (hv : s.params.valid = true) (hl : s.lockRests)
    (hi : ∀ roff data rest, s.fetch = .command (.debugWr roff data) rest → s.params.regAt roff.toNat ≠ .modeConfig)
    (h : s.Mirrored) (hx : cmdTurn s = .next t) : t.Mirrored := by
  rcases takeCommand_cases hx with ⟨-, rfl⟩ | ⟨-, header, code, port, -, rfl⟩ | ⟨-, port, rfl⟩ | ⟨hm, i, port, hf, hx⟩
  · exact h.of_eq rfl rfl rfl
  · exact h.of_eq rfl rfl rfl
  · exact h.of_eq rfl rfl rfl
  · exact exec_mirrored (s := { s with port := port }) hv (mayAccept_iff.mp hm).1 hl
      (fun roff data he => hi roff data port (he ▸ hf)) (h.of_eq rfl rfl rfl) hx

/-- An attach sets both to 0 (R240 step 3, R242). -/
theorem attachStep_mirrored {p : Params} {al : Bool} {s t : State} (h : s.Mirrored) (hx : attachStep p al s = .next t) :
    t.Mirrored := by
  obtain ⟨-, ⟨-, rfl⟩ | ⟨-, en, pend, rfl⟩⟩ := attachStep_next hx
  · exact h.of_eq rfl rfl rfl
  · exact loadWord_storeWord _ _ _

/-- HOST's events: an attach, or what writes no register. -/
theorem hostStep_mirrored {e : HostEvent} {s t : State} (h : s.Mirrored) (hx : hostStep e s = .next t) : t.Mirrored := by
  cases e with
  | attach p al =>
    simp only [hostStep] at hx
    split at hx
    · cases hx; exact h
    · exact attachStep_mirrored h hx
  | openSession =>
    simp only [hostStep, openStep] at hx
    split at hx
    · split at hx <;> cases hx <;> exact h.of_eq rfl rfl rfl
    · cases hx; exact h
  | closeSession => simp only [hostStep] at hx; split at hx <;> cases hx <;> exact h.of_eq rfl rfl rfl
  | detach =>
    simp only [hostStep, detachStep] at hx
    split at hx
    · split at hx <;> cases hx; exact h.of_eq rfl rfl rfl
    · cases hx; exact h
  | submit words => cases hx; exact h.of_eq rfl rfl rfl
  | refuseResult => cases hx; exact h.of_eq rfl rfl rfl

/-- Settles O58, by whose turn the step is. -/
theorem cacheMirrorsRegister : Obligations.CacheMirrorsRegister := by
  unfold Obligations.CacheMirrorsRegister
  intro s t hinv hm hi hx
  have h : s.Mirrored := hm
  have hsched : ∀ l, State.Mirrored { s with sched := l } := fun l => h.of_eq rfl rfl rfl
  show t.Mirrored
  rcases step_turns hinv.seq hx with rfl | hc | hirq | ⟨l, hc | hirq | rfl | ⟨e, he⟩⟩
  · exact h
  · exact cmdTurn_mirrored hinv.params hinv.lock hi h hc
  · exact (irqStep_others hirq).mirrored h
  · exact cmdTurn_mirrored (s := { s with sched := l }) hinv.params hinv.lock hi (hsched l) hc
  · exact (irqStep_others hirq).mirrored (hsched l)
  · exact (devComplete_others _).mirrored (hsched l)
  · exact hostStep_mirrored (hsched l) he

end Sys2Proof.Machine
end

section
/-! The operands that stop DEBUG.RD, DEBUG.WR and READ_WINDOW (spec/43_session.md R171, R172, R174, spec/20_memory.md
R63): what stands at an offset decides. -/

namespace Sys2Proof.Machine

/-- A good offset is a multiple of 4 below REG_SPACE (R63). -/
theorem goodOffset_iff {p : Params} {o : Nat} : p.goodOffset o = true ↔ o % 4 = 0 ∧ o < p.regSpace := by
  simp [Params.goodOffset]

/-- DEBUG.RD of an offset that is not good faults (R171). -/
theorem exec_debugRd_badOffset {roff data : Word} {s : State} (h : ¬ s.params.goodOffset roff.toNat = true) :
    exec (.debugRd roff data) s = .fault (.badRegOffset roff.toNat) :=
  runPlan_of (if_neg h) rfl

/-- DEBUG.WR of an offset that is not good faults (R172). -/
theorem exec_debugWr_badOffset {roff data : Word} {s : State} (h : ¬ s.params.goodOffset roff.toNat = true) :
    exec (.debugWr roff data) s = .fault (.badRegOffset roff.toNat) :=
  runPlan_of (if_neg h) rfl

/-- DEBUG.WR that a refusal meets is refused (R172). -/
theorem exec_debugWr_refused {roff data : Word} {why : Refusal} {s : State}
    (hg : s.params.goodOffset roff.toNat = true)
    (hd : debugWriteRefusal s.params (s.params.regAt roff.toNat) data = some why) :
    exec (.debugWr roff data) s = .refused why :=
  runPlan_of ((if_pos hg).trans (by rw [hd])) rfl

/-- A register that DEBUG.WR may not write, whatever the word is (R34, R172). -/
def Reg.readOnly (r : Reg) : Prop := r.kind = .deviceDriven ∨ r.kind = .unassigned

theorem debugWriteRefusal_readOnly {p : Params} {r : Reg} {data : Word} (h : Reg.readOnly r) :
    debugWriteRefusal p r data = some (.writeToReadOnly (p.off r)) := by
  unfold debugWriteRefusal
  rcases h with h | h <;> rw [h]

/-- DEBUG.WR of an offset at which such a register stands is refused (R172). -/
theorem exec_debugWr_readOnly {roff data : Word} {s : State} (hg : s.params.goodOffset roff.toNat = true)
    (h : Reg.readOnly (s.params.regAt roff.toNat)) :
    exec (.debugWr roff data) s = .refused (.writeToReadOnly roff.toNat) := by
  have hd := debugWriteRefusal_readOnly (p := s.params) (data := data) h
  rw [off_regAt] at hd
  exact exec_debugWr_refused hg hd

/-- DEBUG.WR of INT_CTRL with a word that is none of its three commands is refused (R41, R172). -/
theorem debugWriteRefusal_intCtrl {p : Params} {data : Word} (he : data ≠ p.intEnable) (hd : data ≠ p.intDisable)
    (hc : data ≠ p.intClear) : debugWriteRefusal p .intCtrl data = some (.badIntCtrlValue data) :=
  if_neg (by simp [isIntCommand, he, hd, hc])

/-! What stands at an offset. -/

/-- At an offset of no register stands a word of the window or nothing (R53, R54). -/
theorem regAt_readOnly_of_no_register {p : Params} {o : Nat} (h : ∀ r ∈ p.registers, o ≠ p.off r) :
    Reg.readOnly (p.regAt o) := by
  have hf : p.registers.find? (fun r => p.off r == o) = none :=
    List.find?_eq_none.mpr fun r hr => by simpa using Ne.symm (h r hr)
  unfold Params.regAt
  rw [hf]
  by_cases hw : p.inWindow o = true
  · exact .inl (by rw [if_pos hw]; rfl)
  · exact .inr (by rw [if_neg hw]; rfl)

/-- At the offset of a device-driven register stands one that DEBUG.WR may not write, except where SPI_RESULT shares the
offset of SPI_DATA (R49; log 13). -/
theorem regAt_off_readOnly {p : Params} (hv : p.valid = true) {r : Reg} (hr : r ∈ p.registers)
    (hk : r.kind = .deviceDriven) (hs : r = .spiResult → p.off .spiResult ≠ p.off .spiData) :
    Reg.readOnly (p.regAt (p.off r)) := by
  rcases regAt_off hv hr with he | ⟨rfl, he⟩
  · exact .inl (he.symm ▸ hk)
  · have ho := off_regAt p (p.off .spiResult)
    rw [he] at ho
    exact absurd ho.symm (hs rfl)

/-- The device-driven registers of a variant (R33). -/
theorem status_mem (p : Params) : Reg.status ∈ p.registers := by simp [Params.registers, baseRegs]
theorem spiResult_mem (p : Params) : Reg.spiResult ∈ p.registers := by simp [Params.registers, baseRegs]
theorem maxMin_mem {p : Params} (h : p.hasMaxMin = true) {i : Nat} (hi : i < 12) :
    Reg.maxMin i ∈ p.registers := by simp [Params.registers, h, hi]

/-- No register of a valid configuration lies in the window (R7). -/
theorem off_ne_of_inWindow {p : Params} (hv : p.valid = true) {o : Nat} (hw : p.inWindow o = true) :
    ∀ r ∈ p.registers, o ≠ p.off r := by
  obtain ⟨-, -, -, hout⟩ := valid_map hv
  rintro r hr rfl
  simp [hout r hr] at hw

/-- Settles O12: the offset is good or not, and what stands at it takes writes or not. -/
theorem operandsThatStop : Obligations.OperandsThatStop := by
  unfold Obligations.OperandsThatStop
  intro s roff data
  refine ⟨fun hbad => ?_, fun h4 hlt => ?_, fun hv h4 hlt hat => ?_, fun len hle h4 => ?_⟩
  · have hg : ¬ s.params.goodOffset roff.toNat = true := fun h => by
      obtain ⟨h4, hlt⟩ := goodOffset_iff.mp h
      omega
    exact ⟨exec_debugRd_badOffset hg, exec_debugWr_badOffset hg⟩
  · have hg := goodOffset_iff.mpr ⟨h4, hlt⟩
    exact ⟨exec_debugWr_readOnly hg, fun hr he hd hc =>
      exec_debugWr_refused hg (by rw [hr]; exact debugWriteRefusal_intCtrl he hd hc)⟩
  · refine exec_debugWr_readOnly (goodOffset_iff.mpr ⟨h4, hlt⟩) ?_
    rcases hat with ho | ⟨ho, hne⟩ | ⟨hm, i, hi, ho⟩ | hw | hnone
    · rw [ho]; exact regAt_off_readOnly hv (status_mem _) rfl nofun
    · rw [ho]; exact regAt_off_readOnly hv (spiResult_mem _) rfl fun _ => hne
    · rw [ho]; exact regAt_off_readOnly hv (maxMin_mem hm hi) rfl nofun
    · exact regAt_readOnly_of_no_register (off_ne_of_inWindow hv (by simpa [Params.inWindow] using hw))
    · exact regAt_readOnly_of_no_register hnone
  · exact runPlan_of ((if_neg (Nat.not_lt.mpr hle)).trans (if_pos h4)) rfl

end Sys2Proof.Machine
end

section
/-! Tap packing (spec/43_session.md R176): the packed words hold the taps as hexadecimal digits, and unpacking takes a digit
out again. -/

namespace Sys2Proof.Machine

/-- The number whose hexadecimal digits are `d 0` to `d (n - 1)`, the lowest first. -/
def nibbleSum (d : Nat → Nat) (n : Nat) : Nat := ((List.range n).map fun i => d i * 16 ^ i).sum

/-- The lowest digit and the rest. -/
theorem nibbleSum_succ (d : Nat → Nat) (n : Nat) :
    nibbleSum d (n + 1) = d 0 + 16 * nibbleSum (fun i => d (i + 1)) n := by
  have hterm : ∀ i, d (i + 1) * 16 ^ (i + 1) = 16 * (d (i + 1) * 16 ^ i) := fun i => by ring
  simp [nibbleSum, List.range_succ_eq_map, Function.comp_def, hterm, List.sum_map_mul_left]

theorem nibbleSum_lt {d : Nat → Nat} {n : Nat} (h : ∀ i, i < n → d i < 16) : nibbleSum d n < 16 ^ n := by
  induction n generalizing d with
  | zero => simp [nibbleSum]
  | succ n ih =>
    have hlow := h 0 (by omega)
    have hrest := ih (d := fun i => d (i + 1)) fun i hi => h (i + 1) (by omega)
    rw [nibbleSum_succ, pow_succ]
    omega

/-- Digit `k` of the number, 0 beyond its digits. -/
theorem nibbleSum_digit {d : Nat → Nat} {n : Nat} (h : ∀ i, i < n → d i < 16) (k : Nat) :
    nibbleSum d n / 16 ^ k % 16 = if k < n then d k else 0 := by
  induction n generalizing d k with
  | zero => simp [nibbleSum]
  | succ n ih =>
    have hlow := h 0 (by omega)
    rw [nibbleSum_succ]
    cases k with
    | zero => simp only [pow_zero, Nat.div_one, Nat.zero_lt_succ, if_true]; omega
    | succ k =>
      have hdrop : (d 0 + 16 * nibbleSum (fun i => d (i + 1)) n) / 16 = nibbleSum (fun i => d (i + 1)) n := by omega
      rw [pow_succ', ← Nat.div_div_eq_div_mul, hdrop, ih fun i hi => h (i + 1) (by omega)]
      simp

/-- A packed word of at most eight taps is the number of their digits (R176). -/
theorem packTaps_toNat {taps : List Word} {lo n : Nat} (hn : n ≤ 8) (h : ∀ i, i < n → (taps.getD (lo + i) 0).toNat < 16) :
    (packTaps taps lo n).toNat = nibbleSum (fun i => (taps.getD (lo + i) 0).toNat) n := by
  have hlt := nibbleSum_lt (d := fun i => (taps.getD (lo + i) 0).toNat) h
  have hpow : 16 ^ n ≤ 16 ^ 8 := Nat.pow_le_pow_right (by decide) hn
  exact Nat.mod_eq_of_lt (lt_of_lt_of_le hlt hpow)

/-- A nibble of a word, as a number. -/
theorem nibble_toNat (w : Word) (k : Nat) : ((w >>> (4 * k)) &&& 0xF).toNat = w.toNat / 16 ^ k % 16 := by
  have hmask : ∀ x : Nat, x &&& 15 = x % 16 := fun x => Nat.and_two_pow_sub_one_eq_mod x 4
  rw [BitVec.toNat_and, BitVec.toNat_ushiftRight, Nat.shiftRight_eq_div_pow, pow_mul]
  exact hmask _

/-- A nibble of a packed word is its tap, 0 where there is none (R176). -/
theorem packTaps_nibble {taps : List Word} {lo n : Nat} (hn : n ≤ 8)
    (h : ∀ i, i < n → (taps.getD (lo + i) 0).toNat < 16) (k : Nat) :
    (packTaps taps lo n >>> (4 * k)) &&& 0xF = if k < n then taps.getD (lo + k) 0 else 0 := by
  refine BitVec.eq_of_toNat_eq ?_
  rw [nibble_toNat, packTaps_toNat hn h, nibbleSum_digit h]
  split <;> rfl

/-- Unpacking the packed taps: each tap in use, and 0 for the others (R176). -/
theorem unpackTap_pack {p : Params} {taps : List Word} (hn : p.ntaps ≤ 10)
    (h : ∀ i, i < p.ntaps → (taps.getD i 0).toNat < 16) {i : Nat} (hi : i < 10) :
    unpackTap (pack0 p taps) (pack1 p taps) i = if i < p.ntaps then taps.getD i 0 else 0 := by
  unfold unpackTap pack0 pack1
  by_cases h8 : i < 8
  · rw [if_pos h8, packTaps_nibble (by omega) fun j hj => h (0 + j) (by omega), Nat.zero_add]
    simp [h8]
  · rw [if_neg h8, packTaps_nibble (by omega) fun j hj => h (8 + j) (by omega), show 8 + (i - 8) = i by omega]
    exact if_congr (by omega) rfl rfl

/-- Settles O20: a nibble of a packed word is a digit of the number packed. -/
theorem tapPacking : Obligations.TapPacking := by
  unfold Obligations.TapPacking
  intro p taps hn h
  refine ⟨fun i hi => ?_, fun i hi hlt => ?_, ?_⟩
  · rw [unpackTap_pack hn h (by omega), if_pos hi]
  · rw [unpackTap_pack hn h hlt, if_neg (by omega)]
  · have hdigits : ∀ i, i < p.ntaps - 8 → (taps.getD (8 + i) 0).toNat < 16 := fun i hi => h (8 + i) (by omega)
    rw [pack1, packTaps_toNat (by omega) hdigits]
    have hpow : 16 ^ (p.ntaps - 8) ≤ 16 ^ 2 := Nat.pow_le_pow_right (by decide) (by omega)
    exact lt_of_lt_of_le (nibbleSum_lt hdigits) hpow

end Sys2Proof.Machine
end

section
/-! READ_STATUS, READ_WINDOW and READ_MAX_MIN (spec/43_session.md R170, R174, R175): device reads in a row, and the answer of
a command with words under any calm schedule. -/

namespace Sys2Proof.Machine

/-- The answer of a command that runs to an OK result with words, HOST taking them, under any calm schedule: what its
program alone emits. It sees nothing of the handler and writes no INT_CTRL, so with nothing else scheduled it leaves what
the other agents own. -/
theorem words_answer {i : Instr} {prog : List Micro} {s c : State} {txns : List Event} {words : List Word} (h : CanRun s)
    (hk : s.takesResult = true) (hx : exec i s = runCommand i prog s) (hp : ProgramOf i s.params prog)
    (hsees : i.seesIrq s.params = false) (harms : i.writesIntCtrl s.params = false)
    (hrun : runAlone prog (startCommand i s) = .next c) (hhist : c.hist = (startCommand i s).hist ++ txns)
    (hmine : cmdTrace txns = txns) (hcode : c.code = .ok) (hemit : c.emitted = words) (hn : words.length < 2 ^ 16) :
    ∃ t, exec i s = .next t ∧ Answers i txns .ok words s t ∧ t.regs = c.regs ∧ t.cfg = c.cfg ∧ t.draws = c.draws ∧
      (s.sched = [] → s.ilock = .free → OthersKept s t) := by
  obtain ⟨t, ht, hans, hregs, hcfg, hdraws, -, hkept⟩ := command_result h (hp.view hsees) hp.bracketed hrun
    (trace_of_hist hhist hmine) hcode (fun _ => hemit) (fun hne => absurd rfl hne) hn (fun _ _ => hk)
  refine ⟨t, hx.trans ht, hans, hregs, hcfg, hdraws, fun hs hl => ?_⟩
  obtain ⟨-, -, hfree⟩ := runCommand_quiet hs hl hp.bracketed hrun
  exact .of_start (runAlone_others hrun (hp.arms harms) (hfree.trans hl.symm)) (hkept hs hl)

/-! Reads of device-driven registers. -/

/-- The events of reads are CMD's. -/
theorem cmdTrace_reads (p : Params) (vs : List Word) (l : List (Reg × Word)) :
    cmdTrace (List.zipWith (fun v x => Event.read .cmd (p.off x.1) v) vs l) =
      List.zipWith (fun v x => Event.read .cmd (p.off x.1) v) vs l := by
  refine List.filter_eq_self.mpr fun e he => ?_
  obtain ⟨⟨v, x⟩, -, rfl⟩ := List.mem_map.mp (List.map_uncurry_zip_eq_zipWith.symm ▸ he)
  rfl

/-- A command that reads device-driven registers in turn and answers with the words under their masks: the words are
draws (R170, R174, R175). -/
theorem deviceReads_answer {i : Instr} {l : List (Reg × Word)} {s : State} (h : CanRun s) (hk : s.takesResult = true)
    (hx : exec i s = runCommand i (readAndEmit 0 l) s) (hdev : ∀ x ∈ l, x.1.kind = .deviceDriven)
    (hsees : i.seesIrq s.params = false) (harms : i.writesIntCtrl s.params = false) (hn : l.length < 2 ^ 16) :
    ∃ t vs, exec i s = .next t ∧ vs.length = l.length ∧
      Answers i (List.zipWith (fun v x => Event.read .cmd (s.params.off x.1) v) vs l) .ok
        (List.zipWith (fun v x => v &&& x.2) vs l) s t ∧
      Drawn vs s t ∧ t.regs = s.regs ∧ t.cfg = s.cfg ∧ (s.sched = [] → s.ilock = .free → OthersKept s t) := by
  obtain ⟨vs, d, f, hlen, hrun, hspent⟩ :=
    runAlone_reads (l := l) (rest := []) (s := startCommand i s) h.attached hdev
  rw [List.append_nil, runAlone_nil] at hrun
  have hp : ProgramOf i s.params (readAndEmit 0 l) := programOf_reads fun _ x hx' => by simp [hdev x hx']
  obtain ⟨t, ht, hans, hregs, hcfg, hdraws, hkept⟩ := words_answer h hk hx hp hsees harms hrun rfl
    (cmdTrace_reads _ _ _) rfl rfl (by simpa [hlen] using hn)
  exact ⟨t, vs, ht, hlen, hans, fun ws r hd hl => (hspent ws r hd hl).imp_right hdraws.trans, hregs, hcfg, hkept⟩

/-- A list zipped with a list over its positions. -/
theorem zipWith_range {α β γ : Type} (f : α → β → γ) (g : Nat → β) (a : α) {vs : List α} {n : Nat} (h : vs.length = n) :
    List.zipWith f vs ((List.range n).map g) = (List.range n).map fun j => f (vs.getD j a) (g j) := by
  refine List.ext_getElem (by simp [h]) fun j h1 h2 => ?_
  have hj : j < vs.length := by simp at h2; omega
  simp [hj]

/-- Settles O30: one device read. -/
theorem readStatusResult : Obligations.ReadStatusResult := by
  unfold Obligations.ReadStatusResult
  intro s h hk
  obtain ⟨t, vs, ht, hlen, hans, hdrawn, hkept⟩ :=
    deviceReads_answer (i := .readStatus) (l := [(.status, wholeWord)]) h hk rfl (by simp [Reg.kind]) rfl rfl (by simp)
  obtain ⟨v, rfl⟩ := List.length_eq_one_iff.mp hlen
  simp only [List.zipWith_cons_cons, List.zipWith_nil_right, and_wholeWord] at hans
  exact ⟨t, v, ht, hans, hdrawn, hkept⟩

/-! READ_WINDOW. -/

/-- The window words of a read of `4 * n` bytes, chunks of `4 * c` bytes: word `j` lies at `j` modulo the chunk (R174). -/
theorem windowOffsets_eq {c : Nat} (hc : 0 < c) {fuel n : Nat} (hf : n ≤ fuel) :
    windowOffsets (4 * c) fuel (4 * n) = (List.range n).map fun j => 4 * (j % c) := by
  induction fuel generalizing n with
  | zero =>
    obtain rfl : n = 0 := by omega
    rfl
  | succ fuel ih =>
    unfold windowOffsets
    rcases Nat.eq_zero_or_pos n with rfl | hn
    · rfl
    · rw [if_neg (by omega)]
      rcases Nat.lt_or_ge n c with hlt | hge
      · have hrest : 4 * n - min (4 * n) (4 * c) = 4 * 0 := by omega
        rw [show min (4 * n) (4 * c) / 4 = n by omega, hrest, ih (by omega), List.range_zero, List.map_nil, List.append_nil]
        exact List.map_congr_left fun j hj => by
          rw [Nat.mod_eq_of_lt ((List.mem_range.mp hj).trans hlt)]
      · have hrest : 4 * n - min (4 * n) (4 * c) = 4 * (n - c) := by omega
        rw [show min (4 * n) (4 * c) / 4 = c by omega, hrest, ih (by omega)]
        conv_rhs => rw [show n = c + (n - c) by omega, List.range_add, List.map_append, List.map_map]
        congr 1
        · exact List.map_congr_left fun j hj => by rw [Nat.mod_eq_of_lt (List.mem_range.mp hj)]
        · exact List.map_congr_left fun j _ => by simp

/-- A chunk of a valid configuration is a positive number of words (R7). -/
theorem valid_chunk {p : Params} (h : p.valid = true) : p.chunk % 4 = 0 ∧ 4 ≤ p.chunk := by
  simp only [Params.valid, Bool.and_eq_true, beq_iff_eq, decide_eq_true_eq] at h
  tauto

/-- The registers READ_WINDOW reads, word by word (R174). -/
theorem windowReads_eq {p : Params} {len : Word} (hv : p.valid = true) (h4 : len.toNat % 4 = 0) :
    windowReads p len = (List.range (len.toNat / 4)).map fun j => (.fifoWin (4 * (j % (p.chunk / 4))), wholeWord) := by
  obtain ⟨hc4, hc⟩ := valid_chunk hv
  have hoff := windowOffsets_eq (c := p.chunk / 4) (by omega) (show len.toNat / 4 ≤ len.toNat by omega)
  rw [show 4 * (p.chunk / 4) = p.chunk by omega, show 4 * (len.toNat / 4) = len.toNat by omega] at hoff
  rw [windowReads, hoff, List.map_map]
  rfl

/-- Settles O35: the device reads of the window. -/
theorem readWindowResult : Obligations.ReadWindowResult := by
  unfold Obligations.ReadWindowResult
  intro len s h hk hv hle h4 hn p
  have hx : exec (.readWindow len) s = runCommand (.readWindow len) (readAndEmit 0 (windowReads s.params len)) s :=
    runPlan_of ((if_neg (Nat.not_lt.mpr hle)).trans (if_neg (not_not.mpr h4))) rfl
  rw [windowReads_eq hv h4] at hx
  obtain ⟨t, vs, ht, hlen, hans, hdrawn, hkept⟩ :=
    deviceReads_answer h hk hx (by simp [Reg.kind]) rfl rfl (by simpa using hn)
  rw [List.length_map, List.length_range] at hlen
  have hwhole : (List.range (len.toNat / 4)).map (fun j => vs.getD j 0 &&& wholeWord) = vs := by
    refine List.ext_getElem (by simp [hlen]) fun j h1 h2 => ?_
    simp [h2, and_wholeWord]
  rw [zipWith_range _ _ 0 hlen, zipWith_range _ _ 0 hlen, hwhole] at hans
  exact ⟨t, vs, ht, hlen, hans, hdrawn, hkept⟩

/-! READ_MAX_MIN. -/

/-- A mask of `n` low bits cuts a word to them. -/
theorem and_lowMask (v : Word) (n : Nat) : v &&& BitVec.ofNat 32 (2 ^ n - 1) = BitVec.ofNat 32 (v.toNat % 2 ^ n) := by
  refine BitVec.eq_of_getLsbD_eq fun k hk => ?_
  simp only [BitVec.getLsbD_and, BitVec.getLsbD_ofNat, Nat.testBit_mod_two_pow, Nat.testBit_two_pow_sub_one,
    BitVec.testBit_toNat, hk, decide_true, Bool.true_and, Bool.and_comm]

/-- A word under the mask of MAXMIN(i): a value where `i` is even, a location where it is odd (R175). -/
theorem and_maxMinMask (p : Params) (v : Word) (i : Nat) :
    v &&& maxMinMask p i = BitVec.ofNat 32 (v.toNat % 2 ^ (if i % 2 = 0 then p.mmValW else p.mmLocW)) := by
  unfold maxMinMask
  by_cases hi : i % 2 = 0
  · rw [if_pos (by omega), if_pos hi, and_lowMask]
  · rw [if_neg (by omega), if_neg hi, and_lowMask]

/-- Settles O36: the twelve device reads. -/
theorem readMaxMinResult : Obligations.ReadMaxMinResult := by
  unfold Obligations.ReadMaxMinResult
  intro s h hk hm p
  have hx : exec .readMaxMin s = runCommand .readMaxMin (readAndEmit 0 (maxMinReads s.params)) s :=
    runPlan_of (if_pos hm) rfl
  obtain ⟨t, vs, ht, hlen, hans, hdrawn, hkept⟩ :=
    deviceReads_answer h hk hx (by simp [maxMinReads, Reg.kind]) rfl rfl (by simp [maxMinReads])
  have hlen : vs.length = 12 := hlen
  rw [maxMinReads, zipWith_range _ _ 0 hlen, zipWith_range _ _ 0 hlen] at hans
  simp only [and_maxMinMask] at hans
  exact ⟨t, vs, ht, hlen, hans, hdrawn, hkept⟩

end Sys2Proof.Machine
end

section
/-! DEBUG.RD and DEBUG.WR of registers other than INT_CTRL (spec/43_session.md R171 to R173): one read, fixed or a draw, and
one write. -/

namespace Sys2Proof.Machine

/-! One read, alone. -/

@[simp] theorem fetched_params (s : State) (r : Reg) (m : Word) : (s.fetched r m).params = s.params := by
  simp [State.fetched]
@[simp] theorem fetched_attached (s : State) (r : Reg) (m : Word) : (s.fetched r m).attached = s.attached := by
  simp [State.fetched]
@[simp] theorem fetched_cfg (s : State) (r : Reg) (m : Word) : (s.fetched r m).cfg = s.cfg := by simp [State.fetched]
@[simp] theorem fetched_regs (s : State) (r : Reg) (m : Word) : (s.fetched r m).regs = s.regs := by simp [State.fetched]
@[simp] theorem fetched_code (s : State) (r : Reg) (m : Word) : (s.fetched r m).code = s.code := by simp [State.fetched]
@[simp] theorem fetched_emitted (s : State) (r : Reg) (m : Word) : (s.fetched r m).emitted = s.emitted := by
  simp [State.fetched]
@[simp] theorem fetched_vals (s : State) (r : Reg) (m : Word) :
    (s.fetched r m).vals = s.vals ++ [s.readValue r &&& m] := rfl
@[simp] theorem fetched_draws (s : State) (r : Reg) (m : Word) : (s.fetched r m).draws = (s.afterRead r).draws := by
  simp [State.fetched]
@[simp] theorem fetched_hist (s : State) (r : Reg) (m : Word) :
    (s.fetched r m).hist = s.hist ++ [.read .cmd (s.params.off r) (s.readValue r)] := by simp [State.fetched]

/-- A read leaves the stored words (R103). -/
theorem fetched_stored (s : State) (r q : Reg) (m : Word) : (s.fetched r m).stored q = s.stored q := by
  simp [State.stored]

/-- `w` is the word that a read returns, the draws being `ds` before it and `d` after it: the word that fixes the read,
where there is one, and else the first draw (R103, R229). -/
structure ReadAs (fixed : Option Word) (w : Word) (ds d : List Word) : Prop where
  of_fixed : ∀ x, fixed = some x → w = x ∧ d = ds
  of_drawn : fixed = none → Spends [w] ds d

/-- A read's word and draws. -/
theorem readAs (s : State) (r : Reg) : ReadAs (s.fixedRead r) (s.readValue r) s.draws (s.afterRead r).draws where
  of_fixed x hf := by simp [State.readValue, State.afterRead, hf]
  of_drawn hf := by
    obtain ⟨d, f, hafter, hw⟩ := afterDraw_shape s
    rw [readValue_draw hf, State.afterRead, if_neg (by simp [hf]), hafter]
    rintro (_ | ⟨w, ws⟩) r hdraws hl
    · cases hl
    · obtain rfl : ws = [] := by simpa using hl
      obtain ⟨rfl, rfl⟩ := hw w r hdraws
      exact ⟨rfl, rfl⟩

/-- The same state with the words `ws` emitted. -/
def State.answering (s : State) (ws : List Word) : State := { s with emitted := ws }

@[simp] theorem answering_cfg (s : State) (ws : List Word) : (s.answering ws).cfg = s.cfg := rfl
@[simp] theorem answering_regs (s : State) (ws : List Word) : (s.answering ws).regs = s.regs := rfl
@[simp] theorem answering_code (s : State) (ws : List Word) : (s.answering ws).code = s.code := rfl
@[simp] theorem answering_draws (s : State) (ws : List Word) : (s.answering ws).draws = s.draws := rfl
@[simp] theorem answering_hist (s : State) (ws : List Word) : (s.answering ws).hist = s.hist := rfl
@[simp] theorem answering_emitted (s : State) (ws : List Word) : (s.answering ws).emitted = ws := rfl

/-- A storage register's read is fixed by its stored word where the variant reads back (R34, R103). -/
theorem fixedRead_stored {s : State} {r : Reg} {x : Word} (hk : r.kind = .storage) (hb : s.params.storageReadBack = true)
    (hx : s.stored r = some x) : s.fixedRead r = some x := by rw [fixedRead_storage hk, if_pos hb, hx]

/-- Where it was not written, or the variant does not read back, the read is a draw (R103). -/
theorem fixedRead_unstored {s : State} {r : Reg} (hk : r.kind = .storage)
    (h : s.params.storageReadBack = false ∨ s.stored r = none) : s.fixedRead r = none := by
  rw [fixedRead_storage hk]
  rcases h with h | h <;> simp [h]

/-- A read of a register that is no storage register and not INT_CTRL is a draw (R103). -/
theorem fixedRead_other {s : State} {r : Reg} (hs : r.kind ≠ .storage) (hc : r.kind ≠ .command) : s.fixedRead r = none := by
  unfold State.fixedRead
  cases hk : r.kind with
  | storage => exact absurd hk hs
  | command => exact absurd hk hc
  | _ => rfl

/-- INT_CTRL is the one command register (R33). -/
theorem kind_command {r : Reg} (h : r.kind = .command) : r = .intCtrl := by
  cases r with
  | intCtrl => rfl
  | _ => cases h

theorem runAlone_emit_answering {i : Nat} {rest : List Micro} {s : State} :
    runAlone (.emit i :: rest) s = runAlone rest (s.answering (s.emitted ++ [s.vals.getD i 0])) := runAlone_emit

/-- A read and the emit of its word, alone (R171). -/
theorem runAlone_readAndEmit_one {i : Instr} {r : Reg} {s : State} (ha : s.attached = true) :
    runAlone [.read r wholeWord, .emit 0] (startCommand i s) =
      .next (((startCommand i s).fetched r wholeWord).answering [s.readValue r]) := by
  rw [runAlone_read (by exact ha), runAlone_emit_answering, runAlone_nil, fetched_vals, fetched_emitted, and_wholeWord]
  rfl

/-- Settles O31: one read, a draw where the register's word is not fixed. -/
theorem debugRdResult : Obligations.DebugRdResult := by
  unfold Obligations.DebugRdResult
  intro roff data s h hk h4 hlt hint r
  have hc : r.kind ≠ .command := fun hkind => hint (kind_command hkind)
  have hp : ProgramOf (.debugRd roff data) s.params [.read r wholeWord, .emit 0] :=
    programOf_reads (l := [(r, wholeWord)]) fun _ => by simpa using hc
  obtain ⟨t, ht, hans, hregs, hcfg, hdraws, hkept⟩ := words_answer h hk
    (exec_debugRd (goodOffset_iff.mpr ⟨h4, hlt⟩) rfl) hp (by simpa [Instr.seesIrq] using hc) rfl
    (runAlone_readAndEmit_one h.attached) (fetched_hist _ _ wholeWord) rfl (fetched_code _ _ wholeWord) rfl (by simp)
  have hread : ReadAs (s.fixedRead r) (s.readValue r) s.draws t.draws := by
    rw [hdraws, answering_draws, fetched_draws]
    exact readAs (startCommand (.debugRd roff data) s) r
  rw [startCommand_params, off_regAt s.params roff.toNat] at hans
  rw [answering_regs, fetched_regs] at hregs
  rw [answering_cfg, fetched_cfg] at hcfg
  refine ⟨t, s.readValue r, ht, hans, fun x hs hb hx => hread.of_fixed x (fixedRead_stored hs hb hx),
    fun hd => hread.of_drawn ?_, hregs, hcfg, hkept⟩
  by_cases hs : r.kind = .storage
  · exact fixedRead_unstored hs (hd.resolve_left (not_not.mpr hs))
  · exact fixedRead_other hs hc

/-! DEBUG.WR. -/

/-- Settles O33: one write, of a storage register or of the strobe. -/
theorem debugWrStores : Obligations.DebugWrStores := by
  unfold Obligations.DebugWrStores
  intro roff data s h h4 hlt hat
  have hoff := off_regAt s.params roff.toNat
  generalize hr : s.params.regAt roff.toNat = r at hat hoff
  have hg : s.params.goodOffset roff.toNat = true := goodOffset_iff.mpr ⟨h4, hlt⟩
  rcases hat with hs | rfl
  · have hne : r ≠ .tapLoad := by rintro rfl; cases hs
    obtain ⟨t, ht, hans, hregs, hcfg, -, hkept⟩ := program_answers h
      (exec_debugWr (data := data) hg hr (by simp [debugWriteRefusal, hs])) rfl rfl (by simp [Micro.arms, hs])
      (runAlone_write h.attached hs) rfl rfl rfl
    exact ⟨t, ht, hoff ▸ hans, by rw [if_neg hne, hregs, ← hoff]; rfl, hcfg, hkept⟩
  · obtain ⟨t, ht, hans, hregs, hcfg, -, hkept⟩ := program_answers h
      (exec_debugWr (data := data) hg hr rfl) rfl rfl (by simp [Micro.arms, Reg.kind])
      (runAlone_strobe h.attached) rfl rfl rfl
    exact ⟨t, ht, hoff ▸ hans, hregs, hcfg, hkept⟩

end Sys2Proof.Machine
end

section
/-! The tap commands (spec/43_session.md R176 to R180): two reads and the taps unpacked from them, two writes and the strobe,
and what comes back of what was written. -/

namespace Sys2Proof.Machine

/-! TAP_READ. -/

/-- Emits of unpacked taps, alone (R176, R177). -/
theorem runAlone_emitTaps (l : List Nat) (s : State) :
    runAlone (l.map .emitTap) s =
      .next (s.answering (s.emitted ++ l.map (unpackTap (s.vals.getD 0 0) (s.vals.getD 1 0)))) := by
  induction l generalizing s with
  | nil => simp [runAlone_nil, State.answering]
  | cons i l ih =>
    rw [List.map_cons, runAlone_cons (by rintro ⟨_, _, _, _, hp⟩; cases hp) (microOp_emitTap i s), ih]
    simp [State.answering]

/-- The micro-program of TAP_READ (R177). -/
def tapReadProgram (p : Params) (devid : Word) : List Micro :=
  .read (.tap0 devid.toNat) wholeWord :: .read (.tap1 devid.toNat) wholeWord :: (List.range p.ntaps).map .emitTap

theorem exec_tapRead {devid : Word} {s : State} (hcal : s.params.hasTapCal = true)
    (hd : devid.toNat < s.params.tapDevMax) :
    exec (.tapRead devid) s = runCommand (.tapRead devid) (tapReadProgram s.params devid) s :=
  runPlan_of ((if_pos hcal).trans (if_neg (by simpa [badDevice] using hd))) rfl

/-- TAP_READ reads the two words in turn and answers with the taps unpacked from them (R176, R177). -/
theorem tapRead_answer {devid : Word} {s : State} (h : CanRun s) (hk : s.takesResult = true) (hn : s.params.ntaps ≤ 10)
    (hcal : s.params.hasTapCal = true) (hd : devid.toNat < s.params.tapDevMax) :
    ∃ t w0 w1 d, exec (.tapRead devid) s = .next t ∧
      Answers (.tapRead devid)
        [.read .cmd (s.params.off (.tap0 devid.toNat)) w0, .read .cmd (s.params.off (.tap1 devid.toNat)) w1] .ok
        ((List.range s.params.ntaps).map (unpackTap w0 w1)) s t ∧
      ReadAs (s.fixedRead (.tap0 devid.toNat)) w0 s.draws d ∧
      ReadAs (s.fixedRead (.tap1 devid.toNat)) w1 d t.draws ∧
      t.regs = s.regs ∧ t.cfg = s.cfg ∧ (s.sched = [] → s.ilock = .free → OthersKept s t) := by
  generalize hu : (startCommand (.tapRead devid) s).fetched (.tap0 devid.toNat) wholeWord = u
  have hau : u.attached = true := hu ▸ (fetched_attached _ _ _).trans h.attached
  have hfixed : u.fixedRead (.tap1 devid.toNat) = s.fixedRead (.tap1 devid.toNat) := by
    rw [fixedRead_storage rfl, fixedRead_storage rfl, ← hu, fetched_stored, fetched_params]
    rfl
  have hvals : (u.fetched (.tap1 devid.toNat) wholeWord).vals =
      [s.readValue (.tap0 devid.toNat), u.readValue (.tap1 devid.toNat)] := by
    rw [fetched_vals, ← hu, fetched_vals, and_wholeWord, and_wholeWord]
    rfl
  have hnone : (u.fetched (.tap1 devid.toNat) wholeWord).emitted = [] := by
    rw [fetched_emitted, ← hu, fetched_emitted, startCommand_emitted]
  have hrun : runAlone (tapReadProgram s.params devid) (startCommand (.tapRead devid) s) =
      .next ((u.fetched (.tap1 devid.toNat) wholeWord).answering ((List.range s.params.ntaps).map
        (unpackTap (s.readValue (.tap0 devid.toNat)) (u.readValue (.tap1 devid.toNat))))) := by
    rw [tapReadProgram, runAlone_read (by exact h.attached), hu, runAlone_read hau, runAlone_emitTaps, hvals, hnone]
    rfl
  have hhist : (u.fetched (.tap1 devid.toNat) wholeWord).hist = (startCommand (.tapRead devid) s).hist ++
      [.read .cmd (s.params.off (.tap0 devid.toNat)) (s.readValue (.tap0 devid.toNat)),
        .read .cmd (s.params.off (.tap1 devid.toNat)) (u.readValue (.tap1 devid.toNat))] := by
    rw [fetched_hist, ← hu, fetched_hist, fetched_params, List.append_assoc]
    rfl
  obtain ⟨t, ht, hans, hregs, hcfg, hdraws, hkept⟩ := words_answer h hk (exec_tapRead hcal hd) programOf_taps rfl rfl
    hrun hhist rfl (by simp [← hu]) rfl (by simp; omega)
  refine ⟨t, _, _, u.draws, ht, hans, ?_, ?_, by simp [hregs, ← hu], by simp [hcfg, ← hu], hkept⟩
  · rw [← hu, fetched_draws]
    exact readAs (startCommand (.tapRead devid) s) (.tap0 devid.toNat)
  · rw [hdraws, answering_draws, fetched_draws, ← hfixed]
    exact readAs u _

/-- A tap unpacked, as a number (R176). -/
theorem unpackTap_eq (w0 w1 : Word) (i : Nat) :
    unpackTap w0 w1 i =
      BitVec.ofNat 32 ((if i < 8 then w0.toNat >>> (4 * i) else w1.toNat >>> (4 * (i - 8))) % 16) := by
  have hnibble : ∀ (w : Word) (k : Nat), (w >>> (4 * k)) &&& 0xF = BitVec.ofNat 32 (w.toNat >>> (4 * k) % 16) :=
    fun w k => and_lowMask (w >>> (4 * k)) 4
  unfold unpackTap
  split <;> exact hnibble _ _

/-- The number of taps of a valid configuration (R7). -/
theorem valid_ntaps {p : Params} (h : p.valid = true) : p.ntaps ≤ 10 := by
  simp only [Params.valid, Bool.and_eq_true, decide_eq_true_eq] at h
  tauto

/-- Settles O37: two reads, each fixed or a draw. -/
theorem tapReadResult : Obligations.TapReadResult := by
  unfold Obligations.TapReadResult
  intro devid s h hk hv hcal hd p
  obtain ⟨t, w0, w1, d, ht, hans, hread0, hread1, hkept⟩ := tapRead_answer h hk (valid_ntaps hv) hcal hd
  simp only [funext (unpackTap_eq w0 w1)] at hans
  refine ⟨t, w0, w1, ht, hans, fun x hb h0 => (hread0.of_fixed x (fixedRead_stored rfl hb h0)).1,
    fun x hb h1 => (hread1.of_fixed x (fixedRead_stored rfl hb h1)).1, fun hdrawn => ?_, fun x hb h0 h1 => ?_,
    fun x hb h0 h1 => ?_, fun x y hb h0 h1 => ?_, hkept⟩
  · exact (hread0.of_drawn (fixedRead_unstored rfl (hdrawn.imp_right And.left))).append
      (hread1.of_drawn (fixedRead_unstored rfl (hdrawn.imp_right And.right)))
  · obtain ⟨-, hsame⟩ := hread1.of_fixed x (fixedRead_stored rfl hb h1)
    rw [Drawn, hsame]
    exact hread0.of_drawn (fixedRead_unstored rfl (.inr h0))
  · obtain ⟨-, rfl⟩ := hread0.of_fixed x (fixedRead_stored rfl hb h0)
    exact hread1.of_drawn (fixedRead_unstored rfl (.inr h1))
  · rw [(hread1.of_fixed y (fixedRead_stored rfl hb h1)).2, (hread0.of_fixed x (fixedRead_stored rfl hb h0)).2]

/-! TAP_WRITE. -/

/-- Taps that are 4-bit values, as far as they are used, pass validation (R178). -/
theorem badTaps_of_lt {p : Params} {taps : List Word} (h : ∀ i, i < p.ntaps → (taps.getD i 0).toNat < 16) :
    badTaps p taps = false := by
  rw [badTaps, List.any_eq_false]
  intro x hx
  obtain ⟨i, hi, rfl⟩ := List.mem_take_iff_getElem.mp hx
  have hlt := h i (by omega)
  rw [List.getD_eq_getElem _ _ (by omega)] at hlt
  simpa using hlt

/-- What TAP_WRITE stores: the device's two packed words (R178). -/
def tapWrites (p : Params) (devid : Word) (taps : List Word) : List (Reg × Word) :=
  [(.tap0 devid.toNat, pack0 p taps), (.tap1 devid.toNat, pack1 p taps)]

/-- The strobe of TAP_WRITE between its two delays (R178). -/
def strobeProgram (devid : Word) : List Micro :=
  [.delay .settleBefore, .write .tapLoad ((1 : Word) <<< devid.toNat), .write .tapLoad 0, .delay .settleAfter]

/-- The events of that strobe. -/
def strobeEvents (p : Params) (devid : Word) : List Event :=
  [.delay .settleBefore, .write .cmd (p.off .tapLoad) ((1 : Word) <<< devid.toNat), .write .cmd (p.off .tapLoad) 0,
    .delay .settleAfter]

/-- The strobe alone records its events and changes nothing else. -/
theorem runAlone_strobeProgram {devid : Word} {s : State} (ha : s.attached = true) :
    runAlone (strobeProgram devid) s = .next { s with hist := s.hist ++ strobeEvents s.params devid } := by
  rw [strobeProgram, runAlone_delay, runAlone_strobe (by exact ha), runAlone_strobe (by exact ha), runAlone_delay,
    runAlone_nil]
  simp [State.log, strobeEvents]

theorem exec_tapWrite {devid : Word} {taps : List Word} {s : State} (hcal : s.params.hasTapCal = true)
    (hd : devid.toNat < s.params.tapDevMax) (ht : ∀ i, i < s.params.ntaps → (taps.getD i 0).toNat < 16) :
    exec (.tapWrite devid taps) s = runCommand (.tapWrite devid taps)
      ((tapWrites s.params devid taps).map (fun x => .write x.1 x.2) ++ strobeProgram devid) s :=
  runPlan_of ((if_pos hcal).trans (if_neg (by simpa [badDevice, badTaps_of_lt ht] using hd))) rfl

/-- Settles O38: the two words stored, and the strobe. -/
theorem tapWriteResult : Obligations.TapWriteResult := by
  unfold Obligations.TapWriteResult
  intro devid taps s h hcal hd htaps p w
  have hrun := runAlone_writes (l := tapWrites s.params devid taps) (rest := strobeProgram devid)
    (s := startCommand (.tapWrite devid taps) s) h.attached (by simp [tapWrites, Reg.kind])
  rw [runAlone_strobeProgram (by exact h.attached)] at hrun
  obtain ⟨t, ht, hans, hregs, hcfg, -, hkept⟩ := program_answers h (exec_tapWrite hcal hd htaps) rfl rfl
    (by simp [tapWrites, strobeProgram, Micro.arms, Reg.kind]) hrun (List.append_assoc _ _ _) rfl rfl
  exact ⟨t, ht, hans, hcfg, hregs, hkept⟩

/-! The round trip. -/

/-- The tap registers of a device that the variant has (R33). -/
theorem tap_mem {p : Params} (hcal : p.hasTapCal = true) {d : Nat} (hd : d < p.tapDevMax) :
    Reg.tap0 d ∈ p.registers ∧ Reg.tap1 d ∈ p.registers := by simp [Params.registers, hcal, hd]

/-- What TAP_WRITE leaves in the device's two registers (R178). -/
theorem stored_tapWrites {p : Params} {devid : Word} {taps : List Word} {t : State} {m : Memory}
    (hv : t.params.valid = true) (hcal : t.params.hasTapCal = true) (hd : devid.toNat < t.params.tapDevMax)
    (hr : t.regs = Memory.storeRegs m t.params (tapWrites p devid taps)) :
    t.stored (.tap0 devid.toNat) = some (pack0 p taps) ∧ t.stored (.tap1 devid.toNat) = some (pack1 p taps) := by
  obtain ⟨h0, h1⟩ := tap_mem hcal hd
  have hr : t.regs = Memory.storeWord (Memory.storeWord m (t.params.off (.tap0 devid.toNat)) (pack0 p taps))
      (t.params.off (.tap1 devid.toNat)) (pack1 p taps) := hr
  unfold State.stored
  rw [hr, loadWord_storeWord_outside _ (valid_apart hv h0 h1 nofun ⟨nofun, nofun⟩), loadWord_storeWord,
    loadWord_storeWord]
  exact ⟨rfl, rfl⟩

/-- The taps unpacked from the words that hold them are the taps in use (R176, R180). -/
theorem unpackTap_taps {p : Params} {taps : List Word} (hn : p.ntaps ≤ 10) (hlen : taps.length = 10)
    (h : ∀ i, i < p.ntaps → (taps.getD i 0).toNat < 16) :
    (List.range p.ntaps).map (unpackTap (pack0 p taps) (pack1 p taps)) = taps.take p.ntaps := by
  refine List.ext_getElem (by simp [hlen, hn]) fun i h1 h2 => ?_
  have hi : i < p.ntaps := by simpa using h1
  rw [List.getElem_map, List.getElem_range, unpackTap_pack hn h (by omega), if_pos hi, List.getElem_take,
    List.getD_eq_getElem _ _ (by omega)]

/-- Settles O39: the words read are those that TAP_WRITE packed. -/
theorem tapRoundTrip : Obligations.TapRoundTrip := by
  unfold Obligations.TapRoundTrip
  intro devid taps s h hv hcal hb hd hlen htaps
  obtain ⟨t, ht, hans, -, hregs, -⟩ := tapWriteResult devid taps s h hcal hd htaps
  refine ⟨t, ht, fun u hu hk hp h0 h1 => ?_⟩
  rw [← hans.params] at hv hcal hb hd hregs htaps ⊢
  obtain ⟨g0, g1⟩ := stored_tapWrites hv hcal hd hregs
  have hn := valid_ntaps hv
  rw [← hp] at hb hcal hd hn htaps ⊢
  obtain ⟨x, w0, w1, d, hx, hansx, hread0, hread1, -⟩ := tapRead_answer hu hk hn hcal hd
  obtain ⟨rfl, -⟩ := hread0.of_fixed _ (fixedRead_stored rfl hb (h0.trans g0))
  obtain ⟨rfl, -⟩ := hread1.of_fixed _ (fixedRead_stored rfl hb (h1.trans g1))
  have hout := hansx.portOut
  rw [← hp, List.length_map, List.length_range, unpackTap_taps hn hlen htaps] at hout
  exact ⟨x, hx, hout⟩

end Sys2Proof.Machine
end

section
/-! COMPLETION_COUNT with nothing else scheduled (spec/43_session.md R179): the counter read under ILOCK. -/

namespace Sys2Proof.Machine

/-- Where COMPLETION_COUNT has read the counter and released ILOCK, alone. -/
def State.counted (s : State) : State :=
  { (startCommand .completionCount s).answering [s.icount] with ilock := .free }

theorem runAlone_completionCount (s : State) :
    runAlone [.acquireI, .emitCount, .releaseI] (startCommand .completionCount s) = .next s.counted := rfl

/-- Settles O40: with nothing scheduled the command runs as its program alone. -/
theorem completionCountResult : Obligations.CompletionCountResult := by
  unfold Obligations.CompletionCountResult
  intro s h hk hs hl
  obtain ⟨hx, -, -⟩ := runCommand_quiet hs hl rfl (runAlone_completionCount s)
  have hstart := Follows.start (k := true) .completionCount h fun _ => hk
  have hfree : s.counted.ilock = s.ilock := hl.symm
  have hfollows : Follows true false s.counted s.counted :=
    { hstart with
      params := rfl, attached := rfl, lineReg := rfl, bufAlloc := rfl, cfg := rfl, vals := rfl, emitted := rfl,
      code := rfl, spins := rfl, regs := rfl, portOut := rfl, draws := rfl, freeIx := rfl, trace := rfl
      lockIrq := by rw [hfree]; exact hstart.lockIrq
      lockCmd := by rw [hfree]; exact hstart.lockCmd }
  have hans := hfollows.answers (txns := []) (runAlone_same (runAlone_completionCount s)) (List.append_nil _).symm rfl
    rfl rfl (by simp [State.counted])
  have hkept : OthersKept s s.counted := ⟨rfl, rfl, rfl, hfree, rfl, rfl, rfl⟩
  exact ⟨_, hx, hans, rfl, rfl, hkept.sendResult _ _⟩

end Sys2Proof.Machine
end

section
/-! The interrupt handler (spec/60_exceptions.md R213 to R218, R228): when it enters, its five steps one by one, and what
a completion latches. -/

namespace Sys2Proof.Machine

/-! Entry. -/

/-- IRQ may enter the handler exactly when attached with the line registered and signaled and ILOCK free (R213). -/
theorem irqEnabled_idle_iff {s : State} (hp : s.irqPhase = .idle) :
    irqEnabled s = true ↔
      s.attached = true ∧ s.lineReg = true ∧ s.intEn = true ∧ s.intPend = true ∧ s.ilock = .free := by
  simp [irqEnabled, hp, State.line, and_assoc]

/-- Without a signaled line the handler stays out (R213). -/
theorem irqStep_unsignaled {s : State} (hp : s.irqPhase = .idle) (h : s.intEn = false ∨ s.intPend = false) :
    irqStep s = .next s := by
  refine if_neg fun he => ?_
  obtain ⟨-, -, hen, hpend, -⟩ := (irqEnabled_idle_iff hp).mp he
  rcases h with h | h
  · exact absurd (hen.symm.trans h) nofun
  · exact absurd (hpend.symm.trans h) nofun

/-- Settles O44: while the handler rests, its entry is the one step IRQ may have. -/
theorem handlerEnabled : Obligations.HandlerEnabled := by
  unfold Obligations.HandlerEnabled
  refine fun s => ⟨fun hp ha => ?_, fun hp hl => irqStep_locked hl hp, irqStep_unsignaled⟩
  rw [irqEnabled_idle_iff hp, and_iff_right ha]

/-! The five steps (R214). -/

/-- Step 1: the entry. -/
theorem irqStep_idle {s : State} (he : irqEnabled s = true) (hp : s.irqPhase = .idle) :
    irqStep s = .next (enterHandler s) := by
  rw [irqStep, if_pos he, hp]

/-- Step 2: INT_CLEAR, where it is a command of its own (R41). -/
theorem irqStep_entered {s : State} (ha : s.attached = true) (hl : s.ilock = .irq) (hp : s.irqPhase = .entered)
    (hce : s.params.intClear ≠ s.params.intEnable) (hcd : s.params.intClear ≠ s.params.intDisable) :
    irqStep s = .next { s with
      intPend := false
      irqPhase := .cleared
      hist := s.hist ++ [.write .irq (s.params.off .intCtrl) s.params.intClear] } := by
  rw [irqStep, if_pos (irqEnabled_of ha hl (by simp [hp])), hp]
  dsimp only
  rw [regWrite_intCtrl_eq .irq _ ha, intCtrlWrite, if_neg (by exact hce), if_neg (by exact hcd), if_pos (by rfl)]
  rfl

/-- Step 3: the increment. -/
theorem irqStep_cleared {s : State} (ha : s.attached = true) (hl : s.ilock = .irq) (hp : s.irqPhase = .cleared) :
    irqStep s = .next { s with icount := countNext s.params s.icount, irqPhase := .counted } := by
  rw [irqStep, if_pos (irqEnabled_of ha hl (by simp [hp])), hp]

/-- Step 4: INT_DISABLE, where it is a command of its own (R41). -/
theorem irqStep_counted {s : State} (ha : s.attached = true) (hl : s.ilock = .irq) (hp : s.irqPhase = .counted)
    (hde : s.params.intDisable ≠ s.params.intEnable) :
    irqStep s = .next { s with
      intEn := false
      irqPhase := .disabled
      hist := s.hist ++ [.write .irq (s.params.off .intCtrl) s.params.intDisable] } := by
  rw [irqStep, if_pos (irqEnabled_of ha hl (by simp [hp])), hp]
  dsimp only
  rw [regWrite_intCtrl_eq .irq _ ha, intCtrlWrite, if_neg (by exact hde), if_pos (by rfl)]
  rfl

/-- Step 5: the return, which gives ILOCK back. -/
theorem irqStep_exit {s : State} (ha : s.attached = true) (hl : s.ilock = .irq) (hp : s.irqPhase = .disabled) :
    irqStep s = .next (leaveHandler s) := by
  rw [irqStep, if_pos (irqEnabled_of ha hl (by simp [hp])), hp]

/-- Settles O45: the five steps in turn; the return leaves the enable clear, which keeps the handler out. -/
theorem handlerRun : Obligations.HandlerRun := by
  unfold Obligations.HandlerRun
  intro s ha hline hp hl hen hpend hce hcd hde p n h1 h2 h4 s1 s2 s3 s4 s5
  have he : irqEnabled s = true := (irqEnabled_idle_iff hp).mpr ⟨ha, hline, hen, hpend, hl⟩
  exact ⟨irqStep_idle he hp, irqStep_entered (s := s1) ha rfl rfl hce hcd, irqStep_cleared (s := s2) ha rfl rfl,
    irqStep_counted (s := s3) ha rfl rfl hde, irqStep_exit (s := s4) ha rfl rfl,
    irqStep_unsignaled (s := s5) rfl (.inl rfl)⟩

/-! Completions. -/

/-- Settles O46: a second completion finds the pending bit set. -/
theorem completionLatches : Obligations.CompletionLatches := by
  unfold Obligations.CompletionLatches
  intro s ha
  refine ⟨devComplete_attached ha, ?_⟩
  rw [devComplete_attached ha, devComplete_attached (by exact ha), List.append_assoc]
  rfl

end Sys2Proof.Machine
end

section
/-! Commands turned away (spec/60_exceptions.md R201, R205): the header that spells no command, the bits of a result
header (spec/30_encoding.md R89, R90), and the operands that each command's validation rejects. -/

namespace Sys2Proof.Machine

/-- What stands at the port behind a header that spells no command (R92, R95). -/
theorem fetch_illegal {s : State} {h : Word} {rest : List (Option Word)} {why : DecodeError}
    (hp : s.port = some h :: rest) (hd : decodeHeader s.params.hasMaxMin s.params.hasTapCal h = .error why) :
    s.fetch = .illegal why h rest := by
  rw [State.fetch, hp]
  simp only [decodeFrame, hd]

/-- Settles O7: the header alone is the frame, and CMD's turn turns it away. -/
theorem illegalHeaderAnswered : Obligations.IllegalHeaderAnswered := by
  unfold Obligations.IllegalHeaderAnswered
  intro s h rest why hm hp hd
  have hf := fetch_illegal hp hd
  refine frameTurnedAway hm (by rw [hf]; rfl) (by simp) fun l => ?_
  rw [cmdTurn, takeCommand_of_fetch (s := { s with sched := l }) hm, show State.fetch { s with sched := l } = _ from hf]

/-! The result header (R89, R90). -/

/-- The count stands above the low half of the header. -/
theorem countBits_low (n : BitVec 16) {lo len : Nat} (h : lo + len ≤ 16) :
    (n.zeroExtend 32 <<< 16).extractLsb' lo len = 0 := by
  ext i hi
  have hlow : lo + i < 16 := by omega
  simp [hlow]

theorem countBits_high (n : BitVec 16) : (n.zeroExtend 32 <<< 16).extractLsb' 16 16 = n := by
  ext i hi
  simp [show 16 + i < 32 by omega, BitVec.getLsbD_eq_getElem hi]

/-- A code stands in the low byte (R90). -/
theorem codeValue_high (c : Code) : c.value.extractLsb' 8 8 = 0 ∧ c.value.extractLsb' 16 16 = 0 := by
  cases c <;> decide

/-- The fields of a result header: the code's byte, zeros, and the count. -/
theorem resultHeader_fields (c : Code) (n : BitVec 16) :
    (resultHeader c n).extractLsb' 0 8 = c.value.extractLsb' 0 8 ∧ (resultHeader c n).extractLsb' 8 8 = 0 ∧
      (resultHeader c n).extractLsb' 16 16 = n := by
  obtain ⟨hmid, hhigh⟩ := codeValue_high c
  unfold resultHeader
  rw [BitVec.extractLsb'_or, BitVec.extractLsb'_or, BitVec.extractLsb'_or, countBits_low n (by decide),
    countBits_low n (by decide), countBits_high, hmid, hhigh]
  exact ⟨BitVec.or_zero, BitVec.or_zero, BitVec.zero_or⟩

/-! The validation of each command. -/

/-- A transfer past the end of the buffer (R143). -/
theorem overCapacity_iff {p : Params} {offset count : Word} :
    overCapacity p offset count = true ↔ p.bufLen < offset.toNat + count.toNat * p.sampleWidth := by
  simp [overCapacity, transferBytes]

/-- A value that is none of the two of TRIGGER_PPS (R153). -/
theorem ppsValid_iff {value : Word} : ppsValid value = true ↔ value = 1 ∨ value = 2 := by simp [ppsValid]

theorem badDevice_iff {p : Params} {devid : Word} : badDevice p devid = true ↔ p.tapDevMax ≤ devid.toNat := by
  simp [badDevice]

/-- A tap in use that is no 4-bit value (R178). -/
theorem badTaps_of_tap {p : Params} {taps : List Word} {k : Nat} {t : Word} (hk : k < p.ntaps) (ht : taps[k]? = some t)
    (h16 : 16 ≤ t.toNat) : badTaps p taps = true := by
  have hmem : t ∈ taps.take p.ntaps := List.mem_of_getElem? (i := k) (by rw [List.getElem?_take_of_lt hk, ht])
  exact List.any_eq_true.mpr ⟨t, hmem, by simpa using h16⟩

/-- Counts for both directions (R122). -/
theorem batchInvalid_mixed {p : Params} {nw nr : Word} {entries : List Entry} (hw : nw ≠ 0) (hr : nr ≠ 0) :
    batchInvalid p nw nr entries = true := by
  have hmixed : batchMixed nw nr = true := by
    rw [batchMixed, Bool.and_eq_true, bne_iff_ne, bne_iff_ne]
    exact ⟨hw, hr⟩
  simp [batchInvalid, hmixed]

/-- What holds of one of the two counts holds of the batch's, where they are not mixed (R122). -/
theorem batchCount_or_mixed {nw nr : Word} {k : Nat} (h : k < nw.toNat ∨ k < nr.toNat) :
    (nw ≠ 0 ∧ nr ≠ 0) ∨ k < batchCount nw nr := by
  unfold batchCount
  by_cases hw : nw = 0
  · rw [if_neg (not_not.mpr hw)]
    exact .inr (h.resolve_left (by simp [hw]))
  · rw [if_pos hw]
    by_cases hr : nr = 0
    · exact .inr (h.resolve_right (by simp [hr]))
    · exact .inl ⟨hw, hr⟩

/-- More entries than a batch may have (R122). -/
theorem batchInvalid_count {p : Params} {nw nr : Word} {entries : List Entry} (h : 16 < nw.toNat ∨ 16 < nr.toNat) :
    batchInvalid p nw nr entries = true := by
  rcases batchCount_or_mixed h with ⟨hw, hr⟩ | hc
  · exact batchInvalid_mixed hw hr
  · simp [batchInvalid, show batchMax < batchCount nw nr from hc]

/-- A used entry out of range (R123). -/
theorem batchInvalid_entry {p : Params} {nw nr : Word} {entries : List Entry} {k : Nat} {e : Entry}
    (hk : k < nw.toNat ∨ k < nr.toNat) (he : entries[k]? = some e)
    (hbad : 2 ^ p.devW ≤ e.dev.toNat ∨ 2 ^ p.addrW ≤ e.addr.toNat ∨ 2 ^ p.dataW ≤ e.data.toNat) :
    batchInvalid p nw nr entries = true := by
  rcases batchCount_or_mixed hk with ⟨hw, hr⟩ | hc
  · exact batchInvalid_mixed hw hr
  · have hmem : e ∈ usedEntries nw nr entries :=
      List.mem_of_getElem? (i := k) (by rw [usedEntries, List.getElem?_take_of_lt hc, he])
    have hany : (usedEntries nw nr entries).any (entryBad p) = true :=
      List.any_eq_true.mpr ⟨e, hmem, by simpa [entryBad, or_assoc] using hbad⟩
    simp [batchInvalid, hany]

/-- SEQ_BUS of a batch that fails validation is turned away. -/
theorem exec_seqBus_invalid {nw nr : Word} {entries : List Entry} {s : State}
    (h : batchInvalid s.params nw nr entries = true) :
    exec (.seqBus nw nr entries) s = .next (awaiting 0x00000006 .einval s) :=
  runPlan_of (if_pos h) rfl

/-- Settles O11: each command's plan is the code alone, by the check that fails. -/
theorem commandsTurnedAway : Obligations.CommandsTurnedAway := by
  unfold Obligations.CommandsTurnedAway
  refine ⟨fun c n => ?_, fun header code s hc ha hq => answeredNext ha hq hc, ?_⟩
  · obtain ⟨hcode, hzeros, hcount⟩ := resultHeader_fields c n
    exact ⟨hcode.trans (by cases c <;> rfl), hzeros, hcount⟩
  intro s p
  refine ⟨fun irq peak cfgbits offset count delay h => runPlan_of (if_pos (overCapacity_iff.mpr h)) rfl,
    fun cfgbits offset count h => runPlan_of (if_pos (overCapacity_iff.mpr h)) rfl,
    fun size h => runPlan_of (if_pos h) rfl,
    fun value h1 h2 => runPlan_of (if_neg fun hv => (ppsValid_iff.mp hv).elim h1 h2) rfl,
    fun nw nr entries hw hr => exec_seqBus_invalid (batchInvalid_mixed hw hr),
    fun nw nr entries h => exec_seqBus_invalid (batchInvalid_count h),
    fun nw nr entries k e hk he hbad => exec_seqBus_invalid (batchInvalid_entry hk he hbad),
    fun len h => runPlan_of (if_pos h) rfl,
    fun h => runPlan_of (if_neg (by simpa using h)) rfl,
    fun devid => ⟨fun h => runPlan_of (if_neg (by simpa using h)) rfl,
      fun h hd => runPlan_of ((if_pos h).trans (if_pos (badDevice_iff.mpr hd))) rfl⟩,
    fun devid taps => ⟨fun h => runPlan_of (if_neg (by simpa using h)) rfl, fun h hbad => ?_⟩⟩
  have hinvalid : (badDevice s.params devid || badTaps s.params taps) = true := by
    rcases hbad with hd | ⟨k, t, hk, ht, h16⟩
    · rw [badDevice_iff.mpr hd, Bool.true_or]
    · rw [badTaps_of_tap hk ht h16, Bool.or_true]
  exact runPlan_of ((if_pos h).trans (if_pos hinvalid)) rfl

end Sys2Proof.Machine
end

section
/-! The count of handler runs (spec/60_exceptions.md R214 to R218): every step of an attached machine keeps it, and
COMPLETION_COUNT reads it with the handler at rest, whatever the schedule is. -/

namespace Sys2Proof.Machine

/-! Steps. -/

/-- The schedule and the port are no part of the count. -/
theorem CountsRuns.withSched {base : Nat} {s : State} (h : CountsRuns base s) (l : List Turn) :
    CountsRuns base { s with sched := l } := ⟨h.count, h.entries⟩

theorem CountsRuns.withPort {base : Nat} {s : State} (h : CountsRuns base s) (port : List (Option Word)) :
    CountsRuns base { s with port := port } := ⟨h.count, h.entries⟩

/-- CMD's turn between commands counts handler runs: a command's run does, and the rest of its steps record no entry and
no exit. -/
theorem cmdTurn_counts {base : Nat} {s t : State} (hl : s.lockRests) (hw : s.params.icountW ≤ 32)
    (hc : CountsRuns base s) (h : cmdTurn s = .next t) : CountsRuns base t := by
  rcases takeCommand_cases h with ⟨-, rfl⟩ | ⟨-, header, code, port, -, rfl⟩ | ⟨-, port, rfl⟩ | ⟨hm, i, port, -, hx⟩
  · exact (sendResult_kept (O := []) (w := false) _ _ s).runs base hw hc
  · exact (startAway_kept (O := []) (w := false) _ _ _).runs base hw (hc.withPort port)
  · exact hc.withPort port
  · exact (exec_kept (s := { s with port := port }) (mayAccept_iff.mp hm).1 hl hx).1.runs base hw (hc.withPort port)

/-- An event of HOST while attached counts handler runs, a DETACH too. -/
theorem hostStep_counts {base : Nat} {e : HostEvent} {s t : State} (ha : s.attached = true) (hw : s.params.icountW ≤ 32)
    (hc : CountsRuns base s) (h : hostStep e s = .next t) : CountsRuns base t := by
  by_cases he : e = .detach
  · subst he
    simp only [hostStep, ha, if_true, detachStep] at h
    split at h
    · cases h
      exact hc.same rfl rfl rfl (by simp [handlerRuns]) (by simp [handlerEntries])
    · cases h
  · exact (hostStep_others ha (.inl he) h).runs base hw hc

/-- Settles O59: a step is one agent's turn, and each turn keeps the count. -/
theorem handlerRunsCounted : Obligations.HandlerRunsCounted := by
  unfold Obligations.HandlerRunsCounted
  intro base s t hi ha hc h
  have hw := valid_icountW hi.params
  rcases step_turns hi.seq h with rfl | hx | hx | ⟨l, hx | hx | rfl | ⟨e, hx⟩⟩
  · exact hc
  · exact cmdTurn_counts hi.lock hw hc hx
  · exact (irqStep_others hx).runs base hw hc
  · exact cmdTurn_counts (s := { s with sched := l }) hi.lock hw (hc.withSched l) hx
  · exact (irqStep_others hx).runs base hw (hc.withSched l)
  · exact (devComplete_others _).runs base hw (hc.withSched l)
  · exact hostStep_counts (s := { s with sched := l }) ha hw (hc.withSched l) hx

/-! COMPLETION_COUNT under any calm schedule (R179). -/

/-- A command that follows its program alone is under way. -/
theorem Follows.under {k b : Bool} {c u : State} (h : Follows k b c u) : Under b u :=
  ⟨h.isAttached, h.busy, h.lockIrq, h.lockCmd⟩

/-- Where COMPLETION_COUNT has taken ILOCK, alone. -/
def State.counting (s : State) : State := { startCommand .completionCount s with ilock := .cmd }

/-- Where it has then read `w` and released ILOCK, alone. -/
def State.countedAs (s : State) (w : Word) : State := { s.counting.answering [w] with ilock := .free }

theorem opAlone_acquireI_counting (s : State) :
    opAlone .acquireI (startCommand .completionCount s) = .next (s.counting, true) := rfl

theorem runAlone_releaseI_countedAs (s : State) (w : Word) :
    runAlone [.releaseI] (s.counting.answering [w]) = .next (s.countedAs w) := rfl

theorem countedAs_same (s : State) (w : Word) : SameSession (startCommand .completionCount s) (s.countedAs w) :=
  ⟨rfl, rfl, rfl, rfl, rfl, rfl, rfl, rfl, rfl, rfl, rfl⟩

/-- The moment `m` of COMPLETION_COUNT's read: CMD holds ILOCK, the counter still counts handler runs, and the command
goes on with the count of that moment. -/
theorem completionCount_read {s : State} (h : CanRun s) (hk : s.takesResult = true) :
    ∃ m, Follows true true s.counting m ∧ Kept [] false s m ∧
      exec .completionCount s = runOps [.releaseI] (m.answering (m.emitted ++ [m.icount])).advance := by
  have hstart := (Follows.start (k := true) .completionCount h fun _ => hk).withTodo [.acquireI, .emitCount, .releaseI]
  obtain ⟨u, hu, fu⟩ := hstart.runOp rfl rfl rfl (opAlone_acquireI_counting s)
  obtain ⟨ku, -⟩ := runOp_kept (O := []) (w := false) hstart.under rfl ⟨nofun, nofun⟩ rfl hu
  obtain ⟨m, hm, fm, ho, -, -⟩ := (fu.withTodo [.emitCount, .releaseI]).toCmd rfl rfl
  have hread : runOp .emitCount (u.withTodo [.emitCount, .releaseI]) =
      .next ((m.answering (m.emitted ++ [m.icount])).advance, true) := by
    rw [runOp_atomic (by rintro ⟨_, _, _, _, hp⟩; cases hp), hm]
    rfl
  have hkept : Kept [] false s u := (startCommand_kept _ s).trans ((withTodo_kept _ _).trans ku)
  refine ⟨m, fm, hkept.trans ((withTodo_kept u _).trans ho.kept), ?_⟩
  calc exec .completionCount s
      = runOps [.acquireI, .emitCount, .releaseI] (startCommand .completionCount s) := rfl
    _ = runOps [.emitCount, .releaseI] u := by rw [runOps, hu]; rfl
    _ = _ := by rw [runOps, hread]; rfl

/-- Where CMD holds ILOCK the counter is the count of the handler runs that are over, and none is under way (R215). -/
theorem CountsRuns.underLock {base : Nat} {s : State} (hc : CountsRuns base s) (hu : Under true s) :
    s.icount.toNat = (base + handlerRuns s.hist) % 2 ^ s.params.icountW ∧
      handlerEntries s.hist = handlerRuns s.hist := by
  obtain ⟨hcount, hentries⟩ := hc
  rw [hu.idle.2] at hcount hentries
  exact ⟨hcount, hentries⟩

/-- Settles O41: CMD holds ILOCK at the read, and the command's end keeps the count. -/
theorem completionCountConsistent : Obligations.CompletionCountConsistent := by
  unfold Obligations.CompletionCountConsistent
  intro base s h hk hw hc
  obtain ⟨m, fm, km, hx⟩ := completionCount_read h hk
  have fread : Follows true true (s.counting.answering [m.icount])
      (m.answering (m.emitted ++ [m.icount])).advance := (fm.emit m.icount).advance
  obtain ⟨v, hv, fv⟩ := fread.runOps rfl rfl (runAlone_releaseI_countedAs s m.icount)
  obtain ⟨kt, -⟩ := runOps_kept (O := []) (w := false) fread.under
    (by simp [Micro.within, Micro.storesAt, Micro.setsCfg]) rfl hv
  have hans := fv.answers (txns := []) (words := [m.icount]) (countedAs_same s m.icount) (List.append_nil _).symm rfl
    rfl rfl (by simp)
  have hcm : CountsRuns base m := km.runs base hw hc
  obtain ⟨hcount, hentries⟩ := hcm.underLock fm.under
  obtain ⟨pre, hpre⟩ := km.hist
  obtain ⟨post, hpost⟩ := kt.hist
  rw [km.params, ← hpre] at hcount
  rw [← hpre] at hentries
  exact ⟨_, m.icount, pre, post, hx.trans hv, hans, by rw [hpre]; exact hpost.symm, fv.regs, fv.cfg, hcount, hentries,
    kt.runs base (km.params.symm ▸ hw) ⟨hcm.count, hcm.entries⟩⟩

end Sys2Proof.Machine
end

section
/-! The session (spec/70_reset_and_hazards.md R240 to R245): OPEN, CLOSE and DETACH, and an ATTACH by its single steps with
completions of DEV between them. -/

namespace Sys2Proof.Machine

/-! OPEN, CLOSE and DETACH while attached. -/

theorem hostStep_openSession {s : State} (ha : s.attached = true) : hostStep .openSession s = .next (openStep s) := by
  simp [hostStep, ha]

theorem hostStep_closeSession {s : State} (ha : s.attached = true) :
    hostStep .closeSession s = .next ({ s with isOpen := false }.log .closed) := by
  simp [hostStep, ha]

theorem hostStep_detach {s : State} (ha : s.attached = true) : hostStep .detach s = detachStep s := if_pos ha

theorem openStep_closed {s : State} (ho : s.isOpen = false) :
    openStep s = { s with isOpen := true }.log (.opened true) := if_neg (by simp [ho])

theorem openStep_opened {s : State} (ho : s.isOpen = true) : openStep s = s.log (.opened false) := if_pos ho

/-- Settles O51: OPEN by whether the session is open already, and CLOSE. -/
theorem openAndClose : Obligations.OpenAndClose := by
  unfold Obligations.OpenAndClose
  intro s ha
  rw [hostStep_openSession ha, hostStep_closeSession ha]
  exact ⟨fun ho => congrArg _ (openStep_closed ho), fun ho => congrArg _ (openStep_opened ho), rfl⟩

/-- Settles O52: DETACH by whether the sequencer and the handler are both idle. -/
theorem detach : Obligations.Detach := by
  unfold Obligations.Detach
  intro s ha
  rw [hostStep_detach ha]
  exact ⟨fun hq hp => if_pos ⟨hq, hp⟩, fun hn => if_neg fun ⟨hq, hp⟩ => hn.elim (· hq) (· hp)⟩

/-! An ATTACH that finds no buffer. -/

/-- Settles O49: the attach ends where its allocation fails, with its event alone. -/
theorem attachFails : Obligations.AttachFails := by
  unfold Obligations.AttachFails
  intro p s ha hv
  have hstart : attachStart p false s = .next (s.log (.attach .enomem), []) := by simp [attachStart, hv]
  rw [show hostStep (.attach p false) s = attachStep p false s from if_neg (by simp [ha])]
  unfold attachStep
  rw [hstart]
  rfl

/-! The state an ATTACH leaves. -/

/-- What the HOST steps of an attach leave, one after another (`hostStep_attach`). -/
def attachedState (p : Params) (s : State) : State :=
  attachProgram.foldl (fun t b => bootState b t) (attachBegin p s)

/-- Of the register space an attach writes MODE_CONFIG alone (R242). -/
theorem attachedState_regs (p : Params) (s : State) :
    (attachedState p s).regs = Memory.storeWord [] (p.off .modeConfig) 0 := rfl

theorem attachedState_hist (p : Params) (s : State) :
    (attachedState p s).hist = [.write .host (p.off .modeConfig) 0, .write .host (p.off .intCtrl) p.intDisable,
      .write .host (p.off .intCtrl) p.intClear, .attach .ok] := rfl

theorem attachedState_stored_modeConfig (p : Params) (s : State) :
    (attachedState p s).stored .modeConfig = some 0 := loadWord_storeWord _ _ _

/-- A storage register other than MODE_CONFIG is unwritten after an attach (R56). -/
theorem attachedState_stored_other {p : Params} {r : Reg} (s : State) (hv : p.valid = true) (hr : r ∈ p.registers)
    (hk : r.kind = .storage) (hne : r ≠ .modeConfig) : (attachedState p s).stored r = none := by
  calc (attachedState p s).stored r
      = Memory.loadWord (Memory.storeWord [] (p.off .modeConfig) 0) (p.off r) := rfl
    _ = Memory.loadWord [] (p.off r) := loadWord_storeWord_outside _ (apart_of_register hv hr hk hne).symm
    _ = none := rfl

/-- The count of handler runs begins at 0 with the session (R56, R218). -/
theorem attachedState_counts (p : Params) (s : State) : CountsRuns 0 (attachedState p s) where
  count := (Nat.zero_mod _).symm
  entries := rfl

/-! Completions between the single steps of an ATTACH. -/

theorem completed_completed (m n : Nat) (s : State) : (s.completed m).completed n = s.completed (m + n) := by
  simp [State.completed, Bool.or_assoc]

theorem completed_zero (s : State) : s.completed 0 = s := by simp [State.completed]

/-- Completions before the core's own fields are set are as those after it (R242). -/
theorem bootState_initialise_completed (n : Nat) (s : State) :
    bootState .initialise (s.completed n) = (bootState .initialise s).completed n := rfl

/-- Completions before the line is registered are as those after it (R228; log 35). -/
theorem bootState_registerLine_completed (n : Nat) (s : State) :
    bootState .registerLine (s.completed n) = (bootState .registerLine s).completed n := rfl

/-- HOST steps of an attach, each with the number of turns of DEV that follow it, as single steps. -/
def bootMoves (steps : List (BootOp × Nat)) : List Move :=
  steps.flatMap fun x => .boot :: List.replicate x.2 (.agent .dev)

/-- What they leave (`atomicRun_bootMoves`). -/
def bootStates (steps : List (BootOp × Nat)) (s : State) : State :=
  steps.foldl (fun t x => (bootState x.1 t).completed x.2) s

theorem atomicRun_bootMoves {p : Params} (hv : p.valid = true) (steps : List (BootOp × Nat)) {s : State}
    (ha : s.attached = true) (hp : s.params = p) :
    atomicRun (bootMoves steps) ⟨s, steps.map Prod.fst⟩ = .next ⟨bootStates steps s, []⟩ := by
  induction steps generalizing s with
  | nil => rfl
  | cons x steps ih =>
    calc atomicRun (bootMoves (x :: steps)) ⟨s, (x :: steps).map Prod.fst⟩
        = atomicRun (bootMoves steps) ⟨(bootState x.1 s).completed x.2, steps.map Prod.fst⟩ :=
          atomicRun_bootThen x.2 ha hp hv
      _ = .next ⟨bootStates (x :: steps) s, []⟩ := ih (by simpa using ha) (by simpa using hp)

/-- The steps of R240 and R242 with the turns of DEV that follow each but the last. -/
def attachSteps (n1 n2 n3 n4 n5 : Nat) : List (BootOp × Nat) :=
  [(.writeMode, n1), (.writeDisable, n2), (.writeClear, n3), (.initialise, n4), (.registerLine, n5), (.publish, 0)]

/-- An attach by single steps: it begins, and takes its steps with completions before, between and after. -/
theorem atomicRun_attach {p : Params} {s : State} (ha : s.attached = false) (hv : p.valid = true) (n : Nat)
    {steps : List (BootOp × Nat)} (hs : steps.map Prod.fst = attachProgram) :
    atomicRun (.agent (.host (.attach p true)) :: (List.replicate n (.agent .dev) ++ bootMoves steps)) ⟨s, []⟩
      = .next ⟨bootStates steps ((attachBegin p s).completed n), []⟩ := by
  have hbegin : atomicStep (.agent (.host (.attach p true))) ⟨s, []⟩ = .next ⟨attachBegin p s, attachProgram⟩ := by
    simp [atomicStep, agentMove, hostMove, attachStart, ha, hv, andThen]
  refine atomicRun_cons hbegin (atomicRun_trans (atomicRun_completions n _ rfl) ?_)
  rw [← hs]
  exact atomicRun_bootMoves hv steps rfl rfl

/-- The completions of an attach show in the history, and those after the write of INT_CLEAR in the pending bit (R56,
R228): that write clears it, and no later step looks at it. -/
theorem bootStates_attachSteps (p : Params) (s : State) (n0 n1 n2 n3 n4 n5 : Nat) :
    bootStates (attachSteps n1 n2 n3 n4 n5) ((attachBegin p s).completed n0) =
      { attachedState p s with
        intPend := decide (0 < n3 + n4 + n5)
        hist := List.replicate n0 .complete ++ .write .host (p.off .modeConfig) 0 :: List.replicate n1 .complete
          ++ .write .host (p.off .intCtrl) p.intDisable :: List.replicate n2 .complete
          ++ .write .host (p.off .intCtrl) p.intClear :: List.replicate (n3 + n4 + n5) .complete
          ++ [.attach .ok] } := by
  have hlast : ∀ t : State, bootStates [(.initialise, n4), (.registerLine, n5), (.publish, 0)] (t.completed n3)
      = bootState .publish ((bootState .registerLine (bootState .initialise t)).completed (n3 + n4 + n5)) := fun t => by
    simp only [bootStates, List.foldl, bootState_initialise_completed, bootState_registerLine_completed,
      completed_completed, completed_zero]
  calc bootStates (attachSteps n1 n2 n3 n4 n5) ((attachBegin p s).completed n0)
      = bootStates [(.initialise, n4), (.registerLine, n5), (.publish, 0)] ((bootState .writeClear ((bootState .writeDisable
          ((bootState .writeMode ((attachBegin p s).completed n0)).completed n1)).completed n2)).completed n3) := rfl
    _ = _ := hlast _
    _ = _ := by simp [State.completed, bootState, State.log, attachBegin, attachedState, attachProgram]

/-- Settles O48: the attach is the run of its program, by single steps with the completions between them. -/
theorem attachInitialises : Obligations.AttachInitialises := by
  unfold Obligations.AttachInitialises
  intro p s ha hv
  refine ⟨attachedState p s, hostStep_attach hv ha, rfl, rfl, rfl, rfl, rfl, rfl, rfl, rfl, rfl, rfl, rfl, rfl, rfl,
    attachedState_stored_modeConfig p s, fun r hr hk hne => attachedState_stored_other s hv hr hk hne,
    attachedState_hist p s, attachedState_counts p s, fun n0 n1 n2 n3 n4 n5 => ?_⟩
  have hrun := atomicRun_attach ha hv n0 (steps := attachSteps n1 n2 n3 n4 n5) rfl
  rw [bootStates_attachSteps] at hrun
  simpa [bootMoves, attachSteps] using hrun

end Sys2Proof.Machine
end
